-- ==== Sys2Proof/Word.lean ====
section
/-! DEFINITION. The block's value types: bytes, binary32 patterns, complex samples, IqFrames, the decoded-frame record.
Rules: 00 R14, 10 R22, 20 R64, 30 R101. -/

namespace Sys2Proof

/-- A byte, 8 bits (R14). -/
abbrev Byte := BitVec 8

/-- The 32-bit pattern of one sample component, read as IEEE 754 binary32 (R14). -/
abbrev F32 := BitVec 32

/-- The unsigned 64-bit epoch of a frame (R22). -/
abbrev Epoch := BitVec 64

/-- Samples per IqFrame and capacity of the packetizer's window (R8 `FRAME_LEN`). -/
abbrev frameLen : Nat := 1024

/-- A complex sample: a pair of binary32 patterns (R14 `c32`). -/
structure C32 where
  re : F32
  im : F32
deriving DecidableEq, Repr, Inhabited

/-- The zero sample `(+0.0, +0.0)`: silence, zero padding, the start of a sum (R64). -/
abbrev C32.zero : C32 := ⟨0, 0⟩

/-- An IqFrame (R22). That `samples` has exactly `frameLen` elements is `IqFrame.wf`. -/
structure IqFrame where
  epoch : Epoch
  samples : List C32
deriving DecidableEq, Repr

/-- A frame holds exactly 1024 samples (R22). -/
abbrev IqFrame.wf (f : IqFrame) : Prop := f.samples.length = frameLen

/-- An annotation key: a string, as the sequence of its bytes (R101, R114). DESIGN CHOICE (log 23). -/
abbrev Key := List Byte

/-- A value of the annotation map (R101, R114). The spec keeps code rates and annotation values opaque (D37), and DEC only
copies them; `raw` carries such a value as bytes, `bit` one of the two flags DEC adds. DESIGN CHOICE (log 23). -/
inductive AnnVal
  | raw (bytes : List Byte)
  | bit (b : Bool)
deriving DecidableEq, Repr

/-- A finite map from keys to annotation values, as a list of its pairs with no key twice (R101). -/
abbrev AnnMap := List (Key × AnnVal)

/-- The decoded-frame record, the operand of DEC.DECODE (R31, R101). -/
structure DecodedFrame where
  /-- each element carries one nibble in its bits 3 to 0 (R103) -/
  nibbles : List Byte
  implicitHeader : Bool
  hasCrc : Bool
  codeRate : AnnVal
  annotations : AnnMap
deriving DecidableEq, Repr

/-- `DELIM`, the frame delimiter (R94). -/
abbrev delim : Byte := 0xC0
/-- `ESC`, the escape byte (R94). -/
abbrev esc : Byte := 0xDB
/-- `ESC_DELIM`, the substitute for the delimiter (R94). -/
abbrev escDelim : Byte := 0xDC
/-- `ESC_ESC`, the substitute for the escape byte (R94). -/
abbrev escEsc : Byte := 0xDD

/-- `CMD_DATA` (R95). -/
abbrev codeData : Byte := 0x00
/-- `CMD_DETECT` (R95). -/
abbrev codeDetect : Byte := 0x08
/-- `CMD_READY` (R95). -/
abbrev codeReady : Byte := 0x0F
/-- `CMD_RSSI` (R95). -/
abbrev codeRssi : Byte := 0x23
/-- `CMD_SNR` (R95). -/
abbrev codeSnr : Byte := 0x24

end Sys2Proof
end

