-- ==== Sys2Proof/Config.lean ====
section
/-! DEFINITION. What an implementation fixes (the construction parameters of 00 R8) and the free values of the spec
(opaque constants without a body: nothing can be proved of their values). -/

namespace Sys2Proof

/-- `CRC_SPAN`: which bytes the CRC-16 covers (R8, R207). -/
inductive CrcSpan
  | allData
  | allButLastTwo
deriving DecidableEq, Repr

/-- `FP`: which record of binary32 operations the block uses (R8, R14). `binary32` is the spec's default; `replaced` stands
for any other record, whose four functions are the opaque constants `Config.customAdd` and so on (log 8). -/
inductive FpKind
  | binary32
  | replaced
deriving DecidableEq, Repr

/-- The two wirings: through the combiner (R3), or the non-simulated path with each packetizer's channel received by its
node's depacketizer and no combiner (R4). -/
inductive Wiring
  | combined
  | direct
deriving DecidableEq, Repr

/-- The construction parameters (R8). Their legal values are R282, checked by `Machine.construct`. The last three say which
units are built: the document lets a unit be used alone, its channels then being external ports (R42; log 21). -/
structure Params where
  nNodes : Nat
  /-- `DIST[s][r]`: row `s` is the sender, column `r` the receiver (R29) -/
  dist : List (List F32)
  sigma : List F32
  seed : List (BitVec 64)
  w : List Byte
  wLen : Nat
  readyCrcErr : Byte
  crcSpan : CrcSpan
  keyCr : Key
  keyHasCrc : Key
  keyImplHdr : Key
  fp : FpKind
  wiring : Wiring
  hasPkt : Bool
  hasDpk : Bool
  hasCmb : Bool
deriving DecidableEq, Repr

namespace Config

/-- FREE VALUE (log 9): sign and non-zero fraction (less one) of a NaN that a binary32 operation computes. The spec leaves
the bits of a computed NaN open (R312.5, U39). The arguments only tell one computed NaN from another: the state's counter,
the contributing entry, the sample index, the operation. -/
opaque freeNaN : Nat → Nat → Nat → Nat → Bool × Fin 8388607

/-- FREE VALUE (log 10): a draw of `NOISE` for a finite standard deviation other than zero, as the sign, exponent field and
fraction of a finite binary32 value (R157 law 3). -/
opaque noiseDraw : BitVec 64 → F32 → Nat → Bool × Fin 255 × BitVec 23

/-- FREE VALUE (log 10): the sign of the zero that `NOISE` gives for standard deviation zero (R157 law 2). -/
opaque noiseZeroSign : BitVec 64 → F32 → Nat → Bool

/-- FREE VALUE (log 10): `NOISE` for a standard deviation that construction refuses (R162); no state built by construction
reads it. -/
opaque noiseIllegal : BitVec 64 → F32 → Nat → F32

/-- FREE VALUE (log 11): `COEFF_G` outside its domain, the finite values >= 0 (R175, R282); no state built by construction
reads it. -/
opaque coeffIllegal : F32 → F32

/-- FREE VALUE (log 8): `+f` of a replaced `FP` record (R8, R14). -/
opaque customAdd : F32 → F32 → F32
/-- FREE VALUE (log 8): `−f` of a replaced `FP` record (R8, R14). -/
opaque customSub : F32 → F32 → F32
/-- FREE VALUE (log 8): `×f` of a replaced `FP` record (R8, R14). -/
opaque customMul : F32 → F32 → F32
/-- FREE VALUE (log 8): `COEFF_G` of a replaced `FP` record (R175). -/
opaque customCoeff : F32 → F32

/-- One step of the shift register that makes the usual LoRa whitening table (93 G2). -/
def whitenNext (v : Byte) : Byte :=
  (v <<< 1) ||| ((((v >>> 7) ^^^ (v >>> 5)) ^^^ ((v >>> 4) ^^^ (v >>> 3))) &&& 1)

/-- The first `k` values of the usual LoRa whitening table from the value `v` on (93 G2). -/
def whitenTable : Nat → Byte → List Byte
  | 0, _ => []
  | k + 1, v => v :: whitenTable k (whitenNext v)

/-- The parameters of `State.reset`. The document leaves every one of them open but `FP` and `CRC_SPAN`, which have defaults
(R8, R9); the values here are the model's: DESIGN CHOICE (log 1, 2, 4, 5, 6, 21) and, for the whitening table, PRESUMED
(log 3). No statement rests on them. -/
def resetParams : Params where
  nNodes := 2
  dist := [[0x3DCCCCCD, 0x41C80000], [0x41C80000, 0x3DCCCCCD]]
  sigma := [0, 0]
  seed := [0, 0]
  w := whitenTable 255 0xFF
  wLen := 255
  readyCrcErr := 0x01
  crcSpan := .allData
  keyCr := [0x63, 0x72]
  keyHasCrc := [0x68, 0x61, 0x73, 0x5F, 0x63, 0x72, 0x63]
  keyImplHdr := [0x69, 0x6D, 0x70, 0x6C, 0x69, 0x63, 0x69, 0x74, 0x5F, 0x68, 0x65, 0x61, 0x64, 0x65, 0x72]
  fp := .binary32
  wiring := .combined
  hasPkt := true
  hasDpk := true
  hasCmb := true

end Config

end Sys2Proof
end

