-- ==== Sys2Proof/Machine/Float.lean ====
section
/-! DEFINITION. Binary32 arithmetic (49 R311, R312), the propagation coefficient (43 R175) and the noise function (42 R157).
A finite pattern stands for a whole number of units of 2^-149; every operation computes its exact result and rounds once. -/

namespace Sys2Proof

/-! ## Reading a pattern (93 G1) -/

/-- Sign bit 31. -/
def F32.sign (x : F32) : Bool := x.getLsbD 31

/-- Bits 30 to 0: exponent and fraction together. -/
def F32.mag (x : F32) : Nat := x.toNat % 2 ^ 31

/-- The magnitude pattern of infinity. -/
abbrev F32.infMag : Nat := 0x7F800000

/-- Exponent bits all 1 and fraction not 0. -/
def F32.isNaN (x : F32) : Bool := decide (F32.infMag < F32.mag x)

/-- Exponent bits all 1 and fraction 0. -/
def F32.isInf (x : F32) : Bool := decide (F32.mag x = F32.infMag)

/-- Neither a NaN nor an infinity. -/
def F32.isFinite (x : F32) : Bool := decide (F32.mag x < F32.infMag)

/-- +0.0 or −0.0. -/
def F32.isZero (x : F32) : Bool := decide (F32.mag x = 0)

/-- A finite value >= 0, which −0.0 is (R162, R282; log 29). -/
def F32.isNonneg (x : F32) : Bool := F32.isFinite x && (!F32.sign x || F32.isZero x)

/-- The pattern with a sign and a magnitude below 2^31. -/
def F32.pack (neg : Bool) (m : Nat) : F32 := BitVec.ofNat 32 ((if neg then 2 ^ 31 else 0) + m)

/-- Infinity of a sign. -/
def F32.inf (neg : Bool) : F32 := F32.pack neg F32.infMag

/-- Zero of a sign. -/
def F32.zero (neg : Bool) : F32 := F32.pack neg 0

/-- The significand of a finite pattern: the fraction, with its leading 1 when the value is normal. -/
def F32.significand (x : F32) : Nat :=
  if F32.mag x < 2 ^ 23 then F32.mag x else 2 ^ 23 + F32.mag x % 2 ^ 23

/-- How far the significand stands above the units of 2^-149. -/
def F32.scale (x : F32) : Nat := F32.mag x / 2 ^ 23 - 1

/-- The magnitude of a finite pattern in units of 2^-149. -/
def F32.absVal (x : F32) : Nat := F32.significand x * 2 ^ F32.scale x

/-- The value of a finite pattern in units of 2^-149. -/
def F32.val (x : F32) : Int := if F32.sign x then -(F32.absVal x : Int) else (F32.absVal x : Int)

/-! ## Rounding (R312.1, R312.3) -/

/-- `num / den` to the nearest whole number, ties to even. -/
def roundNearest (num den : Nat) : Nat :=
  let q := num / den
  let r := num % den
  if 2 * r < den then q
  else if den < 2 * r then q + 1
  else if q % 2 = 0 then q else q + 1

/-- The magnitude pattern nearest to `num / den` units of 2^-149, ties to even. `k` is how many bits the result's unit stands
above 2^-149; a significand rounded up to 2^24 carries into the exponent; from the infinity pattern on, the result is
infinity. -/
def roundMag (num den : Nat) : Nat :=
  let k := Nat.log2 (num / den) - 23
  min (k * 2 ^ 23 + roundNearest num (den * 2 ^ k)) F32.infMag

/-- A computed NaN: its sign and fraction are free (R312.5, U39; log 9). -/
def F32.nanOf (free : Bool × Fin 8388607) : F32 := F32.pack free.1 (F32.infMag + 1 + free.2.val)

/-- Round an exact sum, given in units of 2^-149. A sum of zero is −0.0 only when both addends are negative zeros
(R312.6). -/
def F32.ofSum (bothNeg : Bool) (v : Int) : F32 :=
  if v = 0 then F32.zero bothNeg
  else F32.pack (decide (v < 0)) (roundMag v.natAbs 1)

/-- `+f` of the default record (R312). -/
def F32.add (free : Bool × Fin 8388607) (a b : F32) : F32 :=
  if F32.isNaN a || F32.isNaN b then F32.nanOf free
  else if F32.isInf a then
    if F32.isInf b && (F32.sign a != F32.sign b) then F32.nanOf free else a
  else if F32.isInf b then b
  else F32.ofSum (F32.sign a && F32.sign b) (F32.val a + F32.val b)

/-- The pattern with the other sign. -/
def F32.neg (a : F32) : F32 := F32.pack (!F32.sign a) (F32.mag a)

/-- `−f` of the default record (R312): the sum with the second operand's sign changed. -/
def F32.sub (free : Bool × Fin 8388607) (a b : F32) : F32 := F32.add free a (F32.neg b)

/-- `×f` of the default record (R312). The product of two magnitudes in units of 2^-149 is in units of 2^-298. -/
def F32.mul (free : Bool × Fin 8388607) (a b : F32) : F32 :=
  if F32.isNaN a || F32.isNaN b then F32.nanOf free
  else if F32.isInf a || F32.isInf b then
    if F32.isZero a || F32.isZero b then F32.nanOf free else F32.inf (F32.sign a != F32.sign b)
  else F32.pack (F32.sign a != F32.sign b) (roundMag (F32.absVal a * F32.absVal b) (2 ^ 149))

/-! ## The coefficient (R175) -/

/-- One bit of the square root, from the highest: set it if the square stays within `n`. -/
def isqrtBits (n : Nat) : Nat → Nat → Nat
  | 0, acc => acc
  | k + 1, acc => isqrtBits n k (if (acc + 2 ^ k) * (acc + 2 ^ k) ≤ n then acc + 2 ^ k else acc)

/-- The whole square root of `n`, for `n < 4 ^ bits`. -/
def isqrt (bits n : Nat) : Nat := isqrtBits n bits 0

/-- `COEFF_G(d)` of the default record: the binary32 value nearest to `(d + 1)^(−3) / sqrt(2)` for the exact value of `d`
(R175). With `D` the value of `d` in units of 2^-149 and `X = D + 2^149`, the square of the result in units of 2^-149 is
`2^1191 / X^6`; its root is irrational, so the root of `2^1703 / X^6`, which has 256 bits below the unit, with one more bit
set below it, rounds as the exact value does. -/
def F32.coeffG (d : F32) : F32 :=
  let x := F32.absVal d + 2 ^ 149
  F32.pack false (roundMag (2 * isqrt 412 (2 ^ 1703 / x ^ 6) + 1) (2 ^ 257))

/-! ## The record FP and the function NOISE -/

/-- `+f` (R14, R311). -/
def fpAdd (fp : FpKind) (free : Bool × Fin 8388607) (a b : F32) : F32 :=
  match fp with
  | .binary32 => F32.add free a b
  | .replaced => Config.customAdd a b

/-- `−f` (R14, R311). -/
def fpSub (fp : FpKind) (free : Bool × Fin 8388607) (a b : F32) : F32 :=
  match fp with
  | .binary32 => F32.sub free a b
  | .replaced => Config.customSub a b

/-- `×f` (R14, R311). -/
def fpMul (fp : FpKind) (free : Bool × Fin 8388607) (a b : F32) : F32 :=
  match fp with
  | .binary32 => F32.mul free a b
  | .replaced => Config.customMul a b

/-- `COEFF_G` (R175). Outside the finite values >= 0 the spec gives it no value (log 11). -/
def fpCoeff (fp : FpKind) (d : F32) : F32 :=
  match fp with
  | .binary32 => if F32.isNonneg d then F32.coeffG d else Config.coeffIllegal d
  | .replaced => Config.customCoeff d

/-- `NOISE(seed, sigma, j)` (R157): a zero of either sign for `sigma` zero (law 2), a finite value for another finite `sigma`
(law 3), and nothing else is known of it. -/
def noise (seed : BitVec 64) (sigma : F32) (j : Nat) : F32 :=
  if F32.isZero sigma then F32.zero (Config.noiseZeroSign seed sigma j)
  else if F32.isFinite sigma then
    F32.pack (Config.noiseDraw seed sigma j).1
      ((Config.noiseDraw seed sigma j).2.1.val * 2 ^ 23 + (Config.noiseDraw seed sigma j).2.2.toNat)
  else Config.noiseIllegal seed sigma j

end Sys2Proof
end

