-- ==== Sys2Proof/Syntax.lean ====
section
/-! DEFINITION. The instructions: one constructor per row of spec/opcode_table.json, in the table's order (30 R95 to R97, R91,
R109), and the formats their bits stand in (30 R90, R112). -/

namespace Sys2Proof

/-- The formats in which a row's bits are read (R90, R112). The formats share bit patterns (`0xDB` is a row of both escape
tables), so what a byte string means depends on the format it stands in. -/
inductive Format
  /-- host frame (R93) -/
  | hf
  /-- one input byte of the escape encoder (R96) -/
  | escEnc
  /-- the next input bytes of the escape decoder (R97) -/
  | escDec
  /-- IqFrame wire shape (R91) -/
  | iq
  /-- operation of a unit, by its selector (R109) -/
  | op
deriving DecidableEq, Repr

/-- Why the decoder refuses a byte string. -/
inductive Reject
  /-- the bytes end before the instruction does -/
  | truncated
  /-- bytes are left over after the instruction -/
  | trailingBytes
  /-- a reserved `OPSEL` value (R109, U24) -/
  | reservedSelector
  /-- a host frame without its opening or closing delimiter (R93) -/
  | notDelimited
  /-- a reserved command code (R98) -/
  | reservedCommandCode
  /-- a number with a group of bits too many (log 12) -/
  | longNumber
  /-- a bit operand that is neither 0 nor 1 (log 12) -/
  | badBit
  /-- an operand nibble that is 16 or more (R203; log 12) -/
  | badNibble
  /-- an annotation value with an unknown tag (log 12) -/
  | badTag
  /-- an annotation map with a key twice (R101; log 12) -/
  | duplicateKey
deriving DecidableEq, Repr

/-- The instructions, one per row of spec/opcode_table.json. -/
inductive Instr
  /-- CMD.DATA, code 00 (R234) -/
  | cmdData (payload : List Byte)
  /-- CMD.DETECT, code 08 (R238) -/
  | cmdDetect (payload : List Byte)
  /-- CMD.READY, code 0F (R235) -/
  | cmdReady (payload : List Byte)
  /-- CMD.RSSI, code 23 (R237) -/
  | cmdRssi (payload : List Byte)
  /-- CMD.SNR, code 24 (R236) -/
  | cmdSnr (payload : List Byte)
  /-- ESC.DELIM: the encoder on `C0` (R96) -/
  | escDelim
  /-- ESC.ESC: the encoder on `DB` (R96) -/
  | escEsc
  /-- ESC.LIT: the encoder on any other byte (R96) -/
  | escLit (b : Byte)
  /-- DESC.DELIM: the decoder on `DB DC` (R97) -/
  | descDelim
  /-- DESC.ESC: the decoder on `DB DD` (R97) -/
  | descEsc
  /-- DESC.OTHER: the decoder on `DB b`, `b` any other byte (R97) -/
  | descOther (b : Byte)
  /-- DESC.TRUNC: the decoder on `DB` as the last byte (R97) -/
  | descTrunc
  /-- DESC.LIT: the decoder on any byte other than `DB` (R97) -/
  | descLit (b : Byte)
  /-- IQFRAME: the wire shape of a frame (R91, R92) -/
  | iqFrame (f : IqFrame)
  /-- PKT.PUSH (R121) -/
  | pktPush (n : Nat) (x : C32)
  /-- PKT.EOS (R123) -/
  | pktEos (n : Nat)
  /-- PKT.WORK (R124) -/
  | pktWork (n : Nat) (xs : List C32) (eos : Bool)
  /-- DPK.WORK (R141) -/
  | dpkWork (n : Nat) (m : Nat)
  /-- DPK.PULL (R142) -/
  | dpkPull (n : Nat)
  /-- NSE.STEP (R156) -/
  | nseStep (n : Nat) (x : C32)
  /-- NSE.EOS (R159) -/
  | nseEos (n : Nat)
  /-- NSE.WORK (R158) -/
  | nseWork (n : Nat) (xs : List C32) (cap : Nat)
  /-- CMB.RECV (R171) -/
  | cmbRecv
  /-- CMB.CHECK (R173) -/
  | cmbCheck
  /-- CMB.COMBINE (R174) -/
  | cmbCombine (e : Epoch)
  /-- DEC.DECODE (R201) -/
  | decDecode (n : Nat) (r : DecodedFrame)
  /-- DEC.DEWHITEN (R203) -/
  | decDewhiten (lo hi : BitVec 4) (i : Nat)
  /-- DEC.CRC16 (R206) -/
  | decCrc16 (data : List Byte)
  /-- HFP.ESCAPE (R231) -/
  | hfpEscape (data : List Byte)
  /-- HFP.DESCAPE (R232) -/
  | hfpDescape (data : List Byte)
  /-- HFP.CREATE_CMD (R233) -/
  | hfpCreateCmd (code : Byte) (payload : List Byte)
deriving DecidableEq, Repr

/-- The format in which an instruction's bits stand (R90, R112). -/
def Instr.format : Instr → Format
  | .cmdData _ => .hf
  | .cmdDetect _ => .hf
  | .cmdReady _ => .hf
  | .cmdRssi _ => .hf
  | .cmdSnr _ => .hf
  | .escDelim => .escEnc
  | .escEsc => .escEnc
  | .escLit _ => .escEnc
  | .descDelim => .escDec
  | .descEsc => .escDec
  | .descOther _ => .escDec
  | .descTrunc => .escDec
  | .descLit _ => .escDec
  | .iqFrame _ => .iq
  | .pktPush _ _ => .op
  | .pktEos _ => .op
  | .pktWork _ _ _ => .op
  | .dpkWork _ _ => .op
  | .dpkPull _ => .op
  | .nseStep _ _ => .op
  | .nseEos _ => .op
  | .nseWork _ _ _ => .op
  | .cmbRecv => .op
  | .cmbCheck => .op
  | .cmbCombine _ => .op
  | .decDecode _ _ => .op
  | .decDewhiten _ _ _ => .op
  | .decCrc16 _ => .op
  | .hfpEscape _ => .op
  | .hfpDescape _ => .op
  | .hfpCreateCmd _ _ => .op

end Sys2Proof
end

