-- ==== Sys2Proof/WellFormed.lean ====
section
/-! DEFINITION. Which instructions have an encoding: the forms of 30 R91, R93, R96, R97, R101. Numbers and sequences of any size
have one (log 12), so an operation can be invoked with any operands (00 R12). -/

namespace Sys2Proof

/-- A payload between the code and the closing delimiter holds no raw delimiter (R93, R100). -/
def noDelim (bs : List Byte) : Bool := bs.all (fun b => b != delim)

/-- No key of the map stands twice (R101 "finite map"). -/
def AnnMap.distinct (m : AnnMap) : Bool := decide (m.map Prod.fst).Nodup

/-- The instruction has an encoding. -/
def Instr.wellFormed : Instr → Bool
  | .cmdData p => noDelim p
  | .cmdDetect p => noDelim p
  | .cmdReady p => noDelim p
  | .cmdRssi p => noDelim p
  | .cmdSnr p => noDelim p
  | .escDelim => true
  | .escEsc => true
  | .escLit b => b != delim && b != esc
  | .descDelim => true
  | .descEsc => true
  | .descOther b => b != Sys2Proof.escDelim && b != Sys2Proof.escEsc
  | .descTrunc => true
  | .descLit b => b != esc
  | .iqFrame f => decide f.wf
  | .pktPush _ _ => true
  | .pktEos _ => true
  | .pktWork _ _ _ => true
  | .dpkWork _ _ => true
  | .dpkPull _ => true
  | .nseStep _ _ => true
  | .nseEos _ => true
  | .nseWork _ _ _ => true
  | .cmbRecv => true
  | .cmbCheck => true
  | .cmbCombine _ => true
  | .decDecode _ r => AnnMap.distinct r.annotations
  | .decDewhiten _ _ _ => true
  | .decCrc16 _ => true
  | .hfpEscape _ => true
  | .hfpDescape _ => true
  | .hfpCreateCmd _ _ => true

end Sys2Proof
end

