-- ==== Sys2Proof/Decode.lean ====
section
/-! DEFINITION. The decoder, total on any bytes and rejecting by name, the encoder, and the layout of a table word.
Formats HF, ESC and IQ are 30 R91 to R97; a selector byte opens format OP (R109) and the operand bytes after it are the
model's own (log 12): an instance, a count, a capacity or an index is a natural number of any size, in groups of 7 bits; an
epoch is 8 bytes and a sample 4 + 4 bytes, little-endian as in R92; a sequence is its length and its elements; a bit is the
byte 0 or 1. -/

namespace Sys2Proof

/-! ## Little-endian numbers -/

/-- The `k` low bytes of `n`, the lowest first (R92). -/
def leBytes : Nat → Nat → List Byte
  | 0, _ => []
  | k + 1, n => BitVec.ofNat 8 n :: leBytes k (n / 256)

/-- The number whose bytes, the lowest first, are the given ones (R92). -/
def leNat : List Byte → Nat
  | [] => 0
  | b :: bs => b.toNat + 256 * leNat bs

/-- A sample in the wire shape: real part, then imaginary part (R91). -/
def sampleBytes (x : C32) : List Byte :=
  leBytes 4 x.re.toNat ++ leBytes 4 x.im.toNat

/-- Samples in the wire shape, in index order (R91). -/
def samplesBytes : List C32 → List Byte
  | [] => []
  | x :: xs => sampleBytes x ++ samplesBytes xs

/-- `k` samples from their bytes (R91); the caller has checked that there are `8 * k` bytes. -/
def samplesOf : Nat → List Byte → List C32
  | 0, _ => []
  | k + 1, bs =>
    ⟨BitVec.ofNat 32 (leNat (bs.take 4)), BitVec.ofNat 32 (leNat ((bs.drop 4).take 4))⟩ :: samplesOf k (bs.drop 8)

/-- The IqFrame wire shape: 8 bytes of epoch, then 1024 samples (R91, R92). -/
def frameBytes (f : IqFrame) : List Byte :=
  leBytes 8 f.epoch.toNat ++ samplesBytes f.samples

/-- Read a frame from its wire shape: exactly 8200 bytes (R91). -/
def frameOf (bs : List Byte) : Except Reject IqFrame :=
  if bs.length < 8200 then .error .truncated
  else if 8200 < bs.length then .error .trailingBytes
  else .ok ⟨BitVec.ofNat 64 (leNat (bs.take 8)), samplesOf frameLen (bs.drop 8)⟩

/-! ## Operand fields of format OP -/

/-- Split off the first `k` bytes. -/
def takeBytes (k : Nat) (bs : List Byte) : Except Reject (List Byte × List Byte) :=
  if bs.length < k then .error .truncated else .ok (bs.take k, bs.drop k)

/-- A natural number of any size: groups of 7 bits, the lowest first, bit 7 set in every byte but the last (log 12). A last
group of zero after another group is refused, so a number has one spelling. -/
def readNat : List Byte → Except Reject (Nat × List Byte)
  | [] => .error .truncated
  | b :: bs =>
    if b.toNat < 128 then .ok (b.toNat, bs)
    else do
      let (v, bs) ← readNat bs
      if v = 0 then .error .longNumber else .ok (b.toNat - 128 + 128 * v, bs)

/-- An epoch: 8 bytes (R22). -/
def readEpoch (bs : List Byte) : Except Reject (Epoch × List Byte) := do
  let (v, bs) ← takeBytes 8 bs
  return (BitVec.ofNat 64 (leNat v), bs)

/-- One byte. -/
def readByte : List Byte → Except Reject (Byte × List Byte)
  | [] => .error .truncated
  | b :: bs => .ok (b, bs)

/-- A bit: the byte 0 or 1. -/
def readBit (bs : List Byte) : Except Reject (Bool × List Byte) := do
  let (b, bs) ← readByte bs
  if b = 0 then return (false, bs)
  else if b = 1 then return (true, bs)
  else .error .badBit

/-- A nibble operand: a byte below 16. -/
def readNibble (bs : List Byte) : Except Reject (BitVec 4 × List Byte) := do
  let (b, bs) ← readByte bs
  if b.toNat < 16 then return (BitVec.ofNat 4 b.toNat, bs) else .error .badNibble

/-- A sample. -/
def readSample (bs : List Byte) : Except Reject (C32 × List Byte) := do
  let (v, bs) ← takeBytes 8 bs
  return (⟨BitVec.ofNat 32 (leNat (v.take 4)), BitVec.ofNat 32 (leNat (v.drop 4))⟩, bs)

/-- A byte sequence: its length, then its bytes. -/
def readBytes (bs : List Byte) : Except Reject (List Byte × List Byte) := do
  let (k, bs) ← readNat bs
  takeBytes k bs

/-- A sample sequence: its length, then its samples. -/
def readSamples (bs : List Byte) : Except Reject (List C32 × List Byte) := do
  let (k, bs) ← readNat bs
  let (v, bs) ← takeBytes (8 * k) bs
  return (samplesOf k v, bs)

/-- An annotation value: a tag, then a byte sequence (tag 0) or a bit (tag 1). -/
def readAnnVal (bs : List Byte) : Except Reject (AnnVal × List Byte) := do
  let (tag, bs) ← readByte bs
  if tag = 0 then do
    let (v, bs) ← readBytes bs
    return (.raw v, bs)
  else if tag = 1 then do
    let (v, bs) ← readBit bs
    return (.bit v, bs)
  else .error .badTag

/-- `k` pairs of an annotation map. -/
def readAnnPairs : Nat → List Byte → Except Reject (AnnMap × List Byte)
  | 0, bs => .ok ([], bs)
  | k + 1, bs => do
    let (key, bs) ← readBytes bs
    let (v, bs) ← readAnnVal bs
    let (m, bs) ← readAnnPairs k bs
    return ((key, v) :: m, bs)

/-- An annotation map: its size, then its pairs, no key twice. -/
def readAnnMap (bs : List Byte) : Except Reject (AnnMap × List Byte) := do
  let (k, bs) ← readNat bs
  let (m, bs) ← readAnnPairs k bs
  if AnnMap.distinct m then return (m, bs) else .error .duplicateKey

/-- A decoded-frame record (R101): nibbles, header flag, CRC flag, code rate, annotations. -/
def readRecord (bs : List Byte) : Except Reject (DecodedFrame × List Byte) := do
  let (nibbles, bs) ← readBytes bs
  let (implicitHeader, bs) ← readBit bs
  let (hasCrc, bs) ← readBit bs
  let (codeRate, bs) ← readAnnVal bs
  let (annotations, bs) ← readAnnMap bs
  return (⟨nibbles, implicitHeader, hasCrc, codeRate, annotations⟩, bs)

/-! ## The decoder -/

/-- The operation that a selector byte and its operand bytes name (R109), with the bytes left over. -/
def readOp (sel : Byte) (bs : List Byte) : Except Reject (Instr × List Byte) :=
  if sel = 0x01 then do
    let (n, bs) ← readNat bs
    let (x, bs) ← readSample bs
    return (.pktPush n x, bs)
  else if sel = 0x02 then do
    let (n, bs) ← readNat bs
    return (.pktEos n, bs)
  else if sel = 0x03 then do
    let (n, bs) ← readNat bs
    let (xs, bs) ← readSamples bs
    let (eos, bs) ← readBit bs
    return (.pktWork n xs eos, bs)
  else if sel = 0x10 then do
    let (n, bs) ← readNat bs
    let (m, bs) ← readNat bs
    return (.dpkWork n m, bs)
  else if sel = 0x11 then do
    let (n, bs) ← readNat bs
    return (.dpkPull n, bs)
  else if sel = 0x20 then do
    let (n, bs) ← readNat bs
    let (x, bs) ← readSample bs
    return (.nseStep n x, bs)
  else if sel = 0x21 then do
    let (n, bs) ← readNat bs
    return (.nseEos n, bs)
  else if sel = 0x22 then do
    let (n, bs) ← readNat bs
    let (xs, bs) ← readSamples bs
    let (cap, bs) ← readNat bs
    return (.nseWork n xs cap, bs)
  else if sel = 0x30 then return (.cmbRecv, bs)
  else if sel = 0x31 then return (.cmbCheck, bs)
  else if sel = 0x32 then do
    let (e, bs) ← readEpoch bs
    return (.cmbCombine e, bs)
  else if sel = 0x40 then do
    let (n, bs) ← readNat bs
    let (r, bs) ← readRecord bs
    return (.decDecode n r, bs)
  else if sel = 0x41 then do
    let (lo, bs) ← readNibble bs
    let (hi, bs) ← readNibble bs
    let (i, bs) ← readNat bs
    return (.decDewhiten lo hi i, bs)
  else if sel = 0x42 then do
    let (data, bs) ← readBytes bs
    return (.decCrc16 data, bs)
  else if sel = 0x50 then do
    let (data, bs) ← readBytes bs
    return (.hfpEscape data, bs)
  else if sel = 0x51 then do
    let (data, bs) ← readBytes bs
    return (.hfpDescape data, bs)
  else if sel = 0x52 then do
    let (code, bs) ← readByte bs
    let (p, bs) ← readBytes bs
    return (.hfpCreateCmd code p, bs)
  else .error .reservedSelector

/-- Format OP: a selector and its operands, and nothing after them. -/
def decodeOp : List Byte → Except Reject Instr
  | [] => .error .truncated
  | sel :: bs => do
    let (i, rest) ← readOp sel bs
    if rest = [] then return i else .error .trailingBytes

/-- The bytes before the first delimiter, and the bytes after it (R93: the frame ends at the next `DELIM`). -/
def untilDelim : List Byte → Option (List Byte × List Byte)
  | [] => none
  | b :: bs => if b = delim then some ([], bs) else (untilDelim bs).map (fun p => (b :: p.1, p.2))

/-- The host command a command code names, with its payload (R95); a reserved code names none (R98). -/
def commandOf (code : Byte) (p : List Byte) : Except Reject Instr :=
  if code = codeData then .ok (.cmdData p)
  else if code = codeDetect then .ok (.cmdDetect p)
  else if code = codeReady then .ok (.cmdReady p)
  else if code = codeRssi then .ok (.cmdRssi p)
  else if code = codeSnr then .ok (.cmdSnr p)
  else .error .reservedCommandCode

/-- Format HF: one host frame (R93). -/
def decodeHf : List Byte → Except Reject Instr
  | [] => .error .truncated
  | [d] => if d = delim then .error .truncated else .error .notDelimited
  | d :: code :: bs =>
    if d ≠ delim then .error .notDelimited
    else match untilDelim bs with
      | none => .error .notDelimited
      | some (p, rest) => if rest = [] then commandOf code p else .error .trailingBytes

/-- The encoder's row for one input byte (R96). -/
def decodeEscEnc : List Byte → Except Reject Instr
  | [] => .error .truncated
  | [b] => if b = delim then .ok .escDelim else if b = esc then .ok .escEsc else .ok (.escLit b)
  | _ :: _ :: _ => .error .trailingBytes

/-- The decoder's row for one unit of escaped data (R97, R100); a lone `DB` is the end of the input. -/
def decodeEscDec : List Byte → Except Reject Instr
  | [] => .error .truncated
  | [b] => if b = esc then .ok .descTrunc else .ok (.descLit b)
  | [b, x] =>
    if b = esc then
      if x = escDelim then .ok .descDelim else if x = escEsc then .ok .descEsc else .ok (.descOther x)
    else .error .trailingBytes
  | _ :: _ :: _ :: _ => .error .trailingBytes

/-- The instruction that a byte string stands for in a format. -/
def decode (f : Format) (bs : List Byte) : Except Reject Instr :=
  match f with
  | .hf => decodeHf bs
  | .escEnc => decodeEscEnc bs
  | .escDec => decodeEscDec bs
  | .iq => (frameOf bs).map .iqFrame
  | .op => decodeOp bs

/-! ## The encoder -/

/-- The groups of 7 bits of a number, at most one more than the first argument says. -/
def natGroups : Nat → Nat → List Byte
  | 0, n => [BitVec.ofNat 8 n]
  | k + 1, n => if n < 128 then [BitVec.ofNat 8 n] else BitVec.ofNat 8 (128 + n % 128) :: natGroups k (n / 128)

/-- A natural number of any size: as many groups of 7 bits as it needs (log 12). -/
def natBytes (n : Nat) : List Byte := natGroups (Nat.log2 n) n

/-- A bit as a byte. -/
def bitBytes (b : Bool) : List Byte := if b then [1] else [0]

/-- A byte sequence with its length. -/
def seqBytes (bs : List Byte) : List Byte := natBytes bs.length ++ bs

/-- A sample sequence with its length. -/
def sampleSeqBytes (xs : List C32) : List Byte := natBytes xs.length ++ samplesBytes xs

/-- An annotation value with its tag. -/
def annValBytes : AnnVal → List Byte
  | .raw bs => 0 :: seqBytes bs
  | .bit b => 1 :: bitBytes b

/-- The pairs of an annotation map. -/
def annPairsBytes : AnnMap → List Byte
  | [] => []
  | kv :: m => seqBytes kv.1 ++ annValBytes kv.2 ++ annPairsBytes m

/-- A decoded-frame record. -/
def recordBytes (r : DecodedFrame) : List Byte :=
  seqBytes r.nibbles ++ bitBytes r.implicitHeader ++ bitBytes r.hasCrc ++ annValBytes r.codeRate ++
    (natBytes r.annotations.length ++ annPairsBytes r.annotations)

/-- A host frame (R93). -/
def hostFrameBytes (code : Byte) (p : List Byte) : List Byte := [delim, code] ++ p ++ [delim]

/-- The bytes of an instruction in its format. -/
def encode : Instr → List Byte
  | .cmdData p => hostFrameBytes codeData p
  | .cmdDetect p => hostFrameBytes codeDetect p
  | .cmdReady p => hostFrameBytes codeReady p
  | .cmdRssi p => hostFrameBytes codeRssi p
  | .cmdSnr p => hostFrameBytes codeSnr p
  | .escDelim => [delim]
  | .escEsc => [esc]
  | .escLit b => [b]
  | .descDelim => [esc, Sys2Proof.escDelim]
  | .descEsc => [esc, Sys2Proof.escEsc]
  | .descOther b => [esc, b]
  | .descTrunc => [esc]
  | .descLit b => [b]
  | .iqFrame f => frameBytes f
  | .pktPush n x => 0x01 :: (natBytes n ++ sampleBytes x)
  | .pktEos n => 0x02 :: natBytes n
  | .pktWork n xs eos => 0x03 :: (natBytes n ++ sampleSeqBytes xs ++ bitBytes eos)
  | .dpkWork n m => 0x10 :: (natBytes n ++ natBytes m)
  | .dpkPull n => 0x11 :: natBytes n
  | .nseStep n x => 0x20 :: (natBytes n ++ sampleBytes x)
  | .nseEos n => 0x21 :: natBytes n
  | .nseWork n xs cap => 0x22 :: (natBytes n ++ sampleSeqBytes xs ++ natBytes cap)
  | .cmbRecv => [0x30]
  | .cmbCheck => [0x31]
  | .cmbCombine e => 0x32 :: leBytes 8 e.toNat
  | .decDecode n r => 0x40 :: (natBytes n ++ recordBytes r)
  | .decDewhiten lo hi i => 0x41 :: BitVec.ofNat 8 lo.toNat :: BitVec.ofNat 8 hi.toNat :: natBytes i
  | .decCrc16 data => 0x42 :: seqBytes data
  | .hfpEscape data => 0x50 :: seqBytes data
  | .hfpDescape data => 0x51 :: seqBytes data
  | .hfpCreateCmd code p => 0x52 :: code :: seqBytes p

/-! ## Words of the opcode table -/

/-- How many operand bytes of zeros complete a selector to an instruction; none for a reserved selector (log 13). -/
def operandZeros (sel : Byte) : Option Nat :=
  if sel = 0x01 then some 9
  else if sel = 0x02 then some 1
  else if sel = 0x03 then some 3
  else if sel = 0x10 then some 2
  else if sel = 0x11 then some 1
  else if sel = 0x20 then some 9
  else if sel = 0x21 then some 1
  else if sel = 0x22 then some 3
  else if sel = 0x30 then some 0
  else if sel = 0x31 then some 0
  else if sel = 0x32 then some 8
  else if sel = 0x40 then some 7
  else if sel = 0x41 then some 3
  else if sel = 0x42 then some 1
  else if sel = 0x50 then some 1
  else if sel = 0x51 then some 1
  else if sel = 0x52 then some 2
  else none

/-- The format and the bytes of a table word (R112; log 13). An 8-bit word is a selector, else an input byte of the escape
encoder. A 16-bit word has its first byte in bits 15 to 8: a host frame, closed by the delimiter that the format fixes, if it
opens with `DELIM`, else two input bytes of the escape decoder. A 65600-bit word is an IqFrame, its lowest byte first. -/
def tableBytes (nbits w : Nat) : Format × List Byte :=
  if nbits = 8 then
    match operandZeros (BitVec.ofNat 8 w) with
    | some k => (.op, BitVec.ofNat 8 w :: List.replicate k 0)
    | none => (.escEnc, [BitVec.ofNat 8 w])
  else if nbits = 16 then
    if BitVec.ofNat 8 (w / 256) = delim then (.hf, [delim, BitVec.ofNat 8 w, delim])
    else (.escDec, [BitVec.ofNat 8 (w / 256), BitVec.ofNat 8 w])
  else if nbits = 65600 then (.iq, leBytes 8200 w)
  else (.op, [])

/-- The instruction the decoder reads from a table word, `none` where it refuses. -/
def decodeTableWord (nbits w : Nat) : Option Instr :=
  match decode (tableBytes nbits w).1 (tableBytes nbits w).2 with
  | .ok i => some i
  | .error _ => none

end Sys2Proof
end

