-- ==== Sys2Proof/Machine/State.lean ====
section
/-! DEFINITION. The state of the block (10 R22 to R40), the events it emits (10 R42), what the environment will do, the three
faults and the refusals (60 R250), and the state after reset (10 R39). -/

namespace Sys2Proof.Machine

/-- The three faults of R250. A fault is TAKEN (`raiseFault`, R256): the step that meets it answers a NEXT state, in which the
owning unit is terminated and the pair of unit and fault is recorded in `State.faults`. No step of the model ever answers the
outcome `fault`, because a fault "terminate[s] only the owning task, not the whole process" (R255): the block goes on. -/
inductive Fault
  /-- Raised by PKT.PUSH, PKT.EOS, CMB.RECV and CMB.COMBINE: a send to a dead receiver, or a receive on an empty channel with
  a dead sender (R250, R253). Taken, so safe. -/
  | channelDisconnected
  /-- Raised by PKT.PUSH and PKT.EOS: emission of the frame with epoch 2^64 - 1 (R127). Taken, so safe. -/
  | epochOverflow (e : Epoch)
  /-- Raised by CMB.RECV: a second frame with the same epoch from the same transmitter (R184). Taken, so safe. -/
  | duplicateEntry (e : Epoch) (s : Nat)
deriving DecidableEq, Repr

/-- Why an invocation has no meaning (R259). Every refusal is safe: the run ends there and nothing is proved of what follows. -/
inductive Refusal
  /-- Raised by exec's arm of an instruction that has no meaning in the model; no arm is left. Safe. -/
  | notModelled (mnemonic : String)
  /-- Raised by every operation of a unit whose status is TERMINATED (R35, R250). Safe. -/
  | unitTerminated
  /-- Raised by PKT.PUSH and PKT.EOS when `done` = 1 (R126). Safe. -/
  | pktAfterDone
  /-- Raised by NSE.STEP and NSE.EOS when `eos` = 1 (R159). Safe. -/
  | nseAfterEos
  /-- Raised by DEC.DECODE on an element of `nibbles` >= 16 (R217). Safe. -/
  | nibbleOutOfRange
  /-- Raised by DEC.DECODE on a record that needs more than `W_LEN` whitening bytes (R216), and by DEC.DEWHITEN on an index
  that has no whitening byte (R203; log 26). Safe. -/
  | whiteningIndexOutOfRange
  /-- Raised by HFP.CREATE_CMD on a code outside the five (R98, R233). Safe. -/
  | reservedCommandCode
  /-- Raised by construction on parameters outside R282. Safe. -/
  | invalidConfiguration
  /-- Raised by an operation whose instance `n` is not below `N_NODES` (R12, R109; log 20). Safe. -/
  | noSuchInstance
  /-- Raised by an operation of a unit that does not exist: never built in this wiring (R4, R42) or removed (R70; log 21).
  Safe. -/
  | unitAbsent
  /-- Raised by an escape row on a byte that belongs to another row (R96, R97; log 27): no encoded instruction does. Safe. -/
  | notThisForm
  /-- Raised by the fetch of bytes that encode no instruction (R98, R109, U24; log 12). Safe. -/
  | undecodable (why : Reject)
  /-- Raised by an action of the environment on a channel end that it does not own (R70, R78; log 21). Safe. -/
  | notEnvironmentsEnd
deriving DecidableEq, Repr

/-- Life-cycle status (R35). -/
inductive Status
  | running
  | terminated
deriving DecidableEq, Repr

/-- A unit's life: its status (R35), and whether the unit exists at all (R70, R4, R42; the model's own, log 21). -/
structure Life where
  status : Status
  present : Bool
deriving DecidableEq, Repr

/-- A channel of IqFrames (R34). -/
structure Chan where
  /-- oldest first -/
  q : List IqFrame
  txAlive : Bool
  rxAlive : Bool
deriving DecidableEq, Repr

/-- What is left of a PKT.WORK whose atomic steps are taken one by one (R82, R124; log 18). -/
structure PktWork where
  rest : List C32
  eos : Bool
deriving DecidableEq, Repr

/-- What is left of a DPK.WORK whose atomic steps are taken one by one, and its output so far (R82, R141; log 18). -/
structure DpkWork where
  left : Nat
  out : List C32
deriving DecidableEq, Repr

/-- The state of a packetizer (R23). -/
structure Pkt where
  /-- 1024 samples, of which `win[0..fill)` are valid -/
  win : List C32
  fill : Nat
  epoch : Epoch
  done : Bool
  /-- the work cycle in progress; `none` when the unit is idle (R82) -/
  work : Option PktWork
  life : Life
deriving DecidableEq, Repr

/-- The state of a depacketizer (R25). -/
structure Dpk where
  cur : Option IqFrame
  rd : Nat
  /-- the work cycle in progress; `none` when the unit is idle (R82) -/
  work : Option DpkWork
  life : Life
deriving DecidableEq, Repr

/-- The state of a noise injector (R26). -/
structure Nse where
  sigma : F32
  seed : BitVec 64
  k : Nat
  eos : Bool
  done : Bool
  life : Life
deriving DecidableEq, Repr

/-- The state of a frame decoder: its life-cycle status alone (R30). -/
structure Dec where
  life : Life
deriving DecidableEq, Repr

/-- All that is private to one node (R267), with its two channels (R34). In the direct wiring `tx` is the one channel of the
node and `rx` is not used (R4). -/
structure Node where
  pkt : Pkt
  dpk : Dpk
  nse : Nse
  dec : Dec
  tx : Chan
  rx : Chan
deriving DecidableEq, Repr

/-- Which step of the combiner's loop is next (R27). -/
inductive Phase
  | recv
  | check
deriving DecidableEq, Repr

/-- A Pending Combine Entry: a frame and the index of the channel it was received on (R27). -/
structure Entry where
  frame : IqFrame
  sender : Nat
deriving DecidableEq, Repr

/-- The pending buffer, a finite map from epoch to entry set (R27), as a list whose keys rise strictly. -/
abbrev Buf := List (Epoch × List Entry)

/-- The state of the combiner (R27). -/
structure Cmb where
  buf : Buf
  rr : Nat
  phase : Phase
  dist : List (List F32)
  /-- how many receivers the combine in progress has served (R82, R177; log 17); 0 when none is in progress -/
  sent : Nat
  life : Life
deriving DecidableEq, Repr

/-- The configuration that is not held by a unit (R36): the decoder's constants, `FP`, and the wiring. `W_LEN` is the length
of `w`. -/
structure Cfg where
  w : List Byte
  readyCrcErr : Byte
  crcSpan : CrcSpan
  keyCr : Key
  keyHasCrc : Key
  keyImplHdr : Key
  fp : FpKind
  wiring : Wiring
deriving DecidableEq, Repr

/-- A unit with a life of its own (R35), named for the fault record and for the environment's removals. -/
inductive UnitId
  | pkt (n : Nat)
  | dpk (n : Nat)
  | nse (n : Nat)
  | dec (n : Nat)
  | cmb
deriving DecidableEq, Repr

/-- A channel, by node (R34). -/
inductive ChanId
  | tx (n : Nat)
  | rx (n : Nat)
deriving DecidableEq, Repr

/-- One end of a channel. -/
inductive End
  | sender
  | receiver
deriving DecidableEq, Repr

/-- What the block delivers to the environment: the ports of R42 and the results of functions (log 22). -/
inductive Event
  /-- the completion signal on `pkt_done[n]` (R123) -/
  | pktDone (n : Nat)
  /-- the samples of one work cycle on `dpk_out[n]` (R141) -/
  | dpkOut (n : Nat) (out : List C32)
  /-- one sample on `nse_out[n]` (R156) -/
  | nseOut (n : Nat) (x : C32)
  /-- how many input samples a work cycle consumed (R158) -/
  | nseConsumed (n : Nat) (j : Nat)
  /-- the completion signal on `nse_out[n]` (R159) -/
  | nseDone (n : Nat)
  /-- the bit on `crc_result[n]` (R208) -/
  | crcResult (n : Nat) (ok : Bool)
  /-- one complete host frame on `host_frame[n]` (R209, R210) -/
  | hostFrame (n : Nat) (bytes : List Byte)
  /-- the bytes on `payload[n]` (R211) -/
  | payload (n : Nat) (bytes : List Byte)
  /-- the bytes and the map on `annotated_payload[n]` (R211) -/
  | annotatedPayload (n : Nat) (bytes : List Byte) (m : AnnMap)
  /-- a function's result: one byte (R203) -/
  | byteResult (b : Byte)
  /-- a function's result: 16 bits (R206) -/
  | wordResult (v : BitVec 16)
  /-- a function's result: a byte sequence (R96, R231 to R238) -/
  | bytesResult (bytes : List Byte)
  /-- one row of the escape decoder: its output and how many bytes it consumed (R97) -/
  | unescaped (bytes : List Byte) (consumed : Nat)
  /-- the frame that a wire shape stands for (R91) -/
  | frameResult (f : IqFrame)
  /-- a frame the environment takes from a channel, in the wire shape (R42, R91) -/
  | wireOut (c : ChanId) (bytes : List Byte)
deriving DecidableEq, Repr

/-- One thing the environment or the scheduler does (R12, R13; log 14, 21). -/
inductive Slot
  /-- invoke the operation whose bytes, in a format, are given; no other agent steps before it has ended -/
  | invoke (f : Format) (bytes : List Byte)
  /-- invoke it so that its atomic steps are turns of its unit, and other agents may step between them (R82) -/
  | start (f : Format) (bytes : List Byte)
  /-- let a unit take its next atomic step: the combiner's own (R11), or one of an operation in progress (R82) -/
  | turn (u : UnitId)
  /-- as the sender of an external channel, send the frame of this wire shape (R42, R67) -/
  | envSend (c : ChanId) (wire : List Byte)
  /-- as the receiver of an external channel, try to receive (R42, R68) -/
  | envRecv (c : ChanId)
  /-- close a channel end that the environment owns (R70) -/
  | envClose (c : ChanId) (e : End)
  /-- remove a unit, so that it does not exist (R70, R126, R257) -/
  | remove (u : UnitId)
deriving DecidableEq, Repr

/-- The state of the block, with the environment's side of its ports. -/
structure State where
  cfg : Cfg
  /-- `nodes[n]` for `0 <= n < N_NODES` -/
  nodes : List Node
  cmb : Cmb
  /-- the model's own: what happens next, in order (log 14) -/
  inbox : List Slot
  /-- the model's own: the events emitted so far, oldest first (log 22) -/
  out : List Event
  /-- the model's own: the faults taken so far, oldest first (R256; log 19) -/
  faults : List (UnitId × Fault)
  /-- the model's own: the index of the next free NaN patterns (log 9) -/
  nanCtr : Nat
deriving DecidableEq, Repr

/-- `N_NODES` (R8). -/
abbrev State.nNodes (s : State) : Nat := s.nodes.length

/-- `W_LEN` (R8). -/
abbrev Cfg.wLen (c : Cfg) : Nat := c.w.length

/-- A unit right after construction: RUNNING (R39), existing or not (R42). -/
abbrev Life.fresh (present : Bool) : Life := ⟨.running, present⟩

/-- A channel right after construction: empty, both ends alive (R39). -/
abbrev Chan.fresh : Chan := ⟨[], true, true⟩

/-- Node `n` right after construction (R39). The window's contents are the model's choice (log 7). -/
def Node.fresh (p : Params) (n : Nat) : Node where
  pkt := ⟨List.replicate frameLen C32.zero, 0, 0, false, none, Life.fresh p.hasPkt⟩
  dpk := ⟨none, frameLen, none, Life.fresh p.hasDpk⟩
  nse := ⟨p.sigma.getD n 0, p.seed.getD n 0, 0, false, false, Life.fresh true⟩
  dec := ⟨Life.fresh true⟩
  tx := Chan.fresh
  rx := Chan.fresh

/-- The block right after construction from its parameters (R280, R281, R39), unchecked: `Machine.construct` makes the checks
of R282. In the direct wiring there is no combiner (R4). -/
def State.construct (p : Params) : State where
  cfg := ⟨p.w, p.readyCrcErr, p.crcSpan, p.keyCr, p.keyHasCrc, p.keyImplHdr, p.fp, p.wiring⟩
  nodes := (List.range p.nNodes).map (Node.fresh p)
  cmb := ⟨[], 0, .recv, p.dist, 0, Life.fresh (p.hasCmb && decide (p.wiring = .combined))⟩
  inbox := []
  out := []
  faults := []
  nanCtr := 0

/-- The machine right after reset: construction from `Config.resetParams` (R280; log 1 to 7, 21). -/
def State.reset : State := State.construct Config.resetParams

end Sys2Proof.Machine
end

