-- ==== Sys2Proof/Machine/Ops.lean ====
section
/-! DEFINITION. The named operations over the state: instances and their lives, channels (20 R67 to R70), the pending buffer
(43 R172, R177), events, and TAKING A FAULT (60 R256), which is `raiseFault`. There is no return from a fault (R258). -/

namespace Sys2Proof.Machine

/-- The outcome of one operation. -/
abbrev Result := Host.Outcome State Fault Refusal

/-- How an operation's part ended: normally, or by a `raise`, in the state the fault leaves (R256). -/
inductive Ran
  | done (s : State)
  | raised (s : State)

/-! ## Instances -/

/-- Replace node `n`. -/
def State.setNode (s : State) (n : Nat) (nd : Node) : State :=
  { s with nodes := s.nodes.set n nd }

/-- Change node `n`, if there is one. -/
def State.modifyNode (s : State) (n : Nat) (f : Node → Node) : State :=
  { s with nodes := s.nodes.modify n f }

/-- `Emit`: deliver events, in order, to the environment (R16). -/
def State.emit (s : State) (es : List Event) : State :=
  { s with out := s.out ++ es }

/-- Go on with instance `n`; there is none from `N_NODES` on (R12; log 20). -/
def withNode (s : State) (n : Nat) (k : Node → Result) : Result :=
  match s.nodes[n]? with
  | none => .refused .noSuchInstance
  | some nd => k nd

/-- Go on if the unit exists and is RUNNING (R35, R261: this is the first check; log 21). -/
def withLife (l : Life) (k : Result) : Result :=
  if l.present then
    if l.status = .terminated then .refused .unitTerminated else k
  else .refused .unitAbsent

/-! ## Channels -/

/-- `Send(ch, f)`: `none` when the receiver is dead, else the frame stands last in the queue; never for lack of space (R67,
R71). -/
def Chan.send (c : Chan) (f : IqFrame) : Option Chan :=
  if c.rxAlive then some { c with q := c.q ++ [f] } else none

/-- `TryRecv(ch)`: the oldest frame, or `none` when the queue is empty, whether or not the sender lives (R68). -/
def Chan.tryRecv (c : Chan) : Option (IqFrame × Chan) :=
  match c.q with
  | [] => none
  | f :: q => some (f, { c with q := q })

/-- What a blocking receive finds (R69). -/
inductive Received
  | frame (f : IqFrame) (c : Chan)
  | wait
  | disconnected

/-- `Recv(ch)`: the oldest frame; on an empty queue wait while the sender lives, and fail when it is dead (R69). -/
def Chan.recv (c : Chan) : Received :=
  match c.q with
  | f :: q => .frame f { c with q := q }
  | [] => if c.txAlive then .wait else .disconnected

/-- The channel that the node's depacketizer receives from: `RX[n]`, or in the direct wiring the packetizer's own (R3, R4,
R25). -/
def Node.dpkIn (w : Wiring) (nd : Node) : Chan :=
  match w with
  | .combined => nd.rx
  | .direct => nd.tx

/-- Replace the channel that the node's depacketizer receives from. -/
def Node.setDpkIn (w : Wiring) (nd : Node) (c : Chan) : Node :=
  match w with
  | .combined => { nd with rx := c }
  | .direct => { nd with tx := c }

/-! ## Death of a unit -/

/-- Change the life of a unit. -/
def mapLife (u : UnitId) (f : Life → Life) (s : State) : State :=
  match u with
  | .pkt n => s.modifyNode n (fun nd => { nd with pkt := { nd.pkt with life := f nd.pkt.life } })
  | .dpk n => s.modifyNode n (fun nd => { nd with dpk := { nd.dpk with life := f nd.dpk.life } })
  | .nse n => s.modifyNode n (fun nd => { nd with nse := { nd.nse with life := f nd.nse.life } })
  | .dec n => s.modifyNode n (fun nd => { nd with dec := { nd.dec with life := f nd.dec.life } })
  | .cmb => { s with cmb := { s.cmb with life := f s.cmb.life } }

/-- Every channel end a unit owns dies: `tx_alive` of the channels it sends on, `rx_alive` of those it receives from (R70).
The combiner owns one end of every channel of the combined wiring; NSE and DEC own none (R257). An operation in progress stops
with its unit (R256). -/
def killEnds (u : UnitId) (s : State) : State :=
  match u with
  | .pkt n => s.modifyNode n (fun nd =>
      { nd with pkt := { nd.pkt with work := none }, tx := { nd.tx with txAlive := false } })
  | .dpk n => s.modifyNode n (fun nd =>
      Node.setDpkIn s.cfg.wiring { nd with dpk := { nd.dpk with work := none } }
        { nd.dpkIn s.cfg.wiring with rxAlive := false })
  | .nse _ => s
  | .dec _ => s
  | .cmb =>
    match s.cfg.wiring with
    | .combined =>
      { s with nodes := s.nodes.map (fun nd =>
          { nd with tx := { nd.tx with rxAlive := false }, rx := { nd.rx with txAlive := false } }) }
    | .direct => s

/-- TAKING A FAULT, in the state the pseudocode had reached at its `raise` (R256): the unit becomes TERMINATED, every channel
end it owns dies, and nothing else changes; the fault's name stands in the model's own record. -/
def raiseFault (u : UnitId) (r : Fault) (s : State) : State :=
  let t := killEnds u (mapLife u (fun l => { l with status := .terminated }) s)
  { t with faults := t.faults ++ [(u, r)] }

/-! ## The pending buffer -/

/-- `Insert(f, s)` (R172): the entry stands last in the set of its epoch, a new key in its place among the rising keys; `none`
when the set already has an entry from `s` (R184). -/
def Buf.insert (f : IqFrame) (s : Nat) : Buf → Option Buf
  | [] => some [(f.epoch, [⟨f, s⟩])]
  | (e, es) :: b =>
    if f.epoch < e then some ((f.epoch, [⟨f, s⟩]) :: (e, es) :: b)
    else if f.epoch = e then
      if es.any (fun x => x.sender = s) then none else some ((e, es ++ [⟨f, s⟩]) :: b)
    else (Buf.insert f s b).map (fun b' => (e, es) :: b')

/-- The entry set under a key; a key that is not there has none (R27, R172). -/
def Buf.entries (e : Epoch) (b : Buf) : List Entry :=
  match b.find? (fun kv => kv.1 = e) with
  | some kv => kv.2
  | none => []

/-- Remove a key with its whole entry set (R177). -/
def Buf.remove (e : Epoch) (b : Buf) : Buf :=
  b.filter (fun kv => kv.1 ≠ e)

end Sys2Proof.Machine
end

