-- ==== Sys2Proof/Machine/Operands.lean ====
section
/-! DEFINITION. Operand forms: the window (40 R121 to R123), the sample a depacketizer reads (41 R141), the regions of a
nibble sequence (30 R102, 44 R202 to R205), the rows of the escape tables (30 R96, R97), host frames (45 R233), the annotation
map (44 R212). -/

namespace Sys2Proof.Machine

/-! ## Samples -/

/-- The window with its tail from `fill` on set to the zero sample (R123). -/
def padWindow (win : List C32) (fill : Nat) : List C32 :=
  win.take fill ++ List.replicate (frameLen - fill) C32.zero

/-- `MemRead(cur.samples, rd)` (R141). The zero sample stands for an index that never arises (R61, U10). -/
def readSampleAt (cur : Option IqFrame) (rd : Nat) : C32 :=
  match cur with
  | some f => f.samples.getD rd C32.zero
  | none => C32.zero

/-- `DIST[s][r]` (R29); 0 stands for an index that never arises. -/
def distAt (dist : List (List F32)) (s r : Nat) : F32 :=
  (dist.getD s []).getD r 0

/-! ## Nibbles and whitening -/

/-- `H`: how many header nibbles a record has (R102, R202). -/
def headerNibbles (r : DecodedFrame) : Nat := if r.implicitHeader then 0 else 5

/-- `T`: how many trailer nibbles a record has (R102). -/
def trailerNibbles (r : DecodedFrame) : Nat := if r.hasCrc then 4 else 0

/-- The record is too short for its header and trailer (R215). -/
def isShort (r : DecodedFrame) : Bool :=
  decide (r.nibbles.length < headerNibbles r + trailerNibbles r)

/-- The main body `nib[H .. L − T)` (R202). -/
def bodyOf (r : DecodedFrame) : List Byte :=
  (r.nibbles.take (r.nibbles.length - trailerNibbles r)).drop (headerNibbles r)

/-- The trailer `nib[L − 4 .. L)` (R205). -/
def trailerOf (r : DecodedFrame) : List Byte :=
  r.nibbles.drop (r.nibbles.length - 4)

/-- The nibble an element carries in its bits 3 to 0 (R103). -/
def nibbleOf (b : Byte) : BitVec 4 := b.extractLsb' 0 4

/-- `DEC.DEWHITEN` with the whitening byte `w` (R203): exclusive or by halves, packed `high << 4 | low`. -/
def dewhitenWith (lo hi : BitVec 4) (w : Byte) : Byte :=
  (hi ^^^ w.extractLsb' 4 4) ++ (lo ^^^ w.extractLsb' 0 4)

/-- `W[i]` (R203); the callers have checked `i < W_LEN` (R216). -/
def whiteningAt (w : List Byte) (i : Nat) : Byte := w.getD i 0

/-- The dewhitening pass over consecutive nibble pairs, the first of a pair the low one, from whitening index `i` on; an
unpaired last nibble contributes nothing (R104, R204). -/
def dewhitenPairs (w : List Byte) : Nat → List Byte → List Byte
  | i, lo :: hi :: rest =>
    dewhitenWith (nibbleOf lo) (nibbleOf hi) (whiteningAt w i) :: dewhitenPairs w (i + 1) rest
  | _, [_] => []
  | _, [] => []

/-- How many whitening bytes a record that is not short needs (R216). -/
def whiteningNeed (r : DecodedFrame) : Nat :=
  (bodyOf r).length / 2 + (if r.hasCrc then 2 else 0)

/-- The recovered bytes of a record that is not short: the body's, and with a CRC the trailer's two, whose whitening index
goes on from the body's (R204, R205). -/
def recoveredBytes (w : List Byte) (r : DecodedFrame) : List Byte :=
  dewhitenPairs w 0 (bodyOf r) ++
    (if r.hasCrc then dewhitenPairs w ((bodyOf r).length / 2) (trailerOf r) else [])

/-! ## Escape tables -/

/-- The encoder's output for one input byte (R96). -/
def escapeByte (b : Byte) : List Byte :=
  if b = delim then [esc, escDelim]
  else if b = esc then [esc, escEsc]
  else [b]

/-- `escape(data)` (R231). -/
def escape (data : List Byte) : List Byte := data.flatMap escapeByte

/-- What the byte after `ESC` stands for (R97). -/
def unescapeSecond (x : Byte) : Byte :=
  if x = escDelim then delim
  else if x = escEsc then esc
  else x

/-- `descape(data)` (R232): the byte after `ESC` is consumed as data of that escape; a lone `ESC` at the end gives nothing. -/
def descape : List Byte → List Byte
  | [] => []
  | b :: rest =>
    if b = esc then
      match rest with
      | [] => []
      | x :: rest' => unescapeSecond x :: descape rest'
    else b :: descape rest

/-! ## Host frames -/

/-- The five command codes (R95). -/
def isCommandCode (code : Byte) : Bool :=
  code == codeData || code == codeDetect || code == codeReady || code == codeRssi || code == codeSnr

/-- `create_cmd(code, payload)` (R233): the payload is copied as it is; `none` for a reserved code (R98). -/
def createCmd (code : Byte) (p : List Byte) : Option (List Byte) :=
  if isCommandCode code then some (hostFrameBytes code p) else none

/-! ## Annotations -/

/-- `m[k] <- v`: replace the value of a key, or add the key (R212). -/
def AnnMap.put (k : Key) (v : AnnVal) : AnnMap → AnnMap
  | [] => [(k, v)]
  | (k', v') :: m => if k' = k then (k, v) :: m else (k', v') :: AnnMap.put k v m

/-- The value of a key (R101). -/
def AnnMap.get (k : Key) (m : AnnMap) : Option AnnVal :=
  (m.find? (fun kv => kv.1 = k)).map Prod.snd

/-- `Merge(F)` (R212): code rate, CRC presence and header mode under the three keys, in this order. -/
def mergeAnnotations (c : Cfg) (r : DecodedFrame) : AnnMap :=
  AnnMap.put c.keyImplHdr (.bit r.implicitHeader)
    (AnnMap.put c.keyHasCrc (.bit r.hasCrc)
      (AnnMap.put c.keyCr r.codeRate r.annotations))

end Sys2Proof.Machine
end

