-- ==== Sys2Proof/Machine/ChannelCombiner.lean ====
section
/-! DEFINITION. The Channel Combiner: CMB.RECV, CMB.CHECK, CMB.COMBINE, and its autonomous atomic steps (43 R170 to R186,
20 R82). -/

namespace Sys2Proof.Machine

/-! ## The numeric rules -/

/-- Where a computed NaN stands: the counter, the entry's place in the set, the sample index (log 9). -/
structure NanSite where
  ctr : Nat
  entry : Nat
  index : Nat

/-- The free bits of the NaN that operation number `op` at a site computes (log 9). -/
def NanSite.free (z : NanSite) (op : Nat) : Bool × Fin 8388607 :=
  Config.freeNaN z.ctr z.entry z.index op

/-- One contribution (R176): the complex product of `(g, g)` and a sample, four multiplications, a subtraction and an
addition, each rounded, and one rounded addition per part to the accumulator. -/
def accumulateOne (fp : FpKind) (z : NanSite) (g : F32) (o x : C32) : C32 :=
  let gr := fpMul fp (z.free 0) g x.re
  let gi := fpMul fp (z.free 1) g x.im
  ⟨fpAdd fp (z.free 4) o.re (fpSub fp (z.free 2) gr gi),
   fpAdd fp (z.free 5) o.im (fpAdd fp (z.free 3) gi gr)⟩

/-- One entry's contribution to every sample index from `i` on: index by index, nothing is mixed across indices (R174,
R313). -/
def accumulateFrom (fp : FpKind) (c j : Nat) (g : F32) : Nat → List C32 → List C32 → List C32
  | i, o :: os, x :: xs => accumulateOne fp ⟨c, j, i⟩ g o x :: accumulateFrom fp c j g (i + 1) os xs
  | _, [], _ => []
  | _, os, [] => os

/-- The sum over the entries of a set, from place `j` on, in list order (R174, R176; log 32). -/
def sumEntries (fp : FpKind) (dist : List (List F32)) (r c : Nat) : Nat → List Entry → List C32 → List C32
  | _, [], o => o
  | j, x :: es, o =>
    sumEntries fp dist r c (j + 1) es
      (accumulateFrom fp c j (fpCoeff fp (distAt dist x.sender r)) 0 o x.frame.samples)

/-- The combined frame for receiver `r` (R174): the sum from zero over the entry set, under the shared epoch. -/
def combinedFrame (s : State) (e : Epoch) (es : List Entry) (r : Nat) : IqFrame :=
  ⟨e, sumEntries s.cfg.fp s.cmb.dist r s.nanCtr 0 es (List.replicate frameLen C32.zero)⟩

/-! ## The steps -/

/-- The place in the loop after a receive from `rr` (R171, R314). -/
def advanceRecv (nNodes : Nat) (c : Cmb) (buf : Buf) : Cmb :=
  if c.rr + 1 = nNodes then { c with buf := buf, rr := 0, phase := .check }
  else { c with buf := buf, rr := c.rr + 1 }

/-- The receive step for a combiner in its RECV phase (R171): wait on an empty channel with a live sender, raise on one with a
dead sender (R183), else insert the frame, which raises on a duplicate (R184) after the frame has been consumed. -/
def recvTurn (s : State) : State :=
  match s.nodes[s.cmb.rr]? with
  | none => s
  | some nd =>
    match nd.tx.recv with
    | .wait => s
    | .disconnected => raiseFault .cmb .channelDisconnected s
    | .frame f c =>
      let t := s.setNode s.cmb.rr { nd with tx := c }
      match Buf.insert f s.cmb.rr s.cmb.buf with
      | none => raiseFault .cmb (.duplicateEntry f.epoch s.cmb.rr) t
      | some buf => { t with cmb := advanceRecv s.nNodes s.cmb buf }

/-- The oldest epoch with its entry set, if that set is complete (R173). -/
def readyEpoch (s : State) : Option (Epoch × List Entry) :=
  match s.cmb.buf with
  | [] => none
  | (e, es) :: _ => if es.length < s.nNodes then none else some (e, es)

/-- An incomplete oldest epoch: continue collecting (R173). -/
def keepCollecting (s : State) : State :=
  { s with cmb := { s.cmb with phase := .recv } }

/-- The send to the next receiver of the combine in progress (R174, R177); it raises when that receiver is dead (R183). -/
def sendOne (e : Epoch) (es : List Entry) (s : State) : Ran :=
  match s.nodes[s.cmb.sent]? with
  | none => .done s
  | some nd =>
    match nd.rx.send (combinedFrame s e es s.cmb.sent) with
    | none => .raised (raiseFault .cmb .channelDisconnected s)
    | some c =>
      let t := s.setNode s.cmb.sent { nd with rx := c }
      .done { t with cmb := { s.cmb with sent := s.cmb.sent + 1 }, nanCtr := s.nanCtr + 1 }

/-- The next `k` sends, in ascending receiver index, up to the first that raises (R174). -/
def sendMany (e : Epoch) (es : List Entry) : Nat → State → Ran
  | 0, s => .done s
  | k + 1, s =>
    match sendOne e es s with
    | .raised t => .raised t
    | .done t => sendMany e es k t

/-- After the last send: the whole entry set is removed and the loop goes back to receiving (R173, R177). -/
def finishCombine (e : Epoch) (s : State) : State :=
  { s with cmb := { s.cmb with buf := Buf.remove e s.cmb.buf, phase := .recv, sent := 0 } }

/-- One ATOMIC step of CMB.CHECK for a combiner in its CHECK phase (R82): the check that fails, or one send; the removal
happens in the step of the last send (R177). -/
def checkTurn (s : State) : State :=
  match readyEpoch s with
  | none => keepCollecting s
  | some (e, es) =>
    if s.cmb.sent < s.nNodes then
      match sendOne e es s with
      | .raised t => t
      | .done t => if t.cmb.sent < t.nNodes then t else finishCombine e t
    else finishCombine e s

/-- The whole combine of epoch `e` with its entry set (R174, R177): all sends that are left, then the removal. -/
def wholeCombine (e : Epoch) (es : List Entry) (s : State) : State :=
  match sendMany e es (s.nNodes - s.cmb.sent) s with
  | .raised t => t
  | .done t => finishCombine e t

/-- The whole of CMB.CHECK for a combiner in its CHECK phase (R173). -/
def wholeCheck (s : State) : State :=
  match readyEpoch s with
  | none => keepCollecting s
  | some (e, es) => wholeCombine e es s

/-- The combiner's next atomic step, taken whenever one is enabled; a combiner that waits, is terminated or does not exist
takes none (R11, R35, R82, R260; log 15). -/
def combinerTurn (s : State) : State :=
  if s.cmb.life.present && decide (s.cmb.life.status = .running) then
    match s.cmb.phase with
    | .recv => recvTurn s
    | .check => checkTurn s
  else s

/-- CMB.RECV: receive one frame from transmitter `rr` and insert it (R171). Where the step is not enabled the combiner waits
and nothing changes (R69, R260; log 16). -/
def execCmbRecv (s : State) : Result :=
  withLife s.cmb.life <|
    match s.cmb.phase with
    | .recv => .next (recvTurn s)
    | .check => .next s

/-- CMB.CHECK: inspect the oldest epoch and combine it if complete (R173). Where the step is not enabled nothing changes
(log 16). -/
def execCmbCheck (s : State) : Result :=
  withLife s.cmb.life <|
    match s.cmb.phase with
    | .recv => .next s
    | .check => .next (wholeCheck s)

/-- CMB.COMBINE(e): N_NODES frames sent and the entry set removed (R109, R174); the removal and the change of phase happen in
the step of the last send (R177). It is enabled where CMB.CHECK runs it: in the CHECK phase, `e` the oldest epoch and complete;
elsewhere nothing changes (log 16, 17). -/
def execCmbCombine (e : Epoch) (s : State) : Result :=
  withLife s.cmb.life <|
    match s.cmb.phase, readyEpoch s with
    | .check, some (e', es) => if e' = e then .next (wholeCombine e es s) else .next s
    | _, _ => .next s

end Sys2Proof.Machine
end

