-- ==== Sys2Proof/Machine/Depacketizer.lean ====
section
/-! DEFINITION. The Frame Depacketizer: DPK.WORK, DPK.PULL (41 R140 to R146). -/

namespace Sys2Proof.Machine

/-- The loop of DPK.WORK (R141) over the unit's state and its inbound channel: `m` samples; at a frame's end the next frame
is received, and when there is none the remainder is silence, with no further attempt. -/
def drain : Nat → Dpk → Chan → List C32 × Dpk × Chan
  | 0, q, c => ([], q, c)
  | m + 1, q, c =>
    if q.rd = frameLen then
      match c.tryRecv with
      | none => (List.replicate (m + 1) C32.zero, q, c)
      | some (f, c') =>
        let rest := drain m { q with cur := some f, rd := 1 } c'
        (readSampleAt (some f) 0 :: rest.1, rest.2)
    else
      let rest := drain m { q with rd := q.rd + 1 } c
      (readSampleAt q.cur q.rd :: rest.1, rest.2)

/-- Fill an output buffer of `m` samples (R141). It never faults (R146) and does not look at an epoch (R145). -/
def fillBuffer (n m : Nat) (s : State) : Result :=
  withNode s n fun nd => withLife nd.dpk.life <|
    let r := drain m nd.dpk (nd.dpkIn s.cfg.wiring)
    .next ((s.setNode n (Node.setDpkIn s.cfg.wiring { nd with dpk := r.2.1 } r.2.2)).emit [.dpkOut n r.1])

/-- DPK.WORK: one work cycle of `m` samples (R141). -/
def execDpkWork (n m : Nat) (s : State) : Result := fillBuffer n m s

/-- DPK.PULL: one sample, a work cycle of length one (R142). -/
def execDpkPull (n : Nat) (s : State) : Result := fillBuffer n 1 s

/-! ## The atomic steps of a work cycle (R82) -/

/-- The start of DPK.WORK: the check (R261), and the request is kept; its receives are turns. -/
def startDpkWork (n m : Nat) (s : State) : Result :=
  withNode s n fun nd => withLife nd.dpk.life <|
    .next (s.setNode n { nd with dpk := { nd.dpk with work := some ⟨m, []⟩ } })

/-- One atomic step of the loop of DPK.WORK: the samples up to the next receive, and that receive (R82, R141). The last
component says what is left: nothing once the request is filled, or the receive gave no frame and the remainder is silence. -/
def dpkAdvance : Nat → Dpk → Chan → List C32 × Nat × Dpk × Chan
  | 0, q, c => ([], 0, q, c)
  | m + 1, q, c =>
    if q.rd = frameLen then
      match c.tryRecv with
      | none => (List.replicate (m + 1) C32.zero, 0, q, c)
      | some (f, c') => ([], m + 1, { q with cur := some f, rd := 0 }, c')
    else
      let rest := dpkAdvance m { q with rd := q.rd + 1 } c
      (readSampleAt q.cur q.rd :: rest.1, rest.2)

/-- One atomic step of the work cycle `w` of node `n`: the output is delivered, all of it, when the request is filled. -/
def continueFill (n : Nat) (nd : Node) (w : DpkWork) (s : State) : State :=
  let r := dpkAdvance w.left nd.dpk (nd.dpkIn s.cfg.wiring)
  if r.2.1 = 0 then
    (s.setNode n (Node.setDpkIn s.cfg.wiring { nd with dpk := { r.2.2.1 with work := none } } r.2.2.2)).emit
      [.dpkOut n (w.out ++ r.1)]
  else
    s.setNode n (Node.setDpkIn s.cfg.wiring { nd with dpk := { r.2.2.1 with work := some ⟨r.2.1, w.out ++ r.1⟩ } } r.2.2.2)

/-- The depacketizer's next atomic step; an idle or absent one has none (R35, R82). -/
def dpkTurn (n : Nat) (s : State) : State :=
  match s.nodes[n]? with
  | none => s
  | some nd =>
    match nd.dpk.work with
    | none => s
    | some w => if nd.dpk.life = Life.fresh true then continueFill n nd w s else s

end Sys2Proof.Machine
end

