-- ==== Sys2Proof/Machine/Flags.lean ====
section
/-! DEFINITION. The status values (10 R40): the CRC-16 (44 R206), the check `crc_ok` (R207) and the READY status byte (R210). -/

namespace Sys2Proof.Machine

/-- One step of the bit loop: shift left within 16 bits, and exclusive or with the polynomial when bit 15 was set (R206). -/
def crcShift (crc : BitVec 16) : BitVec 16 :=
  if crc.getLsbD 15 then (crc <<< 1) ^^^ 0x1021 else crc <<< 1

/-- Repeat a step. -/
def crcShifts : Nat → BitVec 16 → BitVec 16
  | 0, crc => crc
  | k + 1, crc => crcShifts k (crcShift crc)

/-- One byte of the CRC, most significant bit first (R206). -/
def crcByte (crc : BitVec 16) (b : Byte) : BitVec 16 :=
  crcShifts 8 (crc ^^^ (b.setWidth 16 <<< 8))

/-- `DEC.CRC16(data)`: polynomial 0x1021, initial value 0, no reflection, no final exclusive or (R206). -/
def crc16 (data : List Byte) : BitVec 16 := data.foldl crcByte 0

/-- A byte of a sequence; 0 stands for an index that never arises. -/
def byteAt (bs : List Byte) (i : Nat) : Byte := bs.getD i 0

/-- `tx`: the transmitted CRC, the last two bytes, low byte first (R105, R207). -/
def transmittedCrc (bs : List Byte) : BitVec 16 :=
  (byteAt bs (bs.length - 2)).setWidth 16 ||| ((byteAt bs (bs.length - 1)).setWidth 16 <<< 8)

/-- `xw`: the last two data bytes, high byte first (R105, R207). -/
def xorWord (bs : List Byte) : BitVec 16 :=
  ((byteAt bs (bs.length - 4)).setWidth 16 <<< 8) ||| (byteAt bs (bs.length - 3)).setWidth 16

/-- The bytes the CRC covers (R207). -/
def crcSpanOf (span : CrcSpan) (bs : List Byte) : List Byte :=
  match span with
  | .allData => bs.take (bs.length - 2)
  | .allButLastTwo => bs.take (bs.length - 4)

/-- `CrcCheck(bytes)`: fails on fewer than 4 bytes (R207). -/
def crcCheck (span : CrcSpan) (bs : List Byte) : Bool :=
  decide (4 ≤ bs.length) && decide (crc16 (crcSpanOf span bs) ^^^ xorWord bs = transmittedCrc bs)

/-- The READY status byte (R106, R210). -/
def readyStatus (c : Cfg) (crcOk : Bool) : Byte := if crcOk then 0x00 else c.readyCrcErr

end Sys2Proof.Machine
end

