-- ==== Sys2Proof/Machine/FrameDecoder.lean ====
section
/-! DEFINITION. The Frame Decoder: DEC.DECODE, DEC.DEWHITEN, DEC.CRC16 (44 R200 to R219). -/

namespace Sys2Proof.Machine

/-- The recovered bytes and `crc_ok` of a record (R201, R207, R215): a short record has no bytes, and its check fails when it
has a CRC. -/
def decodeBytes (c : Cfg) (r : DecodedFrame) : List Byte × Bool :=
  if isShort r then ([], !r.hasCrc)
  else (recoveredBytes c.w r, if r.hasCrc then crcCheck c.crcSpan (recoveredBytes c.w r) else true)

/-- The payload: the bytes without the CRC's two (R211). -/
def payloadOf (r : DecodedFrame) (bs : List Byte) : List Byte :=
  if r.hasCrc then bs.take (bs.length - 2) else bs

/-- A host frame as DEC sends it: the payload escaped, then framed (R242). -/
def sentFrame (code : Byte) (p : List Byte) : List Byte := hostFrameBytes code (escape p)

/-- The events of one invocation, in their order (R208 to R211, R219; log 32). -/
def decodeEvents (c : Cfg) (n : Nat) (r : DecodedFrame) : List Event :=
  let bs := (decodeBytes c r).1
  let ok := (decodeBytes c r).2
  (if r.hasCrc then [.crcResult n ok] else []) ++
  [.hostFrame n (sentFrame codeData bs), .hostFrame n (sentFrame codeReady [readyStatus c ok])] ++
  (if ok then
    [.payload n (payloadOf r bs), .annotatedPayload n (payloadOf r bs) (mergeAnnotations c r)]
   else [])

/-- Some element carries more than a nibble (R103, R217). -/
def hasWideNibble (r : DecodedFrame) : Bool := r.nibbles.any (fun b => decide (16 ≤ b.toNat))

/-- DEC.DECODE: decode one record (R201), the refusals in the order of R261. -/
def execDecDecode (n : Nat) (r : DecodedFrame) (s : State) : Result :=
  withNode s n fun nd => withLife nd.dec.life <|
    if hasWideNibble r then .refused .nibbleOutOfRange
    else if !isShort r && decide (s.cfg.wLen < whiteningNeed r) then .refused .whiteningIndexOutOfRange
    else .next (s.emit (decodeEvents s.cfg n r))

/-- DEC.DEWHITEN: make one byte from a nibble pair (R203). An index without a whitening byte has no result (R203, R216;
log 26). -/
def execDecDewhiten (lo hi : BitVec 4) (i : Nat) (s : State) : Result :=
  if s.cfg.wLen ≤ i then .refused .whiteningIndexOutOfRange
  else .next (s.emit [.byteResult (dewhitenWith lo hi (whiteningAt s.cfg.w i))])

/-- DEC.CRC16: the CRC-16 of a byte sequence (R206). -/
def execDecCrc16 (data : List Byte) (s : State) : Result :=
  .next (s.emit [.wordResult (crc16 data)])

end Sys2Proof.Machine
end

