-- ==== Sys2Proof/Machine/HostFraming.lean ====
section
/-! DEFINITION. The Host Framing Protocol: HFP.ESCAPE, HFP.DESCAPE, HFP.CREATE_CMD, the five commands (45 R230 to R243), and
the rows of the escape tables (30 R96, R97). All are functions; their results are events (log 27, 31). -/

namespace Sys2Proof.Machine

/-- Deliver a byte sequence as the result. -/
def giveBytes (bs : List Byte) (s : State) : Result := .next (s.emit [.bytesResult bs])

/-- Deliver a row of the escape decoder: its output and how many input bytes it consumed (R97). -/
def giveUnescaped (bs : List Byte) (consumed : Nat) (s : State) : Result :=
  .next (s.emit [.unescaped bs consumed])

/-- `create_cmd(code, payload)` as an operation: refused on a reserved code (R233). -/
def buildCommand (code : Byte) (p : List Byte) (s : State) : Result :=
  match createCmd code p with
  | none => .refused .reservedCommandCode
  | some bs => giveBytes bs s

/-- HFP.ESCAPE (R231). -/
def execHfpEscape (data : List Byte) (s : State) : Result := giveBytes (escape data) s

/-- HFP.DESCAPE (R232). -/
def execHfpDescape (data : List Byte) (s : State) : Result := giveBytes (descape data) s

/-- HFP.CREATE_CMD (R233). -/
def execHfpCreateCmd (code : Byte) (p : List Byte) (s : State) : Result := buildCommand code p s

/-- CMD.DATA (R111, R234). -/
def execCmdData (p : List Byte) (s : State) : Result := buildCommand codeData p s

/-- CMD.DETECT (R111, R238). -/
def execCmdDetect (p : List Byte) (s : State) : Result := buildCommand codeDetect p s

/-- CMD.READY (R111, R235). -/
def execCmdReady (p : List Byte) (s : State) : Result := buildCommand codeReady p s

/-- CMD.RSSI (R111, R237). -/
def execCmdRssi (p : List Byte) (s : State) : Result := buildCommand codeRssi p s

/-- CMD.SNR (R111, R236). -/
def execCmdSnr (p : List Byte) (s : State) : Result := buildCommand codeSnr p s

/-- ESC.DELIM: `C0` becomes `DB DC` (R96). -/
def execEscDelim (s : State) : Result := giveBytes [esc, escDelim] s

/-- ESC.ESC: `DB` becomes `DB DD` (R96). -/
def execEscEsc (s : State) : Result := giveBytes [esc, escEsc] s

/-- ESC.LIT: any other byte is itself (R96); `C0` and `DB` belong to the rows before it (R112; log 27). -/
def execEscLit (b : Byte) (s : State) : Result :=
  if b = delim ∨ b = esc then .refused .notThisForm else giveBytes [b] s

/-- DESC.DELIM: `DB DC` becomes `C0` (R97). -/
def execDescDelim (s : State) : Result := giveUnescaped [delim] 2 s

/-- DESC.ESC: `DB DD` becomes `DB` (R97). -/
def execDescEsc (s : State) : Result := giveUnescaped [esc] 2 s

/-- DESC.OTHER: `DB b` becomes `b` (R97); `DC` and `DD` belong to the rows before it (R112; log 27). -/
def execDescOther (b : Byte) (s : State) : Result :=
  if b = escDelim ∨ b = escEsc then .refused .notThisForm else giveUnescaped [b] 2 s

/-- DESC.TRUNC: `DB` as the last byte becomes nothing (R97). -/
def execDescTrunc (s : State) : Result := giveUnescaped [] 1 s

/-- DESC.LIT: any byte other than `DB` is itself (R97; log 27). -/
def execDescLit (b : Byte) (s : State) : Result :=
  if b = esc then .refused .notThisForm else giveUnescaped [b] 1 s

end Sys2Proof.Machine
end

