-- ==== Sys2Proof/Machine/NoiseInjector.lean ====
section
/-! DEFINITION. The Noise Injector: NSE.STEP, NSE.EOS, NSE.WORK (42 R155 to R162). -/

namespace Sys2Proof.Machine

/-- The output for sample number `k`: draws `2k` and `2k + 1` added to the real and imaginary parts (R156, R157). The free
bits of a computed NaN are those of index `c` (log 9). -/
def noisySample (fp : FpKind) (c : Nat) (q : Nse) (x : C32) : C32 :=
  ⟨fpAdd fp (Config.freeNaN c 0 0 0) x.re (noise q.seed q.sigma (2 * q.k)),
   fpAdd fp (Config.freeNaN c 0 0 1) x.im (noise q.seed q.sigma (2 * q.k + 1))⟩

/-- Forward one sample with noise added (R156), for a node whose injector may run. -/
def forwardSample (n : Nat) (nd : Node) (x : C32) (s : State) : State :=
  let t := s.setNode n { nd with nse := { nd.nse with k := nd.nse.k + 1 } }
  { t with nanCtr := t.nanCtr + 1, out := t.out ++ [.nseOut n (noisySample s.cfg.fp s.nanCtr nd.nse x)] }

/-- `NSE.STEP` (R156), with its checks (R159, R261). -/
def injectNoise (n : Nat) (x : C32) (s : State) : Result :=
  withNode s n fun nd => withLife nd.nse.life <|
    if nd.nse.eos then .refused .nseAfterEos else .next (forwardSample n nd x s)

/-- `NSE.EOS` (R159), with its checks (R261): `eos` and `done`, and the completion signal. -/
def endNoise (n : Nat) (s : State) : Result :=
  withNode s n fun nd => withLife nd.nse.life <|
    if nd.nse.eos then .refused .nseAfterEos
    else .next ((s.setNode n { nd with nse := { nd.nse with eos := true, done := true } }).emit [.nseDone n])

/-- The steps of a work cycle, one per sample (R158). -/
def injectAll (n : Nat) : List C32 → State → Result
  | [], s => .next s
  | x :: xs, s =>
    match injectNoise n x s with
    | .next t => injectAll n xs t
    | .fault r => .fault r
    | .refused r => .refused r

/-- Report how many samples a work cycle consumed (R158). -/
def reportConsumed (n j : Nat) (r : Result) : Result :=
  match r with
  | .next t => .next (t.emit [.nseConsumed n j])
  | .fault f => .fault f
  | .refused f => .refused f

/-- NSE.STEP: forward one sample with noise added (R156). -/
def execNseStep (n : Nat) (x : C32) (s : State) : Result := injectNoise n x s

/-- NSE.EOS: the input source is exhausted (R159). -/
def execNseEos (n : Nat) (s : State) : Result := endNoise n s

/-- NSE.WORK: the minimum of the samples available and the capacity is processed, the rest stays with the source (R158). A
terminated unit refuses it whatever its operands (R35; log 24). -/
def execNseWork (n : Nat) (xs : List C32) (cap : Nat) (s : State) : Result :=
  withNode s n fun nd => withLife nd.nse.life <|
    reportConsumed n (min xs.length cap) (injectAll n (xs.take (min xs.length cap)) s)

end Sys2Proof.Machine
end

