-- ==== Sys2Proof/Machine/Packetizer.lean ====
section
/-! DEFINITION. The Frame Packetizer: PKT.PUSH, PKT.EOS, PKT.WORK (40 R120 to R128). -/

namespace Sys2Proof.Machine

/-- `EmitWindow` (R122) of node `n`, whose state at that point is `nd`: the overflow test first (R127), then the send, which
raises when the receiver is dead (R128); after it the counter goes up by one and the window is empty. -/
def emitWindow (n : Nat) (nd : Node) (s : State) : Ran :=
  if nd.pkt.epoch = BitVec.allOnes 64 then
    .raised (raiseFault (.pkt n) (.epochOverflow nd.pkt.epoch) (s.setNode n nd))
  else
    match nd.tx.send ⟨nd.pkt.epoch, nd.pkt.win⟩ with
    | none => .raised (raiseFault (.pkt n) .channelDisconnected (s.setNode n nd))
    | some tx =>
      .done (s.setNode n { nd with tx := tx, pkt := { nd.pkt with epoch := nd.pkt.epoch + 1, fill := 0 } })

/-- Accept one sample (R121), for a node whose packetizer may run. -/
def acceptSample (n : Nat) (nd : Node) (x : C32) (s : State) : State :=
  let nd' := { nd with pkt := { nd.pkt with win := nd.pkt.win.set nd.pkt.fill x, fill := nd.pkt.fill + 1 } }
  if nd.pkt.fill + 1 = frameLen then
    match emitWindow n nd' s with
    | .done t => t
    | .raised t => t
  else s.setNode n nd'

/-- `done <- 1` and the completion signal (R123). -/
def signalDone (n : Nat) (s : State) : State :=
  (s.modifyNode n (fun nd => { nd with pkt := { nd.pkt with done := true } })).emit [.pktDone n]

/-- The end of the stream (R123), for a node whose packetizer may run: a window that is not empty is padded and sent first;
completion is signalled unless that raised. -/
def flushWindow (n : Nat) (nd : Node) (s : State) : State :=
  if 0 < nd.pkt.fill then
    match emitWindow n { nd with pkt := { nd.pkt with win := padWindow nd.pkt.win nd.pkt.fill } } s with
    | .done t => signalDone n t
    | .raised t => t
  else signalDone n s

/-- `PKT.PUSH` (R121), with its checks (R126, R261). -/
def pushSample (n : Nat) (x : C32) (s : State) : Result :=
  withNode s n fun nd => withLife nd.pkt.life <|
    if nd.pkt.done then .refused .pktAfterDone else .next (acceptSample n nd x s)

/-- `PKT.EOS` (R123), with its checks (R126, R261). -/
def endStream (n : Nat) (s : State) : Result :=
  withNode s n fun nd => withLife nd.pkt.life <|
    if nd.pkt.done then .refused .pktAfterDone else .next (flushWindow n nd s)

/-- The packetizer of node `n` is RUNNING. -/
def pktRunning (n : Nat) (s : State) : Bool :=
  match s.nodes[n]? with
  | some nd => nd.pkt.life.status = .running
  | none => false

/-- The pushes of a work cycle, then its EOS (R124). A fault ends the cycle: the samples after it are not consumed. -/
def pushAll (n : Nat) : List C32 → Bool → State → Result
  | [], eos, s => if eos then endStream n s else .next s
  | x :: xs, eos, s =>
    match pushSample n x s with
    | .next t => if pktRunning n t then pushAll n xs eos t else .next t
    | .fault r => .fault r
    | .refused r => .refused r

/-- PKT.PUSH: accept one sample (R121). -/
def execPktPush (n : Nat) (x : C32) (s : State) : Result := pushSample n x s

/-- PKT.EOS: the upstream source signals exhaustion (R123). -/
def execPktEos (n : Nat) (s : State) : Result := endStream n s

/-- PKT.WORK: one work cycle (R124). A terminated unit refuses it whatever its operands (R35; log 24). -/
def execPktWork (n : Nat) (xs : List C32) (eos : Bool) (s : State) : Result :=
  withNode s n fun nd => withLife nd.pkt.life (pushAll n xs eos s)

/-! ## The atomic steps of a work cycle (R82) -/

/-- Keep what is left of the work cycle of node `n`. -/
def setPktWork (n : Nat) (w : Option PktWork) (s : State) : State :=
  s.modifyNode n (fun nd => { nd with pkt := { nd.pkt with work := w } })

/-- The start of PKT.WORK: the checks of its first operation (R126, R261), and the batch is kept; its pushes are turns. A
batch with nothing in it changes nothing (R124). -/
def startPktWork (n : Nat) (xs : List C32) (eos : Bool) (s : State) : Result :=
  withNode s n fun nd => withLife nd.pkt.life <|
    if xs.isEmpty && !eos then .next s
    else if nd.pkt.done then .refused .pktAfterDone
    else .next (setPktWork n (some ⟨xs, eos⟩) s)

/-- One atomic step of a work cycle: the pushes up to the next emission, that one included, or to the end of the batch and
its EOS (R82, R124). A fault ends the cycle. -/
def pktAdvance (n : Nat) : List C32 → Bool → State → State
  | [], eos, s =>
    match s.nodes[n]? with
    | none => s
    | some nd => setPktWork n none (if eos then flushWindow n nd s else s)
  | x :: xs, eos, s =>
    match s.nodes[n]? with
    | none => s
    | some nd =>
      if nd.pkt.fill + 1 = frameLen then
        if pktRunning n (acceptSample n nd x s) then setPktWork n (some ⟨xs, eos⟩) (acceptSample n nd x s)
        else acceptSample n nd x s
      else pktAdvance n xs eos (acceptSample n nd x s)

/-- The packetizer's next atomic step; an idle, terminated or absent one has none (R35, R82). -/
def pktTurn (n : Nat) (s : State) : State :=
  match s.nodes[n]? with
  | none => s
  | some nd =>
    match nd.pkt.work with
    | none => s
    | some w => if nd.pkt.life = Life.fresh true then pktAdvance n w.rest w.eos s else s

end Sys2Proof.Machine
end

