-- ==== Sys2Proof/Machine/WireShape.lean ====
section
/-! DEFINITION. The IqFrame wire shape as an instruction: IQFRAME (30 R91, R92). -/

namespace Sys2Proof.Machine

/-- IQFRAME: the 8200 bytes stand for the frame they lay out (R91), which is the result; the decoder has read it (log 28). -/
def execIqFrame (f : IqFrame) (s : State) : Result := .next (s.emit [.frameResult f])

end Sys2Proof.Machine
end

