-- ==== Sys2Proof/Machine/Dispatch.lean ====
section
/-! DEFINITION. The meaning of every instruction, one arm per row of spec/opcode_table.json, in the table's order. -/

namespace Sys2Proof.Machine

def exec (i : Instr) (s : State) : Host.Outcome State Fault Refusal :=
  match i with
  | .cmdData p => Sys2Proof.Machine.execCmdData p s
  | .cmdDetect p => Sys2Proof.Machine.execCmdDetect p s
  | .cmdReady p => Sys2Proof.Machine.execCmdReady p s
  | .cmdRssi p => Sys2Proof.Machine.execCmdRssi p s
  | .cmdSnr p => Sys2Proof.Machine.execCmdSnr p s
  | .escDelim => Sys2Proof.Machine.execEscDelim s
  | .escEsc => Sys2Proof.Machine.execEscEsc s
  | .escLit b => Sys2Proof.Machine.execEscLit b s
  | .descDelim => Sys2Proof.Machine.execDescDelim s
  | .descEsc => Sys2Proof.Machine.execDescEsc s
  | .descOther b => Sys2Proof.Machine.execDescOther b s
  | .descTrunc => Sys2Proof.Machine.execDescTrunc s
  | .descLit b => Sys2Proof.Machine.execDescLit b s
  | .iqFrame f => Sys2Proof.Machine.execIqFrame f s
  | .pktPush n x => Sys2Proof.Machine.execPktPush n x s
  | .pktEos n => Sys2Proof.Machine.execPktEos n s
  | .pktWork n xs eos => Sys2Proof.Machine.execPktWork n xs eos s
  | .dpkWork n m => Sys2Proof.Machine.execDpkWork n m s
  | .dpkPull n => Sys2Proof.Machine.execDpkPull n s
  | .nseStep n x => Sys2Proof.Machine.execNseStep n x s
  | .nseEos n => Sys2Proof.Machine.execNseEos n s
  | .nseWork n xs cap => Sys2Proof.Machine.execNseWork n xs cap s
  | .cmbRecv => Sys2Proof.Machine.execCmbRecv s
  | .cmbCheck => Sys2Proof.Machine.execCmbCheck s
  | .cmbCombine e => Sys2Proof.Machine.execCmbCombine e s
  | .decDecode n r => Sys2Proof.Machine.execDecDecode n r s
  | .decDewhiten lo hi j => Sys2Proof.Machine.execDecDewhiten lo hi j s
  | .decCrc16 data => Sys2Proof.Machine.execDecCrc16 data s
  | .hfpEscape data => Sys2Proof.Machine.execHfpEscape data s
  | .hfpDescape data => Sys2Proof.Machine.execHfpDescape data s
  | .hfpCreateCmd code p => Sys2Proof.Machine.execHfpCreateCmd code p s

end Sys2Proof.Machine
end

