-- ==== Sys2Proof/Machine/Environment.lean ====
section
/-! DEFINITION. What the environment does to the block besides invoking operations (10 R42, 20 R70, 43 R180, 60 R257): sending
and receiving on an external channel, closing an end it owns, removing a unit. These are no rows of the opcode table (log 21). -/

namespace Sys2Proof.Machine

/-- The units whose channel ends one channel has, in a wiring: sender, receiver (R3, R4, R34). In the direct wiring there is
no `RX` channel. -/
def ownersPresent (s : State) (nd : Node) : ChanId → Option (Bool × Bool)
  | .tx _ =>
    match s.cfg.wiring with
    | .combined => some (nd.pkt.life.present, s.cmb.life.present)
    | .direct => some (nd.pkt.life.present, nd.dpk.life.present)
  | .rx _ =>
    match s.cfg.wiring with
    | .combined => some (s.cmb.life.present, nd.dpk.life.present)
    | .direct => none

/-- The node of a channel. -/
def ChanId.node : ChanId → Nat
  | .tx n => n
  | .rx n => n

/-- A node's channel. -/
def Node.chan (nd : Node) : ChanId → Chan
  | .tx _ => nd.tx
  | .rx _ => nd.rx

/-- Replace a node's channel. -/
def Node.setChan (nd : Node) (c : ChanId) (ch : Chan) : Node :=
  match c with
  | .tx _ => { nd with tx := ch }
  | .rx _ => { nd with rx := ch }

/-- The environment owns an end that no unit of the block owns and that has not died (R42, R70). -/
def envOwns (s : State) (nd : Node) (c : ChanId) (e : End) : Bool :=
  match ownersPresent s nd c with
  | none => false
  | some (tx, rx) =>
    match e with
    | .sender => !tx && (nd.chan c).txAlive
    | .receiver => !rx && (nd.chan c).rxAlive

/-- Go on with the channel's node if the environment owns the end (R78). -/
def withEnvEnd (c : ChanId) (e : End) (s : State) (k : Node → Result) : Result :=
  withNode s c.node fun nd =>
    if envOwns s nd c e then k nd else .refused .notEnvironmentsEnd

/-- The environment sends a frame, given in its wire shape (R67, R91). To a dead receiver the send fails, and nothing in the
block changes. -/
def envSend (c : ChanId) (wire : List Byte) (s : State) : Result :=
  withEnvEnd c .sender s fun nd =>
    match frameOf wire with
    | .error why => .refused (.undecodable why)
    | .ok f =>
      match (nd.chan c).send f with
      | none => .next s
      | some ch => .next (s.setNode c.node (nd.setChan c ch))

/-- The environment tries to receive a frame, which it gets in its wire shape (R68, R91). -/
def envRecv (c : ChanId) (s : State) : Result :=
  withEnvEnd c .receiver s fun nd =>
    match (nd.chan c).tryRecv with
    | none => .next s
    | some (f, ch) => .next ((s.setNode c.node (nd.setChan c ch)).emit [.wireOut c (frameBytes f)])

/-- The environment closes an end it owns (R70). -/
def envClose (c : ChanId) (e : End) (s : State) : Result :=
  withEnvEnd c e s fun nd =>
    match e with
    | .sender => .next (s.setNode c.node (nd.setChan c { nd.chan c with txAlive := false }))
    | .receiver => .next (s.setNode c.node (nd.setChan c { nd.chan c with rxAlive := false }))

/-- The life of a unit, if there is such an instance. -/
def lifeOf (u : UnitId) (s : State) : Option Life :=
  match u with
  | .pkt n => (s.nodes[n]?).map (fun nd => nd.pkt.life)
  | .dpk n => (s.nodes[n]?).map (fun nd => nd.dpk.life)
  | .nse n => (s.nodes[n]?).map (fun nd => nd.nse.life)
  | .dec n => (s.nodes[n]?).map (fun nd => nd.dec.life)
  | .cmb => some s.cmb.life

/-- The environment removes a unit: it does not exist any more, and its channel ends die (R70, R126, R257). -/
def removeUnit (u : UnitId) (s : State) : Result :=
  match lifeOf u s with
  | none => .refused .noSuchInstance
  | some l =>
    if l.present then .next (killEnds u (mapLife u (fun l => { l with present := false }) s))
    else .refused .unitAbsent

end Sys2Proof.Machine
end

