-- ==== Sys2Proof/Machine/Fetch.lean ====
section
/-! DEFINITION. What one entry of the inbox does (log 14): invoke the operation its bytes encode, whole or step by step, let a
unit take its next atomic step (20 R82), or let the environment act. -/

namespace Sys2Proof.Machine

/-- Invoke the operation that the bytes encode in their format; bytes that encode none are refused by name. -/
def invoke (f : Format) (bs : List Byte) (s : State) : Result :=
  match decode f bs with
  | .error why => .refused (.undecodable why)
  | .ok i => exec i s

/-- Start an operation whose atomic steps are then turns of its unit (R82; log 18). Only PKT.WORK and DPK.WORK have more than
one; the combiner's checks are its own turns. -/
def startOp (i : Instr) (s : State) : Result :=
  match i with
  | .pktWork n xs eos => startPktWork n xs eos s
  | .dpkWork n m => startDpkWork n m s
  | i => exec i s

/-- Start the operation that the bytes encode in their format. -/
def start (f : Format) (bs : List Byte) (s : State) : Result :=
  match decode f bs with
  | .error why => .refused (.undecodable why)
  | .ok i => startOp i s

/-- A unit's next atomic step (R82). An operation of NSE or DEC is one atomic step, so those units have none of their own. -/
def unitTurn (u : UnitId) (s : State) : State :=
  match u with
  | .pkt n => pktTurn n s
  | .dpk n => dpkTurn n s
  | .nse _ => s
  | .dec _ => s
  | .cmb => combinerTurn s

/-- The packetizer or depacketizer whose state an operation uses. -/
def usesUnit : Instr → Option UnitId
  | .pktPush n _ => some (.pkt n)
  | .pktEos n => some (.pkt n)
  | .pktWork n _ _ => some (.pkt n)
  | .dpkWork n _ => some (.dpk n)
  | .dpkPull n => some (.dpk n)
  | _ => none

/-- A unit has an operation in progress. -/
def isBusy (u : UnitId) (s : State) : Bool :=
  match u with
  | .pkt n => (s.nodes[n]?).any (fun nd => nd.pkt.work.isSome)
  | .dpk n => (s.nodes[n]?).any (fun nd => nd.dpk.work.isSome)
  | .nse _ => false
  | .dec _ => false
  | .cmb => false

/-- The unit that the operation of some bytes uses, if it is busy. -/
def busyUnit (f : Format) (bs : List Byte) (s : State) : Option UnitId :=
  match decode f bs with
  | .error _ => none
  | .ok i => (usesUnit i).filter (fun u => isBusy u s)

/-- The busy unit that an invocation waits for: the steps of one unit happen in order (R74), so its operations do not overlap
(log 33). -/
def waitsFor (slot : Slot) (s : State) : Option UnitId :=
  match slot with
  | .invoke f bs => busyUnit f bs s
  | .start f bs => busyUnit f bs s
  | .turn _ => none
  | .envSend _ _ => none
  | .envRecv _ => none
  | .envClose _ _ => none
  | .remove _ => none

/-- What one entry of the inbox does. -/
def runSlot (slot : Slot) (s : State) : Result :=
  match slot with
  | .invoke f bs => invoke f bs s
  | .start f bs => start f bs s
  | .turn u => .next (unitTurn u s)
  | .envSend c wire => envSend c wire s
  | .envRecv c => envRecv c s
  | .envClose c e => envClose c e s
  | .remove u => removeUnit u s

end Sys2Proof.Machine
end

