-- ==== Sys2Proof/Machine/Step.lean ====
section
/-! DEFINITION. One step of the block (00 R10 to R13; log 14, 15), and where an instruction word stands to be run next. -/

namespace Sys2Proof.Machine

/-- One step: the first entry of the inbox, which is taken out of it, or, when nothing is waiting there, the autonomous
combiner's next atomic step (R11). While the entry waits for a busy unit, that unit takes its next atomic step and the entry
stays (log 33). -/
def step (s : State) : Host.Outcome State Fault Refusal :=
  match s.inbox with
  | [] => .next (combinerTurn s)
  | slot :: rest =>
    match waitsFor slot s with
    | some u => .next (unitTurn u s)
    | none => runSlot slot { s with inbox := rest }

/-- The state with the instruction of a table word standing first in the inbox, so that the next step runs exactly it
(log 13, 14). -/
def State.withFetchWord (s : State) (nbits w : Nat) : State :=
  { s with inbox := .invoke (tableBytes nbits w).1 (tableBytes nbits w).2 :: s.inbox }

end Sys2Proof.Machine
end

