-- ==== Sys2Proof/Machine/Construct.lean ====
section
/-! DEFINITION. Construction, which is the block's only reset, with its checks (70 R280 to R282). -/

namespace Sys2Proof.Machine

/-- `DIST` has `N_NODES` rows and columns of finite values >= 0 (R29, R282). -/
def validDist (nNodes : Nat) (dist : List (List F32)) : Bool :=
  decide (dist.length = nNodes) &&
    dist.all (fun row => decide (row.length = nNodes) && row.all F32.isNonneg)

/-- The checks of R282. That there is one `SIGMA` and one `SEED` per node is what R8 writes as `SIGMA[n]`, `SEED[n]`
(log 30). -/
def validParams (p : Params) : Bool :=
  decide (1 ≤ p.nNodes) && validDist p.nNodes p.dist &&
  decide (p.sigma.length = p.nNodes) && p.sigma.all F32.isNonneg && decide (p.seed.length = p.nNodes) &&
  (p.readyCrcErr != 0) &&
  (p.keyCr != p.keyHasCrc) && (p.keyCr != p.keyImplHdr) && (p.keyHasCrc != p.keyImplHdr) &&
  decide (p.w.length = p.wLen)

/-- Build the block from its parameters, or refuse them (R280, R282). -/
def construct (p : Params) : Result :=
  if validParams p then .next (State.construct p) else .refused .invalidConfiguration

end Sys2Proof.Machine
end

