-- ==== Sys2Proof/Safety.lean ====
section
/-! DEFINITION. What counts as a legal state: the invariants the spec states of the block's state (10 R23 to R29, R34, R35,
R39, 41 R146, 70 R282), and the regime of aligned streams (43 R186). -/

namespace Sys2Proof.Machine

/-- Every queued frame holds 1024 samples (R22). -/
abbrev Chan.Wf (c : Chan) : Prop := ∀ f ∈ c.q, f.wf

/-- A legal packetizer (R23, R35), with its channel `TX[n]`; only one that may run has a work cycle in progress (R82). -/
structure Pkt.Inv (p : Pkt) (tx : Chan) : Prop where
  win : p.win.length = frameLen
  fill : p.life.status = .running → p.fill < frameLen
  fillMax : p.fill ≤ frameLen
  alive : p.life.present = true → (tx.txAlive = true ↔ p.life.status = .running)
  work : p.work ≠ none → p.life = Life.fresh true ∧ p.done = false

/-- A legal depacketizer (R25, R146), with its inbound channel. -/
structure Dpk.Inv (q : Dpk) (c : Chan) : Prop where
  rd : q.rd ≤ frameLen
  fresh : q.cur = none → q.rd = frameLen
  cur : ∀ f, q.cur = some f → f.wf
  running : q.life.status = .running
  alive : q.life.present = true → c.rxAlive = true
  work : q.work ≠ none → q.life.present = true

/-- A legal noise injector (R26, R159, R162). -/
structure Nse.Inv (q : Nse) : Prop where
  sigma : F32.isNonneg q.sigma = true
  done : q.done = q.eos
  running : q.life.status = .running

/-- A legal node. -/
structure Node.Inv (w : Wiring) (nd : Node) : Prop where
  pkt : nd.pkt.Inv nd.tx
  dpk : nd.dpk.Inv (nd.dpkIn w)
  nse : nd.nse.Inv
  dec : nd.dec.life.status = .running
  tx : nd.tx.Wf
  rx : nd.rx.Wf

/-- A legal entry set under the key `e` (R28): not empty, every frame with that epoch, senders in range, none twice. -/
structure EntriesInv (nNodes : Nat) (e : Epoch) (es : List Entry) : Prop where
  nonempty : es ≠ []
  entry : ∀ x ∈ es, x.frame.epoch = e ∧ x.frame.wf ∧ x.sender < nNodes
  senders : (es.map Entry.sender).Nodup

/-- A legal pending buffer: keys rise strictly, entry sets are legal (R27, R28). -/
structure BufInv (nNodes : Nat) (b : Buf) : Prop where
  keys : (b.map Prod.fst).Pairwise (· < ·)
  sets : ∀ kv ∈ b, EntriesInv nNodes kv.1 kv.2

/-- A legal combiner (R27, R29, R35), with its channel ends. -/
structure CmbInv (s : State) : Prop where
  buf : BufInv s.nNodes s.cmb.buf
  rr : s.cmb.rr < s.nNodes
  check : s.cmb.phase = .check → s.cmb.rr = 0 ∧ s.cmb.buf ≠ []
  recv : s.cmb.phase = .recv → s.cmb.sent = 0
  sent : s.cmb.sent ≤ s.nNodes
  sending : 0 < s.cmb.sent → readyEpoch s ≠ none
  dist : validDist s.nNodes s.cmb.dist = true
  alive : s.cmb.life.present = true → ∀ nd ∈ s.nodes,
    (nd.tx.rxAlive = true ↔ s.cmb.life.status = .running) ∧ (nd.rx.txAlive = true ↔ s.cmb.life.status = .running)
  direct : s.cfg.wiring = .direct → s.cmb.life.present = false

/-- A legal configuration of the decoder (R36, R282). -/
structure Cfg.Inv (c : Cfg) : Prop where
  err : c.readyCrcErr ≠ 0
  key12 : c.keyCr ≠ c.keyHasCrc
  key13 : c.keyCr ≠ c.keyImplHdr
  key23 : c.keyHasCrc ≠ c.keyImplHdr

/-- A legal state of the block. -/
structure State.Inv (s : State) : Prop where
  cfg : s.cfg.Inv
  node : ∀ nd ∈ s.nodes, nd.Inv s.cfg.wiring
  cmb : CmbInv s

/-- How many frames of transmitter `m` the combiner has taken when it has completed `i` outer iterations and stands where it
does in iteration `i` (R171, R186). -/
def framesTaken (s : State) (i m : Nat) : Nat :=
  match s.cmb.phase with
  | .check => i + 1
  | .recv => if m < s.cmb.rr then i + 1 else i

/-- The regime of aligned streams after `i` outer iterations (R186): the block goes through its combiner, every end that a
packetizer or the combiner had is theirs or dead, every `TX[m]` holds the consecutive epochs its packetizer sent, the buffer
holds at most the one key `i` with its entries in ascending sender order, and every `RX[r]` holds strictly rising epochs
below the next one to be sent there (R180). -/
structure Aligned (s : State) (i : Nat) : Prop where
  wiring : s.cfg.wiring = .combined
  ends : ∀ nd ∈ s.nodes,
    (nd.pkt.life.present = true ∨ nd.tx.txAlive = false) ∧
    (s.cmb.life.present = true ∨ (nd.tx.rxAlive = false ∧ nd.rx.txAlive = false))
  tx : ∀ m nd, s.nodes[m]? = some nd →
    nd.tx.q.map (fun f => f.epoch.toNat) = List.range' (framesTaken s i m) nd.tx.q.length ∧
    nd.pkt.epoch.toNat = framesTaken s i m + nd.tx.q.length
  empty : s.cmb.phase = .recv → s.cmb.rr = 0 → s.cmb.buf = []
  partly : s.cmb.phase = .recv → 0 < s.cmb.rr →
    ∃ es, s.cmb.buf = [(BitVec.ofNat 64 i, es)] ∧ es.map Entry.sender = List.range s.cmb.rr
  full : s.cmb.phase = .check →
    ∃ es, s.cmb.buf = [(BitVec.ofNat 64 i, es)] ∧ es.map Entry.sender = List.range s.nNodes
  rx : ∀ r nd, s.nodes[r]? = some nd →
    (nd.rx.q.map (fun f => f.epoch.toNat)).Pairwise (· < ·) ∧
    ∀ f ∈ nd.rx.q, f.epoch.toNat < (if s.cmb.phase = .check ∧ r < s.cmb.sent then i + 1 else i)

/-- A run is safe as long as no unit has terminated and the fault record is empty (R250, R256). -/
structure State.Safe (s : State) : Prop where
  cmb : s.cmb.life.status = .running
  node : ∀ nd ∈ s.nodes, nd.pkt.life.status = .running ∧ nd.dpk.life.status = .running ∧
    nd.nse.life.status = .running ∧ nd.dec.life.status = .running
  faults : s.faults = []

end Sys2Proof.Machine
end

