-- ==== Sys2Proof/Certificates/Slice0/Obligations.lean ====
section
/-! DEFINITION. The statements for the provers. Each docstring names the rules of spec/ it formalises; OBLIGATIONS.json lists
them. Every statement holds for every configuration, inbox and free value. -/

namespace Sys2Proof.Machine

/-- The samples a depacketizer still has to output, in order: the rest of its current frame, then the queued frames
(R141, R143). -/
def pendingSamples (q : Dpk) (c : Chan) : List C32 :=
  (match q.cur with
    | some f => f.samples.drop q.rd
    | none => []) ++ c.q.flatMap IqFrame.samples

/-- Node `r` after the combined frame of epoch `e` was sent to it as the `r`-th receiver of one combine (R174, R177). -/
def nodeServed (s : State) (e : Epoch) (es : List Entry) (r : Nat) (nd : Node) : Node :=
  { nd with rx := { nd.rx with q := nd.rx.q ++ [combinedFrame { s with nanCtr := s.nanCtr + r } e es r] } }

/-- The value of one output sample: the entries' contributions from place `j` on, in list order; one contribution is the
product of `(g, g)` and the sample `x`, each operation rounded by itself, `pr = g x.re - g x.im` and `pi = g x.im + g x.re`
(R174, R176; the last argument of `freeNaN` numbers the operations, log 9). -/
def sampleSum (s : State) (r i : Nat) : Nat → List Entry → C32 → C32
  | _, [], o => o
  | j, e :: es, o =>
    let fp := s.cfg.fp
    let free := Config.freeNaN s.nanCtr j i
    let x := e.frame.samples.getD i ⟨0, 0⟩
    let g := fpCoeff fp ((s.cmb.dist.getD e.sender []).getD r 0)
    let pr := fpSub fp (free 2) (fpMul fp (free 0) g x.re) (fpMul fp (free 1) g x.im)
    let pi := fpAdd fp (free 3) (fpMul fp (free 1) g x.im) (fpMul fp (free 0) g x.re)
    sampleSum s r i (j + 1) es ⟨fpAdd fp (free 4) o.re pr, fpAdd fp (free 5) o.im pi⟩

/-- The samples the depacketizer of node `n` has handed out: its events, and the output so far of a work cycle in progress. -/
def handedOut (n : Nat) (s : State) : List C32 :=
  s.out.flatMap (fun ev => match ev with
    | .dpkOut m xs => if m = n then xs else []
    | _ => []) ++
  (match (s.nodes[n]?).bind (fun nd => nd.dpk.work) with
    | some w => w.out
    | none => [])

/-- A step of the depacketizer of node `n` that takes `k` frames from its channel: what was pending has been handed out, in
order and with silence after it, or is still pending (R72, R143). -/
def TakenByDpk (s t : State) (n : Nat) (nd nd' : Node) : Prop :=
  ∃ k j z : Nat,
    let c := nd.dpkIn s.cfg.wiring
    let c' := nd'.dpkIn s.cfg.wiring
    let pending := pendingSamples nd.dpk c
    c'.q = c.q.drop k ∧ handedOut n t = handedOut n s ++ pending.take j ++ List.replicate z ⟨0, 0⟩ ∧
    pendingSamples nd'.dpk c' = pending.drop j

/-- The queues of node `m`, before (`nd`) and after (`nd'`) the next atomic step of a unit (R82): a packetizer may add one frame,
of its current epoch, to its own `TX`; a depacketizer may take the oldest frame of its own inbound channel, which becomes its
current frame; the combiner, while receiving, may take the oldest frame of `TX[rr]`, and while sending may add the combined
frame to the `RX` of its next receiver; NSE and DEC touch no channel. -/
def QueuesAfterTurn (s : State) (u : UnitId) (m : Nat) (nd nd' : Node) : Prop :=
  match u with
  | .pkt n => nd'.rx.q = nd.rx.q ∧
    (nd'.tx.q = nd.tx.q ∨ m = n ∧ ∃ f : IqFrame, f.epoch = nd.pkt.epoch ∧ nd'.tx.q = nd.tx.q ++ [f])
  | .dpk n =>
    (s.cfg.wiring = .combined → nd'.tx.q = nd.tx.q) ∧ (s.cfg.wiring = .direct → nd'.rx.q = nd.rx.q) ∧
    ((nd'.dpkIn s.cfg.wiring).q = (nd.dpkIn s.cfg.wiring).q ∨
      m = n ∧ ∃ f, (nd.dpkIn s.cfg.wiring).q = f :: (nd'.dpkIn s.cfg.wiring).q ∧ nd'.dpk.cur = some f)
  | .nse _ => nd'.tx.q = nd.tx.q ∧ nd'.rx.q = nd.rx.q
  | .dec _ => nd'.tx.q = nd.tx.q ∧ nd'.rx.q = nd.rx.q
  | .cmb =>
    (nd'.tx.q = nd.tx.q ∨ s.cmb.phase = .recv ∧ m = s.cmb.rr ∧ ∃ f, nd.tx.q = f :: nd'.tx.q) ∧
    (nd'.rx.q = nd.rx.q ∨ s.cmb.phase = .check ∧ m = s.cmb.sent ∧
      ∃ e es, readyEpoch s = some (e, es) ∧ nd'.rx.q = nd.rx.q ++ [combinedFrame s e es m])

/-- The finite pattern `r` is the binary32 value nearest to `v`, ties to even, where `r` counts in units of `u` (R312). -/
def NearestEven (u v : Int) (r : F32) : Prop :=
  F32.isFinite r = true ∧
  ∀ y, F32.isFinite y = true →
    (u * F32.val r - v).natAbs ≤ (u * F32.val y - v).natAbs ∧
    ((u * F32.val r - v).natAbs = (u * F32.val y - v).natAbs → F32.val y ≠ F32.val r → F32.mag r % 2 = 0)

/-- `r` is the sum of `a` and the value with sign `sb` and, if finite, `vb` units of 2^-149, that the pattern `b` stands for
up to its sign (R312 items 1, 3, 5, 6). -/
def SumRule (a b : F32) (sb : Bool) (vb : Int) (r : F32) : Prop :=
  (F32.isNaN a = true ∨ F32.isNaN b = true ∨ (F32.isInf a = true ∧ F32.isInf b = true ∧ F32.sign a ≠ sb) →
    F32.isNaN r = true) ∧
  (F32.isInf a = true → F32.isNaN b = false → (F32.isInf b = true → F32.sign a = sb) → r = a) ∧
  (F32.isFinite a = true → F32.isInf b = true → r = F32.inf sb) ∧
  (F32.isFinite a = true → F32.isFinite b = true →
    let v := F32.val a + vb
    (v = 0 → r = if F32.sign a = true ∧ sb = true then 0x80000000 else 0) ∧
    (v.natAbs < (2 ^ 25 - 1) * 2 ^ 252 → NearestEven 1 v r) ∧
    ((2 ^ 25 - 1) * 2 ^ 252 ≤ v.natAbs → r = F32.inf (decide (v < 0))))

/-- The two nibbles of a byte after whitening with `v`, low first (R103, R104, R203). -/
def whitenedNibbles (b v : Byte) : List Byte := [(b ^^^ v) &&& 0x0F, (b ^^^ v) >>> 4]

/-- The nibbles of a byte sequence, whitened from index `i` on (R204, R205). -/
def transmittedNibbles (w : List Byte) : Nat → List Byte → List Byte
  | _, [] => []
  | i, b :: bs => whitenedNibbles b (w.getD i 0) ++ transmittedNibbles w (i + 1) bs

/-- The transmitted CRC of a payload of at least two bytes: the CRC over the span, exclusive or the last two bytes with the
first of them high (R105, R207). -/
def sealWord (span : CrcSpan) (p : List Byte) : BitVec 16 :=
  crc16 (match span with
    | .allData => p
    | .allButLastTwo => p.take (p.length - 2)) ^^^
  (((p.getD (p.length - 2) 0).setWidth 16 <<< 8) ||| (p.getD (p.length - 1) 0).setWidth 16)

/-- A payload with its CRC, low byte first (R105, R207). -/
def sealedPayload (span : CrcSpan) (p : List Byte) : List Byte :=
  p ++ [(sealWord span p).setWidth 8, (sealWord span p >>> 8).setWidth 8]

end Sys2Proof.Machine

open Sys2Proof Sys2Proof.Machine

/-! ## Encoding -/

/-- Decoding the encoding of a well-formed instruction, in its format, gives it back (R91, R93, R96, R97, R109; the operand
bytes of format OP are the model's own, log 12). -/
def Obligations.DecodeEncodeRoundTrip : Prop :=
  ∀ i : Instr, i.wellFormed = true → decode i.format (encode i) = .ok i

/-- Bytes that decode are the encoding of what they decode to, which is well formed: no byte string has a second reading in
one format (R100; log 12). -/
def Obligations.DecodedBytesAreTheEncoding : Prop :=
  ∀ (f : Format) (bs : List Byte) (i : Instr), decode f bs = .ok i →
    i.wellFormed = true ∧ i.format = f ∧ encode i = bs

/-- A few words written out from the spec's tables decode to their rows (R95, R96, R97, R109). -/
def Obligations.SpecWordsDecode : Prop :=
  decode .hf [0xC0, 0x0F, 0x00, 0xC0] = .ok (.cmdReady [0x00]) ∧
  decode .hf [0xC0, 0x24, 0x05, 0xC0] = .ok (.cmdSnr [0x05]) ∧
  decode .escEnc [0xC0] = .ok .escDelim ∧
  decode .escDec [0xDB, 0xDC] = .ok .descDelim ∧
  decode .escDec [0xDB, 0x41] = .ok (.descOther 0x41) ∧
  decode .escDec [0xDB] = .ok .descTrunc ∧
  decodeTableWord 8 0x30 = some .cmbRecv ∧
  decodeTableWord 8 0x02 = some (.pktEos 0) ∧
  decodeTableWord 16 0xC008 = some (.cmdDetect [])

/-- The wire shape of a frame: 8200 bytes; the epoch first, then for each sample the real and the imaginary part, each with
its low byte first (R91, R92). -/
def Obligations.WireShapeLayout : Prop :=
  ∀ f : IqFrame, f.wf →
    (frameBytes f).length = 8200 ∧
    (∀ k, k < 8 → (frameBytes f)[k]? = some (f.epoch.extractLsb' (8 * k) 8)) ∧
    (∀ (i : Nat) (x : C32), f.samples[i]? = some x → ∀ k, k < 4 →
      (frameBytes f)[8 + 8 * i + k]? = some (x.re.extractLsb' (8 * k) 8) ∧
      (frameBytes f)[12 + 8 * i + k]? = some (x.im.extractLsb' (8 * k) 8))

/-! ## The step, the invariant, construction -/

/-- A step whose next inbox entry invokes bytes that decode to an instruction is that instruction's meaning, in the state
with the entry taken out (log 14). While the packetizer or depacketizer that the instruction uses has an operation in progress,
the step is that unit's next atomic step and the entry stays (R74; log 33). -/
def Obligations.StepRunsDecodedInstruction : Prop :=
  ∀ (s : State) (f : Format) (bs : List Byte) (rest : List Slot) (i : Instr),
    s.inbox = .invoke f bs :: rest → decode f bs = .ok i →
    ((∀ u, usesUnit i = some u → isBusy u s = false) → step s = exec i { s with inbox := rest }) ∧
    ∀ u, usesUnit i = some u → isBusy u s = true →
      step s = .next (unitTurn u s) ∧ (unitTurn u s).inbox = s.inbox

/-- No step stops the block with a fault: a fault terminates its unit and the block goes on (R255). -/
def Obligations.StepNeverStopsOnFault : Prop :=
  ∀ (s : State) (r : Fault), step s ≠ .fault r

/-- Every step keeps a legal state legal (R23 to R29, R34, R35, R146). -/
def Obligations.StepKeepsLegalState : Prop :=
  ∀ s t : State, s.Inv → step s = .next t → t.Inv

/-- Construction from any parameters it accepts gives a legal state, and one that starts in the regime of aligned streams when
it is built with its packetizers and its combiner (R186, R280 to R282). -/
def Obligations.ConstructionGivesLegalState : Prop :=
  ∀ (p : Params) (s : State), construct p = .next s →
    s.Inv ∧ (p.wiring = .combined → p.hasPkt = true → p.hasCmb = true → Aligned s 0)

/-- The state after reset, built from the parameters the model chose (log 1 to 6, 21), is legal. -/
def Obligations.ResetStateIsLegal : Prop :=
  State.reset.Inv ∧ construct Config.resetParams = .next State.reset

/-- R39: every piece of state after construction has its reset value (the window's contents are unspecified there and not
stated). -/
def Obligations.ConstructionSetsResetValues : Prop :=
  ∀ (p : Params) (s : State), construct p = .next s →
    s.nodes.length = p.nNodes ∧
    (∀ (n : Nat) (nd : Node), s.nodes[n]? = some nd →
      nd.pkt.epoch = 0 ∧ nd.pkt.fill = 0 ∧ nd.pkt.win.length = 1024 ∧ nd.pkt.done = false ∧
      nd.dpk.cur = none ∧ nd.dpk.rd = 1024 ∧
      p.sigma[n]? = some nd.nse.sigma ∧ p.seed[n]? = some nd.nse.seed ∧
      nd.nse.k = 0 ∧ nd.nse.eos = false ∧ nd.nse.done = false ∧
      nd.tx.q = [] ∧ nd.tx.txAlive = true ∧ nd.tx.rxAlive = true ∧
      nd.rx.q = [] ∧ nd.rx.txAlive = true ∧ nd.rx.rxAlive = true ∧
      nd.pkt.life.status = .running ∧ nd.dpk.life.status = .running ∧
      nd.nse.life.status = .running ∧ nd.dec.life.status = .running) ∧
    s.cmb.buf = [] ∧ s.cmb.rr = 0 ∧ s.cmb.phase = .recv ∧ s.cmb.dist = p.dist ∧ s.cmb.life.status = .running

/-- R282: construction is refused exactly when one of its checks fails (for parameters with one standard deviation and one
seed per node, as R8 writes them). -/
def Obligations.ConstructionChecksParameters : Prop :=
  ∀ p : Params, p.sigma.length = p.nNodes → p.seed.length = p.nNodes →
    (construct p = .refused .invalidConfiguration ↔
      ¬ (1 ≤ p.nNodes ∧
        p.dist.length = p.nNodes ∧ (∀ row ∈ p.dist, row.length = p.nNodes ∧ ∀ d ∈ row, F32.isNonneg d = true) ∧
        (∀ d ∈ p.sigma, F32.isNonneg d = true) ∧
        p.readyCrcErr ≠ 0x00 ∧
        p.keyCr ≠ p.keyHasCrc ∧ p.keyCr ≠ p.keyImplHdr ∧ p.keyHasCrc ≠ p.keyImplHdr ∧
        p.w.length = p.wLen))

/-- No step changes the configuration (R9, R36, R79): the decoder's constants, FP and the wiring, the number of nodes, the
distances, the standard deviations and the seeds. -/
def Obligations.ConfigurationNeverChanges : Prop :=
  ∀ s t : State, step s = .next t →
    t.cfg = s.cfg ∧ t.cmb.dist = s.cmb.dist ∧ t.nodes.length = s.nodes.length ∧
    ∀ (n : Nat) (nd nd' : Node), s.nodes[n]? = some nd → t.nodes[n]? = some nd' →
      nd'.nse.sigma = nd.nse.sigma ∧ nd'.nse.seed = nd.nse.seed

/-- A step terminates at most one unit, the one whose fault it records, and changes the status of no other; no status ever
changes without a fault, so a terminated unit stays terminated (R35, R255, R256, R258). -/
def Obligations.FaultTerminatesOnlyItsUnit : Prop :=
  ∀ s t : State, step s = .next t →
    (t.faults = s.faults ∧ ∀ u, (lifeOf u t).map Life.status = (lifeOf u s).map Life.status) ∨
    (∃ u r, t.faults = s.faults ++ [(u, r)] ∧ (lifeOf u t).map Life.status = some .terminated ∧
      ∀ v, v ≠ u → (lifeOf v t).map Life.status = (lifeOf v s).map Life.status)

/-- R72: a step adds frames at the end of a channel or takes frames from its front, never both, and no frame is lost: one that
the combiner takes from `TX[n]` stands last in its epoch's entry set (or was the duplicate that terminated the combiner), one
that the environment takes is delivered to it, and those that a depacketizer takes are handed out or pending, in order. -/
def Obligations.ChannelsAreFirstInFirstOut : Prop :=
  ∀ s t : State, s.Inv → step s = .next t → ∀ (n : Nat) (nd nd' : Node), s.nodes[n]? = some nd → t.nodes[n]? = some nd' →
    ((∃ new, nd'.tx.q = nd.tx.q ++ new) ∨
     (∃ f q, nd.tx.q = f :: q ∧ nd'.tx.q = q ∧
       (Buf.entries f.epoch t.cmb.buf = Buf.entries f.epoch s.cmb.buf ++ [⟨f, n⟩] ∨
        t.faults = s.faults ++ [(.cmb, .duplicateEntry f.epoch n)] ∨
        t.out = s.out ++ [.wireOut (.tx n) (frameBytes f)])) ∨
     (s.cfg.wiring = .direct ∧ TakenByDpk s t n nd nd')) ∧
    ((∃ new, nd'.rx.q = nd.rx.q ++ new) ∨
     (∃ f q, nd.rx.q = f :: q ∧ nd'.rx.q = q ∧ t.out = s.out ++ [.wireOut (.rx n) (frameBytes f)]) ∨
     (s.cfg.wiring = .combined ∧ TakenByDpk s t n nd nd'))

/-- Every operation of a terminated unit is refused, and so are a packetizer's and a noise injector's operations after the
end of their streams (R35, R126, R159, R250). -/
def Obligations.EndedUnitsRefuse : Prop :=
  ∀ (s : State) (n : Nat) (nd : Node), s.nodes[n]? = some nd →
    (nd.pkt.life = ⟨.terminated, true⟩ → ∀ x xs eos,
      exec (.pktPush n x) s = .refused .unitTerminated ∧ exec (.pktEos n) s = .refused .unitTerminated ∧
      exec (.pktWork n xs eos) s = .refused .unitTerminated) ∧
    (nd.dpk.life = ⟨.terminated, true⟩ → ∀ m,
      exec (.dpkWork n m) s = .refused .unitTerminated ∧ exec (.dpkPull n) s = .refused .unitTerminated) ∧
    (nd.nse.life = ⟨.terminated, true⟩ → ∀ x xs cap,
      exec (.nseStep n x) s = .refused .unitTerminated ∧ exec (.nseEos n) s = .refused .unitTerminated ∧
      exec (.nseWork n xs cap) s = .refused .unitTerminated) ∧
    (nd.dec.life = ⟨.terminated, true⟩ → ∀ r, exec (.decDecode n r) s = .refused .unitTerminated) ∧
    (s.cmb.life = ⟨.terminated, true⟩ → ∀ e,
      exec .cmbRecv s = .refused .unitTerminated ∧ exec .cmbCheck s = .refused .unitTerminated ∧
      exec (.cmbCombine e) s = .refused .unitTerminated) ∧
    (nd.pkt.life = Life.fresh true → nd.pkt.done = true → ∀ x xs eos,
      exec (.pktPush n x) s = .refused .pktAfterDone ∧ exec (.pktEos n) s = .refused .pktAfterDone ∧
      (xs ≠ [] ∨ eos = true → exec (.pktWork n xs eos) s = .refused .pktAfterDone)) ∧
    (nd.nse.life = Life.fresh true → nd.nse.eos = true → ∀ x xs cap,
      exec (.nseStep n x) s = .refused .nseAfterEos ∧ exec (.nseEos n) s = .refused .nseAfterEos ∧
      (0 < min xs.length cap → exec (.nseWork n xs cap) s = .refused .nseAfterEos))

/-- The stops that are the model's own choice: an instance that does not exist (log 20), a unit that does not exist (log 21), a
dewhitening index without a whitening byte (log 26), a byte that belongs to another row of an escape table (log 27). -/
def Obligations.MissingFormsRefuse : Prop :=
  ∀ (s : State) (n : Nat),
    (s.nodes.length ≤ n → ∀ x xs eos m cap r,
      exec (.pktPush n x) s = .refused .noSuchInstance ∧ exec (.pktEos n) s = .refused .noSuchInstance ∧
      exec (.pktWork n xs eos) s = .refused .noSuchInstance ∧ exec (.dpkWork n m) s = .refused .noSuchInstance ∧
      exec (.dpkPull n) s = .refused .noSuchInstance ∧ exec (.nseStep n x) s = .refused .noSuchInstance ∧
      exec (.nseEos n) s = .refused .noSuchInstance ∧ exec (.nseWork n xs cap) s = .refused .noSuchInstance ∧
      exec (.decDecode n r) s = .refused .noSuchInstance) ∧
    (∀ nd, s.nodes[n]? = some nd →
      (nd.pkt.life.present = false → ∀ x xs eos,
        exec (.pktPush n x) s = .refused .unitAbsent ∧ exec (.pktEos n) s = .refused .unitAbsent ∧
        exec (.pktWork n xs eos) s = .refused .unitAbsent) ∧
      (nd.dpk.life.present = false → ∀ m,
        exec (.dpkWork n m) s = .refused .unitAbsent ∧ exec (.dpkPull n) s = .refused .unitAbsent) ∧
      (nd.nse.life.present = false → ∀ x xs cap,
        exec (.nseStep n x) s = .refused .unitAbsent ∧ exec (.nseEos n) s = .refused .unitAbsent ∧
        exec (.nseWork n xs cap) s = .refused .unitAbsent) ∧
      (nd.dec.life.present = false → ∀ r, exec (.decDecode n r) s = .refused .unitAbsent)) ∧
    (s.cmb.life.present = false → ∀ e,
      exec .cmbRecv s = .refused .unitAbsent ∧ exec .cmbCheck s = .refused .unitAbsent ∧
      exec (.cmbCombine e) s = .refused .unitAbsent) ∧
    (s.cfg.w.length ≤ n → ∀ lo hi, exec (.decDewhiten lo hi n) s = .refused .whiteningIndexOutOfRange) ∧
    exec (.escLit 0xC0) s = .refused .notThisForm ∧ exec (.escLit 0xDB) s = .refused .notThisForm ∧
    exec (.descOther 0xDC) s = .refused .notThisForm ∧ exec (.descOther 0xDD) s = .refused .notThisForm ∧
    exec (.descLit 0xDB) s = .refused .notThisForm

/-! ## The packetizer -/

/-- PKT.PUSH into a window that it does not fill stores the sample and counts it; nothing else changes (R121). -/
def Obligations.PktPushStoresSample : Prop :=
  ∀ (s : State) (n : Nat) (nd : Node) (x : C32),
    s.nodes[n]? = some nd → nd.pkt.life = Life.fresh true → nd.pkt.done = false → nd.pkt.fill + 1 ≠ 1024 →
    exec (.pktPush n x) s =
      .next (s.setNode n { nd with pkt := { nd.pkt with win := nd.pkt.win.set nd.pkt.fill x, fill := nd.pkt.fill + 1 } })

/-- PKT.PUSH of the last sample of a window sends the window under the current epoch, empties it and increments the counter;
nothing else changes (R121, R122). -/
def Obligations.PktPushEmitsFullWindow : Prop :=
  ∀ (s : State) (n : Nat) (nd : Node) (x : C32),
    s.nodes[n]? = some nd → nd.pkt.life = Life.fresh true → nd.pkt.done = false → nd.pkt.fill + 1 = 1024 →
    nd.pkt.epoch.toNat ≠ 2 ^ 64 - 1 → nd.tx.rxAlive = true →
    exec (.pktPush n x) s =
      .next (s.setNode n { nd with
        pkt := { nd.pkt with win := nd.pkt.win.set 1023 x, fill := 0, epoch := nd.pkt.epoch + 1 },
        tx := { nd.tx with q := nd.tx.q ++ [⟨nd.pkt.epoch, nd.pkt.win.set 1023 x⟩] } })

/-- PKT.EOS: an empty window sends nothing; another is padded with zero samples and sent as a final frame before completion
is signalled; nothing else changes (R123). -/
def Obligations.PktEosFlushesWindow : Prop :=
  ∀ (s : State) (n : Nat) (nd : Node),
    s.nodes[n]? = some nd → nd.pkt.life = Life.fresh true → nd.pkt.done = false →
    (nd.pkt.fill = 0 →
      exec (.pktEos n) s = .next ((s.setNode n { nd with pkt := { nd.pkt with done := true } }).emit [.pktDone n])) ∧
    (0 < nd.pkt.fill → nd.pkt.epoch.toNat ≠ 2 ^ 64 - 1 → nd.tx.rxAlive = true →
      exec (.pktEos n) s =
        .next ((s.setNode n { nd with
          pkt := { nd.pkt with
            win := nd.pkt.win.take nd.pkt.fill ++ List.replicate (1024 - nd.pkt.fill) ⟨0, 0⟩
            fill := 0, epoch := nd.pkt.epoch + 1, done := true },
          tx := { nd.tx with q := nd.tx.q ++
            [⟨nd.pkt.epoch, nd.pkt.win.take nd.pkt.fill ++ List.replicate (1024 - nd.pkt.fill) ⟨0, 0⟩⟩] } }).emit [.pktDone n]))

/-- R128: an emission to a dead receiver, by a PUSH or an EOS, queues nothing, keeps `epoch` and `fill` (1024 in a PUSH),
terminates the packetizer with its channel end, and it never emits again: its operations are refused. -/
def Obligations.PktDeadReceiverTerminates : Prop :=
  ∀ (s : State) (n : Nat) (nd : Node),
    s.nodes[n]? = some nd → nd.pkt.life = Life.fresh true → nd.pkt.done = false →
    nd.pkt.epoch.toNat ≠ 2 ^ 64 - 1 → nd.tx.rxAlive = false →
    (∀ x, nd.pkt.fill + 1 = 1024 →
      let t := { s.setNode n { nd with
          pkt := { nd.pkt with win := nd.pkt.win.set 1023 x, fill := 1024, work := none, life := ⟨.terminated, true⟩ },
          tx := { nd.tx with txAlive := false } } with
        faults := s.faults ++ [(.pkt n, .channelDisconnected)] }
      exec (.pktPush n x) s = .next t ∧ ∀ y, exec (.pktPush n y) t = .refused .unitTerminated) ∧
    (0 < nd.pkt.fill →
      let t := { s.setNode n { nd with
          pkt := { nd.pkt with
            win := nd.pkt.win.take nd.pkt.fill ++ List.replicate (1024 - nd.pkt.fill) ⟨0, 0⟩
            work := none, life := ⟨.terminated, true⟩ },
          tx := { nd.tx with txAlive := false } } with
        faults := s.faults ++ [(.pkt n, .channelDisconnected)] }
      exec (.pktEos n) s = .next t ∧ exec (.pktEos n) t = .refused .unitTerminated)

/-- R127: the emission of the frame with epoch 2^64 - 1, by a PUSH or an EOS, is the fault EpochOverflow, raised before the
frame is sent, even to a dead receiver: nothing is queued and the counter does not wrap. -/
def Obligations.PktEpochOverflowFaults : Prop :=
  ∀ (s : State) (n : Nat) (nd : Node),
    s.nodes[n]? = some nd → nd.pkt.life = Life.fresh true → nd.pkt.done = false →
    nd.pkt.epoch.toNat = 2 ^ 64 - 1 →
    (∀ x, nd.pkt.fill + 1 = 1024 →
      exec (.pktPush n x) s = .next { s.setNode n { nd with
          pkt := { nd.pkt with win := nd.pkt.win.set 1023 x, fill := 1024, work := none, life := ⟨.terminated, true⟩ },
          tx := { nd.tx with txAlive := false } } with
        faults := s.faults ++ [(.pkt n, .epochOverflow nd.pkt.epoch)] }) ∧
    (0 < nd.pkt.fill →
      exec (.pktEos n) s = .next { s.setNode n { nd with
          pkt := { nd.pkt with
            win := nd.pkt.win.take nd.pkt.fill ++ List.replicate (1024 - nd.pkt.fill) ⟨0, 0⟩
            work := none, life := ⟨.terminated, true⟩ },
          tx := { nd.tx with txAlive := false } } with
        faults := s.faults ++ [(.pkt n, .epochOverflow nd.pkt.epoch)] })

/-- PKT.WORK without the end of the stream: the window's samples and the new ones, in order, leave in frames of 1024 under
consecutive epochs, and the last few stay in the window; nothing else changes (R65, R120, R124, R125). -/
def Obligations.PktWorkSendsFullWindows : Prop :=
  ∀ (s : State) (n : Nat) (nd : Node) (xs : List C32),
    s.nodes[n]? = some nd → nd.pkt.life = Life.fresh true → nd.pkt.done = false → nd.tx.rxAlive = true →
    nd.pkt.win.length = 1024 → nd.pkt.fill < 1024 →
    nd.pkt.epoch.toNat + (nd.pkt.fill + xs.length) / 1024 < 2 ^ 64 →
    let stream := nd.pkt.win.take nd.pkt.fill ++ xs
    let c := stream.length / 1024
    ∃ (win : List C32) (fs : List IqFrame),
      exec (.pktWork n xs false) s =
        .next (s.setNode n { nd with
          pkt := { nd.pkt with win := win, fill := stream.length % 1024, epoch := nd.pkt.epoch + BitVec.ofNat 64 c },
          tx := { nd.tx with q := nd.tx.q ++ fs } }) ∧
      win.length = 1024 ∧ win.take (stream.length % 1024) = stream.drop (1024 * c) ∧
      fs.length = c ∧
      ∀ j, j < c →
        fs[j]? = some ⟨BitVec.ofNat 64 (nd.pkt.epoch.toNat + j), (stream.drop (1024 * j)).take 1024⟩

/-- PKT.WORK with the end of the stream: the window's samples and the new ones, M in all, leave in ceil(M / 1024) frames under
consecutive epochs, each sample where its number puts it, zeros after the last, then completion; nothing else changes (R123 to
R125). -/
def Obligations.PktWholeStreamSent : Prop :=
  ∀ (s : State) (n : Nat) (nd : Node) (xs : List C32),
    s.nodes[n]? = some nd → nd.pkt.life = Life.fresh true → nd.pkt.done = false → nd.tx.rxAlive = true →
    nd.pkt.win.length = 1024 → nd.pkt.fill < 1024 →
    let stream := nd.pkt.win.take nd.pkt.fill ++ xs
    let c := (stream.length + 1023) / 1024
    nd.pkt.epoch.toNat + c < 2 ^ 64 →
    ∃ (win : List C32) (fs : List IqFrame),
      exec (.pktWork n xs true) s =
        .next ((s.setNode n { nd with
          pkt := { nd.pkt with win := win, fill := 0, done := true, epoch := nd.pkt.epoch + BitVec.ofNat 64 c },
          tx := { nd.tx with q := nd.tx.q ++ fs } }).emit [.pktDone n]) ∧
      win.length = 1024 ∧ fs.length = c ∧
      ∀ j, j < c → ∃ f, fs[j]? = some f ∧ f.epoch = BitVec.ofNat 64 (nd.pkt.epoch.toNat + j) ∧ f.samples.length = 1024 ∧
        ∀ k, k < 1024 → f.samples[k]? = some (stream.getD (1024 * j + k) ⟨0, 0⟩)

/-! ## The depacketizer -/

/-- DPK.WORK of any length, and DPK.PULL as that of length one: exactly `m` samples, the pending ones in order and then
silence; what is left pending is the rest, the frames not taken as they were; no fault, and nothing else changes (R141, R142,
R143, R145, R146). -/
def Obligations.DpkDeliversPendingThenSilence : Prop :=
  ∀ (s : State) (n m : Nat) (nd : Node) (i : Instr),
    i = .dpkWork n m ∨ (i = .dpkPull n ∧ m = 1) →
    s.nodes[n]? = some nd → nd.dpk.life = Life.fresh true →
    nd.dpk.rd ≤ 1024 → (nd.dpk.cur = none → nd.dpk.rd = 1024) → (∀ f, nd.dpk.cur = some f → f.wf) →
    (nd.dpkIn s.cfg.wiring).Wf →
    let c := nd.dpkIn s.cfg.wiring
    let pending := pendingSamples nd.dpk c
    ∃ (q' : Dpk) (k : Nat),
      exec i s = .next ((s.setNode n (Node.setDpkIn s.cfg.wiring { nd with dpk := q' } { c with q := c.q.drop k })).emit
        [.dpkOut n (pending.take m ++ List.replicate (m - pending.length) ⟨0, 0⟩)]) ∧
      pendingSamples q' { c with q := c.q.drop k } = pending.drop m ∧
      q'.life = nd.dpk.life ∧ q'.work = nd.dpk.work ∧ q'.rd ≤ 1024

/-- A work cycle is the operations it expands to (R111, R124, R142): the end of the stream alone is PKT.EOS, one sample alone is
PKT.PUSH, and a cycle goes on after its first part unless a fault ended it. A depacketizer's cycle of `a + b` samples gives what
a cycle of `a` and then one of `b` give when nothing happens between them (R141). -/
def Obligations.WorkCyclesSplit : Prop :=
  (∀ (s : State) (n : Nat) (x : C32), exec (.pktWork n [] true) s = exec (.pktEos n) s ∧
    exec (.pktWork n [x] false) s = exec (.pktPush n x) s ∧ exec (.dpkPull n) s = exec (.dpkWork n 1) s) ∧
  (∀ (s t : State) (n : Nat) (xs ys : List C32) (eos : Bool), exec (.pktWork n xs false) s = .next t →
    ∀ nd, t.nodes[n]? = some nd →
      exec (.pktWork n (xs ++ ys) eos) s =
        if nd.pkt.life.status = .terminated then .next t else exec (.pktWork n ys eos) t) ∧
  (∀ (s t u v : State) (n a b : Nat),
    exec (.dpkWork n a) s = .next t → exec (.dpkWork n b) t = .next u → exec (.dpkWork n (a + b)) s = .next v →
    v.nodes = u.nodes ∧ ∃ oa ob, u.out = s.out ++ [.dpkOut n oa, .dpkOut n ob] ∧ v.out = s.out ++ [.dpkOut n (oa ++ ob)])

/-- The direct path: what a packetizer sends, a depacketizer on the same channel gives back exactly (R4, R144, R299). -/
def Obligations.DirectPathRoundTrip : Prop :=
  ∀ (s : State) (n : Nat) (nd : Node) (xs : List C32),
    s.cfg.wiring = .direct → s.nodes[n]? = some nd →
    nd.pkt.life = Life.fresh true → nd.pkt.done = false → nd.pkt.fill = 0 → nd.pkt.win.length = 1024 →
    nd.dpk.life = Life.fresh true → nd.dpk.rd = 1024 → nd.tx.q = [] → nd.tx.rxAlive = true →
    nd.pkt.epoch.toNat + (xs.length + 1023) / 1024 < 2 ^ 64 →
    ∃ t u, exec (.pktWork n xs true) s = .next t ∧ exec (.dpkWork n xs.length) t = .next u ∧
      u.out = s.out ++ [.pktDone n, .dpkOut n xs]

/-! ## The noise injector -/

/-- NSE.STEP forwards one sample with draws `2k` and `2k + 1` added and counts it; nothing else changes (R156, R157; the
free bits of computed NaNs and their counter are the model's, log 9). -/
def Obligations.NseStepAddsTwoDraws : Prop :=
  ∀ (s : State) (n : Nat) (nd : Node) (x : C32),
    s.nodes[n]? = some nd → nd.nse.life = Life.fresh true → nd.nse.eos = false →
    exec (.nseStep n x) s = .next { s.setNode n { nd with nse := { nd.nse with k := nd.nse.k + 1 } } with
      nanCtr := s.nanCtr + 1
      out := s.out ++ [.nseOut n
        ⟨fpAdd s.cfg.fp (Config.freeNaN s.nanCtr 0 0 0) x.re (noise nd.nse.seed nd.nse.sigma (2 * nd.nse.k)),
         fpAdd s.cfg.fp (Config.freeNaN s.nanCtr 0 0 1) x.im (noise nd.nse.seed nd.nse.sigma (2 * nd.nse.k + 1))⟩] }

/-- R161, under the default arithmetic: with standard deviation zero each component that is not a NaN comes out with the same
bits, but a component −0.0 with a noise value +0.0 comes out as +0.0, which compares equal to it. -/
def Obligations.NseZeroSigmaIsNumericNoOp : Prop :=
  ∀ (s : State) (n : Nat) (nd : Node) (x : C32),
    s.nodes[n]? = some nd → nd.nse.life = Life.fresh true → nd.nse.eos = false →
    s.cfg.fp = .binary32 → F32.isZero nd.nse.sigma = true →
    ∃ t y, exec (.nseStep n x) s = .next t ∧ t.out = s.out ++ [.nseOut n y] ∧
      (F32.isNaN x.re = false →
        y.re = if x.re = 0x80000000 ∧ noise nd.nse.seed nd.nse.sigma (2 * nd.nse.k) = 0 then 0 else x.re) ∧
      (F32.isNaN x.im = false →
        y.im = if x.im = 0x80000000 ∧ noise nd.nse.seed nd.nse.sigma (2 * nd.nse.k + 1) = 0 then 0 else x.im)

/-- NSE.EOS sets `eos` and `done` and signals completion; nothing else changes (R159). -/
def Obligations.NseEosSignalsCompletion : Prop :=
  ∀ (s : State) (n : Nat) (nd : Node),
    s.nodes[n]? = some nd → nd.nse.life = Life.fresh true → nd.nse.eos = false →
    exec (.nseEos n) s =
      .next ((s.setNode n { nd with nse := { nd.nse with eos := true, done := true } }).emit [.nseDone n])

/-- NSE.WORK forwards the minimum of the samples available and the capacity, one for one and in order, each from its own
draws, and reports how many it consumed (R158, R160). -/
def Obligations.NseWorkForwardsMinimum : Prop :=
  ∀ (s : State) (n : Nat) (nd : Node) (xs : List C32) (cap : Nat),
    s.nodes[n]? = some nd → nd.nse.life = Life.fresh true → nd.nse.eos = false →
    let j := min xs.length cap
    exec (.nseWork n xs cap) s = .next { s.setNode n { nd with nse := { nd.nse with k := nd.nse.k + j } } with
      nanCtr := s.nanCtr + j
      out := s.out ++ (List.range j).map (fun i => Event.nseOut n
        (noisySample s.cfg.fp (s.nanCtr + i) { nd.nse with k := nd.nse.k + i } (xs.getD i ⟨0, 0⟩))) ++ [.nseConsumed n j] }

/-! ## Binary32 -/

/-- `+f` and `−f` (R312 items 1, 3, 5, 6): a NaN operand and two infinities that cancel give a NaN, another infinity gives itself;
of finite values the exact sum or difference is rounded once, to nearest, ties to even; a result of exactly zero is −0.0 only
when both addends are negative zeros; from half a unit above the largest finite value on it is the infinity of the sign. -/
def Obligations.AddRoundsToNearest : Prop :=
  ∀ (free : Bool × Fin 8388607) (a b : F32),
    SumRule a b (F32.sign b) (F32.val b) (F32.add free a b) ∧
    SumRule a b (!F32.sign b) (-F32.val b) (F32.sub free a b)

/-- `×f` (R312 items 1, 3, 5, 6): a NaN operand and a zero times an infinity give a NaN; every other product has the exclusive or
of the signs, an infinity times another value is an infinity, and of finite values the exact product is rounded once, to
nearest, ties to even, from half a unit above the largest finite value on to an infinity. The product of two values is in units
of 2^-298. -/
def Obligations.MulRoundsToNearest : Prop :=
  ∀ (free : Bool × Fin 8388607) (a b : F32),
    let r := F32.mul free a b
    let sgn := (F32.sign a != F32.sign b)
    (F32.isNaN a = true ∨ F32.isNaN b = true ∨ (F32.isInf a = true ∧ F32.isZero b = true) ∨
      (F32.isZero a = true ∧ F32.isInf b = true) → F32.isNaN r = true) ∧
    (F32.isNaN a = false → F32.isNaN b = false → F32.isInf a = true ∨ F32.isInf b = true →
      F32.isZero a = false → F32.isZero b = false → r = F32.inf sgn) ∧
    (F32.isFinite a = true → F32.isFinite b = true →
      let v := F32.val a * F32.val b
      F32.sign r = sgn ∧ (v.natAbs < (2 ^ 25 - 1) * 2 ^ 401 → NearestEven (2 ^ 149) v r) ∧
      ((2 ^ 25 - 1) * 2 ^ 401 ≤ v.natAbs → r = F32.inf sgn))

/-- The default `COEFF_G(d)` is the finite binary32 value nearest to the real number `(d + 1)^(−3) / sqrt(2)`, for every
finite `d >= 0` (R175). Values are in units of 2^-149. -/
def Obligations.CoefficientRoundsToNearest : Prop :=
  ∀ d : F32, F32.isNonneg d = true →
    let g : ℝ := 2 ^ 149 * (1 / ((F32.absVal d : ℝ) / 2 ^ 149 + 1) ^ 3 / Real.sqrt 2)
    F32.isFinite (fpCoeff .binary32 d) = true ∧
    ∀ y, F32.isFinite y = true →
      |((F32.val (fpCoeff .binary32 d) : ℤ) : ℝ) - g| ≤ |((F32.val y : ℤ) : ℝ) - g|

/-! ## The combiner -/

/-- CMB.RECV takes the oldest frame of transmitter `rr`, inserts it and moves on in the loop; nothing else changes (R171,
R314). -/
def Obligations.CmbRecvInsertsFrame : Prop :=
  ∀ (s : State) (nd : Node) (f : IqFrame) (q : List IqFrame) (b : Buf),
    s.cmb.life = Life.fresh true → s.cmb.phase = .recv → s.nodes[s.cmb.rr]? = some nd → nd.tx.q = f :: q →
    Buf.insert f s.cmb.rr s.cmb.buf = some b →
    exec .cmbRecv s = .next { s.setNode s.cmb.rr { nd with tx := { nd.tx with q := q } } with
      cmb := if s.cmb.rr + 1 = s.nodes.length then { s.cmb with buf := b, rr := 0, phase := .check }
        else { s.cmb with buf := b, rr := s.cmb.rr + 1 } }

/-- Where the combiner has nothing to combine: CMB.RECV on an empty channel with a live sender waits and changes nothing,
however many frames the others have queued (R69, R181, R260), CMB.CHECK of an incomplete oldest epoch only goes back to
receiving (R173), and a step that is not the one its phase and buffer enable changes nothing (R171, R173; log 16). -/
def Obligations.CmbWaitsOrKeepsCollecting : Prop :=
  ∀ s : State, s.cmb.life = Life.fresh true →
    (∀ nd, s.cmb.phase = .recv → s.nodes[s.cmb.rr]? = some nd → nd.tx.q = [] → nd.tx.txAlive = true →
      exec .cmbRecv s = .next s) ∧
    (∀ e es rest, s.cmb.phase = .check → s.cmb.buf = (e, es) :: rest → es.length < s.nodes.length →
      exec .cmbCheck s = .next { s with cmb := { s.cmb with phase := .recv } }) ∧
    (s.cmb.phase = .check → exec .cmbRecv s = .next s) ∧ (s.cmb.phase = .recv → exec .cmbCheck s = .next s) ∧
    (∀ e, s.cmb.phase = .recv ∨ (∀ es, readyEpoch s ≠ some (e, es)) → exec (.cmbCombine e) s = .next s)

/-- CMB.RECV on an empty channel with a dead sender terminates the combiner: all its channel ends die, and `buf`, `rr` and
`phase` keep their values (R69, R183, R256, R257). -/
def Obligations.CmbRecvDisconnectedTerminates : Prop :=
  ∀ (s : State) (nd : Node),
    s.cmb.life = Life.fresh true → s.cmb.phase = .recv → s.cfg.wiring = .combined →
    s.nodes[s.cmb.rr]? = some nd → nd.tx.q = [] → nd.tx.txAlive = false →
    exec .cmbRecv s = .next { s with
      cmb := { s.cmb with life := ⟨.terminated, true⟩ }
      nodes := s.nodes.map (fun m => { m with tx := { m.tx with rxAlive := false }, rx := { m.rx with txAlive := false } })
      faults := s.faults ++ [(.cmb, .channelDisconnected)] }

/-- CMB.RECV of a second frame with the same epoch from the same transmitter terminates the combiner after the frame has been
taken from its channel, and leaves the buffer as it was (R172, R184, R256). -/
def Obligations.CmbRecvDuplicateTerminates : Prop :=
  ∀ (s : State) (nd : Node) (f : IqFrame) (q : List IqFrame) (x : Entry),
    s.cmb.life = Life.fresh true → s.cmb.phase = .recv → s.cfg.wiring = .combined → BufInv s.nodes.length s.cmb.buf →
    s.nodes[s.cmb.rr]? = some nd → nd.tx.q = f :: q →
    x ∈ Buf.entries f.epoch s.cmb.buf → x.sender = s.cmb.rr →
    exec .cmbRecv s = .next { s with
      cmb := { s.cmb with life := ⟨.terminated, true⟩ }
      nodes := (s.nodes.set s.cmb.rr { nd with tx := { nd.tx with q := q } }).map
        (fun m => { m with tx := { m.tx with rxAlive := false }, rx := { m.rx with txAlive := false } })
      faults := s.faults ++ [(.cmb, .duplicateEntry f.epoch s.cmb.rr)] }

/-- R172: inserting appends the entry to the set of its epoch and changes no other set; it fails exactly when that set
already holds an entry from the sender; the buffer stays legal. -/
def Obligations.InsertAppendsToItsEpoch : Prop :=
  ∀ (nNodes : Nat) (b : Buf) (f : IqFrame) (s : Nat), BufInv nNodes b → f.wf → s < nNodes →
    (Buf.insert f s b = none ↔ ∃ x ∈ Buf.entries f.epoch b, x.sender = s) ∧
    ∀ b', Buf.insert f s b = some b' →
      BufInv nNodes b' ∧
      ∀ e, Buf.entries e b' = if e = f.epoch then Buf.entries e b ++ [⟨f, s⟩] else Buf.entries e b

/-- CMB.CHECK of a complete oldest epoch, and CMB.COMBINE of that epoch, every receiver alive: one combined frame to every
receiver, the whole entry set removed, back to receiving; nothing else changes (R109, R173, R174, R177; that CMB.COMBINE by
itself makes the change of phase is log 17). -/
def Obligations.CmbCheckServesEveryReceiver : Prop :=
  ∀ (s : State) (e : Epoch) (es : List Entry) (i : Instr),
    i = .cmbCheck ∨ i = .cmbCombine e →
    s.cmb.life = Life.fresh true → s.cmb.phase = .check → readyEpoch s = some (e, es) → s.cmb.sent = 0 →
    (∀ nd ∈ s.nodes, nd.rx.rxAlive = true) →
    exec i s = .next { s with
      nodes := s.nodes.mapIdx (fun r nd => nodeServed s e es r nd)
      cmb := { s.cmb with buf := Buf.remove e s.cmb.buf, phase := .recv, sent := 0 }
      nanCtr := s.nanCtr + s.nodes.length }

/-- A combined frame carries the shared epoch and 1024 samples, and its sample `i` is the sum of the entries' contributions
at index `i` alone, from zero, in list order, each with the coefficient of its own direction (R174, R176, R185, R313). -/
def Obligations.CombinedSampleIsOrderedSum : Prop :=
  ∀ (s : State) (e : Epoch) (es : List Entry) (r i : Nat), (∀ x ∈ es, x.frame.wf) → i < 1024 →
    (combinedFrame s e es r).epoch = e ∧ (combinedFrame s e es r).wf ∧
    (combinedFrame s e es r).samples[i]? = some (sampleSum s r i 0 es ⟨0, 0⟩)

/-- CMB.CHECK and CMB.COMBINE when `r0` is the first dead receiver: the frames for smaller indices stay sent, the others are not
sent, the entry set is not removed, and the combiner terminates (R174, R183, R256). -/
def Obligations.CmbCheckDeadReceiverTerminates : Prop :=
  ∀ (s : State) (e : Epoch) (es : List Entry) (r0 : Nat) (dead : Node) (i : Instr),
    i = .cmbCheck ∨ i = .cmbCombine e →
    s.cmb.life = Life.fresh true → s.cmb.phase = .check → s.cfg.wiring = .combined →
    readyEpoch s = some (e, es) → s.cmb.sent = 0 →
    s.nodes[r0]? = some dead → dead.rx.rxAlive = false →
    (∀ (r : Nat) (nd : Node), r < r0 → s.nodes[r]? = some nd → nd.rx.rxAlive = true) →
    exec i s = .next { s with
      nodes := (s.nodes.mapIdx (fun r nd => if r < r0 then nodeServed s e es r nd else nd)).map
        (fun m => { m with tx := { m.tx with rxAlive := false }, rx := { m.rx with txAlive := false } })
      cmb := { s.cmb with sent := r0, life := ⟨.terminated, true⟩ }
      faults := s.faults ++ [(.cmb, .channelDisconnected)]
      nanCtr := s.nanCtr + r0 }

/-- A unit's turn is one atomic step: every queue of every node stays as it is, but for at most one frame sent or received at the
place that `QueuesAfterTurn` names for the unit (R82, R121, R122, R141, R171, R174). -/
def Obligations.EachTurnIsOneChannelOperation : Prop :=
  ∀ (s : State) (u : UnitId),
    (unitTurn u s).nodes.length = s.nodes.length ∧
    ∀ (m : Nat) (nd nd' : Node), s.nodes[m]? = some nd → (unitTurn u s).nodes[m]? = some nd' → QueuesAfterTurn s u m nd nd'

/-- An operation invoked whole is its atomic steps taken one after the other with no other agent between them (R82, R124, R141,
R177): CMB.CHECK is turns of the combiner; PKT.WORK and DPK.WORK of an idle unit are their start and then turns of the unit,
and where the whole is refused, so is the start. -/
def Obligations.AtomicTurnsMakeWholeOperation : Prop :=
  (∀ s t : State, s.Inv → s.cmb.life = Life.fresh true → s.cmb.phase = .check → exec .cmbCheck s = .next t →
    ∃ k, 1 ≤ k ∧ k ≤ s.nodes.length ∧ (unitTurn .cmb)^[k] s = t) ∧
  (∀ (s : State) (n : Nat) (xs : List C32) (eos : Bool), (∀ nd, s.nodes[n]? = some nd → nd.pkt.work = none) →
    (∀ t, exec (.pktWork n xs eos) s = .next t →
      ∃ u k, startOp (.pktWork n xs eos) s = .next u ∧ (unitTurn (.pkt n))^[k] u = t) ∧
    (∀ r, exec (.pktWork n xs eos) s = .refused r → startOp (.pktWork n xs eos) s = .refused r)) ∧
  (∀ (s : State) (n m : Nat), (∀ nd, s.nodes[n]? = some nd → nd.dpk.work = none) →
    (∀ t, exec (.dpkWork n m) s = .next t →
      ∃ u k, startOp (.dpkWork n m) s = .next u ∧ (unitTurn (.dpk n))^[k] u = t) ∧
    (∀ r, exec (.dpkWork n m) s = .refused r → startOp (.dpkWork n m) s = .refused r))

/-- The barrier: while the combiner exists, a step that adds a frame to an `RX` channel adds one frame, whose epoch is the
smallest key of the buffer and has an entry from every transmitter (R76, R173, R179). -/
def Obligations.BarrierBeforeEverySend : Prop :=
  ∀ s t : State, s.Inv → s.cmb.life.present = true → step s = .next t →
    ∀ (r : Nat) (nd nd' : Node), s.nodes[r]? = some nd → t.nodes[r]? = some nd' →
      (∃ k : Nat, nd'.rx.q = nd.rx.q.drop k) ∨
      (∃ f : IqFrame, nd'.rx.q = nd.rx.q ++ [f] ∧ (∀ kv ∈ s.cmb.buf, f.epoch ≤ kv.1) ∧
        ((Buf.entries f.epoch s.cmb.buf).map Entry.sender).Perm (List.range s.nodes.length))

/-- Aligned streams stay aligned: the combiner takes epoch `i` of every transmitter in its outer iteration `i` and sends
strictly rising epochs on every `RX` (R75, R180, R186). -/
def Obligations.AlignedStreamsStayAligned : Prop :=
  ∀ (s t : State) (i : Nat), s.Inv → Aligned s i → step s = .next t → Aligned t i ∨ Aligned t (i + 1)

/-- In a block whose units all exist, with aligned streams, no step but the removal of a unit takes a fault other than the
overflow of an epoch counter (R184, R186, R253, R295). -/
def Obligations.AlignedBlockTakesNoOtherFault : Prop :=
  ∀ (s t : State) (i : Nat), s.Inv → Aligned s i → s.Safe → s.cmb.life.present = true →
    (∀ nd ∈ s.nodes, nd.pkt.life.present = true ∧ nd.dpk.life.present = true) →
    (∀ u, s.inbox.head? ≠ some (.remove u)) → step s = .next t →
    t.Safe ∨ ∃ n, t.faults = [(.pkt n, .epochOverflow (BitVec.allOnes 64))]

/-! ## The decoder -/

/-- DEC.DECODE of a record with nibbles below 16 and whitening bytes enough emits its events and changes nothing else (R201,
R216, R217, R219). -/
def Obligations.DecDecodeCompletes : Prop :=
  ∀ (s : State) (n : Nat) (nd : Node) (r : DecodedFrame),
    s.nodes[n]? = some nd → nd.dec.life = Life.fresh true → (∀ b ∈ r.nibbles, b.toNat < 16) →
    (r.nibbles.length < headerNibbles r + trailerNibbles r ∨ whiteningNeed r ≤ s.cfg.w.length) →
    exec (.decDecode n r) s = .next (s.emit (decodeEvents s.cfg n r))

/-- R213: a failed check gives `crc-result` 0, a DATA frame with all recovered bytes, a READY frame with the error byte, and
no payload. -/
def Obligations.DecFailedCheckEvents : Prop :=
  ∀ (s : State) (n : Nat) (nd : Node) (r : DecodedFrame),
    s.nodes[n]? = some nd → nd.dec.life = Life.fresh true → (∀ b ∈ r.nibbles, b.toNat < 16) →
    (r.nibbles.length < headerNibbles r + trailerNibbles r ∨ whiteningNeed r ≤ s.cfg.w.length) →
    r.hasCrc = true → (decodeBytes s.cfg r).2 = false →
    exec (.decDecode n r) s = .next (s.emit
      [.crcResult n false,
       .hostFrame n ([0xC0, 0x00] ++ escape (decodeBytes s.cfg r).1 ++ [0xC0]),
       .hostFrame n ([0xC0, 0x0F] ++ escape [s.cfg.readyCrcErr] ++ [0xC0])])

/-- R214: a record without CRC gives no `crc-result`, DATA with all body bytes, READY with 00, and both payload events with
all body bytes. -/
def Obligations.DecNoCrcEvents : Prop :=
  ∀ (s : State) (n : Nat) (nd : Node) (r : DecodedFrame),
    s.nodes[n]? = some nd → nd.dec.life = Life.fresh true → (∀ b ∈ r.nibbles, b.toNat < 16) →
    r.hasCrc = false →
    (r.nibbles.length - headerNibbles r) / 2 ≤ s.cfg.w.length →
    let bs := dewhitenPairs s.cfg.w 0 (r.nibbles.drop (headerNibbles r))
    exec (.decDecode n r) s = .next (s.emit
      [.hostFrame n ([0xC0, 0x00] ++ escape bs ++ [0xC0]), .hostFrame n [0xC0, 0x0F, 0x00, 0xC0],
       .payload n bs, .annotatedPayload n bs (mergeAnnotations s.cfg r)])

/-- R215: the short records, row by row. -/
def Obligations.DecShortRecordEvents : Prop :=
  ∀ (s : State) (n : Nat) (nd : Node) (r : DecodedFrame),
    s.nodes[n]? = some nd → nd.dec.life = Life.fresh true → (∀ b ∈ r.nibbles, b.toNat < 16) →
    (r.hasCrc = true → r.nibbles.length < headerNibbles r + 4 →
      exec (.decDecode n r) s = .next (s.emit
        [.crcResult n false, .hostFrame n [0xC0, 0x00, 0xC0],
         .hostFrame n ([0xC0, 0x0F] ++ escape [s.cfg.readyCrcErr] ++ [0xC0])])) ∧
    (r.hasCrc = true → headerNibbles r + 4 ≤ r.nibbles.length →
      (r.nibbles.length - 4 - headerNibbles r) / 2 + 2 < 4 →
      (r.nibbles.length - 4 - headerNibbles r) / 2 + 2 ≤ s.cfg.w.length →
      exec (.decDecode n r) s = .next (s.emit
        [.crcResult n false,
         .hostFrame n ([0xC0, 0x00] ++ escape (recoveredBytes s.cfg.w r) ++ [0xC0]),
         .hostFrame n ([0xC0, 0x0F] ++ escape [s.cfg.readyCrcErr] ++ [0xC0])]) ∧
      (recoveredBytes s.cfg.w r).length = (r.nibbles.length - 4 - headerNibbles r) / 2 + 2) ∧
    (r.hasCrc = false → r.nibbles.length < headerNibbles r + 2 →
      exec (.decDecode n r) s = .next (s.emit
        [.hostFrame n [0xC0, 0x00, 0xC0], .hostFrame n [0xC0, 0x0F, 0x00, 0xC0],
         .payload n [], .annotatedPayload n [] (mergeAnnotations s.cfg r)]))

/-- R216, R217: an element of 16 or more refuses the record, whichever region it is in; a record that is not short and needs
more whitening bytes than there are is refused. -/
def Obligations.DecRefusesBadRecords : Prop :=
  ∀ (s : State) (n : Nat) (nd : Node) (r : DecodedFrame),
    s.nodes[n]? = some nd → nd.dec.life = Life.fresh true →
    ((∃ b ∈ r.nibbles, 16 ≤ b.toNat) → exec (.decDecode n r) s = .refused .nibbleOutOfRange) ∧
    ((∀ b ∈ r.nibbles, b.toNat < 16) → headerNibbles r + trailerNibbles r ≤ r.nibbles.length →
      s.cfg.w.length <
        (r.nibbles.length - trailerNibbles r - headerNibbles r) / 2 + (if r.hasCrc then 2 else 0) →
      exec (.decDecode n r) s = .refused .whiteningIndexOutOfRange)

/-- R203: DEC.DEWHITEN exclusive-ors each nibble with its half of `W[i]` and packs `high << 4 | low`. -/
def Obligations.DecDewhitenPacksHighLow : Prop :=
  ∀ (s : State) (lo hi : BitVec 4) (i : Nat) (w : Byte), s.cfg.w[i]? = some w →
    exec (.decDewhiten lo hi i) s = .next (s.emit [.byteResult
      (((hi ^^^ w.extractLsb' 4 4).setWidth 8 <<< 4) ||| (lo ^^^ w.extractLsb' 0 4).setWidth 8)])

/-- A payload of at least two bytes and any two trailer bytes, whitened and cut into nibbles behind any header, an unpaired body
nibble or none before the trailer: the check passes exactly when the trailer is the transmitted CRC of the payload, for either
span; then READY is 00 and the payload events carry the payload, else READY is the error byte and there is no payload (R202,
R204, R205, R207 to R213). -/
def Obligations.DecSealedPayloadDecodes : Prop :=
  ∀ (s : State) (n : Nat) (nd : Node) (r : DecodedFrame) (hdr odd p : List Byte) (b0 b1 : Byte),
    s.nodes[n]? = some nd → nd.dec.life = Life.fresh true →
    2 ≤ p.length → p.length + 2 ≤ s.cfg.w.length →
    r.hasCrc = true → hdr.length = headerNibbles r → odd.length ≤ 1 → (∀ b ∈ hdr ++ odd, b.toNat < 16) →
    r.nibbles = hdr ++ transmittedNibbles s.cfg.w 0 p ++ odd ++ transmittedNibbles s.cfg.w p.length [b0, b1] →
    exec (.decDecode n r) s = .next (s.emit
      (if p ++ [b0, b1] = sealedPayload s.cfg.crcSpan p then
        [.crcResult n true, .hostFrame n ([0xC0, 0x00] ++ escape (p ++ [b0, b1]) ++ [0xC0]),
         .hostFrame n [0xC0, 0x0F, 0x00, 0xC0], .payload n p, .annotatedPayload n p (mergeAnnotations s.cfg r)]
      else
        [.crcResult n false, .hostFrame n ([0xC0, 0x00] ++ escape (p ++ [b0, b1]) ++ [0xC0]),
         .hostFrame n ([0xC0, 0x0F] ++ escape [s.cfg.readyCrcErr] ++ [0xC0])]))

/-- R212: the merged map has the record's code rate, CRC flag and header flag under the three keys, and every other key as
the record's map has it. -/
def Obligations.MergedAnnotations : Prop :=
  ∀ (c : Cfg) (r : DecodedFrame), c.Inv →
    AnnMap.get c.keyCr (mergeAnnotations c r) = some r.codeRate ∧
    AnnMap.get c.keyHasCrc (mergeAnnotations c r) = some (.bit r.hasCrc) ∧
    AnnMap.get c.keyImplHdr (mergeAnnotations c r) = some (.bit r.implicitHeader) ∧
    ∀ k, k ≠ c.keyCr → k ≠ c.keyHasCrc → k ≠ c.keyImplHdr →
      AnnMap.get k (mergeAnnotations c r) = AnnMap.get k r.annotations

/-- DEC.CRC16 (R206): of nothing it is 0; one more byte is exclusive-ored into the high half and then shifted out, eight times,
with the polynomial 0x1021 wherever bit 15 was set; a message followed by its CRC-16, high byte first, has CRC-16 zero. -/
def Obligations.CrcRecurrenceAndResidue : Prop :=
  ∀ (s : State) (data : List Byte) (b : Byte),
    exec (.decCrc16 []) s = .next (s.emit [.wordResult 0]) ∧
    (∀ c, exec (.decCrc16 data) s = .next (s.emit [.wordResult c]) →
      exec (.decCrc16 (data ++ [b])) s = .next (s.emit [.wordResult
        ((fun v : BitVec 16 => if v.getLsbD 15 then (v <<< 1) ^^^ 0x1021 else v <<< 1)^[8] (c ^^^ (b.setWidth 16 <<< 8)))]) ∧
      exec (.decCrc16 (data ++ [(c >>> 8).setWidth 8, c.setWidth 8])) s = .next (s.emit [.wordResult 0]))

/-! ## The host framing protocol -/

/-- The functions deliver their results and change nothing else: `escape` byte by byte (R231), `descape` (R232), CRC16
(R206), the frame of a wire shape (R91). -/
def Obligations.FunctionResultsDelivered : Prop :=
  ∀ (s : State) (data : List Byte) (f : IqFrame),
    exec (.hfpEscape data) s = .next (s.emit [.bytesResult (data.flatMap (fun b =>
      if b = 0xC0 then [0xDB, 0xDC] else if b = 0xDB then [0xDB, 0xDD] else [b]))]) ∧
    exec (.hfpDescape data) s = .next (s.emit [.bytesResult (descape data)]) ∧
    exec (.decCrc16 data) s = .next (s.emit [.wordResult (crc16 data)]) ∧
    exec (.iqFrame f) s = .next (s.emit [.frameResult f])

/-- R239: de-escaping an escaped byte sequence gives it back, with delimiter and escape bytes in it too; the converse fails on
the rule's two examples. -/
def Obligations.DescapeUndoesEscape : Prop :=
  (∀ (s : State) (x : List Byte), exec (.hfpDescape (escape x)) s = .next (s.emit [.bytesResult x])) ∧
  escape (descape [0xDB, 0x41]) = [0x41] ∧ escape (descape [0xDB]) = []

/-- R240: escaped bytes hold no delimiter, every escape byte in them is followed by a substitute, their length is that of the
data and the special bytes in it, and a frame of them holds exactly two delimiters. -/
def Obligations.EscapedBytesAreDelimiterSafe : Prop :=
  ∀ x : List Byte,
    0xC0 ∉ escape x ∧
    (∀ i : Nat, (escape x)[i]? = some 0xDB → (escape x)[i + 1]? = some 0xDC ∨ (escape x)[i + 1]? = some 0xDD) ∧
    (escape x).length = x.length + x.countP (fun b => b = 0xC0 ∨ b = 0xDB) ∧
    x.length ≤ (escape x).length ∧ (escape x).length ≤ 2 * x.length ∧
    ∀ code, isCommandCode code = true → (hostFrameBytes code (escape x)).count 0xC0 = 2

/-- R233 to R238: HFP.CREATE_CMD with one of the five codes delivers delimiter, code, payload as it is, delimiter; with
another it is refused; the five commands are that function with their codes. -/
def Obligations.CommandFramesBuilt : Prop :=
  ∀ (s : State) (code : Byte) (p : List Byte),
    (code ∈ [0x00, 0x08, 0x0F, 0x23, 0x24] →
      exec (.hfpCreateCmd code p) s = .next (s.emit [.bytesResult ([0xC0, code] ++ p ++ [0xC0])])) ∧
    (code ∉ [0x00, 0x08, 0x0F, 0x23, 0x24] →
      exec (.hfpCreateCmd code p) s = .refused .reservedCommandCode) ∧
    exec (.cmdData p) s = .next (s.emit [.bytesResult ([0xC0, 0x00] ++ p ++ [0xC0])]) ∧
    exec (.cmdDetect p) s = .next (s.emit [.bytesResult ([0xC0, 0x08] ++ p ++ [0xC0])]) ∧
    exec (.cmdReady p) s = .next (s.emit [.bytesResult ([0xC0, 0x0F] ++ p ++ [0xC0])]) ∧
    exec (.cmdRssi p) s = .next (s.emit [.bytesResult ([0xC0, 0x23] ++ p ++ [0xC0])]) ∧
    exec (.cmdSnr p) s = .next (s.emit [.bytesResult ([0xC0, 0x24] ++ p ++ [0xC0])])

/-- R96, R97: what each row of the two escape tables gives, how many bytes a row of the decoder consumes, and that `descape`
takes the rows from left to right. -/
def Obligations.EscapeRowsDelivered : Prop :=
  ∀ (s : State) (b x : Byte) (rest : List Byte),
    exec .escDelim s = .next (s.emit [.bytesResult [0xDB, 0xDC]]) ∧
    exec .escEsc s = .next (s.emit [.bytesResult [0xDB, 0xDD]]) ∧
    (b ≠ 0xC0 → b ≠ 0xDB → exec (.escLit b) s = .next (s.emit [.bytesResult [b]])) ∧
    exec .descDelim s = .next (s.emit [.unescaped [0xC0] 2]) ∧
    exec .descEsc s = .next (s.emit [.unescaped [0xDB] 2]) ∧
    (b ≠ 0xDC → b ≠ 0xDD → exec (.descOther b) s = .next (s.emit [.unescaped [b] 2])) ∧
    exec .descTrunc s = .next (s.emit [.unescaped [] 1]) ∧
    (b ≠ 0xDB → exec (.descLit b) s = .next (s.emit [.unescaped [b] 1])) ∧
    descape [] = [] ∧ descape [0xDB] = [] ∧
    descape (0xDB :: x :: rest) = (if x = 0xDC then 0xC0 else if x = 0xDD then 0xDB else x) :: descape rest ∧
    (b ≠ 0xDB → descape (b :: rest) = b :: descape rest)
end

