-- ==== Sys2Proof/Laws/State.lean ====
section
/-! SUPPORT. One lemma per field per update of the state, true by rfl, so that no later proof unfolds a record update. -/

namespace Sys2Proof.Machine

/-! ## `setNode`, `modifyNode`, `emit` -/

@[simp] theorem setNode_cfg (s : State) (n : Nat) (nd : Node) :
    (s.setNode n nd).cfg = s.cfg := rfl

@[simp] theorem setNode_nodes (s : State) (n : Nat) (nd : Node) :
    (s.setNode n nd).nodes = s.nodes.set n nd := rfl

@[simp] theorem setNode_cmb (s : State) (n : Nat) (nd : Node) :
    (s.setNode n nd).cmb = s.cmb := rfl

@[simp] theorem setNode_inbox (s : State) (n : Nat) (nd : Node) :
    (s.setNode n nd).inbox = s.inbox := rfl

@[simp] theorem setNode_out (s : State) (n : Nat) (nd : Node) :
    (s.setNode n nd).out = s.out := rfl

@[simp] theorem setNode_faults (s : State) (n : Nat) (nd : Node) :
    (s.setNode n nd).faults = s.faults := rfl

@[simp] theorem setNode_nanCtr (s : State) (n : Nat) (nd : Node) :
    (s.setNode n nd).nanCtr = s.nanCtr := rfl

@[simp] theorem modifyNode_cfg (s : State) (n : Nat) (f : Node → Node) :
    (s.modifyNode n f).cfg = s.cfg := rfl

@[simp] theorem modifyNode_nodes (s : State) (n : Nat) (f : Node → Node) :
    (s.modifyNode n f).nodes = s.nodes.modify n f := rfl

@[simp] theorem modifyNode_cmb (s : State) (n : Nat) (f : Node → Node) :
    (s.modifyNode n f).cmb = s.cmb := rfl

@[simp] theorem modifyNode_inbox (s : State) (n : Nat) (f : Node → Node) :
    (s.modifyNode n f).inbox = s.inbox := rfl

@[simp] theorem modifyNode_out (s : State) (n : Nat) (f : Node → Node) :
    (s.modifyNode n f).out = s.out := rfl

@[simp] theorem modifyNode_faults (s : State) (n : Nat) (f : Node → Node) :
    (s.modifyNode n f).faults = s.faults := rfl

@[simp] theorem modifyNode_nanCtr (s : State) (n : Nat) (f : Node → Node) :
    (s.modifyNode n f).nanCtr = s.nanCtr := rfl

@[simp] theorem emit_cfg (s : State) (es : List Event) :
    (s.emit es).cfg = s.cfg := rfl

@[simp] theorem emit_nodes (s : State) (es : List Event) :
    (s.emit es).nodes = s.nodes := rfl

@[simp] theorem emit_cmb (s : State) (es : List Event) :
    (s.emit es).cmb = s.cmb := rfl

@[simp] theorem emit_inbox (s : State) (es : List Event) :
    (s.emit es).inbox = s.inbox := rfl

@[simp] theorem emit_out (s : State) (es : List Event) :
    (s.emit es).out = s.out ++ es := rfl

@[simp] theorem emit_faults (s : State) (es : List Event) :
    (s.emit es).faults = s.faults := rfl

@[simp] theorem emit_nanCtr (s : State) (es : List Event) :
    (s.emit es).nanCtr = s.nanCtr := rfl

/-! ## `mapLife`, `killEnds`, `raiseFault`: what every unit's death leaves alone -/

@[simp] theorem mapLife_cfg (u : UnitId) (f : Life → Life) (s : State) :
    (mapLife u f s).cfg = s.cfg := by cases u <;> rfl

@[simp] theorem killEnds_cfg (u : UnitId) (s : State) : (killEnds u s).cfg = s.cfg := by
  cases u <;> first | rfl | (simp only [killEnds]; split <;> rfl)

@[simp] theorem mapLife_inbox (u : UnitId) (f : Life → Life) (s : State) :
    (mapLife u f s).inbox = s.inbox := by cases u <;> rfl

@[simp] theorem killEnds_inbox (u : UnitId) (s : State) : (killEnds u s).inbox = s.inbox := by
  cases u <;> first | rfl | (simp only [killEnds]; split <;> rfl)

@[simp] theorem mapLife_out (u : UnitId) (f : Life → Life) (s : State) :
    (mapLife u f s).out = s.out := by cases u <;> rfl

@[simp] theorem killEnds_out (u : UnitId) (s : State) : (killEnds u s).out = s.out := by
  cases u <;> first | rfl | (simp only [killEnds]; split <;> rfl)

@[simp] theorem mapLife_faults (u : UnitId) (f : Life → Life) (s : State) :
    (mapLife u f s).faults = s.faults := by cases u <;> rfl

@[simp] theorem killEnds_faults (u : UnitId) (s : State) : (killEnds u s).faults = s.faults := by
  cases u <;> first | rfl | (simp only [killEnds]; split <;> rfl)

@[simp] theorem mapLife_nanCtr (u : UnitId) (f : Life → Life) (s : State) :
    (mapLife u f s).nanCtr = s.nanCtr := by cases u <;> rfl

@[simp] theorem killEnds_nanCtr (u : UnitId) (s : State) : (killEnds u s).nanCtr = s.nanCtr := by
  cases u <;> first | rfl | (simp only [killEnds]; split <;> rfl)

@[simp] theorem raiseFault_cfg (u : UnitId) (r : Fault) (s : State) :
    (raiseFault u r s).cfg = s.cfg := by simp [raiseFault]

@[simp] theorem raiseFault_inbox (u : UnitId) (r : Fault) (s : State) :
    (raiseFault u r s).inbox = s.inbox := by simp [raiseFault]

@[simp] theorem raiseFault_out (u : UnitId) (r : Fault) (s : State) :
    (raiseFault u r s).out = s.out := by simp [raiseFault]

@[simp] theorem raiseFault_nanCtr (u : UnitId) (r : Fault) (s : State) :
    (raiseFault u r s).nanCtr = s.nanCtr := by simp [raiseFault]

@[simp] theorem killEnds_cmb (u : UnitId) (s : State) : (killEnds u s).cmb = s.cmb := by
  cases u <;> first | rfl | (simp only [killEnds]; split <;> rfl)

@[simp] theorem raiseFault_faults (u : UnitId) (r : Fault) (s : State) :
    (raiseFault u r s).faults = s.faults ++ [(u, r)] := by simp [raiseFault]

/-- The combiner's death changes its life and nothing else of it. -/
@[simp] theorem raiseFault_cmb_cmb (r : Fault) (s : State) :
    (raiseFault .cmb r s).cmb = { s.cmb with life := { s.cmb.life with status := .terminated } } := by
  simp [raiseFault, mapLife]

/-- The death of another unit does not touch the combiner. -/
theorem raiseFault_pkt_cmb (n : Nat) (r : Fault) (s : State) : (raiseFault (.pkt n) r s).cmb = s.cmb := by
  simp [raiseFault, mapLife]

/-- A packetizer's fault changes its own node alone: its status, its work cycle, and the sender end of its channel. -/
theorem raiseFault_pkt_nodes (n : Nat) (r : Fault) (s : State) :
    (raiseFault (.pkt n) r s).nodes = s.nodes.modify n (fun nd =>
      { nd with
        pkt := { nd.pkt with work := none, life := { nd.pkt.life with status := .terminated } }
        tx := { nd.tx with txAlive := false } }) := by
  simp only [raiseFault, killEnds, mapLife, modifyNode_nodes, List.modify_modify_eq]
  rfl

/-- The combiner's fault kills its end of every channel of the combined wiring. -/
theorem raiseFault_cmb_nodes (r : Fault) (s : State) (h : s.cfg.wiring = .combined) :
    (raiseFault .cmb r s).nodes = s.nodes.map (fun nd =>
      { nd with tx := { nd.tx with rxAlive := false }, rx := { nd.rx with txAlive := false } }) := by
  simp [raiseFault, killEnds, mapLife, h]

/-! ## The depacketizer's channel -/

@[simp] theorem dpkIn_setDpkIn (w : Wiring) (nd : Node) (c : Chan) : (nd.setDpkIn w c).dpkIn w = c := by
  cases w <;> rfl

@[simp] theorem setDpkIn_setDpkIn (w : Wiring) (nd : Node) (c d : Chan) :
    (nd.setDpkIn w c).setDpkIn w d = nd.setDpkIn w d := by cases w <;> rfl

@[simp] theorem setDpkIn_dpkIn (w : Wiring) (nd : Node) : nd.setDpkIn w (nd.dpkIn w) = nd := by
  cases w <;> rfl

@[simp] theorem setDpkIn_pkt (w : Wiring) (nd : Node) (c : Chan) : (nd.setDpkIn w c).pkt = nd.pkt := by
  cases w <;> rfl

@[simp] theorem setDpkIn_dpk (w : Wiring) (nd : Node) (c : Chan) : (nd.setDpkIn w c).dpk = nd.dpk := by
  cases w <;> rfl

@[simp] theorem setDpkIn_nse (w : Wiring) (nd : Node) (c : Chan) : (nd.setDpkIn w c).nse = nd.nse := by
  cases w <;> rfl

@[simp] theorem setDpkIn_dec (w : Wiring) (nd : Node) (c : Chan) : (nd.setDpkIn w c).dec = nd.dec := by
  cases w <;> rfl

@[simp] theorem dpkIn_with_dpk (w : Wiring) (nd : Node) (q : Dpk) : ({ nd with dpk := q } : Node).dpkIn w = nd.dpkIn w := by
  cases w <;> rfl

/-! ## Setting a node twice -/

@[simp] theorem setNode_setNode (s : State) (n : Nat) (a b : Node) : (s.setNode n a).setNode n b = s.setNode n b := by
  simp [State.setNode]

theorem setNode_self (s : State) (n : Nat) (nd : Node) (h : s.nodes[n]? = some nd) : s.setNode n nd = s := by
  obtain ⟨hn, rfl⟩ := List.getElem?_eq_some_iff.1 h
  simp [State.setNode]

theorem getElem?_setNode_self (s : State) (n : Nat) (nd a : Node) (h : s.nodes[n]? = some nd) :
    (s.setNode n a).nodes[n]? = some a := by
  obtain ⟨hn, -⟩ := List.getElem?_eq_some_iff.1 h
  simp [hn]

theorem modifyNode_setNode (s : State) (n : Nat) (nd : Node) (f : Node → Node) :
    (s.setNode n nd).modifyNode n f = s.setNode n (f nd) := by
  simp [State.modifyNode, State.setNode, List.modify_eq_set_getElem?, List.getElem?_set]
  rcases Nat.lt_or_ge n s.nodes.length with h | h
  · simp [h]
  · simp [Nat.not_lt.2 h, List.set_eq_of_length_le h]

end Sys2Proof.Machine
end

