-- ==== Sys2Proof/Laws/Ops.lean ====
section
/-! SUPPORT. One lemma per shared operation, saying once everything it can do; the later proofs cite these and unfold nothing. -/

namespace Sys2Proof.Machine

/-! ## Instances and lives -/

theorem withNode_of {s : State} {n : Nat} {nd : Node} {k : Node → Result} (h : s.nodes[n]? = some nd) :
    withNode s n k = k nd := by simp [withNode, h]

theorem withNode_next {s t : State} {n : Nat} {k : Node → Result} :
    withNode s n k = .next t ↔ ∃ nd, s.nodes[n]? = some nd ∧ k nd = .next t := by
  unfold withNode; cases s.nodes[n]? <;> simp

theorem withNode_fault {s : State} {n : Nat} {k : Node → Result} {r : Fault} :
    withNode s n k = .fault r ↔ ∃ nd, s.nodes[n]? = some nd ∧ k nd = .fault r := by
  unfold withNode; cases s.nodes[n]? <;> simp

@[simp] theorem withLife_fresh {k : Result} : withLife (Life.fresh true) k = k := by simp [withLife]

theorem withLife_next {l : Life} {k : Result} {t : State} :
    withLife l k = .next t ↔ l = Life.fresh true ∧ k = .next t := by
  obtain ⟨st, p⟩ := l
  cases p <;> cases st <;> simp [withLife]

theorem withLife_fault {l : Life} {k : Result} {r : Fault} :
    withLife l k = .fault r ↔ l = Life.fresh true ∧ k = .fault r := by
  obtain ⟨st, p⟩ := l
  cases p <;> cases st <;> simp [withLife]

theorem withLife_terminated {k : Result} : withLife ⟨.terminated, true⟩ k = .refused .unitTerminated := by
  simp [withLife]

theorem withLife_absent {l : Life} {k : Result} (h : l.present = false) : withLife l k = .refused .unitAbsent := by
  simp [withLife, h]

/-! ## Channels -/

theorem send_alive {c : Chan} (f : IqFrame) (h : c.rxAlive = true) : c.send f = some { c with q := c.q ++ [f] } := by
  simp [Chan.send, h]

theorem send_dead {c : Chan} (f : IqFrame) (h : c.rxAlive = false) : c.send f = none := by
  simp [Chan.send, h]

/-- A send that succeeds had a live receiver, and the frame stands last. -/
theorem send_some {c d : Chan} {f : IqFrame} : c.send f = some d ↔ c.rxAlive = true ∧ d = { c with q := c.q ++ [f] } := by
  unfold Chan.send; cases c.rxAlive <;> simp [eq_comm]

theorem send_none {c : Chan} {f : IqFrame} : c.send f = none ↔ c.rxAlive = false := by
  unfold Chan.send; cases c.rxAlive <;> simp

/-- A receive that gets a frame gets the oldest one. -/
theorem tryRecv_some {c d : Chan} {f : IqFrame} :
    c.tryRecv = some (f, d) ↔ ∃ q, c.q = f :: q ∧ d = { c with q := q } := by
  unfold Chan.tryRecv; cases c.q <;> simp [eq_comm]

theorem tryRecv_none {c : Chan} : c.tryRecv = none ↔ c.q = [] := by
  unfold Chan.tryRecv; cases c.q <;> simp

theorem recv_frame {c d : Chan} {f : IqFrame} :
    c.recv = .frame f d ↔ ∃ q, c.q = f :: q ∧ d = { c with q := q } := by
  unfold Chan.recv
  cases c.q with
  | nil => cases c.txAlive <;> simp
  | cons => simp [eq_comm]

theorem recv_wait {c : Chan} : c.recv = .wait ↔ c.q = [] ∧ c.txAlive = true := by
  unfold Chan.recv
  cases c.q with
  | nil => cases c.txAlive <;> simp
  | cons => simp

theorem recv_disconnected {c : Chan} : c.recv = .disconnected ↔ c.q = [] ∧ c.txAlive = false := by
  unfold Chan.recv
  cases c.q with
  | nil => cases c.txAlive <;> simp
  | cons => simp

/-! ## The pending buffer: the canonical form (strictly rising keys) -/

/-- Strictly rising keys, as a Bool. -/
abbrev Buf.wf (b : Buf) : Prop := (b.map Prod.fst).Pairwise (· < ·)

theorem Buf.insert_cons (f : IqFrame) (s : Nat) (e : Epoch) (es : List Entry) (b : Buf) :
    Buf.insert f s ((e, es) :: b) =
      if f.epoch < e then some ((f.epoch, [⟨f, s⟩]) :: (e, es) :: b)
      else if f.epoch = e then
        if es.any (fun x => x.sender = s) then none else some ((e, es ++ [⟨f, s⟩]) :: b)
      else (Buf.insert f s b).map (fun b' => (e, es) :: b') := rfl

/-- After an insertion the keys are the old ones and the frame's epoch. -/
theorem Buf.insert_keys {f : IqFrame} {s : Nat} : ∀ {b b' : Buf}, Buf.insert f s b = some b' →
    ∀ k, k ∈ b'.map Prod.fst ↔ k = f.epoch ∨ k ∈ b.map Prod.fst := by
  intro b
  induction b with
  | nil =>
    intro b' h k
    simp only [Buf.insert, Option.some.injEq] at h
    subst h; simp
  | cons p b ih =>
    obtain ⟨e, es⟩ := p
    intro b' h k
    rw [Buf.insert_cons] at h
    split at h
    · cases h; simp
    · split at h
      · rename_i _ he
        split at h
        · cases h
        · cases h; simp [he]
      · obtain ⟨c, hc, rfl⟩ := Option.map_eq_some_iff.1 h
        have := ih hc k
        simp only [List.map_cons, List.mem_cons, this]
        tauto

/-- Insertion keeps the canonical form. -/
theorem Buf.insert_wf {f : IqFrame} {s : Nat} : ∀ {b b' : Buf}, Buf.insert f s b = some b' → b.wf → b'.wf := by
  intro b
  induction b with
  | nil =>
    intro b' h _
    simp only [Buf.insert, Option.some.injEq] at h
    subst h; simp [Buf.wf]
  | cons p b ih =>
    obtain ⟨e, es⟩ := p
    intro b' h hw
    rw [Buf.insert_cons] at h
    have hw' : (∀ k ∈ b.map Prod.fst, e < k) ∧ (b.map Prod.fst).Pairwise (· < ·) := by
      simpa [Buf.wf] using hw
    split at h
    · rename_i hlt
      cases h
      have : ∀ k ∈ b.map Prod.fst, f.epoch < k := fun k hk => BitVec.lt_trans hlt (hw'.1 k hk)
      simp only [Buf.wf, List.map_cons, List.pairwise_cons]
      refine ⟨?_, hw'⟩
      intro k hk
      rcases List.mem_cons.1 hk with rfl | hk
      · exact hlt
      · exact this k hk
    · rename_i hlt
      split at h
      · split at h
        · cases h
        · cases h; simpa [Buf.wf] using hw
      · rename_i hne
        obtain ⟨c, hc, rfl⟩ := Option.map_eq_some_iff.1 h
        have hk := Buf.insert_keys hc
        simp only [Buf.wf, List.map_cons, List.pairwise_cons]
        refine ⟨fun k hk' => ?_, ih hc hw'.2⟩
        rcases (hk k).1 hk' with rfl | hk'
        · bv_omega
        · exact hw'.1 k hk'

/-- Removal keeps the canonical form. -/
theorem Buf.remove_wf {e : Epoch} {b : Buf} (h : b.wf) : (Buf.remove e b).wf := by
  unfold Buf.remove Buf.wf
  exact h.sublist (List.filter_sublist.map _)

/-- Removing the smallest key removes the first pair. -/
theorem Buf.remove_head {e : Epoch} {es : List Entry} {b : Buf} (h : Buf.wf ((e, es) :: b)) :
    Buf.remove e ((e, es) :: b) = b := by
  have h' : ∀ k ∈ b.map Prod.fst, e < k := by
    have : (∀ k ∈ b.map Prod.fst, e < k) ∧ (b.map Prod.fst).Pairwise (· < ·) := by simpa [Buf.wf] using h
    exact this.1
  unfold Buf.remove
  rw [List.filter_cons_of_neg (by simp)]
  refine List.filter_eq_self.2 fun kv hkv => ?_
  have : e < kv.1 := h' kv.1 (List.mem_map_of_mem hkv)
  have hne : kv.1 ≠ e := by rintro rfl; exact BitVec.lt_irrefl _ this
  simp [hne]

/-- The buffer after reset is in canonical form. -/
theorem reset_buf_wf : State.reset.cmb.buf.wf := by simp [State.reset, State.construct, Buf.wf]

end Sys2Proof.Machine
end

