-- ==== Sys2Proof/Laws/ChannelCombiner.lean ====
section
/-! SUPPORT. What a receive, a send, a check and the combiner's autonomous step can do, said once. -/

namespace Sys2Proof.Machine

/-! ## The numeric rules -/

theorem accumulateFrom_length (fp : FpKind) (c j : Nat) (g : F32) : ∀ (os xs : List C32) (i : Nat),
    (accumulateFrom fp c j g i os xs).length = os.length := by
  intro os
  induction os with
  | nil => intro xs i; cases xs <;> simp [accumulateFrom]
  | cons o os ih =>
    intro xs i
    cases xs with
    | nil => simp [accumulateFrom]
    | cons x xs => simp [accumulateFrom, ih]

theorem sumEntries_length (fp : FpKind) (dist : List (List F32)) (r c : Nat) : ∀ (es : List Entry) (j : Nat) (o : List C32),
    (sumEntries fp dist r c j es o).length = o.length := by
  intro es
  induction es with
  | nil => intro j o; rfl
  | cons x es ih => intro j o; simp [sumEntries, ih, accumulateFrom_length]

/-- A combined frame has 1024 samples and the shared epoch, whatever the entry set. -/
theorem combinedFrame_wf (s : State) (e : Epoch) (es : List Entry) (r : Nat) : (combinedFrame s e es r).wf := by
  simp [combinedFrame, IqFrame.wf, sumEntries_length]

@[simp] theorem combinedFrame_epoch (s : State) (e : Epoch) (es : List Entry) (r : Nat) :
    (combinedFrame s e es r).epoch = e := rfl

/-- A combined frame depends on the configuration, the distances and the counter alone. -/
theorem combinedFrame_congr {s t : State} (e : Epoch) (es : List Entry) (r : Nat) (h1 : t.cfg.fp = s.cfg.fp)
    (h2 : t.cmb.dist = s.cmb.dist) (h3 : t.nanCtr = s.nanCtr) : combinedFrame t e es r = combinedFrame s e es r := by
  simp [combinedFrame, h1, h2, h3]

/-! ## Steps -/

/-- Everything a receive can do. -/
theorem recvTurn_cases (s : State) :
    (s.nodes[s.cmb.rr]? = none ∧ recvTurn s = s) ∨
    ∃ nd, s.nodes[s.cmb.rr]? = some nd ∧
      ((nd.tx.q = [] ∧ nd.tx.txAlive = true ∧ recvTurn s = s) ∨
       (nd.tx.q = [] ∧ nd.tx.txAlive = false ∧ recvTurn s = raiseFault .cmb .channelDisconnected s) ∨
       ∃ f q, nd.tx.q = f :: q ∧
        ((Buf.insert f s.cmb.rr s.cmb.buf = none ∧
          recvTurn s = raiseFault .cmb (.duplicateEntry f.epoch s.cmb.rr)
            (s.setNode s.cmb.rr { nd with tx := { nd.tx with q := q } })) ∨
         ∃ b, Buf.insert f s.cmb.rr s.cmb.buf = some b ∧
          recvTurn s = { s.setNode s.cmb.rr { nd with tx := { nd.tx with q := q } } with
            cmb := advanceRecv s.nNodes s.cmb b })) := by
  unfold recvTurn
  cases h : s.nodes[s.cmb.rr]? with
  | none => exact .inl ⟨rfl, rfl⟩
  | some nd =>
    refine .inr ⟨nd, rfl, ?_⟩
    cases hq : nd.tx.q with
    | nil =>
      cases ht : nd.tx.txAlive
      · have := recv_disconnected.2 ⟨hq, ht⟩
        exact .inr (.inl ⟨rfl, rfl, by simp [this]⟩)
      · have := recv_wait.2 ⟨hq, ht⟩
        exact .inl ⟨rfl, rfl, by simp [this]⟩
    | cons f q =>
      have := recv_frame.2 ⟨q, hq, rfl⟩
      refine .inr (.inr ⟨f, q, rfl, ?_⟩)
      cases hb : Buf.insert f s.cmb.rr s.cmb.buf with
      | none => exact .inl ⟨rfl, by simp [this, hb]⟩
      | some b => exact .inr ⟨b, rfl, by simp [this, hb]⟩

/-- Everything one send of a combine can do. -/
theorem sendOne_cases (e : Epoch) (es : List Entry) (s : State) :
    (s.nodes[s.cmb.sent]? = none ∧ sendOne e es s = .done s) ∨
    ∃ nd, s.nodes[s.cmb.sent]? = some nd ∧
      ((nd.rx.rxAlive = false ∧ sendOne e es s = .raised (raiseFault .cmb .channelDisconnected s)) ∨
       (nd.rx.rxAlive = true ∧ sendOne e es s = .done { s.setNode s.cmb.sent
          { nd with rx := { nd.rx with q := nd.rx.q ++ [combinedFrame s e es s.cmb.sent] } } with
          cmb := { s.cmb with sent := s.cmb.sent + 1 }
          nanCtr := s.nanCtr + 1 })) := by
  unfold sendOne
  cases h : s.nodes[s.cmb.sent]? with
  | none => exact .inl ⟨rfl, rfl⟩
  | some nd =>
    refine .inr ⟨nd, rfl, ?_⟩
    cases hr : nd.rx.rxAlive
    · exact .inl ⟨rfl, by simp [send_dead _ hr]⟩
    · exact .inr ⟨rfl, by simp only [send_alive _ hr]⟩

theorem readyEpoch_some {s : State} {e : Epoch} {es : List Entry} :
    readyEpoch s = some (e, es) ↔ s.nNodes ≤ es.length ∧ ∃ rest, s.cmb.buf = (e, es) :: rest := by
  unfold readyEpoch
  cases h : s.cmb.buf with
  | nil => simp
  | cons kv rest =>
    obtain ⟨e', es'⟩ := kv
    by_cases hl : es'.length < s.nNodes
    · simp only [hl, if_true]
      constructor
      · intro h; cases h
      · rintro ⟨h1, rest', h2⟩; cases h2; omega
    · simp only [hl, if_false]
      constructor
      · intro h; cases h; exact ⟨by omega, rest, rfl⟩
      · rintro ⟨h1, rest', h2⟩; cases h2; rfl

/-- What a property that every send keeps says of the sends of a combine, whether they all succeed or one raises. -/
theorem sendMany_induct (e : Epoch) (es : List Entry) (P Q : State → Prop)
    (done : ∀ s t, P s → sendOne e es s = .done t → P t) (raised : ∀ s t, P s → sendOne e es s = .raised t → Q t) :
    ∀ k s, P s → match sendMany e es k s with
      | .done t => P t
      | .raised t => Q t := by
  intro k
  induction k with
  | zero => intro s h; exact h
  | succ k ih =>
    intro s h
    unfold sendMany
    cases h1 : sendOne e es s with
    | raised t => exact raised _ _ h h1
    | done t => exact ih t (done _ _ h h1)

/-- Everything a whole combine can do. -/
theorem wholeCombine_cases (e : Epoch) (es : List Entry) (s : State) :
    (∃ t, sendMany e es (s.nNodes - s.cmb.sent) s = .raised t ∧ wholeCombine e es s = t) ∨
    ∃ t, sendMany e es (s.nNodes - s.cmb.sent) s = .done t ∧ wholeCombine e es s = finishCombine e t := by
  unfold wholeCombine
  cases sendMany e es (s.nNodes - s.cmb.sent) s with
  | raised t => exact .inl ⟨t, rfl, rfl⟩
  | done t => exact .inr ⟨t, rfl, rfl⟩

/-- CMB.CHECK of a complete oldest epoch and CMB.COMBINE of it are one thing. -/
theorem wholeCheck_ready {s : State} {e : Epoch} {es : List Entry} (h : readyEpoch s = some (e, es)) :
    wholeCheck s = wholeCombine e es s := by
  unfold wholeCheck; rw [h]

/-- The combiner's step when it may run. -/
theorem combinerTurn_recv {s : State} (h : s.cmb.life = Life.fresh true) (hp : s.cmb.phase = .recv) :
    combinerTurn s = recvTurn s := by
  simp [combinerTurn, h, hp]

theorem combinerTurn_check {s : State} (h : s.cmb.life = Life.fresh true) (hp : s.cmb.phase = .check) :
    combinerTurn s = checkTurn s := by
  simp [combinerTurn, h, hp]

/-- The combiner's step when it may not run. -/
theorem combinerTurn_idle {s : State} (h : s.cmb.life ≠ Life.fresh true) : combinerTurn s = s := by
  unfold combinerTurn
  rw [if_neg]
  intro hc
  apply h
  simp only [Bool.and_eq_true, decide_eq_true_eq] at hc
  cases hl : s.cmb.life
  simp_all

end Sys2Proof.Machine
end

