-- ==== Sys2Proof/Laws/Codec.lean ====
section
/-! SUPPORT. The little-endian numbers, the operand readers and the escape functions' building blocks, each said once. -/

namespace Sys2Proof

@[simp] theorem leBytes_length : ∀ (k n : Nat), (leBytes k n).length = k := by
  intro k
  induction k with
  | zero => intro n; rfl
  | succ k ih => intro n; simp [leBytes, ih]

/-- Reading back the `k` low bytes of a number gives it modulo `256 ^ k`. -/
theorem leNat_leBytes_mod : ∀ (k n : Nat), leNat (leBytes k n) = n % 256 ^ k := by
  intro k
  induction k with
  | zero => intro n; simp [leBytes, leNat, Nat.mod_one]
  | succ k ih =>
    intro n
    simp only [leBytes, leNat, ih, BitVec.toNat_ofNat, Nat.reducePow]
    rw [Nat.pow_succ', Nat.mod_mul]

theorem leNat_leBytes {k n : Nat} (h : n < 256 ^ k) : leNat (leBytes k n) = n := by
  rw [leNat_leBytes_mod, Nat.mod_eq_of_lt h]

theorem leNat_lt : ∀ bs : List Byte, leNat bs < 256 ^ bs.length := by
  intro bs
  induction bs with
  | nil => simp [leNat]
  | cons b bs ih =>
    have hb := b.isLt
    simp only [leNat, List.length_cons, Nat.pow_succ]
    omega

/-- The bytes of the number that some bytes make are those bytes. -/
theorem leBytes_leNat : ∀ bs : List Byte, leBytes bs.length (leNat bs) = bs := by
  intro bs
  induction bs with
  | nil => rfl
  | cons b bs ih =>
    have hb := b.isLt
    simp only [leNat, List.length_cons, leBytes]
    have h1 : (b.toNat + 256 * leNat bs) / 256 = leNat bs := by omega
    have h2 : BitVec.ofNat 8 (b.toNat + 256 * leNat bs) = b := by
      apply BitVec.eq_of_toNat_eq
      simp only [BitVec.toNat_ofNat]
      omega
    rw [h1, h2, ih]

/-- Reading back the groups of a number that they are enough for gives it, and leaves what stands after them. -/
theorem readNat_natGroups (rest : List Byte) : ∀ (k n : Nat), n < 128 ^ (k + 1) →
    readNat (natGroups k n ++ rest) = .ok (n, rest) := by
  intro k
  induction k with
  | zero =>
    intro n h
    have h1 : (BitVec.ofNat 8 n).toNat = n := by rw [BitVec.toNat_ofNat]; omega
    simp only [natGroups, List.cons_append, List.nil_append, readNat, h1]
    exact if_pos (by omega)
  | succ k ih =>
    intro n h
    by_cases hn : n < 128
    · have h1 : (BitVec.ofNat 8 n).toNat = n := by rw [BitVec.toNat_ofNat]; omega
      simp only [natGroups, hn, if_true, List.cons_append, List.nil_append, readNat, h1]
    · have h1 : (BitVec.ofNat 8 (128 + n % 128)).toNat = 128 + n % 128 := by rw [BitVec.toNat_ofNat]; omega
      have h2 : n / 128 < 128 ^ (k + 1) := by
        rw [Nat.pow_succ] at h
        omega
      simp only [natGroups, hn, if_false, List.cons_append, readNat, h1, ih _ h2]
      have h3 : ¬ n / 128 = 0 := by omega
      simp [bind, Except.bind, h3, Nat.mod_add_div]

/-- A number of any size reads back as itself. -/
theorem readNat_natBytes (n : Nat) (rest : List Byte) : readNat (natBytes n ++ rest) = .ok (n, rest) := by
  refine readNat_natGroups rest _ _ ?_
  calc n < 2 ^ (Nat.log2 n + 1) := Nat.lt_log2_self
    _ ≤ 128 ^ (Nat.log2 n + 1) := Nat.pow_le_pow_left (by decide) _

@[simp] theorem sampleBytes_length (x : C32) : (sampleBytes x).length = 8 := by simp [sampleBytes]

@[simp] theorem samplesBytes_length : ∀ xs : List C32, (samplesBytes xs).length = 8 * xs.length := by
  intro xs
  induction xs with
  | nil => rfl
  | cons x xs ih => simp [samplesBytes, ih]; omega

@[simp] theorem samplesOf_length : ∀ (k : Nat) (bs : List Byte), (samplesOf k bs).length = k := by
  intro k
  induction k with
  | zero => intro bs; rfl
  | succ k ih => intro bs; simp [samplesOf, ih]

/-- A wire shape has 8200 bytes exactly when the frame holds 1024 samples. -/
theorem frameBytes_length (f : IqFrame) : (frameBytes f).length = 8 + 8 * f.samples.length := by
  simp [frameBytes]

/-- What splitting off bytes can give. -/
theorem takeBytes_ok {k : Nat} {bs u v : List Byte} :
    takeBytes k bs = .ok (u, v) ↔ bs = u ++ v ∧ u.length = k := by
  unfold takeBytes
  constructor
  · intro h
    split at h
    · cases h
    · cases h
      exact ⟨(List.take_append_drop k bs).symm, by simp; omega⟩
  · rintro ⟨rfl, rfl⟩
    simp

end Sys2Proof
end

