-- ==== Sys2Proof/Laws/Depacketizer.lean ====
section
/-! SUPPORT. What the loop of a depacketizer's work cycle can do, said once. -/

namespace Sys2Proof.Machine

theorem drain_zero (q : Dpk) (c : Chan) : drain 0 q c = ([], q, c) := rfl

/-- One turn of the loop inside a frame. -/
theorem drain_inside {m : Nat} {q : Dpk} {c : Chan} (h : q.rd ≠ frameLen) :
    drain (m + 1) q c =
      (readSampleAt q.cur q.rd :: (drain m { q with rd := q.rd + 1 } c).1, (drain m { q with rd := q.rd + 1 } c).2) := by
  rw [drain, if_neg h]

/-- One turn of the loop at a frame's end with a frame queued. -/
theorem drain_next {m : Nat} {q : Dpk} {c : Chan} {f : IqFrame} {fs : List IqFrame} (h : q.rd = frameLen)
    (hq : c.q = f :: fs) :
    drain (m + 1) q c =
      (readSampleAt (some f) 0 :: (drain m { q with cur := some f, rd := 1 } { c with q := fs }).1,
        (drain m { q with cur := some f, rd := 1 } { c with q := fs }).2) := by
  rw [drain, if_pos h, Chan.tryRecv, hq]

/-- One turn of the loop at a frame's end with no frame queued: silence for the remainder. -/
theorem drain_silence {m : Nat} {q : Dpk} {c : Chan} (h : q.rd = frameLen) (hq : c.q = []) :
    drain m q c = (List.replicate m C32.zero, q, c) := by
  cases m with
  | zero => rfl
  | succ m => rw [drain, if_pos h, Chan.tryRecv, hq]

/-- What a property that every turn of the loop keeps says of the whole loop. -/
theorem drain_induct (P : Dpk → Chan → Prop)
    (inside : ∀ q c, P q c → q.rd ≠ frameLen → P { q with rd := q.rd + 1 } c)
    (next : ∀ q c f fs, P q c → q.rd = frameLen → c.q = f :: fs → P { q with cur := some f, rd := 1 } { c with q := fs }) :
    ∀ m q c, P q c → P (drain m q c).2.1 (drain m q c).2.2 := by
  intro m
  induction m with
  | zero => intro q c h; exact h
  | succ m ih =>
    intro q c h
    by_cases hr : q.rd = frameLen
    · cases hq : c.q with
      | nil => rw [drain_silence hr hq]; exact h
      | cons f fs => rw [drain_next hr hq]; exact ih _ _ (next _ _ _ _ h hr hq)
    · rw [drain_inside hr]; exact ih _ _ (inside _ _ h hr)

/-- The loop gives exactly the samples asked for. -/
theorem drain_length : ∀ (m : Nat) (q : Dpk) (c : Chan), (drain m q c).1.length = m := by
  intro m
  induction m with
  | zero => intro q c; rfl
  | succ m ih =>
    intro q c
    by_cases hr : q.rd = frameLen
    · cases hq : c.q with
      | nil => rw [drain_silence hr hq]; simp
      | cons f fs => rw [drain_next hr hq]; simp [ih]
    · rw [drain_inside hr]; simp [ih]

/-- The loop changes neither the life nor the ends of the channel, and only takes frames from its front. -/
theorem drain_frame (m : Nat) (q : Dpk) (c : Chan) :
    (drain m q c).2.1.life = q.life ∧ (drain m q c).2.2.txAlive = c.txAlive ∧
    (drain m q c).2.2.rxAlive = c.rxAlive ∧ ∃ k, (drain m q c).2.2.q = c.q.drop k := by
  refine drain_induct (fun q' c' => q'.life = q.life ∧ c'.txAlive = c.txAlive ∧ c'.rxAlive = c.rxAlive ∧
    ∃ k, c'.q = c.q.drop k) ?_ ?_ m q c ⟨rfl, rfl, rfl, 0, rfl⟩
  · rintro q' c' h _; exact h
  · rintro q' c' f fs ⟨h1, h2, h3, k, hk⟩ _ hq
    refine ⟨h1, h2, h3, k + 1, ?_⟩
    have : c'.q.drop 1 = (c.q.drop k).drop 1 := by rw [hk]
    simpa [hq, List.drop_drop, Nat.add_comm] using this

/-- Two loops one after the other are one loop. -/
theorem drain_add : ∀ (a b : Nat) (q : Dpk) (c : Chan),
    drain (a + b) q c =
      ((drain a q c).1 ++ (drain b (drain a q c).2.1 (drain a q c).2.2).1,
        (drain b (drain a q c).2.1 (drain a q c).2.2).2) := by
  intro a b
  induction a with
  | zero => intro q c; simp [drain_zero]
  | succ a ih =>
    intro q c
    rw [Nat.add_right_comm]
    by_cases hr : q.rd = frameLen
    · cases hq : c.q with
      | nil =>
        rw [drain_silence hr hq, drain_silence (m := a + 1) hr hq]
        simp only
        rw [drain_silence hr hq]
        simp [List.replicate_add, Nat.add_right_comm a b 1]
      | cons f fs => rw [drain_next hr hq, drain_next hr hq, ih]; rfl
    · rw [drain_inside hr, drain_inside hr, ih]; rfl

/-- When a work cycle answers a next state, and which. -/
theorem fillBuffer_next {n m : Nat} {s t : State} : fillBuffer n m s = .next t ↔
    ∃ nd, s.nodes[n]? = some nd ∧ nd.dpk.life = Life.fresh true ∧
      t = (s.setNode n (Node.setDpkIn s.cfg.wiring { nd with dpk := (drain m nd.dpk (nd.dpkIn s.cfg.wiring)).2.1 }
        (drain m nd.dpk (nd.dpkIn s.cfg.wiring)).2.2)).emit
          [.dpkOut n (drain m nd.dpk (nd.dpkIn s.cfg.wiring)).1] := by
  simp only [fillBuffer, withNode_next, withLife_next]
  constructor
  · rintro ⟨nd, h1, h2, h3⟩
    exact ⟨nd, h1, h2, by simpa [eq_comm] using h3⟩
  · rintro ⟨nd, h1, h2, rfl⟩
    exact ⟨nd, h1, h2, rfl⟩

/-! ## The atomic steps of a work cycle -/

/-- When the start of a work cycle answers a next state, and which. -/
theorem startDpkWork_next {n m : Nat} {s t : State} : startDpkWork n m s = .next t ↔
    ∃ nd, s.nodes[n]? = some nd ∧ nd.dpk.life = Life.fresh true ∧
      t = s.setNode n { nd with dpk := { nd.dpk with work := some ⟨m, []⟩ } } := by
  simp only [startDpkWork, withNode_next, withLife_next, Host.Outcome.next.injEq]
  constructor
  · rintro ⟨nd, h1, h2, rfl⟩; exact ⟨nd, h1, h2, rfl⟩
  · rintro ⟨nd, h1, h2, rfl⟩; exact ⟨nd, h1, h2, rfl⟩

theorem dpkAdvance_zero (q : Dpk) (c : Chan) : dpkAdvance 0 q c = ([], 0, q, c) := rfl

/-- A turn inside a frame. -/
theorem dpkAdvance_inside {m : Nat} {q : Dpk} {c : Chan} (h : q.rd ≠ frameLen) :
    dpkAdvance (m + 1) q c =
      (readSampleAt q.cur q.rd :: (dpkAdvance m { q with rd := q.rd + 1 } c).1,
        (dpkAdvance m { q with rd := q.rd + 1 } c).2) := by
  rw [dpkAdvance, if_neg h]

/-- A turn at a frame's end with a frame queued: it ends with the receive. -/
theorem dpkAdvance_next {m : Nat} {q : Dpk} {c : Chan} {f : IqFrame} {fs : List IqFrame} (h : q.rd = frameLen)
    (hq : c.q = f :: fs) :
    dpkAdvance (m + 1) q c = ([], m + 1, { q with cur := some f, rd := 0 }, { c with q := fs }) := by
  rw [dpkAdvance, if_pos h, Chan.tryRecv, hq]

/-- A turn at a frame's end with no frame queued: silence for the remainder. -/
theorem dpkAdvance_silence {m : Nat} {q : Dpk} {c : Chan} (h : q.rd = frameLen) (hq : c.q = []) :
    dpkAdvance m q c = (List.replicate m C32.zero, 0, q, c) := by
  cases m with
  | zero => rfl
  | succ m => rw [dpkAdvance, if_pos h, Chan.tryRecv, hq]

/-- A turn and then the loop for what is left give what the loop gives. -/
theorem dpkAdvance_drain : ∀ (m : Nat) (q : Dpk) (c : Chan),
    let r := dpkAdvance m q c
    drain m q c = (r.1 ++ (drain r.2.1 r.2.2.1 r.2.2.2).1, (drain r.2.1 r.2.2.1 r.2.2.2).2) := by
  intro m
  induction m with
  | zero => intro q c; rfl
  | succ m ih =>
    intro q c
    by_cases hr : q.rd = frameLen
    · cases hq : c.q with
      | nil => simp [dpkAdvance_silence hr hq, drain_silence hr hq]
      | cons f fs =>
        simp only [dpkAdvance_next hr hq, drain_next hr hq, List.nil_append]
        rw [drain_inside (by decide : (0 : Nat) ≠ frameLen)]
    · simp only [dpkAdvance_inside hr, drain_inside hr, ih { q with rd := q.rd + 1 } c, List.cons_append]

/-- What a turn can do to the channel and what it leaves: either nothing is left and no frame was taken, or one frame was taken
and is the current frame. -/
theorem dpkAdvance_cases : ∀ (m : Nat) (q : Dpk) (c : Chan),
    let r := dpkAdvance m q c
    r.2.2.1.life = q.life ∧ r.1.length + r.2.1 = m ∧
    ((r.2.1 = 0 ∧ r.2.2.2 = c ∧ r.2.2.1.cur = q.cur) ∨
     ∃ f fs, 0 < r.2.1 ∧ c.q = f :: fs ∧ r.2.2.2 = { c with q := fs } ∧ r.2.2.1.cur = some f ∧ r.2.2.1.rd = 0) := by
  intro m
  induction m with
  | zero => intro q c; exact ⟨rfl, rfl, .inl ⟨rfl, rfl, rfl⟩⟩
  | succ m ih =>
    intro q c
    by_cases hr : q.rd = frameLen
    · cases hq : c.q with
      | nil => simp [dpkAdvance_silence hr hq]
      | cons f fs => simp [dpkAdvance_next hr hq]
    · simp only [dpkAdvance_inside hr]
      obtain ⟨h1, h2, h3⟩ := ih { q with rd := q.rd + 1 } c
      exact ⟨h1, by simp only [List.length_cons]; omega, h3⟩

/-- Everything a depacketizer's turn can be. -/
theorem dpkTurn_cases (n : Nat) (s : State) :
    dpkTurn n s = s ∨ ∃ nd w, s.nodes[n]? = some nd ∧ nd.dpk.work = some w ∧ nd.dpk.life = Life.fresh true ∧
      dpkTurn n s = continueFill n nd w s := by
  unfold dpkTurn
  cases h : s.nodes[n]? with
  | none => exact .inl rfl
  | some nd =>
    cases hw : nd.dpk.work with
    | none => exact .inl (by simp only [hw])
    | some w =>
      by_cases hl : nd.dpk.life = Life.fresh true
      · exact .inr ⟨nd, w, rfl, hw, hl, by simp only [hw]; exact if_pos hl⟩
      · exact .inl (by simp only [hw]; exact if_neg hl)

end Sys2Proof.Machine
end

