-- ==== Sys2Proof/Laws/Float.lean ====
section
/-! SUPPORT. What packing a pattern and rounding a quotient give, said once. -/

namespace Sys2Proof

theorem F32.toNat_pack (b : Bool) {m : Nat} (h : m < 2 ^ 31) :
    (F32.pack b m).toNat = (if b then 2 ^ 31 else 0) + m := by
  unfold F32.pack
  rw [BitVec.toNat_ofNat]
  cases b <;> simp <;> omega

theorem F32.mag_pack (b : Bool) {m : Nat} (h : m < 2 ^ 31) : F32.mag (F32.pack b m) = m := by
  unfold F32.mag
  rw [F32.toNat_pack b h]
  cases b <;> simp <;> omega

/-- The sign bit is the top bit of the pattern. -/
theorem F32.sign_eq (x : F32) : F32.sign x = decide (2 ^ 31 ≤ x.toNat) := by
  have hx := x.isLt
  unfold F32.sign
  rw [BitVec.getLsbD, Nat.testBit_eq_decide_div_mod_eq]
  exact decide_eq_decide.2 (by omega)

theorem F32.sign_pack (b : Bool) {m : Nat} (h : m < 2 ^ 31) : F32.sign (F32.pack b m) = b := by
  rw [F32.sign_eq, F32.toNat_pack b h]
  cases b
  · simp; omega
  · simp

/-- A pattern is its sign and its magnitude. -/
theorem F32.pack_sign_mag (x : F32) : F32.pack (F32.sign x) (F32.mag x) = x := by
  have hx := x.isLt
  have hm : F32.mag x < 2 ^ 31 := Nat.mod_lt _ (by decide)
  apply BitVec.eq_of_toNat_eq
  rw [F32.toNat_pack _ hm, F32.sign_eq]
  unfold F32.mag
  by_cases h : 2 ^ 31 ≤ x.toNat <;> simp only [h, decide_true, decide_false, if_true, Bool.false_eq_true, if_false] <;> omega

/-- Rounding a quotient errs by at most half a unit. -/
theorem roundNearest_bounds {num den : Nat} (h : 0 < den) :
    2 * num ≤ 2 * (den * roundNearest num den) + den ∧ 2 * (den * roundNearest num den) ≤ 2 * num + den := by
  have h1 := Nat.div_add_mod num den
  have h2 := Nat.mod_lt num h
  unfold roundNearest
  simp only
  split
  · omega
  · split
    · rw [Nat.mul_add]; omega
    · split
      · omega
      · rw [Nat.mul_add]; omega

/-- A quotient halfway between two whole numbers rounds to the even one. -/
theorem roundNearest_tie {num den : Nat} (ht : 2 * (num % den) = den) :
    roundNearest num den % 2 = 0 := by
  unfold roundNearest
  simp only
  rw [if_neg (by omega), if_neg (by omega)]
  split <;> omega

end Sys2Proof
end

