-- ==== Sys2Proof/Laws/NoiseInjector.lean ====
section
/-! SUPPORT. What a step, an end of stream and a work cycle of the noise injector can do, said once. -/

namespace Sys2Proof.Machine

/-- When a noise step answers a next state. -/
theorem injectNoise_next {n : Nat} {x : C32} {s t : State} : injectNoise n x s = .next t ↔
    ∃ nd, s.nodes[n]? = some nd ∧ nd.nse.life = Life.fresh true ∧ nd.nse.eos = false ∧ t = forwardSample n nd x s := by
  simp only [injectNoise, withNode_next, withLife_next]
  constructor
  · rintro ⟨nd, h1, h2, h3⟩
    cases hd : nd.nse.eos <;> simp_all
  · rintro ⟨nd, h1, h2, h3, rfl⟩
    exact ⟨nd, h1, h2, by simp [h3]⟩

/-- When an end of stream answers a next state. -/
theorem endNoise_next {n : Nat} {s t : State} : endNoise n s = .next t ↔
    ∃ nd, s.nodes[n]? = some nd ∧ nd.nse.life = Life.fresh true ∧ nd.nse.eos = false ∧
      t = (s.setNode n { nd with nse := { nd.nse with eos := true, done := true } }).emit [.nseDone n] := by
  simp only [endNoise, withNode_next, withLife_next]
  constructor
  · rintro ⟨nd, h1, h2, h3⟩
    cases hd : nd.nse.eos <;> simp_all
  · rintro ⟨nd, h1, h2, h3, rfl⟩
    exact ⟨nd, h1, h2, by simp [h3]⟩

/-- A report of consumption adds one event to a next state and nothing else. -/
theorem reportConsumed_next {n j : Nat} {r : Result} {t : State} : reportConsumed n j r = .next t ↔
    ∃ u, r = .next u ∧ t = u.emit [.nseConsumed n j] := by
  cases r <;> simp [reportConsumed, eq_comm]

/-- What a relation that every noise step keeps says of the steps of a work cycle. -/
theorem injectAll_induct (R : State → State → Prop) (n : Nat) (refl : ∀ s, R s s)
    (trans : ∀ a b c, R a b → R b c → R a c) (inject : ∀ x s t, injectNoise n x s = .next t → R s t) :
    ∀ xs s t, injectAll n xs s = .next t → R s t := by
  intro xs
  induction xs with
  | nil => intro s t h; cases h; exact refl s
  | cons x xs ih =>
    intro s t h
    unfold injectAll at h
    split at h
    · rename_i u hu
      exact trans _ _ _ (inject _ _ _ hu) (ih _ _ h)
    · cases h
    · cases h

end Sys2Proof.Machine
end

