-- ==== Sys2Proof/Laws/Packetizer.lean ====
section
/-! SUPPORT. What an emission, a push, an end of stream and a work cycle of the packetizer can do, said once. -/

namespace Sys2Proof.Machine

/-- A packetizer's fault, in a state whose node `n` was just set. -/
theorem raiseFault_pkt_setNode (s : State) (n : Nat) (nd : Node) (r : Fault) :
    raiseFault (.pkt n) r (s.setNode n nd) =
      { s.setNode n { nd with
          pkt := { nd.pkt with work := none, life := { nd.pkt.life with status := .terminated } }
          tx := { nd.tx with txAlive := false } } with
        faults := s.faults ++ [(.pkt n, r)] } := by
  simp only [raiseFault, mapLife, killEnds, modifyNode_setNode, setNode_faults]

theorem emitWindow_overflow {n : Nat} {nd : Node} {s : State} (h : nd.pkt.epoch = BitVec.allOnes 64) :
    emitWindow n nd s = .raised (raiseFault (.pkt n) (.epochOverflow nd.pkt.epoch) (s.setNode n nd)) := by
  unfold emitWindow; rw [if_pos h]

theorem emitWindow_dead {n : Nat} {nd : Node} {s : State} (h : nd.pkt.epoch ≠ BitVec.allOnes 64)
    (hd : nd.tx.rxAlive = false) :
    emitWindow n nd s = .raised (raiseFault (.pkt n) .channelDisconnected (s.setNode n nd)) := by
  unfold emitWindow; rw [if_neg h, send_dead _ hd]

theorem emitWindow_alive {n : Nat} {nd : Node} {s : State} (h : nd.pkt.epoch ≠ BitVec.allOnes 64)
    (ha : nd.tx.rxAlive = true) :
    emitWindow n nd s = .done (s.setNode n { nd with
      tx := { nd.tx with q := nd.tx.q ++ [⟨nd.pkt.epoch, nd.pkt.win⟩] }
      pkt := { nd.pkt with epoch := nd.pkt.epoch + 1, fill := 0 } }) := by
  unfold emitWindow; rw [if_neg h, send_alive _ ha]

/-- Everything an emission can do. -/
theorem emitWindow_cases (n : Nat) (nd : Node) (s : State) :
    (nd.pkt.epoch = BitVec.allOnes 64 ∧
      emitWindow n nd s = .raised (raiseFault (.pkt n) (.epochOverflow nd.pkt.epoch) (s.setNode n nd))) ∨
    (nd.pkt.epoch ≠ BitVec.allOnes 64 ∧ nd.tx.rxAlive = false ∧
      emitWindow n nd s = .raised (raiseFault (.pkt n) .channelDisconnected (s.setNode n nd))) ∨
    (nd.pkt.epoch ≠ BitVec.allOnes 64 ∧ nd.tx.rxAlive = true ∧
      emitWindow n nd s = .done (s.setNode n { nd with
        tx := { nd.tx with q := nd.tx.q ++ [⟨nd.pkt.epoch, nd.pkt.win⟩] }
        pkt := { nd.pkt with epoch := nd.pkt.epoch + 1, fill := 0 } })) := by
  by_cases h : nd.pkt.epoch = BitVec.allOnes 64
  · exact .inl ⟨h, emitWindow_overflow h⟩
  · cases ha : nd.tx.rxAlive
    · exact .inr (.inl ⟨h, rfl, emitWindow_dead h ha⟩)
    · exact .inr (.inr ⟨h, rfl, emitWindow_alive h ha⟩)

/-- When a push answers a next state. -/
theorem pushSample_next {n : Nat} {x : C32} {s t : State} : pushSample n x s = .next t ↔
    ∃ nd, s.nodes[n]? = some nd ∧ nd.pkt.life = Life.fresh true ∧ nd.pkt.done = false ∧ acceptSample n nd x s = t := by
  simp only [pushSample, withNode_next, withLife_next]
  constructor
  · rintro ⟨nd, h1, h2, h3⟩
    cases hd : nd.pkt.done <;> simp_all
  · rintro ⟨nd, h1, h2, h3, h4⟩
    exact ⟨nd, h1, h2, by simp [h3, h4]⟩

/-- When an end of stream answers a next state. -/
theorem endStream_next {n : Nat} {s t : State} : endStream n s = .next t ↔
    ∃ nd, s.nodes[n]? = some nd ∧ nd.pkt.life = Life.fresh true ∧ nd.pkt.done = false ∧ flushWindow n nd s = t := by
  simp only [endStream, withNode_next, withLife_next]
  constructor
  · rintro ⟨nd, h1, h2, h3⟩
    cases hd : nd.pkt.done <;> simp_all
  · rintro ⟨nd, h1, h2, h3, h4⟩
    exact ⟨nd, h1, h2, by simp [h3, h4]⟩

theorem pktRunning_of {n : Nat} {s : State} {nd : Node} (h : s.nodes[n]? = some nd) :
    pktRunning n s = decide (nd.pkt.life.status = .running) := by simp [pktRunning, h]

@[simp] theorem pushAll_nil (n : Nat) (s : State) : pushAll n [] false s = .next s := rfl

theorem pushAll_cons (n : Nat) (x : C32) (xs : List C32) (e : Bool) (s : State) :
    pushAll n (x :: xs) e s =
      match pushSample n x s with
      | .next t => if pktRunning n t then pushAll n xs e t else .next t
      | .fault r => .fault r
      | .refused r => .refused r := rfl

/-- What a relation that every push and the end of stream keep says of a whole work cycle. -/
theorem pushAll_induct (R : State → State → Prop) (n : Nat) (refl : ∀ s, R s s)
    (trans : ∀ a b c, R a b → R b c → R a c)
    (push : ∀ x s t, pushSample n x s = .next t → R s t) (eos : ∀ s t, endStream n s = .next t → R s t) :
    ∀ xs e s t, pushAll n xs e s = .next t → R s t := by
  intro xs
  induction xs with
  | nil =>
    intro e s t h
    unfold pushAll at h
    cases e
    · simp at h; exact h ▸ refl s
    · exact eos _ _ (by simpa using h)
  | cons x xs ih =>
    intro e s t h
    unfold pushAll at h
    split at h
    · rename_i u hu
      split at h
      · exact trans _ _ _ (push _ _ _ hu) (ih _ _ _ h)
      · cases h; exact push _ _ _ hu
    · cases h
    · cases h

/-- A work cycle goes on after its first part unless a fault ended it. -/
theorem pushAll_append (n : Nat) (ys : List C32) (e : Bool) : ∀ (xs : List C32) (s t : State),
    pushAll n xs false s = .next t →
    pushAll n (xs ++ ys) e s = if xs = [] ∨ pktRunning n t then pushAll n ys e t else .next t := by
  intro xs
  induction xs with
  | nil => intro s t h; simp only [pushAll_nil, Host.Outcome.next.injEq] at h; subst h; simp
  | cons x xs ih =>
    intro s t h
    rw [List.cons_append, pushAll_cons]
    rw [pushAll_cons] at h
    split at h
    · rename_i u hu
      split at h
      · rename_i hr
        rw [if_pos hr, ih _ _ h]
        cases xs with
        | nil => simp only [pushAll_nil, Host.Outcome.next.injEq] at h; subst h; simp [hr]
        | cons y ys => simp
      · rename_i hr
        cases h
        simp [hr]
    · cases h
    · cases h

/-! ## The atomic steps of a work cycle -/

@[simp] theorem setPktWork_cfg (n : Nat) (w : Option PktWork) (s : State) : (setPktWork n w s).cfg = s.cfg := rfl

@[simp] theorem setPktWork_nodes (n : Nat) (w : Option PktWork) (s : State) :
    (setPktWork n w s).nodes = s.nodes.modify n (fun nd => { nd with pkt := { nd.pkt with work := w } }) := rfl

@[simp] theorem setPktWork_cmb (n : Nat) (w : Option PktWork) (s : State) : (setPktWork n w s).cmb = s.cmb := rfl

@[simp] theorem setPktWork_inbox (n : Nat) (w : Option PktWork) (s : State) : (setPktWork n w s).inbox = s.inbox := rfl

@[simp] theorem setPktWork_out (n : Nat) (w : Option PktWork) (s : State) : (setPktWork n w s).out = s.out := rfl

@[simp] theorem setPktWork_faults (n : Nat) (w : Option PktWork) (s : State) :
    (setPktWork n w s).faults = s.faults := rfl

@[simp] theorem setPktWork_nanCtr (n : Nat) (w : Option PktWork) (s : State) :
    (setPktWork n w s).nanCtr = s.nanCtr := rfl

/-- When the start of a work cycle answers a next state, and which. -/
theorem startPktWork_next {n : Nat} {xs : List C32} {eos : Bool} {s t : State} : startPktWork n xs eos s = .next t ↔
    ∃ nd, s.nodes[n]? = some nd ∧ nd.pkt.life = Life.fresh true ∧
      ((xs = [] ∧ eos = false ∧ t = s) ∨
       ((xs ≠ [] ∨ eos = true) ∧ nd.pkt.done = false ∧ t = setPktWork n (some ⟨xs, eos⟩) s)) := by
  simp only [startPktWork, withNode_next, withLife_next]
  constructor
  · rintro ⟨nd, h1, h2, h3⟩
    refine ⟨nd, h1, h2, ?_⟩
    cases xs <;> cases eos <;> cases hd : nd.pkt.done <;> simp_all
  · rintro ⟨nd, h1, h2, h3⟩
    refine ⟨nd, h1, h2, ?_⟩
    cases xs <;> cases eos <;> cases hd : nd.pkt.done <;> simp_all

/-- A turn with nothing left but, perhaps, the end of the stream. -/
theorem pktAdvance_nil {n : Nat} {s : State} {nd : Node} (h : s.nodes[n]? = some nd) (eos : Bool) :
    pktAdvance n [] eos s = setPktWork n none (if eos then flushWindow n nd s else s) := by
  unfold pktAdvance; rw [h]

/-- A turn whose first sample does not fill the window. -/
theorem pktAdvance_inside {n : Nat} {s : State} {nd : Node} {x : C32} {xs : List C32} {eos : Bool}
    (h : s.nodes[n]? = some nd) (hf : nd.pkt.fill + 1 ≠ frameLen) :
    pktAdvance n (x :: xs) eos s = pktAdvance n xs eos (acceptSample n nd x s) := by
  rw [pktAdvance, h]; exact if_neg hf

/-- A turn whose first sample fills the window: it ends with the emission. -/
theorem pktAdvance_emits {n : Nat} {s : State} {nd : Node} {x : C32} {xs : List C32} {eos : Bool}
    (h : s.nodes[n]? = some nd) (hf : nd.pkt.fill + 1 = frameLen) :
    pktAdvance n (x :: xs) eos s =
      if pktRunning n (acceptSample n nd x s) then setPktWork n (some ⟨xs, eos⟩) (acceptSample n nd x s)
      else acceptSample n nd x s := by
  rw [pktAdvance, h]; exact if_pos hf

/-- What a relation that every accepted sample, every end of stream and every record of what is left keep says of a turn. -/
theorem pktAdvance_induct (R : State → State → Prop) (n : Nat) (refl : ∀ s, R s s)
    (trans : ∀ a b c, R a b → R b c → R a c)
    (accept : ∀ x s nd, s.nodes[n]? = some nd → R s (acceptSample n nd x s))
    (flush : ∀ s nd, s.nodes[n]? = some nd → R s (flushWindow n nd s))
    (keep : ∀ w s, R s (setPktWork n w s)) : ∀ xs eos s, R s (pktAdvance n xs eos s) := by
  intro xs
  induction xs with
  | nil =>
    intro eos s
    cases h : s.nodes[n]? with
    | none => unfold pktAdvance; rw [h]; exact refl s
    | some nd =>
      rw [pktAdvance_nil h]
      cases eos
      · exact keep _ _
      · exact trans _ _ _ (flush s nd h) (keep _ _)
  | cons x xs ih =>
    intro eos s
    cases h : s.nodes[n]? with
    | none => unfold pktAdvance; rw [h]; exact refl s
    | some nd =>
      by_cases hf : nd.pkt.fill + 1 = frameLen
      · rw [pktAdvance_emits h hf]
        split
        · exact trans _ _ _ (accept x s nd h) (keep _ _)
        · exact accept x s nd h
      · rw [pktAdvance_inside h hf]
        exact trans _ _ _ (accept x s nd h) (ih eos _)

/-- Everything a packetizer's turn can be. -/
theorem pktTurn_cases (n : Nat) (s : State) :
    pktTurn n s = s ∨ ∃ nd w, s.nodes[n]? = some nd ∧ nd.pkt.work = some w ∧ nd.pkt.life = Life.fresh true ∧
      pktTurn n s = pktAdvance n w.rest w.eos s := by
  unfold pktTurn
  cases h : s.nodes[n]? with
  | none => exact .inl rfl
  | some nd =>
    cases hw : nd.pkt.work with
    | none => exact .inl (by simp only [hw])
    | some w =>
      by_cases hl : nd.pkt.life = Life.fresh true
      · exact .inr ⟨nd, w, rfl, hw, hl, by simp only [hw]; exact if_pos hl⟩
      · exact .inl (by simp only [hw]; exact if_neg hl)

end Sys2Proof.Machine
end

