-- ==== Sys2Proof/Laws/PerInstr.lean ====
section
/-! SUPPORT. The family of statements made of each instruction by itself: its encoding is not empty. -/

namespace Sys2Proof.Laws.EncodeNonempty

/-- The bytes of an instruction in its format are at least one (30 R91, R93, R96, R97, R109). -/
def Statement (i : Instr) : Prop := encode i ≠ []

theorem cmdData (p : List Byte) : Statement (.cmdData p) := List.cons_ne_nil _ _
theorem cmdDetect (p : List Byte) : Statement (.cmdDetect p) := List.cons_ne_nil _ _
theorem cmdReady (p : List Byte) : Statement (.cmdReady p) := List.cons_ne_nil _ _
theorem cmdRssi (p : List Byte) : Statement (.cmdRssi p) := List.cons_ne_nil _ _
theorem cmdSnr (p : List Byte) : Statement (.cmdSnr p) := List.cons_ne_nil _ _
theorem escDelim : Statement .escDelim := List.cons_ne_nil _ _
theorem escEsc : Statement .escEsc := List.cons_ne_nil _ _
theorem escLit (b : Byte) : Statement (.escLit b) := List.cons_ne_nil _ _
theorem descDelim : Statement .descDelim := List.cons_ne_nil _ _
theorem descEsc : Statement .descEsc := List.cons_ne_nil _ _
theorem descOther (b : Byte) : Statement (.descOther b) := List.cons_ne_nil _ _
theorem descTrunc : Statement .descTrunc := List.cons_ne_nil _ _
theorem descLit (b : Byte) : Statement (.descLit b) := List.cons_ne_nil _ _
theorem iqFrame (f : IqFrame) : Statement (.iqFrame f) := List.cons_ne_nil _ _
theorem pktPush (n : Nat) (x : C32) : Statement (.pktPush n x) := List.cons_ne_nil _ _
theorem pktEos (n : Nat) : Statement (.pktEos n) := List.cons_ne_nil _ _
theorem pktWork (n : Nat) (xs : List C32) (eos : Bool) : Statement (.pktWork n xs eos) := List.cons_ne_nil _ _
theorem dpkWork (n m : Nat) : Statement (.dpkWork n m) := List.cons_ne_nil _ _
theorem dpkPull (n : Nat) : Statement (.dpkPull n) := List.cons_ne_nil _ _
theorem nseStep (n : Nat) (x : C32) : Statement (.nseStep n x) := List.cons_ne_nil _ _
theorem nseEos (n : Nat) : Statement (.nseEos n) := List.cons_ne_nil _ _
theorem nseWork (n : Nat) (xs : List C32) (cap : Nat) : Statement (.nseWork n xs cap) := List.cons_ne_nil _ _
theorem cmbRecv : Statement .cmbRecv := List.cons_ne_nil _ _
theorem cmbCheck : Statement .cmbCheck := List.cons_ne_nil _ _
theorem cmbCombine (e : Epoch) : Statement (.cmbCombine e) := List.cons_ne_nil _ _
theorem decDecode (n : Nat) (r : DecodedFrame) : Statement (.decDecode n r) := List.cons_ne_nil _ _
theorem decDewhiten (lo hi : BitVec 4) (i : Nat) : Statement (.decDewhiten lo hi i) := List.cons_ne_nil _ _
theorem decCrc16 (data : List Byte) : Statement (.decCrc16 data) := List.cons_ne_nil _ _
theorem hfpEscape (data : List Byte) : Statement (.hfpEscape data) := List.cons_ne_nil _ _
theorem hfpDescape (data : List Byte) : Statement (.hfpDescape data) := List.cons_ne_nil _ _
theorem hfpCreateCmd (code : Byte) (p : List Byte) : Statement (.hfpCreateCmd code p) := List.cons_ne_nil _ _

end Sys2Proof.Laws.EncodeNonempty
end

