-- ==== Sys2Proof/Laws/Step.lean ====
section
/-! SUPPORT. What an action of the environment and a step can do, said once. -/

namespace Sys2Proof.Machine

/-- When an action on a channel end of the environment answers a next state. -/
theorem withEnvEnd_next {c : ChanId} {e : End} {s t : State} {k : Node → Result} : withEnvEnd c e s k = .next t ↔
    ∃ nd, s.nodes[c.node]? = some nd ∧ envOwns s nd c e = true ∧ k nd = .next t := by
  simp only [withEnvEnd, withNode_next]
  constructor
  · rintro ⟨nd, h1, h2⟩
    cases he : envOwns s nd c e <;> simp_all
  · rintro ⟨nd, h1, h2, h3⟩
    exact ⟨nd, h1, by simp [h2, h3]⟩

/-- When a removal answers a next state, and which. -/
theorem removeUnit_next {u : UnitId} {s t : State} : removeUnit u s = .next t ↔
    ∃ l, lifeOf u s = some l ∧ l.present = true ∧
      t = killEnds u (mapLife u (fun l => { l with present := false }) s) := by
  unfold removeUnit
  constructor
  · intro h
    split at h
    · cases h
    · rename_i l hl
      split at h
      · rename_i hp
        exact ⟨l, hl, hp, (Host.Outcome.next.inj h).symm⟩
      · cases h
  · rintro ⟨l, hl, hp, rfl⟩
    rw [hl]
    exact if_pos hp

/-- An invocation is a decoding and the meaning of what it gives. -/
theorem invoke_next {f : Format} {bs : List Byte} {s t : State} : invoke f bs s = .next t ↔
    ∃ i, decode f bs = .ok i ∧ exec i s = .next t := by
  unfold invoke
  cases decode f bs <;> simp

/-- With nothing waiting in the inbox the combiner goes on. -/
theorem step_nil {s : State} (h : s.inbox = []) : step s = .next (combinerTurn s) := by
  unfold step; rw [h]

/-- An entry that waits for no unit is taken out of the inbox and runs. -/
theorem step_runs {s : State} {slot : Slot} {rest : List Slot} (h : s.inbox = slot :: rest)
    (hw : waitsFor slot s = none) : step s = runSlot slot { s with inbox := rest } := by
  unfold step; rw [h]; simp only [hw]

/-- While an entry waits for a unit, that unit takes its next atomic step. -/
theorem step_waits {s : State} {slot : Slot} {rest : List Slot} {u : UnitId} (h : s.inbox = slot :: rest)
    (hw : waitsFor slot s = some u) : step s = .next (unitTurn u s) := by
  unfold step; rw [h]; simp only [hw]

/-- Everything a step can do. -/
theorem step_cases {s t : State} (h : step s = .next t) :
    (∃ u, t = unitTurn u s) ∨
    ∃ slot rest, s.inbox = slot :: rest ∧ waitsFor slot s = none ∧ runSlot slot { s with inbox := rest } = .next t := by
  cases hi : s.inbox with
  | nil =>
    rw [step_nil hi] at h
    exact .inl ⟨.cmb, (Host.Outcome.next.inj h).symm⟩
  | cons slot rest =>
    cases hw : waitsFor slot s with
    | none => exact .inr ⟨slot, rest, rfl, hw, (step_runs hi hw).symm.trans h⟩
    | some u =>
      rw [step_waits hi hw] at h
      exact .inl ⟨u, (Host.Outcome.next.inj h).symm⟩

/-- When bytes name an operation whose unit is busy. -/
theorem busyUnit_some {f : Format} {bs : List Byte} {s : State} {u : UnitId} : busyUnit f bs s = some u ↔
    ∃ i, decode f bs = .ok i ∧ usesUnit i = some u ∧ isBusy u s = true := by
  unfold busyUnit
  cases decode f bs with
  | error why => simp
  | ok i => simp [Option.filter_eq_some_iff]

/-- A start is a decoding and the start of what it gives. -/
theorem start_next {f : Format} {bs : List Byte} {s t : State} : start f bs s = .next t ↔
    ∃ i, decode f bs = .ok i ∧ startOp i s = .next t := by
  unfold start
  cases decode f bs <;> simp

/-- Everything the start of an operation can be. -/
theorem startOp_cases (i : Instr) (s : State) :
    (∃ n xs eos, i = .pktWork n xs eos ∧ startOp i s = startPktWork n xs eos s) ∨
    (∃ n m, i = .dpkWork n m ∧ startOp i s = startDpkWork n m s) ∨ startOp i s = exec i s := by
  cases i <;> first
    | exact .inr (.inr rfl)
    | exact .inl ⟨_, _, _, rfl, rfl⟩
    | exact .inr (.inl ⟨_, _, rfl, rfl⟩)

end Sys2Proof.Machine
end

