-- ==== Sys2Proof/Tests/Slice0.lean ====
section
/-! SUPPORT. Tests of the model against the tables of 30_encoding.md and the vectors of 95_test_vectors.md (the vector is named
at each test), and for every obligation with hypotheses a witness that meets them. -/

namespace Sys2Proof.Machine.Tests

/-! ## Helpers -/

/-- The instruction that bytes decode to, if any. -/
def decoded (f : Format) (bs : List Byte) : Option Instr :=
  match decode f bs with
  | .ok i => some i
  | .error _ => none

/-- Why bytes are refused, if they are. -/
def rejected (f : Format) (bs : List Byte) : Option Reject :=
  match decode f bs with
  | .ok _ => none
  | .error why => some why

/-- The next state has a property. -/
def after (r : Result) (p : State → Bool) : Bool :=
  match r with
  | .next t => p t
  | .fault _ => false
  | .refused _ => false

/-- The refusal, if there is one. -/
def refusal (r : Result) : Option Refusal :=
  match r with
  | .next _ => none
  | .fault _ => none
  | .refused why => some why

/-- A property of node `n`. -/
def onNode (n : Nat) (p : Node → Bool) (s : State) : Bool := (s.nodes[n]?).any p

/-- Two nodes, `W` = `WL` of length 10. -/
def demoParams (w : Wiring) : Params where
  nNodes := 2
  dist := [[0x3DCCCCCD, 0x41C80000], [0x41C80000, 0x3DCCCCCD]]
  sigma := [0, 0x3F000000]
  seed := [7, 8]
  w := [0xFF, 0xFE, 0xFC, 0xF8, 0xF0, 0xE1, 0xC2, 0x85, 0x0B, 0x17]
  wLen := 10
  readyCrcErr := 0xDB
  crcSpan := .allData
  keyCr := [1]
  keyHasCrc := [2]
  keyImplHdr := [3]
  fp := .binary32
  wiring := w
  hasPkt := true
  hasDpk := true
  hasCmb := true

/-- The two-node block after construction. -/
def demo : State := State.construct (demoParams .combined)

/-- The same in the direct wiring. -/
def demoDirect : State := State.construct (demoParams .direct)

/-- A node of these blocks after construction. -/
def demoNode (n : Nat) : Node := Node.fresh (demoParams .combined) n

/-- The block with other nodes. -/
def demoWith (a b : Node) : State := { demo with nodes := [a, b] }

/-- 1.0. -/
def one : F32 := 0x3F800000

/-- A frame of 1024 samples. -/
def fullFrame (e : Epoch) : IqFrame := ⟨e, List.replicate 1024 ⟨one, 0⟩⟩

/-- A record with whitening `WL`: vector E5, with two annotations of its own. -/
def recordE5 : DecodedFrame where
  nibbles := [0, 0, 0, 0, 0, 0x7, 0xB, 0xB, 0x9, 0x0, 0x9, 0x4, 0x9, 0xF, 0x9, 0x8, 0x5, 0x5, 0x6]
  implicitHeader := false
  hasCrc := true
  codeRate := .raw [4]
  annotations := [([9], .raw [5]), ([1], .raw [6])]

/-- Both packetizers' first frames taken, nothing sent: the combiner in its check with epoch 0 complete. -/
def ready : State :=
  { demoWith { demoNode 0 with pkt := { (demoNode 0).pkt with epoch := 1 } }
      { demoNode 1 with pkt := { (demoNode 1).pkt with epoch := 1 } } with
    cmb := { demo.cmb with buf := [(0, [⟨fullFrame 0, 0⟩, ⟨fullFrame 0, 1⟩])], phase := .check } }

/-! ## Well-formedness: each check refuses an ill-formed term -/

theorem test_wf_payload_with_delimiter : Instr.wellFormed (.cmdData [0x01, 0xC0]) = false := by decide

theorem test_wf_delimiter_in_each_command :
    Instr.wellFormed (.cmdDetect [0xC0]) = false ∧ Instr.wellFormed (.cmdReady [0xC0]) = false ∧
    Instr.wellFormed (.cmdRssi [0xC0]) = false ∧ Instr.wellFormed (.cmdSnr [0xC0]) = false := by decide

theorem test_wf_escape_rows :
    Instr.wellFormed (.escLit 0xC0) = false ∧ Instr.wellFormed (.escLit 0xDB) = false ∧
    Instr.wellFormed (.descOther 0xDC) = false ∧ Instr.wellFormed (.descOther 0xDD) = false ∧
    Instr.wellFormed (.descLit 0xDB) = false := by decide

theorem test_wf_short_frame : Instr.wellFormed (.iqFrame ⟨0, [C32.zero]⟩) = false := by decide

/-- Operands have no bound (R12). -/
theorem test_wf_big_operands :
    Instr.wellFormed (.pktEos (2 ^ 64)) = true ∧ Instr.wellFormed (.dpkWork 0 (2 ^ 70)) = true ∧
    decoded .op [0x10, 0, 0x80, 0x80, 0x80, 0x80, 0x80, 0x80, 0x80, 0x80, 0x80, 0x80, 0x01] = some (.dpkWork 0 (2 ^ 70)) := by
  decide

theorem test_wf_key_twice :
    Instr.wellFormed (.decDecode 0 { recordE5 with annotations := [([1], .bit true), ([1], .bit false)] }) = false := by
  decide

/-! ## Decoding: words written out from the encoding tables (30 R91 to R97, R109; operand bytes: log 12) -/

theorem test_decode_commands :
    decoded .hf [0xC0, 0x00, 0x48, 0x69, 0xC0] = some (.cmdData [0x48, 0x69]) ∧
    decoded .hf [0xC0, 0x08, 0xC0] = some (.cmdDetect []) ∧
    decoded .hf [0xC0, 0x0F, 0x00, 0xC0] = some (.cmdReady [0x00]) ∧
    decoded .hf [0xC0, 0x23, 0x9C, 0xC0] = some (.cmdRssi [0x9C]) ∧
    decoded .hf [0xC0, 0x24, 0x05, 0xC0] = some (.cmdSnr [0x05]) := by decide

theorem test_decode_escape_rows :
    decoded .escEnc [0xC0] = some .escDelim ∧ decoded .escEnc [0xDB] = some .escEsc ∧
    decoded .escEnc [0xDC] = some (.escLit 0xDC) ∧
    decoded .escDec [0xDB, 0xDC] = some .descDelim ∧ decoded .escDec [0xDB, 0xDD] = some .descEsc ∧
    decoded .escDec [0xDB, 0xC0] = some (.descOther 0xC0) ∧ decoded .escDec [0xDB] = some .descTrunc ∧
    decoded .escDec [0xC0] = some (.descLit 0xC0) := by decide

/-- The wire form of 95 Part 2, PKT: epoch 1, sample 0 = (1.0, −2.0), 8184 bytes of zeros. -/
theorem test_decode_frame :
    decoded .iq ([0x01, 0, 0, 0, 0, 0, 0, 0, 0x00, 0x00, 0x80, 0x3F, 0x00, 0x00, 0x00, 0xC0] ++ List.replicate 8184 0) =
      some (.iqFrame ⟨1, ⟨0x3F800000, 0xC0000000⟩ :: List.replicate 1023 C32.zero⟩) := by decide +kernel

theorem test_decode_packetizer :
    decoded .op [0x01, 2, 0x00, 0x00, 0x80, 0x3F, 0x00, 0x00, 0x00, 0xC0] = some (.pktPush 2 ⟨0x3F800000, 0xC0000000⟩) ∧
    decoded .op [0x02, 0x81, 0x02] = some (.pktEos 257) ∧
    decoded .op [0x03, 1, 1, 1, 0, 0, 0, 2, 0, 0, 0, 1] = some (.pktWork 1 [⟨1, 2⟩] true) := by decide

theorem test_decode_depacketizer :
    decoded .op [0x10, 1, 0x84, 0x02] = some (.dpkWork 1 260) ∧ decoded .op [0x11, 3] = some (.dpkPull 3) := by decide

theorem test_decode_noise_injector :
    decoded .op [0x20, 0, 0xA4, 0x00, 0x08, 0x3F, 0, 0, 0, 0x80] = some (.nseStep 0 ⟨0x3F0800A4, 0x80000000⟩) ∧
    decoded .op [0x21, 1] = some (.nseEos 1) ∧
    decoded .op [0x22, 1, 1, 1, 0, 0, 0, 2, 0, 0, 0, 5] = some (.nseWork 1 [⟨1, 2⟩] 5) := by decide

theorem test_decode_combiner :
    decoded .op [0x30] = some .cmbRecv ∧ decoded .op [0x31] = some .cmbCheck ∧
    decoded .op [0x32, 3, 0, 0, 0, 0, 0, 0, 0x80] = some (.cmbCombine 0x8000000000000003) := by decide

theorem test_decode_decoder :
    decoded .op [0x40, 1, 2, 0x07, 0x0B, 1, 0, 0, 1, 0x45, 1, 1, 0x61, 1, 1] =
      some (.decDecode 1 ⟨[0x07, 0x0B], true, false, .raw [0x45], [([0x61], .bit true)]⟩) ∧
    decoded .op [0x41, 0x07, 0x0B, 2] = some (.decDewhiten 7 11 2) ∧
    decoded .op [0x42, 1, 0x41] = some (.decCrc16 [0x41]) := by decide

theorem test_decode_framing :
    decoded .op [0x50, 1, 0xC0] = some (.hfpEscape [0xC0]) ∧
    decoded .op [0x51, 2, 0xDB, 0xDC] = some (.hfpDescape [0xDB, 0xDC]) ∧
    decoded .op [0x52, 0x0F, 1, 0x00] = some (.hfpCreateCmd 0x0F [0x00]) := by decide

theorem test_decode_refusals :
    rejected .hf [0xC0, 0x01, 0xC0] = some .reservedCommandCode ∧ rejected .hf [0xC0, 0x00, 0x05] = some .notDelimited ∧
    rejected .hf [0xC0, 0x00, 0xC0, 0xC0] = some .trailingBytes ∧ rejected .op [0x04] = some .reservedSelector ∧
    rejected .op [0x02, 0x81] = some .truncated ∧ rejected .op [0x02, 0x81, 0x00] = some .longNumber ∧
    rejected .op [0x41, 0x10, 0, 0] = some .badNibble ∧
    rejected .iq [] = some .truncated ∧ rejected .escDec [] = some .truncated := by decide

/-- A table word of each form (R112; log 13). -/
theorem test_table_words :
    decodeTableWord 16 0xC000 = some (.cmdData []) ∧ decodeTableWord 16 0xDBDD = some .descEsc ∧
    decodeTableWord 16 0xDB41 = some (.descOther 0x41) ∧ decodeTableWord 8 0xC0 = some .escDelim ∧
    decodeTableWord 8 0xDB = some .escEsc ∧ decodeTableWord 8 0x61 = some (.escLit 0x61) ∧
    decodeTableWord 8 0x40 = some (.decDecode 0 ⟨[], false, false, .raw [], []⟩) ∧
    decodeTableWord 8 0x22 = some (.nseWork 0 [] 0) ∧ decodeTableWord 8 0x52 = some (.hfpCreateCmd 0 []) := by decide

theorem test_table_frame :
    decodeTableWord 65600 (2 ^ 64 + 5) = some (.iqFrame ⟨5, ⟨1, 0⟩ :: List.replicate 1023 C32.zero⟩) := by decide +kernel

/-- The instruction of a table word runs next. -/
theorem test_fetch_runs_word :
    after (step (State.withFetchWord State.reset 8 0x02)) (fun t => decide (t.out = [.pktDone 0])) = true := by
  decide +kernel

/-! ## Units, one step each -/

/-- A1 to A2: the last sample of a window sends it. -/
theorem test_push_sends_window :
    after (exec (.pktPush 0 ⟨one, 0⟩) (demoWith { demoNode 0 with pkt := { (demoNode 0).pkt with fill := 1023, epoch := 4 } }
        (demoNode 1)))
      (onNode 0 fun nd => nd.pkt.fill == 0 && nd.pkt.epoch == 5 &&
        decide (nd.tx.q = [⟨4, List.replicate 1023 C32.zero ++ [⟨one, 0⟩]⟩])) = true := by decide +kernel

/-- A10: the fill stays at 1024 when the receiver is dead. -/
theorem test_push_dead_receiver :
    after (exec (.pktPush 0 ⟨one, 0⟩) (demoWith { demoNode 0 with
        pkt := { (demoNode 0).pkt with fill := 1023, epoch := 5 }, tx := ⟨[], true, false⟩ } (demoNode 1)))
      (fun t => decide (t.faults = [(.pkt 0, .channelDisconnected)]) &&
        onNode 0 (fun nd => nd.pkt.fill == 1024 && nd.pkt.epoch == 5 && !nd.tx.txAlive) t) = true := by decide +kernel

/-- A6. -/
theorem test_eos_empty :
    after (exec (.pktEos 1) demo) (fun t => decide (t.out = [.pktDone 1]) &&
      onNode 1 (fun nd => nd.pkt.done && decide (nd.tx.q = []) && nd.pkt.epoch == 0) t) = true := by decide +kernel

/-- A9, for the end of the stream. -/
theorem test_eos_after_done :
    refusal (exec (.pktEos 0) (demoWith { demoNode 0 with pkt := { (demoNode 0).pkt with done := true } } (demoNode 1))) =
      some .pktAfterDone := by decide +kernel

/-- A3. -/
theorem test_work_pads :
    after (exec (.pktWork 0 [⟨1, 2⟩, ⟨3, 4⟩] true) demo) (onNode 0 fun nd => nd.pkt.epoch == 1 && nd.pkt.fill == 0 &&
      nd.pkt.done && decide (nd.tx.q = [⟨0, ⟨1, 2⟩ :: ⟨3, 4⟩ :: List.replicate 1022 C32.zero⟩])) = true := by decide +kernel

/-- A7. -/
theorem test_work_nothing : exec (.pktWork 0 [] false) demo = .next demo := rfl

/-- The frame `F` of the DPK vectors. -/
def frameF : IqFrame := ⟨7, (List.range 1024).map (fun i => ⟨BitVec.ofNat 32 i, 0⟩)⟩

/-- B3 and B4: silence at the boundary, then the next frame. -/
theorem test_dpk_boundary :
    after (exec (.dpkWork 0 2) (demoWith { demoNode 0 with dpk := ⟨some frameF, 1023, none, Life.fresh true⟩ } (demoNode 1)))
      (fun t => decide (t.out = [.dpkOut 0 [⟨1023, 0⟩, C32.zero]]) && onNode 0 (fun nd => nd.dpk.rd == 1024) t) = true := by
  decide +kernel

/-- B5: a work cycle crosses into the next frame, whatever its epoch (B9). -/
theorem test_dpk_crosses :
    after (exec (.dpkWork 0 3) (demoWith { demoNode 0 with dpk := ⟨some frameF, 1022, none, Life.fresh true⟩
                                                           rx := ⟨[fullFrame 3], true, true⟩ } (demoNode 1)))
      (fun t => decide (t.out = [.dpkOut 0 [⟨1022, 0⟩, ⟨1023, 0⟩, ⟨one, 0⟩]]) &&
        onNode 0 (fun nd => nd.dpk.rd == 1 && decide (nd.rx.q = [])) t) = true := by decide +kernel

/-- X16. -/
theorem test_pull_last :
    after (exec (.dpkPull 0) (demoWith { demoNode 0 with dpk := ⟨some frameF, 1023, none, Life.fresh true⟩
                                                         rx := ⟨[fullFrame 3], true, true⟩ } (demoNode 1)))
      (fun t => decide (t.out = [.dpkOut 0 [⟨1023, 0⟩]]) &&
        onNode 0 (fun nd => nd.dpk.rd == 1024 && decide (nd.rx.q.length = 1)) t) = true := by decide +kernel

/-! ## Atomic steps (R82) -/

/-- A depacketizer at a frame's end, with one sample of its work cycle left and one frame queued. -/
def waitingDpk : State :=
  demoWith { demoNode 0 with dpk := ⟨some frameF, 1024, some ⟨1, [⟨1023, 0⟩]⟩, Life.fresh true⟩
                             rx := ⟨[fullFrame 3], true, true⟩ } (demoNode 1)

/-- One receive of a work cycle is one step, and nothing is delivered by it. -/
theorem test_dpk_turn_receives :
    after (step { waitingDpk with inbox := [.turn (.dpk 0)] }) (fun t => decide (t.out = []) &&
      onNode 0 (fun nd => nd.dpk.rd == 0 && decide (nd.rx.q = []) &&
        decide (nd.dpk.work = some ⟨1, [⟨1023, 0⟩]⟩)) t) = true := by decide +kernel

/-- The work cycle ends: its whole output is delivered at once. -/
theorem test_dpk_turn_ends :
    after (step { demoWith { demoNode 0 with dpk := ⟨some (fullFrame 3), 0, some ⟨1, [⟨1023, 0⟩]⟩, Life.fresh true⟩ } (demoNode 1) with
        inbox := [.turn (.dpk 0)] })
      (fun t => decide (t.out = [.dpkOut 0 [⟨1023, 0⟩, ⟨one, 0⟩]]) &&
        onNode 0 (fun nd => nd.dpk.rd == 1 && decide (nd.dpk.work = none)) t) = true := by decide +kernel

/-- One emission of a work cycle is one step. -/
theorem test_pkt_turn_emits :
    after (step { demoWith { demoNode 0 with pkt := { (demoNode 0).pkt with
          fill := 1022, work := some ⟨[⟨1, 0⟩, ⟨2, 0⟩, ⟨3, 0⟩], true⟩ } } (demoNode 1) with inbox := [.turn (.pkt 0)] })
      (fun t => decide (t.out = []) && onNode 0 (fun nd => nd.pkt.fill == 0 && decide (nd.tx.q.length = 1) &&
        decide (nd.pkt.work = some ⟨[⟨3, 0⟩], true⟩)) t) = true := by decide +kernel

/-- The start of a work cycle sends nothing; a second operation of the unit waits while the unit goes on. -/
theorem test_start_and_wait :
    after (step { demo with inbox := [.start .op [0x03, 0, 0, 1]] }) (fun t => decide (t.inbox = []) && decide (t.out = []) &&
      onNode 0 (fun nd => decide (nd.pkt.work = some ⟨[], true⟩)) t) = true ∧
    after (step { waitingDpk with inbox := [.invoke .op [0x11, 0]] }) (fun t =>
      decide (t.inbox = [.invoke .op [0x11, 0]]) && onNode 0 (fun nd => decide (nd.rx.q = [])) t) = true := by
  decide +kernel

/-- N1: the draws of a zero deviation change no component but a zero, whatever sign they have. -/
theorem test_nse_zero_sigma (b : Bool) (f : Bool × Fin 8388607) :
    F32.add f 0x3FC00000 (F32.zero b) = 0x3FC00000 ∧ F32.add f 0xC0100000 (F32.zero b) = 0xC0100000 := by
  cases b <;> exact ⟨by rfl, by rfl⟩

/-- N3: the first sample of a node takes the draws 0 and 1, and is counted. -/
theorem test_nse_step :
    exec (.nseStep 1 ⟨one, one⟩) demo = .next { demoWith (demoNode 0) { demoNode 1 with nse := { (demoNode 1).nse with k := 1 } } with
      nanCtr := 1
      out := [.nseOut 1 ⟨F32.add (Config.freeNaN 0 0 0 0) one (noise 8 0x3F000000 0),
        F32.add (Config.freeNaN 0 0 0 1) one (noise 8 0x3F000000 1)⟩] } := rfl

/-- N8. -/
theorem test_nse_eos :
    after (exec (.nseEos 0) demo) (fun t => decide (t.out = [.nseDone 0]) &&
      onNode 0 (fun nd => nd.nse.eos && nd.nse.done) t) = true := by decide +kernel

/-- N9. -/
theorem test_nse_after_eos :
    refusal (exec (.nseStep 0 C32.zero) (demoWith { demoNode 0 with nse := { (demoNode 0).nse with eos := true } } (demoNode 1))) =
      some .nseAfterEos := by decide +kernel

/-- N6: the rest stays with the source. -/
theorem test_nse_work :
    after (exec (.nseWork 0 [C32.zero, C32.zero, C32.zero] 2) demo) (fun t => decide (t.out.length = 3) &&
      decide (t.out.getLast? = some (.nseConsumed 0 2)) && onNode 0 (fun nd => nd.nse.k == 2) t) = true := by decide +kernel

/-- N7. -/
theorem test_nse_work_nothing :
    after (exec (.nseWork 0 [] 5) demo) (fun t => decide (t.out = [.nseConsumed 0 0])) = true := by decide +kernel

/-- M6: one frame inserted, the other transmitter is next. -/
theorem test_recv_inserts :
    after (exec .cmbRecv (demoWith { demoNode 0 with tx := ⟨[⟨0, []⟩, ⟨1, []⟩], true, true⟩ } (demoNode 1)))
      (fun t => decide (t.cmb.buf = [(0, [⟨⟨0, []⟩, 0⟩])]) && t.cmb.rr == 1 && decide (t.cmb.phase = .recv) &&
        onNode 0 (fun nd => decide (nd.tx.q = [⟨1, []⟩])) t) = true := by decide +kernel

/-- M14. -/
theorem test_recv_duplicate :
    after (exec .cmbRecv { demoWith { demoNode 0 with tx := ⟨[⟨3, []⟩], true, true⟩ } (demoNode 1) with
        cmb := { demo.cmb with buf := [(3, [⟨⟨3, []⟩, 0⟩]), (5, [⟨⟨5, []⟩, 1⟩])] } })
      (fun t => decide (t.faults = [(.cmb, .duplicateEntry 3 0)]) && decide (t.cmb.life.status = .terminated) &&
        decide (t.cmb.buf.length = 2) && onNode 1 (fun nd => !nd.rx.txAlive && !nd.tx.rxAlive) t) = true := by decide +kernel

/-- The entry set of program P3, cut to the two samples given there. -/
def setP3 : List Entry :=
  [⟨⟨0, [⟨one, 0⟩, ⟨one, one⟩]⟩, 0⟩, ⟨⟨0, [⟨0, 0x40000000⟩, ⟨0xC0400000, 0x3F000000⟩]⟩, 1⟩]

/-- M8: an incomplete oldest epoch. -/
theorem test_check_incomplete :
    after (exec .cmbCheck { demo with cmb := { demo.cmb with
        buf := [(0, [⟨⟨0, []⟩, 0⟩]), (1, [⟨⟨1, []⟩, 1⟩])], phase := .check } })
      (fun t => decide (t.cmb.phase = .recv) && decide (t.cmb.buf.length = 2) &&
        onNode 0 (fun nd => decide (nd.rx.q = [])) t) = true := by decide +kernel

/-- P3: the samples of G0 and G1. -/
theorem test_check_combines :
    after (exec .cmbCheck { demo with cmb := { demo.cmb with buf := [(0, setP3)], phase := .check } })
      (fun t => decide (t.cmb.phase = .recv) && decide (t.cmb.buf = []) &&
        onNode 0 (fun nd => decide (nd.rx.q.map (fun f => f.samples.take 2) =
          [[⟨0x3F07FB5E, 0x3F0805EA⟩, ⟨0xB913A65A, 0x3F87FD58⟩]])) t &&
        onNode 1 (fun nd => decide (nd.rx.q.map (fun f => f.samples.take 2) =
          [[⟨0xBF87FF53, 0x3F8801F5⟩, ⟨0xBFEE011F, 0xBFA9FE2A⟩]])) t) = true := by decide +kernel

/-- R109, R177: the sends, the removal and the change of phase. -/
theorem test_combine_removes_set :
    after (exec (.cmbCombine 0) { demo with cmb := { demo.cmb with buf := [(0, setP3)], phase := .check } })
      (fun t => decide (t.cmb.buf = []) && decide (t.cmb.phase = .recv) &&
        onNode 1 (fun nd => decide (nd.rx.q.length = 1)) t) = true := by decide +kernel

/-- M13, P6, for the sends by themselves: the first receiver's frame stays sent. -/
theorem test_combine_dead_receiver :
    after (exec (.cmbCombine 0) { demoWith (demoNode 0) { demoNode 1 with rx := ⟨[], true, false⟩ } with
        cmb := { demo.cmb with buf := [(0, setP3)], phase := .check } })
      (fun t => decide (t.faults = [(.cmb, .channelDisconnected)]) && decide (t.cmb.buf.length = 1) &&
        onNode 0 (fun nd => decide (nd.rx.q.length = 1) && !nd.rx.txAlive && !nd.tx.rxAlive) t) = true := by decide +kernel

/-- E5 and P4, with an annotation that is replaced (R212) and one that stays. -/
theorem test_decode_good :
    after (exec (.decDecode 0 recordE5) demo) (fun t => decide (t.out =
      [.crcResult 0 true, .hostFrame 0 [0xC0, 0x00, 0x48, 0x65, 0x6C, 0x6C, 0x6F, 0xB9, 0xA7, 0xC0],
       .hostFrame 0 [0xC0, 0x0F, 0x00, 0xC0], .payload 0 [0x48, 0x65, 0x6C, 0x6C, 0x6F],
       .annotatedPayload 0 [0x48, 0x65, 0x6C, 0x6C, 0x6F]
         [([9], .raw [5]), ([1], .raw [4]), ([2], .bit true), ([3], .bit false)]])) = true := by decide +kernel

/-- E6, with an error byte that must be escaped. -/
theorem test_decode_corrupted :
    after (exec (.decDecode 0 { recordE5 with
        nibbles := [0, 0, 0, 0, 0, 0x7, 0xB, 0xB, 0x9, 0x0, 0x9, 0x4, 0x9, 0xF, 0x9, 0x8, 0x5, 0x4, 0x6] }) demo)
      (fun t => decide (t.out =
        [.crcResult 0 false, .hostFrame 0 [0xC0, 0x00, 0x48, 0x65, 0x6C, 0x6C, 0x6F, 0xB9, 0xA6, 0xC0],
         .hostFrame 0 [0xC0, 0x0F, 0xDB, 0xDD, 0xC0]])) = true := by decide +kernel

/-- D1 (index 0), D2 (index 1). -/
theorem test_dewhiten :
    after (exec (.decDewhiten 7 0xB 0) demo) (fun t => decide (t.out = [.byteResult 0x48])) = true ∧
    after (exec (.decDewhiten 7 9 1) demo) (fun t => decide (t.out = [.byteResult 0x69])) = true := by decide

/-- K8. -/
theorem test_crc16_digits : crc16 [0x31, 0x32, 0x33, 0x34, 0x35, 0x36, 0x37, 0x38, 0x39] = 0x31C3 := by decide +kernel

/-- K5, K9. -/
theorem test_crc16_instruction :
    after (exec (.decCrc16 [0xFF]) demo) (fun t => decide (t.out = [.wordResult 0x1EF0])) = true ∧
    after (exec (.decCrc16 [0x48, 0x65, 0x6C, 0x6C, 0x6F]) demo) (fun t => decide (t.out = [.wordResult 0xCBD6])) = true := by
  decide +kernel

/-- The check under `ALL_BUT_LAST_TWO`: E9 passes, E11 fails. -/
theorem test_crc_other_span :
    crcCheck .allButLastTwo [0x01, 0x02, 0x02, 0x01] = true ∧
    crcCheck .allButLastTwo [0x48, 0x65, 0x6C, 0x6C, 0x6F, 0xB9, 0xA7] = false := by decide +kernel

/-- H5. -/
theorem test_escape :
    after (exec (.hfpEscape [0x01, 0xC0, 0xDB, 0x02]) demo)
      (fun t => decide (t.out = [.bytesResult [0x01, 0xDB, 0xDC, 0xDB, 0xDD, 0x02]])) = true := by decide

/-- H10, H13. -/
theorem test_descape :
    descape [0xDB, 0xDB, 0xDC] = [0xDB, 0xDC] ∧ descape [0xDB, 0xDC, 0xDB, 0xDD, 0xDB] = [0xC0, 0xDB] := by decide

/-- H17, H21. -/
theorem test_create_cmd :
    after (exec (.hfpCreateCmd 0x00 [0xC0]) demo) (fun t => decide (t.out = [.bytesResult [0xC0, 0x00, 0xC0, 0xC0]])) = true ∧
    refusal (exec (.hfpCreateCmd 0x01 []) demo) = some .reservedCommandCode := by decide

/-- R235 to R238: the examples. -/
theorem test_commands :
    after (exec (.cmdReady [0x00]) demo) (fun t => decide (t.out = [.bytesResult [0xC0, 0x0F, 0x00, 0xC0]])) = true ∧
    after (exec (.cmdSnr [0x05]) demo) (fun t => decide (t.out = [.bytesResult [0xC0, 0x24, 0x05, 0xC0]])) = true ∧
    after (exec (.cmdRssi [0x9C]) demo) (fun t => decide (t.out = [.bytesResult [0xC0, 0x23, 0x9C, 0xC0]])) = true ∧
    after (exec (.cmdDetect []) demo) (fun t => decide (t.out = [.bytesResult [0xC0, 0x08, 0xC0]])) = true ∧
    after (exec (.cmdData [0x48, 0x69]) demo)
      (fun t => decide (t.out = [.bytesResult [0xC0, 0x00, 0x48, 0x69, 0xC0]])) = true := by decide

/-- N11, M16, and the rest of R282: each check refuses. -/
theorem test_construct_refuses :
    refusal (construct { demoParams .combined with sigma := [0, 0xBF800000] }) = some .invalidConfiguration ∧
    refusal (construct { demoParams .combined with sigma := [0, 0x7FC00000] }) = some .invalidConfiguration ∧
    refusal (construct { demoParams .combined with dist := [[0, 0xBF800000], [0, 0]] }) = some .invalidConfiguration ∧
    refusal (construct { demoParams .combined with dist := [[0, 0, 0], [0, 0, 0]] }) = some .invalidConfiguration ∧
    refusal (construct { demoParams .combined with nNodes := 0, dist := [], sigma := [], seed := [] }) =
      some .invalidConfiguration ∧
    refusal (construct { demoParams .combined with readyCrcErr := 0 }) = some .invalidConfiguration ∧
    refusal (construct { demoParams .combined with keyHasCrc := [1] }) = some .invalidConfiguration ∧
    refusal (construct { demoParams .combined with wLen := 9 }) = some .invalidConfiguration := by decide +kernel

/-! ## Binary32: X1 to X11, M1 to M5, the coefficients of R175 -/

theorem test_add_zeros (f : Bool × Fin 8388607) :
    F32.add f 0x80000000 0x00000000 = 0x00000000 ∧ F32.add f 0x80000000 0x80000000 = 0x80000000 ∧
    F32.mul f 0x3F000000 0x80000000 = 0x80000000 ∧ F32.sub f 0x3FC00000 0x3FC00000 = 0x00000000 := by
  exact ⟨by rfl, by rfl, by rfl, by rfl⟩

theorem test_overflow_and_nan (f : Bool × Fin 8388607) :
    F32.add f 0x7F7FFFFF 0x7F7FFFFF = 0x7F800000 ∧ F32.sub f 0x7F800000 0x7F800000 = F32.nanOf f ∧
    F32.mul f 0x00000000 0x7F800000 = F32.nanOf f := by
  exact ⟨by rfl, by rfl, by rfl⟩

theorem test_subnormal_ties (f : Bool × Fin 8388607) :
    F32.mul f 0x3F000000 0x00000001 = 0x00000000 ∧ F32.mul f 0x3FC00000 0x00000001 = 0x00000002 ∧
    F32.mul f 0x40000000 0x00000001 = 0x00000002 ∧ F32.add f 0x3F800000 0x33800000 = 0x3F800000 ∧
    F32.add f 0x3F800001 0x33800000 = 0x3F800002 := by
  exact ⟨by rfl, by rfl, by rfl, by rfl, by rfl⟩

theorem test_not_associative :
    F32.add (true, 0) (F32.add (true, 0) 0x4CBEBC20 0xCCBEBC20) 0x3F800000 = 0x3F800000 ∧
    F32.add (true, 0) 0x4CBEBC20 (F32.add (true, 0) 0xCCBEBC20 0x3F800000) = 0x00000000 := by decide +kernel

theorem test_coefficients :
    fpCoeff .binary32 0x00000000 = 0x3F3504F3 ∧ fpCoeff .binary32 0x3DCCCCCD = 0x3F0800A4 ∧
    fpCoeff .binary32 0x3F800000 = 0x3DB504F3 ∧ fpCoeff .binary32 0x41100000 = 0x3A395D22 ∧
    fpCoeff .binary32 0x41C80000 = 0x3828BE1E := by decide +kernel

/-- M2, M3, X5. -/
theorem test_accumulate :
    accumulateOne .binary32 ⟨0, 0, 0⟩ 0x3F0800A4 C32.zero ⟨one, one⟩ = ⟨0x00000000, 0x3F8800A4⟩ ∧
    accumulateOne .binary32 ⟨0, 0, 0⟩ 0x3F0800A4 C32.zero ⟨0xC0000000, 0x3F000000⟩ = ⟨0xBFAA00CD, 0xBF4C00F6⟩ ∧
    accumulateOne .binary32 ⟨0, 0, 0⟩ 0x3F000000 C32.zero ⟨0x80000000, 0x80000000⟩ = C32.zero := by decide +kernel

/-- The largest finite value and half its unit in the last place: the first sum that overflows, and the last that does not. -/
theorem test_overflow_boundary (f : Bool × Fin 8388607) :
    F32.add f 0x7F7FFFFF 0x73000000 = 0x7F800000 ∧ F32.add f 0x7F7FFFFF 0x72FFFFFF = 0x7F7FFFFF := by
  exact ⟨by rfl, by rfl⟩

/-! ## Witnesses: for each obligation with hypotheses, a state and operands that meet them, clause by clause -/

/-- Node 0 with a packetizer at a fill and an epoch, its receiver alive or not. -/
def pktNode (fill : Nat) (e : Epoch) (alive : Bool) : Node :=
  { demoNode 0 with pkt := { (demoNode 0).pkt with fill := fill, epoch := e }, tx := ⟨[], true, alive⟩ }

/-- Node 0 with every unit terminated. -/
def endedNode : Node :=
  { demoNode 0 with
    pkt := { (demoNode 0).pkt with life := ⟨.terminated, true⟩ }
    dpk := { (demoNode 0).dpk with life := ⟨.terminated, true⟩ }
    nse := { (demoNode 0).nse with life := ⟨.terminated, true⟩ }
    dec := ⟨⟨.terminated, true⟩⟩ }

/-- Node 0 without any unit. -/
def emptyNode : Node :=
  { demoNode 0 with
    pkt := { (demoNode 0).pkt with life := ⟨.running, false⟩ }
    dpk := { (demoNode 0).dpk with life := ⟨.running, false⟩ }
    nse := { (demoNode 0).nse with life := ⟨.running, false⟩ }
    dec := ⟨⟨.running, false⟩⟩ }

theorem ready_node_inv (n : Nat) (hn : n < 2) :
    Node.Inv .combined { demoNode n with pkt := { (demoNode n).pkt with epoch := 1 } } where
  pkt := ⟨List.length_replicate, fun _ => (by decide : (0 : Nat) < 1024), Nat.zero_le 1024,
    fun _ => ⟨fun _ => rfl, fun _ => rfl⟩, fun h => absurd rfl h⟩
  dpk := ⟨Nat.le_refl _, fun _ => rfl, fun _ h => (by cases h), rfl, fun _ => rfl, fun h => absurd rfl h⟩
  nse := ⟨(by decide : ∀ n < 2, F32.isNonneg (demoNode n).nse.sigma = true) n hn, rfl, rfl⟩
  dec := rfl
  tx := fun _ h => by cases h
  rx := fun _ h => by cases h

theorem full_frame_wf (e : Epoch) : (fullFrame e).wf := List.length_replicate

theorem ready_buf_inv : BufInv 2 [((0 : Epoch), [⟨fullFrame 0, 0⟩, ⟨fullFrame 0, 1⟩])] where
  keys := List.pairwise_singleton _ _
  sets := by
    intro kv h
    rw [List.mem_singleton] at h
    subst h
    refine ⟨List.cons_ne_nil _ _, ?_, by decide⟩
    intro x hx
    rcases List.mem_cons.1 hx with rfl | hx
    · exact ⟨rfl, full_frame_wf 0, by decide⟩
    · rw [List.mem_singleton] at hx
      subst hx
      exact ⟨rfl, full_frame_wf 0, by decide⟩

theorem demo_cfg_inv : demo.cfg.Inv := ⟨by decide, by decide, by decide, by decide⟩

theorem ready_inv : ready.Inv where
  cfg := demo_cfg_inv
  node := by
    intro nd h
    rcases List.mem_cons.1 h with rfl | h
    · exact ready_node_inv 0 (by decide)
    · rw [List.mem_singleton] at h
      subst h
      exact ready_node_inv 1 (by decide)
  cmb := ⟨ready_buf_inv, by decide, fun _ => ⟨rfl, List.cons_ne_nil _ _⟩, fun h => (by cases h), by decide,
    fun h => (by cases h), by decide,
    (fun _ nd h => by
      rcases List.mem_cons.1 h with rfl | h
      · decide
      · rw [List.mem_singleton] at h; subst h; decide),
    fun h => by cases h⟩

theorem ready_aligned : Aligned ready 0 where
  wiring := rfl
  ends := by
    intro nd h
    rcases List.mem_cons.1 h with rfl | h
    · decide
    · rw [List.mem_singleton] at h; subst h; decide
  tx := by
    intro m nd h
    match m, h with
    | 0, h => cases h; decide
    | 1, h => cases h; decide
    | m + 2, h => cases h
  empty := fun h => by cases h
  partly := fun h => by cases h
  full := fun _ => ⟨_, rfl, by decide⟩
  rx := by
    intro r nd h
    match r, h with
    | 0, h => cases h; exact ⟨List.Pairwise.nil, fun _ h => by cases h⟩
    | 1, h => cases h; exact ⟨List.Pairwise.nil, fun _ h => by cases h⟩
    | r + 2, h => cases h

theorem ready_safe : ready.Safe where
  cmb := rfl
  node := by
    intro nd h
    rcases List.mem_cons.1 h with rfl | h
    · exact ⟨rfl, rfl, rfl, rfl⟩
    · rw [List.mem_singleton] at h; subst h; exact ⟨rfl, rfl, rfl, rfl⟩
  faults := rfl

theorem witness_DecodeEncodeRoundTrip :
    (Instr.decDecode 1 recordE5).wellFormed = true ∧ (Instr.cmdData [0xDB]).wellFormed = true ∧
    (Instr.iqFrame (fullFrame 1)).wellFormed = true := ⟨by decide, by decide, by decide +kernel⟩

theorem witness_DecodedBytesAreTheEncoding : decode .hf [0xC0, 0x24, 0x05, 0xC0] = .ok (.cmdSnr [0x05]) := rfl

theorem witness_WireShapeLayout :
    (fullFrame 1).wf ∧ 7 < 8 ∧ (fullFrame 1).samples[1023]? = some ⟨one, 0⟩ ∧ 3 < 4 :=
  ⟨full_frame_wf 1, by decide, by decide +kernel, by decide⟩

/-- An instruction of an idle unit, one of no unit, and one of a busy unit. -/
theorem witness_StepRunsDecodedInstruction :
    ((State.withFetchWord demo 8 0x30).inbox = .invoke .op [0x30] :: [] ∧ decode .op [0x30] = .ok .cmbRecv ∧
      usesUnit .cmbRecv = none) ∧
    (decode .op [0x11, 0] = .ok (.dpkPull 0) ∧ usesUnit (.dpkPull 0) = some (.dpk 0) ∧ isBusy (.dpk 0) demo = false) ∧
    isBusy (.dpk 0) waitingDpk = true := ⟨⟨rfl, rfl, rfl⟩, ⟨rfl, rfl, rfl⟩, rfl⟩

theorem witness_StepKeepsLegalState : ∃ t, ready.Inv ∧ step ready = .next t := ⟨_, ready_inv, rfl⟩

theorem witness_ConstructionGivesLegalState :
    construct (demoParams .combined) = .next demo ∧ (demoParams .combined).wiring = .combined ∧
    (demoParams .combined).hasPkt = true ∧ (demoParams .combined).hasCmb = true := ⟨by rfl, rfl, rfl, rfl⟩

theorem witness_ConstructionSetsResetValues :
    construct (demoParams .combined) = .next demo ∧ demo.nodes[1]? = some (demoNode 1) := ⟨by rfl, rfl⟩

theorem witness_ConstructionChecksParameters :
    (demoParams .combined).sigma.length = (demoParams .combined).nNodes ∧
    (demoParams .combined).seed.length = (demoParams .combined).nNodes := ⟨rfl, rfl⟩

theorem witness_ConfigurationNeverChanges :
    ∃ t nd', step ready = .next t ∧ ready.nodes[0]? = some (pktNode 0 1 true) ∧ t.nodes[0]? = some nd' := ⟨_, _, rfl, rfl, rfl⟩

/-- A step without a fault, and one with. -/
theorem witness_FaultTerminatesOnlyItsUnit :
    (∃ t, step ready = .next t) ∧
    ∃ t, step (demoWith { demoNode 0 with tx := ⟨[], false, true⟩ } (demoNode 1)) = .next t ∧
      t.faults = [(.cmb, .channelDisconnected)] := ⟨⟨_, rfl⟩, _, rfl, rfl⟩

theorem witness_ChannelsAreFirstInFirstOut :
    ∃ t nd', ready.Inv ∧ step ready = .next t ∧ ready.nodes[0]? = some (pktNode 0 1 true) ∧ t.nodes[0]? = some nd' :=
  ⟨_, _, ready_inv, rfl, rfl, rfl⟩

/-- The terminated units, then the ended streams. -/
theorem witness_EndedUnitsRefuse :
    ((demoWith endedNode (demoNode 1)).nodes[0]? = some endedNode ∧ endedNode.pkt.life = ⟨.terminated, true⟩ ∧
      endedNode.dpk.life = ⟨.terminated, true⟩ ∧ endedNode.nse.life = ⟨.terminated, true⟩ ∧
      endedNode.dec.life = ⟨.terminated, true⟩ ∧
      ({ demoWith endedNode (demoNode 1) with cmb := { demo.cmb with life := ⟨.terminated, true⟩ } } : State).cmb.life =
        ⟨.terminated, true⟩) ∧
    ∃ nd : Node, (demoWith nd (demoNode 1)).nodes[0]? = some nd ∧ nd.pkt.life = Life.fresh true ∧ nd.pkt.done = true ∧
      ([] ≠ ([] : List C32) ∨ true = true) ∧ nd.nse.life = Life.fresh true ∧ nd.nse.eos = true ∧
      0 < min [C32.zero].length 1 :=
  ⟨⟨rfl, rfl, rfl, rfl, rfl, rfl⟩,
    { demoNode 0 with pkt := { (demoNode 0).pkt with done := true }, nse := { (demoNode 0).nse with eos := true } },
    rfl, rfl, rfl, .inr rfl, rfl, rfl, by decide⟩

/-- An instance past the end, units that do not exist, an index past the whitening bytes. -/
theorem witness_MissingFormsRefuse :
    demo.nodes.length ≤ 2 ∧
    ((demoWith emptyNode (demoNode 1)).nodes[0]? = some emptyNode ∧ emptyNode.pkt.life.present = false ∧
      emptyNode.dpk.life.present = false ∧ emptyNode.nse.life.present = false ∧ emptyNode.dec.life.present = false) ∧
    demoDirect.cmb.life.present = false ∧ demo.cfg.w.length ≤ 10 :=
  ⟨Nat.le_refl _, ⟨rfl, rfl, rfl, rfl, rfl⟩, rfl, Nat.le_refl _⟩

theorem witness_PktPushStoresSample :
    (demoWith (pktNode 1022 0 true) (demoNode 1)).nodes[0]? = some (pktNode 1022 0 true) ∧
    (pktNode 1022 0 true).pkt.life = Life.fresh true ∧ (pktNode 1022 0 true).pkt.done = false ∧
    (pktNode 1022 0 true).pkt.fill + 1 ≠ 1024 := ⟨rfl, rfl, rfl, by decide⟩

theorem witness_PktPushEmitsFullWindow :
    (demoWith (pktNode 1023 (-2) true) (demoNode 1)).nodes[0]? = some (pktNode 1023 (-2) true) ∧
    (pktNode 1023 (-2) true).pkt.life = Life.fresh true ∧ (pktNode 1023 (-2) true).pkt.done = false ∧
    (pktNode 1023 (-2) true).pkt.fill + 1 = 1024 ∧ (pktNode 1023 (-2) true).pkt.epoch.toNat ≠ 2 ^ 64 - 1 ∧
    (pktNode 1023 (-2) true).tx.rxAlive = true := ⟨rfl, rfl, rfl, rfl, by decide, rfl⟩

/-- The empty window, and windows of 1 and 1023 samples. -/
theorem witness_PktEosFlushesWindow :
    (∀ k e, (demoWith (pktNode k e true) (demoNode 1)).nodes[0]? = some (pktNode k e true) ∧
      (pktNode k e true).pkt.life = Life.fresh true ∧ (pktNode k e true).pkt.done = false) ∧
    (pktNode 0 0 true).pkt.fill = 0 ∧
    (∀ k, k ∈ [1, 1023] → 0 < (pktNode k (-2) true).pkt.fill ∧ (pktNode k (-2) true).pkt.epoch.toNat ≠ 2 ^ 64 - 1 ∧
      (pktNode k (-2) true).tx.rxAlive = true) :=
  ⟨fun _ _ => ⟨rfl, rfl, rfl⟩, rfl, by decide⟩

theorem witness_PktDeadReceiverTerminates :
    (∀ k, (demoWith (pktNode k 0 false) (demoNode 1)).nodes[0]? = some (pktNode k 0 false) ∧
      (pktNode k 0 false).pkt.life = Life.fresh true ∧ (pktNode k 0 false).pkt.done = false ∧
      (pktNode k 0 false).pkt.epoch.toNat ≠ 2 ^ 64 - 1 ∧ (pktNode k 0 false).tx.rxAlive = false) ∧
    (pktNode 1023 0 false).pkt.fill + 1 = 1024 ∧ 0 < (pktNode 1 0 false).pkt.fill :=
  ⟨fun _ => ⟨rfl, rfl, rfl, (by decide : (0 : Epoch).toNat ≠ 2 ^ 64 - 1), rfl⟩, rfl, by decide⟩

theorem witness_PktEpochOverflowFaults :
    (∀ k, (demoWith (pktNode k (-1) true) (demoNode 1)).nodes[0]? = some (pktNode k (-1) true) ∧
      (pktNode k (-1) true).pkt.life = Life.fresh true ∧ (pktNode k (-1) true).pkt.done = false ∧
      (pktNode k (-1) true).pkt.epoch.toNat = 2 ^ 64 - 1) ∧
    (pktNode 1023 (-1) true).pkt.fill + 1 = 1024 ∧ 0 < (pktNode 1 (-1) true).pkt.fill :=
  ⟨fun _ => ⟨rfl, rfl, rfl, (by decide : (-1 : Epoch).toNat = 2 ^ 64 - 1)⟩, rfl, by decide⟩

theorem witness_PktWorkSendsFullWindows :
    (demoWith (pktNode 1023 (-3) true) (demoNode 1)).nodes[0]? = some (pktNode 1023 (-3) true) ∧
    (pktNode 1023 (-3) true).pkt.life = Life.fresh true ∧ (pktNode 1023 (-3) true).pkt.done = false ∧
    (pktNode 1023 (-3) true).tx.rxAlive = true ∧ (pktNode 1023 (-3) true).pkt.win.length = 1024 ∧
    (pktNode 1023 (-3) true).pkt.fill < 1024 ∧
    (pktNode 1023 (-3) true).pkt.epoch.toNat + ((pktNode 1023 (-3) true).pkt.fill +
      (List.replicate 1025 C32.zero).length) / 1024 < 2 ^ 64 ∧ 1 < 2 :=
  ⟨rfl, rfl, rfl, rfl, List.length_replicate, by decide, by rw [List.length_replicate]; decide, by decide⟩

/-- From a window and an epoch that are not zero, up to the last epoch that can be sent, and from zero. -/
theorem witness_PktWholeStreamSent :
    (∀ k e, (demoWith (pktNode k e true) (demoNode 1)).nodes[0]? = some (pktNode k e true) ∧
      (pktNode k e true).pkt.life = Life.fresh true ∧ (pktNode k e true).pkt.done = false ∧
      (pktNode k e true).tx.rxAlive = true ∧ (pktNode k e true).pkt.win.length = 1024) ∧
    (∀ k ∈ [0, 1023], k < 1024 ∧
      (-3 : Epoch).toNat + (((pktNode k (-3) true).pkt.win.take k ++ List.replicate 2 C32.zero).length + 1023) / 1024 < 2 ^ 64) ∧
    1 < 2 ∧ 1023 < 1024 :=
  ⟨fun _ _ => ⟨rfl, rfl, rfl, rfl, List.length_replicate⟩, by decide +kernel, by decide, by decide⟩

/-- A work cycle inside a frame, and a pull with nothing received yet. -/
theorem witness_DpkDeliversPendingThenSilence :
    (∃ nd : Node, (Instr.dpkWork 0 2 = .dpkWork 0 2 ∨ (Instr.dpkWork 0 2 = .dpkPull 0 ∧ 2 = 1)) ∧
      (demoWith nd (demoNode 1)).nodes[0]? = some nd ∧ nd.dpk.life = Life.fresh true ∧ nd.dpk.rd ≤ 1024 ∧
      (nd.dpk.cur = none → nd.dpk.rd = 1024) ∧ (∀ f, nd.dpk.cur = some f → f.wf) ∧ (nd.dpkIn .combined).Wf) ∧
    (Instr.dpkPull 0 = .dpkWork 0 1 ∨ (Instr.dpkPull 0 = .dpkPull 0 ∧ 1 = 1)) ∧
    demo.nodes[0]? = some (demoNode 0) ∧ (demoNode 0).dpk.life = Life.fresh true ∧ (demoNode 0).dpk.rd ≤ 1024 ∧
    ((demoNode 0).dpk.cur = none → (demoNode 0).dpk.rd = 1024) ∧ (∀ f, (demoNode 0).dpk.cur = some f → f.wf) ∧
    ((demoNode 0).dpkIn .combined).Wf :=
  ⟨⟨{ demoNode 0 with dpk := ⟨some (fullFrame 0), 1023, none, Life.fresh true⟩, rx := ⟨[fullFrame 1], true, true⟩ },
    .inl rfl, rfl, rfl, by decide, fun h => (by cases h), (fun f h => by cases h; exact full_frame_wf 0),
    (fun f h => by rw [List.mem_singleton.1 h]; exact full_frame_wf 1)⟩,
    .inr ⟨rfl, rfl⟩, rfl, rfl, Nat.le_refl _, fun _ => rfl, fun _ h => (by cases h), fun _ h => by cases h⟩

/-- A packetizer's cycle that goes on, one that a fault ended, and a depacketizer's. -/
theorem witness_WorkCyclesSplit :
    (∃ t nd, exec (.pktWork 0 [C32.zero] false) demo = .next t ∧ t.nodes[0]? = some nd ∧ nd.pkt.life.status = .running) ∧
    (∃ t nd, exec (.pktWork 0 [C32.zero] false) (demoWith (pktNode 1023 0 false) (demoNode 1)) = .next t ∧
      t.nodes[0]? = some nd ∧ nd.pkt.life.status = .terminated) ∧
    ∃ t u v, exec (.dpkWork 0 1) demo = .next t ∧ exec (.dpkWork 0 2) t = .next u ∧ exec (.dpkWork 0 (1 + 2)) demo = .next v :=
  ⟨⟨_, _, rfl, rfl, rfl⟩, ⟨_, _, rfl, rfl, rfl⟩, _, _, _, rfl, rfl, rfl⟩

theorem witness_DirectPathRoundTrip :
    demoDirect.cfg.wiring = .direct ∧ demoDirect.nodes[0]? = some (demoNode 0) ∧
    (demoNode 0).pkt.life = Life.fresh true ∧ (demoNode 0).pkt.done = false ∧ (demoNode 0).pkt.fill = 0 ∧
    (demoNode 0).pkt.win.length = 1024 ∧ (demoNode 0).dpk.life = Life.fresh true ∧ (demoNode 0).dpk.rd = 1024 ∧
    (demoNode 0).tx.q = [] ∧ (demoNode 0).tx.rxAlive = true ∧
    (demoNode 0).pkt.epoch.toNat + ([C32.zero].length + 1023) / 1024 < 2 ^ 64 :=
  ⟨rfl, rfl, rfl, rfl, rfl, List.length_replicate, rfl, rfl, rfl, rfl, by decide⟩

theorem witness_NseStepAddsTwoDraws :
    demo.nodes[1]? = some (demoNode 1) ∧ (demoNode 1).nse.life = Life.fresh true ∧ (demoNode 1).nse.eos = false :=
  ⟨rfl, rfl, rfl⟩

/-- The sample of N2, one part −0.0. -/
theorem witness_NseZeroSigmaIsNumericNoOp :
    demo.nodes[0]? = some (demoNode 0) ∧ (demoNode 0).nse.life = Life.fresh true ∧ (demoNode 0).nse.eos = false ∧
    demo.cfg.fp = .binary32 ∧ F32.isZero (demoNode 0).nse.sigma = true ∧
    F32.isNaN (0x80000000 : F32) = false ∧ F32.isNaN (0x40400000 : F32) = false := by
  exact ⟨rfl, rfl, rfl, rfl, by decide, by decide, by decide⟩

theorem witness_NseEosSignalsCompletion :
    demo.nodes[0]? = some (demoNode 0) ∧ (demoNode 0).nse.life = Life.fresh true ∧ (demoNode 0).nse.eos = false :=
  ⟨rfl, rfl, rfl⟩

theorem witness_NseWorkForwardsMinimum :
    demo.nodes[1]? = some (demoNode 1) ∧ (demoNode 1).nse.life = Life.fresh true ∧ (demoNode 1).nse.eos = false :=
  ⟨rfl, rfl, rfl⟩

/-- Each clause of the rule: a NaN, infinities that cancel, an infinity alone on either side, a zero sum of two negative zeros
and of two values that cancel, a sum just below the first that overflows, and that one. -/
theorem witness_AddRoundsToNearest :
    F32.isNaN 0x7FC00000 = true ∧ (F32.isInf 0x7F800000 = true ∧ F32.isInf 0xFF800000 = true) ∧
    F32.sign 0x7F800000 ≠ F32.sign 0xFF800000 ∧ F32.isNaN 0x3F800000 = false ∧ F32.isFinite 0x3F800000 = true ∧
    (F32.isFinite 0x80000000 = true ∧ F32.val 0x80000000 + F32.val 0x80000000 = 0 ∧ F32.sign 0x80000000 = true) ∧
    F32.val 0x3F800000 + F32.val 0xBF800000 = 0 ∧
    F32.isFinite 0x7F7FFFFF = true ∧ F32.isFinite 0x72FFFFFF = true ∧ F32.isFinite 0x73000000 = true ∧
    (F32.val 0x7F7FFFFF + F32.val 0x72FFFFFF).natAbs < (2 ^ 25 - 1) * 2 ^ 252 ∧
    (2 ^ 25 - 1) * 2 ^ 252 ≤ (F32.val 0x7F7FFFFF + F32.val 0x73000000).natAbs := by decide +kernel

/-- Each clause: a NaN, zero times an infinity, an infinity times one, and finite products below and above the boundary. -/
theorem witness_MulRoundsToNearest :
    F32.isNaN 0xFFC00001 = true ∧ (F32.isInf 0x7F800000 = true ∧ F32.isZero 0x80000000 = true) ∧
    (F32.isNaN 0x7F800000 = false ∧ F32.isZero 0x7F800000 = false ∧ F32.isNaN 0xBF800000 = false ∧
      F32.isZero 0xBF800000 = false) ∧
    F32.isFinite 0x7F7FFFFF = true ∧ F32.isFinite 0xBF800000 = true ∧ F32.isFinite 0x3F800001 = true ∧
    (F32.val 0x7F7FFFFF * F32.val 0xBF800000).natAbs < (2 ^ 25 - 1) * 2 ^ 401 ∧
    (2 ^ 25 - 1) * 2 ^ 401 ≤ (F32.val 0x7F7FFFFF * F32.val 0x3F800001).natAbs := by decide +kernel

theorem witness_CoefficientRoundsToNearest :
    F32.isNonneg 0x00000000 = true ∧ F32.isNonneg 0x80000000 = true ∧ F32.isNonneg 0x7F7FFFFF = true ∧
    F32.isFinite 0xFF7FFFFF = true := by decide +kernel

/-- A receive that moves on, and one from the last transmitter. -/
theorem witness_CmbRecvInsertsFrame :
    ∀ r, r ∈ [0, 1] → ∃ (nd : Node) (b : Buf),
      let s := { demoWith nd nd with cmb := { demo.cmb with rr := r } }
      s.cmb.life = Life.fresh true ∧ s.cmb.phase = .recv ∧ s.nodes[s.cmb.rr]? = some nd ∧
      nd.tx.q = fullFrame 0 :: [] ∧ Buf.insert (fullFrame 0) s.cmb.rr s.cmb.buf = some b := by
  intro r hr
  refine ⟨{ demoNode 0 with tx := ⟨[fullFrame 0], true, true⟩ }, _, rfl, rfl, ?_, rfl, rfl⟩
  rcases List.mem_cons.1 hr with rfl | hr
  · rfl
  · rw [List.mem_singleton] at hr; subst hr; rfl

/-- A wait, an incomplete oldest epoch, and an epoch that is not the ready one. -/
theorem witness_CmbWaitsOrKeepsCollecting :
    (demo.cmb.life = Life.fresh true ∧ demo.cmb.phase = .recv ∧ demo.nodes[demo.cmb.rr]? = some (demoNode 0) ∧
      (demoNode 0).tx.q = [] ∧ (demoNode 0).tx.txAlive = true) ∧
    (∃ c : Cmb, c.life = Life.fresh true ∧ c.phase = .check ∧ c.buf = (0, [⟨fullFrame 0, 0⟩]) :: [] ∧
      [(⟨fullFrame 0, 0⟩ : Entry)].length < demo.nodes.length) ∧
    (ready.cmb.life = Life.fresh true ∧ ready.cmb.phase = .check ∧ ∀ es, readyEpoch ready ≠ some (1, es)) :=
  ⟨⟨rfl, rfl, rfl, rfl, rfl⟩, ⟨{ demo.cmb with phase := .check, buf := [(0, [⟨fullFrame 0, 0⟩])] }, rfl, rfl, rfl, by decide⟩,
    rfl, rfl, fun _ h => absurd (congrArg (Option.map Prod.fst) h) (by decide : ¬ some (0 : Epoch) = some 1)⟩

theorem witness_CmbRecvDisconnectedTerminates :
    ∃ nd : Node, demo.cmb.life = Life.fresh true ∧ demo.cmb.phase = .recv ∧ demo.cfg.wiring = .combined ∧
      (demoWith nd (demoNode 1)).nodes[demo.cmb.rr]? = some nd ∧ nd.tx.q = [] ∧ nd.tx.txAlive = false :=
  ⟨{ demoNode 0 with tx := ⟨[], false, true⟩ }, rfl, rfl, rfl, rfl, rfl, rfl⟩

theorem witness_CmbRecvDuplicateTerminates :
    ∃ nd : Node,
      let s := { demoWith nd (demoNode 1) with cmb := { ready.cmb with phase := .recv } }
      s.cmb.life = Life.fresh true ∧ s.cmb.phase = .recv ∧ s.cfg.wiring = .combined ∧ BufInv s.nodes.length s.cmb.buf ∧
      s.nodes[s.cmb.rr]? = some nd ∧ nd.tx.q = fullFrame 0 :: [] ∧
      ⟨fullFrame 0, 0⟩ ∈ Buf.entries (fullFrame 0).epoch s.cmb.buf ∧ 0 = s.cmb.rr :=
  ⟨{ demoNode 0 with tx := ⟨[fullFrame 0], true, true⟩ }, rfl, rfl, rfl, ready_buf_inv, rfl, rfl, List.mem_cons_self, rfl⟩

/-- A duplicate, and a new epoch. -/
theorem witness_InsertAppendsToItsEpoch :
    BufInv 2 ready.cmb.buf ∧ (fullFrame 0).wf ∧ 1 < 2 ∧ Buf.insert (fullFrame 0) 1 ready.cmb.buf = none ∧
    (fullFrame 1).wf ∧ ∃ b, Buf.insert (fullFrame 1) 1 ready.cmb.buf = some b :=
  ⟨ready_buf_inv, full_frame_wf 0, by decide, rfl, full_frame_wf 1, _, rfl⟩

/-- CMB.CHECK, and CMB.COMBINE of the ready epoch. -/
theorem witness_CmbCheckServesEveryReceiver :
    (∀ i ∈ [Instr.cmbCheck, .cmbCombine 0], i = .cmbCheck ∨ i = .cmbCombine 0) ∧
    ready.cmb.life = Life.fresh true ∧ ready.cmb.phase = .check ∧
    readyEpoch ready = some (0, [⟨fullFrame 0, 0⟩, ⟨fullFrame 0, 1⟩]) ∧ ready.cmb.sent = 0 ∧
    ∀ nd ∈ ready.nodes, nd.rx.rxAlive = true := by
  refine ⟨by decide, rfl, rfl, rfl, rfl, fun nd h => ?_⟩
  rcases List.mem_cons.1 h with rfl | h
  · rfl
  · rw [List.mem_singleton] at h; subst h; rfl

theorem witness_CombinedSampleIsOrderedSum :
    (∀ x ∈ [(⟨fullFrame 0, 0⟩ : Entry), ⟨fullFrame 0, 1⟩], x.frame.wf) ∧ 1023 < 1024 := by
  refine ⟨fun x h => ?_, by decide⟩
  rcases List.mem_cons.1 h with rfl | h
  · exact full_frame_wf 0
  · rw [List.mem_singleton] at h; subst h; exact full_frame_wf 0

/-- The second of two receivers is dead. -/
theorem witness_CmbCheckDeadReceiverTerminates :
    ∃ dead : Node,
      let s := { ready with nodes := [demoNode 0, dead] }
      s.cmb.life = Life.fresh true ∧ s.cmb.phase = .check ∧ s.cfg.wiring = .combined ∧
      readyEpoch s = some (0, [⟨fullFrame 0, 0⟩, ⟨fullFrame 0, 1⟩]) ∧ s.cmb.sent = 0 ∧
      s.nodes[1]? = some dead ∧ dead.rx.rxAlive = false ∧
      ∀ (r : Nat) (nd : Node), r < 1 → s.nodes[r]? = some nd → nd.rx.rxAlive = true := by
  refine ⟨{ demoNode 1 with rx := ⟨[], true, false⟩ }, rfl, rfl, rfl, rfl, rfl, rfl, rfl, fun r nd hr h => ?_⟩
  obtain rfl : r = 0 := by omega
  cases h
  rfl

/-- A turn of each kind that sends or receives: the combiner's send, its receive, a packetizer's emission, a depacketizer's
receive; and the node next to the one concerned. -/
theorem witness_EachTurnIsOneChannelOperation :
    (∃ nd', ready.nodes[0]? = some (pktNode 0 1 true) ∧ (unitTurn .cmb ready).nodes[0]? = some nd' ∧ nd'.rx.q.length = 1) ∧
    (∃ s nd nd', s.nodes[0]? = some nd ∧ nd.tx.q = [fullFrame 0] ∧ (unitTurn .cmb s).nodes[0]? = some nd' ∧ nd'.tx.q = []) ∧
    (∃ s nd nd', s.nodes[0]? = some nd ∧ (unitTurn (.pkt 0) s).nodes[0]? = some nd' ∧ nd.tx.q = [] ∧ nd'.tx.q.length = 1) ∧
    (∃ nd nd', waitingDpk.nodes[0]? = some nd ∧ (unitTurn (.dpk 0) waitingDpk).nodes[0]? = some nd' ∧
      nd.rx.q = [fullFrame 3] ∧ nd'.rx.q = []) ∧
    ∃ nd nd', waitingDpk.nodes[1]? = some nd ∧ (unitTurn (.dpk 0) waitingDpk).nodes[1]? = some nd' :=
  ⟨⟨_, rfl, rfl, rfl⟩,
    ⟨demoWith { demoNode 0 with tx := ⟨[fullFrame 0], true, true⟩ } (demoNode 1), _, _, rfl, rfl, rfl, rfl⟩,
    ⟨demoWith { demoNode 0 with pkt := { (demoNode 0).pkt with fill := 1023, work := some ⟨[⟨1, 0⟩], true⟩ } } (demoNode 1),
      _, _, rfl, rfl, rfl, rfl⟩,
    ⟨_, _, rfl, rfl, rfl, rfl⟩, _, _, rfl, rfl⟩

/-- A check; work cycles of an idle packetizer and of an idle depacketizer, and of an instance that does not exist. -/
theorem witness_AtomicTurnsMakeWholeOperation :
    (∃ t, ready.Inv ∧ ready.cmb.life = Life.fresh true ∧ ready.cmb.phase = .check ∧ exec .cmbCheck ready = .next t) ∧
    (∃ t u, (∀ nd, demo.nodes[0]? = some nd → nd.pkt.work = none ∧ nd.dpk.work = none) ∧
      exec (.pktWork 0 [C32.zero] true) demo = .next t ∧ exec (.dpkWork 0 3) demo = .next u) ∧
    (∃ r, (∀ nd, demo.nodes[2]? = some nd → nd.pkt.work = none ∧ nd.dpk.work = none) ∧
      exec (.pktWork 2 [] true) demo = .refused r ∧ exec (.dpkWork 2 0) demo = .refused r) :=
  ⟨⟨_, ready_inv, rfl, rfl, rfl⟩, ⟨_, _, fun _ h => (by cases h; exact ⟨rfl, rfl⟩), rfl, rfl⟩,
    _, fun _ h => (by cases h), rfl, rfl⟩

/-- The step sends the first receiver its frame. -/
theorem witness_BarrierBeforeEverySend :
    ∃ t nd', ready.Inv ∧ ready.cmb.life.present = true ∧ step ready = .next t ∧
      ready.nodes[0]? = some (pktNode 0 1 true) ∧ t.nodes[0]? = some nd' ∧ nd'.rx.q.length = 1 :=
  ⟨_, _, ready_inv, rfl, rfl, rfl, rfl, rfl⟩

theorem witness_AlignedStreamsStayAligned : ∃ t, ready.Inv ∧ Aligned ready 0 ∧ step ready = .next t :=
  ⟨_, ready_inv, ready_aligned, rfl⟩

theorem witness_AlignedBlockTakesNoOtherFault :
    ∃ t, ready.Inv ∧ Aligned ready 0 ∧ ready.Safe ∧ ready.cmb.life.present = true ∧
      (∀ nd ∈ ready.nodes, nd.pkt.life.present = true ∧ nd.dpk.life.present = true) ∧
      (∀ u, ready.inbox.head? ≠ some (.remove u)) ∧ step ready = .next t := by
  refine ⟨_, ready_inv, ready_aligned, ready_safe, rfl, fun nd h => ?_, fun u h => (by cases h), rfl⟩
  rcases List.mem_cons.1 h with rfl | h
  · exact ⟨rfl, rfl⟩
  · rw [List.mem_singleton] at h; subst h; exact ⟨rfl, rfl⟩

/-- A record of header flag, CRC flag and nibbles. -/
def record (implicit crc : Bool) (nibbles : List Byte) : DecodedFrame := ⟨nibbles, implicit, crc, .raw [], []⟩

/-- A record with exactly the whitening bytes there are, and a short one. -/
theorem witness_DecDecodeCompletes :
    (demo.nodes[0]? = some (demoNode 0) ∧ (demoNode 0).dec.life = Life.fresh true) ∧
    (let r := record true true (List.replicate 20 0)
     (∀ b ∈ r.nibbles, b.toNat < 16) ∧ whiteningNeed r ≤ demo.cfg.w.length) ∧
    (let r := record false true [1, 2, 3]
     (∀ b ∈ r.nibbles, b.toNat < 16) ∧ r.nibbles.length < headerNibbles r + trailerNibbles r) :=
  ⟨⟨rfl, rfl⟩, by decide, by decide⟩

theorem witness_DecFailedCheckEvents :
    let r := { recordE5 with nibbles := recordE5.nibbles.take 18 ++ [0x7] }
    demo.nodes[0]? = some (demoNode 0) ∧ (demoNode 0).dec.life = Life.fresh true ∧ (∀ b ∈ r.nibbles, b.toNat < 16) ∧
    (r.nibbles.length < headerNibbles r + trailerNibbles r ∨ whiteningNeed r ≤ demo.cfg.w.length) ∧
    r.hasCrc = true ∧ (decodeBytes demo.cfg r).2 = false := ⟨rfl, rfl, by decide, .inr (by decide), rfl, by decide +kernel⟩

/-- A body of exactly as many bytes as there are whitening bytes, and an odd nibble. -/
theorem witness_DecNoCrcEvents :
    let r := record false false (List.replicate 26 0xF)
    demo.nodes[0]? = some (demoNode 0) ∧ (demoNode 0).dec.life = Life.fresh true ∧ (∀ b ∈ r.nibbles, b.toNat < 16) ∧
    r.hasCrc = false ∧ (r.nibbles.length - headerNibbles r) / 2 ≤ demo.cfg.w.length := ⟨rfl, rfl, by decide, rfl, by decide⟩

/-- Each row at the ends of its range. -/
theorem witness_DecShortRecordEvents :
    (demo.nodes[0]? = some (demoNode 0) ∧ (demoNode 0).dec.life = Life.fresh true) ∧
    (∀ r, r ∈ [record true true [], record false true (List.replicate 8 1)] →
      (∀ b ∈ r.nibbles, b.toNat < 16) ∧ r.hasCrc = true ∧ r.nibbles.length < headerNibbles r + 4) ∧
    (∀ r, r ∈ [record true true (List.replicate 4 0), record false true (List.replicate 12 1)] →
      (∀ b ∈ r.nibbles, b.toNat < 16) ∧ r.hasCrc = true ∧ headerNibbles r + 4 ≤ r.nibbles.length ∧
      (r.nibbles.length - 4 - headerNibbles r) / 2 + 2 < 4 ∧
      (r.nibbles.length - 4 - headerNibbles r) / 2 + 2 ≤ demo.cfg.w.length) ∧
    (∀ r, r ∈ [record true false [], record false false (List.replicate 6 1)] →
      (∀ b ∈ r.nibbles, b.toNat < 16) ∧ r.hasCrc = false ∧ r.nibbles.length < headerNibbles r + 2) :=
  ⟨⟨rfl, rfl⟩, by decide, by decide, by decide⟩

/-- E19, and a record that needs one byte more than there are. -/
theorem witness_DecRefusesBadRecords :
    (demo.nodes[0]? = some (demoNode 0) ∧ (demoNode 0).dec.life = Life.fresh true) ∧
    (∃ b ∈ (record true false [0x1, 0x10]).nibbles, 16 ≤ b.toNat) ∧
    (let r := record true true (List.replicate 22 0)
     (∀ b ∈ r.nibbles, b.toNat < 16) ∧ headerNibbles r + trailerNibbles r ≤ r.nibbles.length ∧
     demo.cfg.w.length < (r.nibbles.length - trailerNibbles r - headerNibbles r) / 2 + (if r.hasCrc then 2 else 0)) :=
  ⟨⟨rfl, rfl⟩, by decide, by decide⟩

theorem witness_DecDewhitenPacksHighLow : demo.cfg.w[9]? = some 0x17 := rfl

/-- "Hello" with its transmitted CRC, behind a header and with an unpaired body nibble, and a payload that needs every whitening
byte with a trailer that is not its CRC. -/
theorem witness_DecSealedPayloadDecodes :
    ∀ x : List Byte × List Byte × Byte × Byte, x ∈ [([0x48, 0x65, 0x6C, 0x6C, 0x6F], [0x3], 0xB9, 0xA7),
        (List.replicate 8 0xC0, [], 0x00, 0x00)] →
      ∃ (r : DecodedFrame) (hdr : List Byte), demo.nodes[0]? = some (demoNode 0) ∧
        (demoNode 0).dec.life = Life.fresh true ∧ 2 ≤ x.1.length ∧ x.1.length + 2 ≤ demo.cfg.w.length ∧
        r.hasCrc = true ∧ hdr.length = headerNibbles r ∧ x.2.1.length ≤ 1 ∧ (∀ b ∈ hdr ++ x.2.1, b.toNat < 16) ∧
        r.nibbles = hdr ++ transmittedNibbles demo.cfg.w 0 x.1 ++ x.2.1 ++
          transmittedNibbles demo.cfg.w x.1.length [x.2.2.1, x.2.2.2] ∧
        (x.1 ++ [x.2.2.1, x.2.2.2] = sealedPayload demo.cfg.crcSpan x.1 ↔ x.2.1 = [0x3]) := by
  rintro ⟨p, odd, b0, b1⟩ hx
  have h : 2 ≤ p.length ∧ p.length + 2 ≤ demo.cfg.w.length ∧ odd.length ≤ 1 ∧
      (∀ b ∈ List.replicate 5 0xF ++ odd, b.toNat < 16) ∧
      (p ++ [b0, b1] = sealedPayload demo.cfg.crcSpan p ↔ odd = [0x3]) := by
    rcases List.mem_cons.1 hx with hx | hx
    · cases hx; decide +kernel
    · cases List.mem_singleton.1 hx; decide +kernel
  exact ⟨record false true (List.replicate 5 0xF ++ transmittedNibbles demo.cfg.w 0 p ++ odd ++
      transmittedNibbles demo.cfg.w p.length [b0, b1]), List.replicate 5 0xF, rfl, rfl, h.1, h.2.1, rfl, rfl, h.2.2.1,
    h.2.2.2.1, rfl, h.2.2.2.2⟩

/-- The sealed payload of the witness is what vector E5 carries. -/
theorem test_sealed_hello :
    [0, 0, 0, 0, 0] ++ transmittedNibbles demo.cfg.w 0 (sealedPayload .allData [0x48, 0x65, 0x6C, 0x6C, 0x6F]) =
      recordE5.nibbles := by decide +kernel

theorem witness_MergedAnnotations :
    demo.cfg.Inv ∧ ([9] : Key) ≠ demo.cfg.keyCr ∧ ([9] : Key) ≠ demo.cfg.keyHasCrc ∧ ([9] : Key) ≠ demo.cfg.keyImplHdr :=
  ⟨demo_cfg_inv, by decide, by decide, by decide⟩

theorem witness_CrcRecurrenceAndResidue : exec (.decCrc16 [0xFF]) demo = .next (demo.emit [.wordResult 0x1EF0]) := by
  rfl

theorem witness_EscapedBytesAreDelimiterSafe :
    (escape [0x01, 0xC0])[1]? = some 0xDB ∧ (escape [0xDB])[0]? = some 0xDB ∧ isCommandCode 0x24 = true := by decide

theorem witness_CommandFramesBuilt :
    (0x0F : Byte) ∈ [(0x00 : Byte), 0x08, 0x0F, 0x23, 0x24] ∧ (0x01 : Byte) ∉ [(0x00 : Byte), 0x08, 0x0F, 0x23, 0x24] := by
  decide

theorem witness_EscapeRowsDelivered :
    (0xDC : Byte) ≠ 0xC0 ∧ (0xDC : Byte) ≠ 0xDB ∧ (0xC0 : Byte) ≠ 0xDC ∧ (0xC0 : Byte) ≠ 0xDD ∧ (0xC0 : Byte) ≠ 0xDB := by
  decide

end Sys2Proof.Machine.Tests
end

section
/-! PROOF. What construction gives: which parameters it accepts, and the nodes of the block it builds (70 R280 to R282, R39). -/

namespace Sys2Proof.Machine

/-- The checks of R282, as a proposition. -/
theorem validParams_iff (p : Params) : validParams p = true ↔
    1 ≤ p.nNodes ∧ validDist p.nNodes p.dist = true ∧ p.sigma.length = p.nNodes ∧
    p.sigma.all F32.isNonneg = true ∧ p.seed.length = p.nNodes ∧ p.readyCrcErr ≠ 0 ∧
    p.keyCr ≠ p.keyHasCrc ∧ p.keyCr ≠ p.keyImplHdr ∧ p.keyHasCrc ≠ p.keyImplHdr ∧ p.w.length = p.wLen := by
  simp only [validParams, Bool.and_eq_true, decide_eq_true_eq, bne_iff_ne, and_assoc]

/-- When construction answers a next state, and which. -/
theorem construct_next {p : Params} {s : State} :
    construct p = .next s ↔ validParams p = true ∧ s = State.construct p := by
  unfold construct
  split
  case isTrue hp => simp [hp, eq_comm]
  case isFalse hp => simp [hp]

@[simp] theorem nodes_length_construct (p : Params) : (State.construct p).nodes.length = p.nNodes := by
  simp [State.construct]

/-- The nodes of a block right after construction are the fresh ones. -/
theorem getElem?_nodes_construct {p : Params} {n : Nat} {nd : Node} :
    (State.construct p).nodes[n]? = some nd ↔ n < p.nNodes ∧ nd = Node.fresh p n := by
  rw [List.getElem?_eq_some_iff]
  simp [State.construct, eq_comm]

/-- A fresh node's noise injector has the standard deviation that the parameters give its node. -/
theorem sigma_fresh {p : Params} {n : Nat} (h : n < p.sigma.length) :
    p.sigma[n]? = some (Node.fresh p n).nse.sigma := by
  simp [Node.fresh, h]

/-- A fresh node's noise injector has the seed that the parameters give its node. -/
theorem seed_fresh {p : Params} {n : Nat} (h : n < p.seed.length) :
    p.seed[n]? = some (Node.fresh p n).nse.seed := by
  simp [Node.fresh, h]

/-- A fresh packetizer's window has its full size. -/
theorem win_length_fresh (p : Params) (n : Nat) : (Node.fresh p n).pkt.win.length = 1024 :=
  List.length_replicate

/-- Settles O10. All of R39 but `SIGMA` and `SEED` is written out in `State.construct` and `Node.fresh`; those two are read from
lists, and the length checks of R282 are why every node finds its own. -/
theorem constructionSetsResetValues : Obligations.ConstructionSetsResetValues := by
  intro p s h
  obtain ⟨hp, rfl⟩ := construct_next.1 h
  obtain ⟨-, -, hsigma, -, hseed, -⟩ := (validParams_iff p).1 hp
  refine ⟨nodes_length_construct p, fun n nd hn => ?_, rfl, rfl, rfl, rfl, rfl⟩
  obtain ⟨hlt, rfl⟩ := getElem?_nodes_construct.1 hn
  have hwin := win_length_fresh p n
  have hσ := sigma_fresh (p := p) (hlt.trans_eq hsigma.symm)
  have hs := seed_fresh (p := p) (hlt.trans_eq hseed.symm)
  exact ⟨rfl, rfl, hwin, rfl, rfl, rfl, hσ, hs, rfl, rfl, rfl, rfl, rfl, rfl, rfl, rfl, rfl, rfl, rfl, rfl, rfl⟩

end Sys2Proof.Machine
end

section
/-! PROOF. The rows of the two escape tables (30 R96, R97): the three literal rows on a byte of their own, and the equations of
`descape`, one per row it can take first. -/

namespace Sys2Proof.Machine

/-! ## The literal rows, which refuse a byte of a row before them -/

theorem exec_escLit_of_ne {b : Byte} (hdelim : b ≠ delim) (hesc : b ≠ esc) (s : State) :
    exec (.escLit b) s = giveBytes [b] s := by
  change execEscLit b s = _
  exact if_neg (not_or.2 ⟨hdelim, hesc⟩)

theorem exec_descOther_of_ne {b : Byte} (hdelim : b ≠ escDelim) (hesc : b ≠ escEsc) (s : State) :
    exec (.descOther b) s = giveUnescaped [b] 2 s := by
  change execDescOther b s = _
  exact if_neg (not_or.2 ⟨hdelim, hesc⟩)

theorem exec_descLit_of_ne {b : Byte} (hesc : b ≠ esc) (s : State) :
    exec (.descLit b) s = giveUnescaped [b] 1 s := by
  change execDescLit b s = _
  exact if_neg hesc

/-! ## `descape`, by the row at its first byte -/

@[simp] theorem descape_nil : descape [] = [] := by
  rw [descape]

/-- DESC.TRUNC: an escape byte that ends the input gives nothing. -/
@[simp] theorem descape_esc_singleton : descape [esc] = [] := by
  rw [descape, if_pos rfl]

/-- DESC.DELIM, DESC.ESC and DESC.OTHER: an escape byte takes the byte after it along. -/
@[simp] theorem descape_esc_cons (x : Byte) (rest : List Byte) :
    descape (esc :: x :: rest) = unescapeSecond x :: descape rest := by
  rw [descape, if_pos rfl]

/-- DESC.LIT: any other byte stands for itself. -/
theorem descape_cons_of_ne {b : Byte} (hesc : b ≠ esc) (rest : List Byte) :
    descape (b :: rest) = b :: descape rest := by
  rw [descape.eq_def]
  exact if_neg hesc

/-- Settles O60, row by row: a fixed row is its output written out, a literal row needs its byte to be of no row before it, and
`descape` has one equation for each way to begin. -/
theorem escapeRowsDelivered : Obligations.EscapeRowsDelivered := by
  intro s b x rest
  refine ⟨?escDelim, ?escEsc, ?escLit, ?descDelim, ?descEsc, ?descOther, ?descTrunc, ?descLit, ?nil, ?lone, ?pair, ?literal⟩
  case escDelim | escEsc | descDelim | descEsc | descTrunc => rfl
  case escLit => exact fun hdelim hesc => exec_escLit_of_ne hdelim hesc s
  case descOther => exact fun hdelim hesc => exec_descOther_of_ne hdelim hesc s
  case descLit => exact fun hesc => exec_descLit_of_ne hesc s
  case nil => exact descape_nil
  case lone => exact descape_esc_singleton
  case pair => exact descape_esc_cons x rest
  case literal => exact fun hesc => descape_cons_of_ne hesc rest

end Sys2Proof.Machine
end

section
/-! PROOF. The two emissions that a packetizer does not survive: one to a dead receiver and one of the last epoch
(40 R127, R128). -/

namespace Sys2Proof.Machine

/-! ## PKT.PUSH and PKT.EOS as operations -/

theorem exec_pktPush (n : Nat) (x : C32) (s : State) : exec (.pktPush n x) s = pushSample n x s :=
  rfl

theorem exec_pktEos (n : Nat) (s : State) : exec (.pktEos n) s = endStream n s :=
  rfl

/-- A terminated packetizer refuses a push (R35). -/
theorem pushSample_terminated {n : Nat} {nd : Node} {s : State} (hn : s.nodes[n]? = some nd)
    (hl : nd.pkt.life = ⟨.terminated, true⟩) (x : C32) : pushSample n x s = .refused .unitTerminated := by
  rw [pushSample, withNode_of hn, hl, withLife_terminated]

/-- A terminated packetizer refuses the end of the stream (R35). -/
theorem endStream_terminated {n : Nat} {nd : Node} {s : State} (hn : s.nodes[n]? = some nd)
    (hl : nd.pkt.life = ⟨.terminated, true⟩) : endStream n s = .refused .unitTerminated := by
  rw [endStream, withNode_of hn, hl, withLife_terminated]

/-! ## An emission that raises -/

/-- The overflow test of R127 as the obligations write it. -/
theorem epoch_eq_allOnes_iff (e : Epoch) : e = BitVec.allOnes 64 ↔ e.toNat = 2 ^ 64 - 1 := by
  rw [← BitVec.toNat_inj, BitVec.toNat_allOnes]

/-- The node when a push that fills its window reaches the emission (R121). -/
def Node.filled (nd : Node) (x : C32) : Node :=
  { nd with pkt := { nd.pkt with win := nd.pkt.win.set 1023 x, fill := 1024 } }

/-- The node when an end of stream reaches the emission (R123). -/
def Node.padded (nd : Node) : Node :=
  { nd with pkt := { nd.pkt with win := padWindow nd.pkt.win nd.pkt.fill } }

/-- A node whose packetizer took a fault (R256). -/
def Node.pktDead (nd : Node) : Node :=
  { nd with
    pkt := { nd.pkt with work := none, life := ⟨.terminated, true⟩ }
    tx := { nd.tx with txAlive := false } }

/-- The state after the packetizer of node `n`, which stood at `nd`, took the fault `r` (R256). -/
def pktFaulted (n : Nat) (nd : Node) (r : Fault) (s : State) : State :=
  { s.setNode n nd.pktDead with faults := s.faults ++ [(.pkt n, r)] }

theorem raiseFault_eq_pktFaulted {nd : Node} (hl : nd.pkt.life = Life.fresh true) (n : Nat) (r : Fault) (s : State) :
    raiseFault (.pkt n) r (s.setNode n nd) = pktFaulted n nd r s := by
  rw [raiseFault_pkt_setNode, hl]
  rfl

/-- R128, once for every operation that emits. -/
theorem emitWindow_to_dead {n : Nat} {nd : Node} {s : State} (hl : nd.pkt.life = Life.fresh true)
    (he : nd.pkt.epoch.toNat ≠ 2 ^ 64 - 1) (hd : nd.tx.rxAlive = false) :
    emitWindow n nd s = .raised (pktFaulted n nd .channelDisconnected s) := by
  rw [emitWindow_dead (mt (epoch_eq_allOnes_iff _).1 he) hd, raiseFault_eq_pktFaulted hl]

/-- R127, once for every operation that emits. -/
theorem emitWindow_of_last_epoch {n : Nat} {nd : Node} {s : State} (hl : nd.pkt.life = Life.fresh true)
    (he : nd.pkt.epoch.toNat = 2 ^ 64 - 1) :
    emitWindow n nd s = .raised (pktFaulted n nd (.epochOverflow nd.pkt.epoch) s) := by
  rw [emitWindow_overflow ((epoch_eq_allOnes_iff _).2 he), raiseFault_eq_pktFaulted hl]

/-- A push that fills the window ends where its emission raised. -/
theorem pushSample_raised {n : Nat} {nd : Node} {x : C32} {s t : State} (hn : s.nodes[n]? = some nd)
    (hl : nd.pkt.life = Life.fresh true) (hdone : nd.pkt.done = false) (hfill : nd.pkt.fill + 1 = 1024)
    (hemit : emitWindow n (nd.filled x) s = .raised t) : pushSample n x s = .next t := by
  have hlast : nd.pkt.fill = 1023 := by omega
  refine pushSample_next.2 ⟨nd, hn, hl, hdone, ?_⟩
  unfold Node.filled at hemit
  rw [acceptSample, if_pos hfill, hlast, hemit]

/-- An end of stream with samples in the window ends where its emission raised: completion is not signalled. -/
theorem endStream_raised {n : Nat} {nd : Node} {s t : State} (hn : s.nodes[n]? = some nd)
    (hl : nd.pkt.life = Life.fresh true) (hdone : nd.pkt.done = false) (hfill : 0 < nd.pkt.fill)
    (hemit : emitWindow n nd.padded s = .raised t) : endStream n s = .next t := by
  refine endStream_next.2 ⟨nd, hn, hl, hdone, ?_⟩
  unfold Node.padded at hemit
  rw [flushWindow, if_pos hfill, hemit]

/-- The packetizer that took the fault stands terminated in its node. -/
theorem getElem?_pktFaulted {n : Nat} {nd : Node} {s : State} (hn : s.nodes[n]? = some nd) (a : Node) (r : Fault) :
    (pktFaulted n a r s).nodes[n]? = some a.pktDead :=
  getElem?_setNode_self s n nd a.pktDead hn

/-- Settles O20: the emission of either operation raises in the node as it stands there, and the node left behind is that of a
terminated packetizer. -/
theorem pktDeadReceiverTerminates : Obligations.PktDeadReceiverTerminates := by
  intro s n nd hn hl hdone he hd
  refine ⟨fun x hfill => ⟨?push, fun y => ?pushAgain⟩, fun hfill => ⟨?eos, ?eosAgain⟩⟩
  case push =>
    exact (exec_pktPush n x s).trans (pushSample_raised hn hl hdone hfill (emitWindow_to_dead hl he hd))
  case pushAgain =>
    exact (exec_pktPush n y _).trans (pushSample_terminated (getElem?_pktFaulted hn (nd.filled x) _) rfl y)
  case eos =>
    exact (exec_pktEos n s).trans (endStream_raised hn hl hdone hfill (emitWindow_to_dead hl he hd))
  case eosAgain =>
    exact (exec_pktEos n _).trans (endStream_terminated (getElem?_pktFaulted hn nd.padded _) rfl)

/-- Settles O21: the overflow test comes before the send, so the emission raises whatever the receiver. -/
theorem pktEpochOverflowFaults : Obligations.PktEpochOverflowFaults := by
  intro s n nd hn hl hdone he
  refine ⟨fun x hfill => ?push, fun hfill => ?eos⟩
  case push =>
    exact (exec_pktPush n x s).trans (pushSample_raised hn hl hdone hfill (emitWindow_of_last_epoch hl he))
  case eos =>
    exact (exec_pktEos n s).trans (endStream_raised hn hl hdone hfill (emitWindow_of_last_epoch hl he))

end Sys2Proof.Machine
end

section
/-! PROOF. The pending buffer as a finite map (42 R172, 10 R27, R28): what a lookup finds, what an insertion makes of it, and
that an insertion keeps a legal buffer legal. -/

namespace Sys2Proof.Machine

/-! ## Looking up an entry set -/

@[simp] theorem Buf.entries_nil (e : Epoch) : Buf.entries e [] = [] := rfl

theorem Buf.entries_cons (e k : Epoch) (es : List Entry) (b : Buf) :
    Buf.entries e ((k, es) :: b) = if e = k then es else Buf.entries e b := by
  by_cases h : e = k
  · simp [Buf.entries, h]
  · simp [Buf.entries, h, Ne.symm h]

theorem Buf.wf_cons {e : Epoch} {es : List Entry} {b : Buf} :
    Buf.wf ((e, es) :: b) ↔ (∀ k ∈ b.map Prod.fst, e < k) ∧ b.wf := by
  simp only [Buf.wf, List.map_cons, List.pairwise_cons]

/-- A key below the smallest key is not there. -/
theorem Buf.not_mem_keys_of_lt_head {k e : Epoch} {es : List Entry} {b : Buf} (hw : Buf.wf ((e, es) :: b)) (hk : k < e) :
    k ∉ ((e, es) :: b).map Prod.fst := by
  obtain ⟨hlt, -⟩ := Buf.wf_cons.1 hw
  rw [List.map_cons, List.mem_cons]
  rintro (rfl | hmem)
  · exact BitVec.lt_irrefl _ hk
  · exact BitVec.lt_irrefl _ (BitVec.lt_trans hk (hlt k hmem))

theorem Buf.entries_of_not_mem_keys {e : Epoch} {b : Buf} (h : e ∉ b.map Prod.fst) : Buf.entries e b = [] := by
  induction b with
  | nil => rfl
  | cons p b ih =>
    rw [List.map_cons, List.mem_cons, not_or] at h
    obtain ⟨hne, hmem⟩ := h
    rw [Buf.entries_cons, if_neg hne, ih hmem]

/-- A key stands in the buffer with the set that a lookup finds. -/
theorem Buf.mem_entries_of_mem_keys {e : Epoch} {b : Buf} (h : e ∈ b.map Prod.fst) : (e, Buf.entries e b) ∈ b := by
  induction b with
  | nil => simp at h
  | cons p b ih =>
    rw [Buf.entries_cons]
    split
    case isTrue he => subst he; exact List.mem_cons_self
    case isFalse hne => exact List.mem_cons_of_mem _ (ih ((List.mem_cons.1 h).resolve_left hne))

/-- Rising keys do not repeat, so a lookup finds every set that stands in the buffer. -/
theorem Buf.entries_of_mem {kv : Epoch × List Entry} {b : Buf} (hw : b.wf) (h : kv ∈ b) : Buf.entries kv.1 b = kv.2 := by
  induction b with
  | nil => simp at h
  | cons p b ih =>
    obtain ⟨hlt, hb⟩ := Buf.wf_cons.1 hw
    rw [Buf.entries_cons]
    rcases List.mem_cons.1 h with rfl | hmem
    · exact if_pos rfl
    · have hne : kv.1 ≠ p.1 := fun he => BitVec.lt_irrefl _ (he ▸ hlt kv.1 (List.mem_map_of_mem hmem))
      rw [if_neg hne, ih hb hmem]

/-! ## What an insertion makes of the sets -/

/-- An insertion fails on a duplicate only (R184). -/
theorem Buf.insert_eq_none_iff {f : IqFrame} {s : Nat} {b : Buf} (hw : b.wf) :
    Buf.insert f s b = none ↔ ∃ x ∈ Buf.entries f.epoch b, x.sender = s := by
  induction b with
  | nil => simp [Buf.insert]
  | cons p b ih =>
    obtain ⟨e, es⟩ := p
    rw [Buf.insert_cons]
    split
    case isTrue hlt =>
      simp [Buf.entries_of_not_mem_keys (Buf.not_mem_keys_of_lt_head hw hlt)]
    case isFalse =>
      rw [Buf.entries_cons]
      split
      case isTrue => simp
      case isFalse => rw [Option.map_eq_none_iff, ih (Buf.wf_cons.1 hw).2]

/-- An insertion appends to the set of the frame's epoch and changes no other set (R172). -/
theorem Buf.entries_insert {f : IqFrame} {s : Nat} {b b' : Buf} (hw : b.wf) (h : Buf.insert f s b = some b') (e : Epoch) :
    Buf.entries e b' = if e = f.epoch then Buf.entries e b ++ [⟨f, s⟩] else Buf.entries e b := by
  induction b generalizing b' with
  | nil =>
    cases h
    rw [Buf.entries_cons]
    rfl
  | cons p b ih =>
    obtain ⟨k, es⟩ := p
    rw [Buf.insert_cons] at h
    split at h
    case isTrue hlt =>
      cases h
      have hnone := Buf.entries_of_not_mem_keys (Buf.not_mem_keys_of_lt_head hw hlt)
      rw [Buf.entries_cons]
      split
      case isTrue he => rw [he, hnone, List.nil_append]
      case isFalse => rfl
    case isFalse =>
      split at h
      case isTrue hk =>
        obtain ⟨-, ⟨⟩⟩ := Option.ite_none_left_eq_some.1 h
        simp only [Buf.entries_cons, hk]
        split <;> rfl
      case isFalse hk =>
        obtain ⟨c, hc, rfl⟩ := Option.map_eq_some_iff.1 h
        rw [Buf.entries_cons, Buf.entries_cons, ih (Buf.wf_cons.1 hw).2 hc]
        by_cases he : e = k
        · simp [he, Ne.symm hk]
        · simp [he]

/-! ## A legal buffer stays legal -/

/-- The set of a new key: the one entry. -/
theorem EntriesInv.singleton {nNodes s : Nat} {f : IqFrame} (hf : f.wf) (hs : s < nNodes) :
    EntriesInv nNodes f.epoch [⟨f, s⟩] where
  nonempty := List.cons_ne_nil _ _
  entry := by
    intro x hx
    obtain rfl := List.mem_singleton.1 hx
    exact ⟨rfl, hf, hs⟩
  senders := List.nodup_singleton _

/-- A legal set with an entry from a further sender. -/
theorem EntriesInv.append {nNodes s : Nat} {f : IqFrame} {es : List Entry} (h : EntriesInv nNodes f.epoch es) (hf : f.wf)
    (hs : s < nNodes) (hnew : ¬ ∃ x ∈ es, x.sender = s) : EntriesInv nNodes f.epoch (es ++ [⟨f, s⟩]) where
  nonempty := List.append_ne_nil_of_right_ne_nil _ (List.cons_ne_nil _ _)
  entry := by
    intro x hx
    rcases List.mem_append.1 hx with hx | hx
    · exact h.entry x hx
    · exact (EntriesInv.singleton hf hs).entry x hx
  senders := by
    have hs' : s ∉ es.map Entry.sender := fun hmem => hnew (List.mem_map.1 hmem)
    rw [List.map_append, List.map_singleton, ← List.concat_eq_append]
    exact h.senders.concat hs'

/-- A lookup of a key that a legal buffer has finds a legal set (R28). -/
theorem BufInv.entries {nNodes : Nat} {b : Buf} (h : BufInv nNodes b) {e : Epoch} (he : e ∈ b.map Prod.fst) :
    EntriesInv nNodes e (Buf.entries e b) :=
  h.sets _ (Buf.mem_entries_of_mem_keys he)

/-- Insertion keeps a buffer legal (R28, R172). -/
theorem BufInv.insert {nNodes s : Nat} {f : IqFrame} {b b' : Buf} (h : BufInv nNodes b) (hf : f.wf) (hs : s < nNodes)
    (hins : Buf.insert f s b = some b') : BufInv nNodes b' where
  keys := Buf.insert_wf hins h.keys
  sets := by
    intro kv hkv
    have hnew : ¬ ∃ x ∈ Buf.entries f.epoch b, x.sender = s := by
      rw [← Buf.insert_eq_none_iff h.keys, hins]
      exact Option.some_ne_none b'
    have hkey : kv.1 = f.epoch ∨ kv.1 ∈ b.map Prod.fst := (Buf.insert_keys hins kv.1).1 (List.mem_map_of_mem hkv)
    rw [← Buf.entries_of_mem (Buf.insert_wf hins h.keys) hkv, Buf.entries_insert h.keys hins]
    split
    case isTrue he =>
      rw [he]
      by_cases hmem : f.epoch ∈ b.map Prod.fst
      · exact (h.entries hmem).append hf hs hnew
      · rw [Buf.entries_of_not_mem_keys hmem]
        exact EntriesInv.singleton hf hs
    case isFalse hne => exact h.entries (hkey.resolve_left hne)

/-- Settles O38: the failure and the sets by the insertion's own recursion along the rising keys, the buffer's legality from what
the insertion makes of its keys and of its sets. -/
theorem insertAppendsToItsEpoch : Obligations.InsertAppendsToItsEpoch := by
  intro nNodes b f s h hf hs
  exact ⟨Buf.insert_eq_none_iff h.keys, fun b' hins => ⟨h.insert hf hs hins, Buf.entries_insert h.keys hins⟩⟩

end Sys2Proof.Machine
end

section
/-! PROOF. The annotation map (30 R101, 44 R212): what a lookup finds, and what a put makes of it. -/

namespace Sys2Proof.Machine

/-! ## Looking up a key -/

theorem AnnMap.get_cons (k k' : Key) (v : AnnVal) (m : AnnMap) :
    AnnMap.get k ((k', v) :: m) = if k' = k then some v else AnnMap.get k m := by
  by_cases h : k' = k <;> simp [AnnMap.get, h]

/-! ## Putting a value -/

/-- A put is seen under its own key and nowhere else (R212). -/
theorem AnnMap.get_put (k k' : Key) (v : AnnVal) (m : AnnMap) :
    AnnMap.get k (AnnMap.put k' v m) = if k' = k then some v else AnnMap.get k m := by
  induction m with
  | nil => exact AnnMap.get_cons k k' v []
  | cons p m ih =>
    obtain ⟨k₀, v₀⟩ := p
    rw [AnnMap.put]
    split
    case isTrue hreplaced =>
      rw [AnnMap.get_cons, AnnMap.get_cons, hreplaced]
      split <;> rfl
    case isFalse hkept =>
      rw [AnnMap.get_cons, AnnMap.get_cons, ih]
      by_cases hk : k' = k
      · simp [hk, show k₀ ≠ k from hk ▸ hkept]
      · simp [hk]

theorem AnnMap.get_put_self (k : Key) (v : AnnVal) (m : AnnMap) : AnnMap.get k (AnnMap.put k v m) = some v := by
  rw [AnnMap.get_put, if_pos rfl]

theorem AnnMap.get_put_of_ne {k k' : Key} (h : k' ≠ k) (v : AnnVal) (m : AnnMap) :
    AnnMap.get k (AnnMap.put k' v m) = AnnMap.get k m := by
  rw [AnnMap.get_put, if_neg h]

/-- Settles O54: each of the three keys is read from its own put, past the later puts of the other two keys. -/
theorem mergedAnnotations : Obligations.MergedAnnotations := by
  intro c r hc
  refine ⟨?codeRate, ?hasCrc, ?implicitHeader, fun k hcr hcrc himpl => ?other⟩ <;> unfold mergeAnnotations
  case codeRate =>
    rw [AnnMap.get_put_of_ne hc.key13.symm, AnnMap.get_put_of_ne hc.key12.symm, AnnMap.get_put_self]
  case hasCrc =>
    rw [AnnMap.get_put_of_ne hc.key23.symm, AnnMap.get_put_self]
  case implicitHeader =>
    rw [AnnMap.get_put_self]
  case other =>
    rw [AnnMap.get_put_of_ne himpl.symm, AnnMap.get_put_of_ne hcrc.symm, AnnMap.get_put_of_ne hcr.symm]

end Sys2Proof.Machine
end

section
/-! PROOF. The frame decoder (44 R201 to R217): the regions of a record and the bytes recovered from them, the events by the
outcome of the check, and which records are refused. -/

namespace Sys2Proof.Machine

/-! ## Dewhitening (R203) -/

/-- The packing of R203, `high << 4 | low`. -/
theorem dewhitenWith_eq_shiftLeft_or (lo hi : BitVec 4) (w : Byte) : dewhitenWith lo hi w =
    ((hi ^^^ w.extractLsb' 4 4).setWidth 8 <<< 4) ||| (lo ^^^ w.extractLsb' 0 4).setWidth 8 := by
  rw [← BitVec.setWidth_append_eq_shiftLeft_setWidth_or, BitVec.setWidth_eq]
  rfl

theorem whiteningAt_of_getElem? {w : List Byte} {i : Nat} {b : Byte} (h : w[i]? = some b) : whiteningAt w i = b := by
  rw [whiteningAt, List.getD_eq_getElem?_getD, h]
  rfl

theorem exec_decDewhiten_of_lt {i : Nat} {s : State} (h : i < s.cfg.w.length) (lo hi : BitVec 4) :
    exec (.decDewhiten lo hi i) s = .next (s.emit [.byteResult (dewhitenWith lo hi (whiteningAt s.cfg.w i))]) := by
  change execDecDewhiten lo hi i s = _
  exact if_neg (Nat.not_le.2 h)

/-- Settles O52: the index has a whitening byte, and the byte made with it is packed as R203 says. -/
theorem decDewhitenPacksHighLow : Obligations.DecDewhitenPacksHighLow := by
  intro s lo hi i w hw
  obtain ⟨hlt, -⟩ := List.getElem?_eq_some_iff.1 hw
  rw [exec_decDewhiten_of_lt hlt, whiteningAt_of_getElem? hw, dewhitenWith_eq_shiftLeft_or]

/-! ## The regions of a record (R102, R202, R205) -/

theorem trailerNibbles_of_crc {r : DecodedFrame} (h : r.hasCrc = true) : trailerNibbles r = 4 := by
  simp [trailerNibbles, h]

theorem trailerNibbles_of_noCrc {r : DecodedFrame} (h : r.hasCrc = false) : trailerNibbles r = 0 := by
  simp [trailerNibbles, h]

theorem isShort_iff (r : DecodedFrame) :
    isShort r = true ↔ r.nibbles.length < headerNibbles r + trailerNibbles r :=
  decide_eq_true_iff

theorem isShort_eq_false_iff (r : DecodedFrame) :
    isShort r = false ↔ headerNibbles r + trailerNibbles r ≤ r.nibbles.length := by
  rw [isShort, decide_eq_false_iff_not, Nat.not_lt]

@[simp] theorem bodyOf_length (r : DecodedFrame) :
    (bodyOf r).length = r.nibbles.length - trailerNibbles r - headerNibbles r := by
  simp [bodyOf]

/-- One byte for each whole pair (R104). -/
@[simp] theorem dewhitenPairs_length (w : List Byte) :
    ∀ (i : Nat) (xs : List Byte), (dewhitenPairs w i xs).length = xs.length / 2
  | i, lo :: hi :: rest => by
    have ih := dewhitenPairs_length w (i + 1) rest
    simp only [dewhitenPairs, List.length_cons, ih]
    omega
  | _, [_] => by simp [dewhitenPairs]
  | _, [] => rfl

/-- One whitening byte for each whole pair of the body, and two for the trailer (R216). -/
theorem whiteningNeed_of_crc {r : DecodedFrame} (hcrc : r.hasCrc = true) :
    whiteningNeed r = (r.nibbles.length - 4 - headerNibbles r) / 2 + 2 := by
  rw [whiteningNeed, bodyOf_length, trailerNibbles_of_crc hcrc, if_pos hcrc]

/-- A record without CRC with at most one body nibble needs no whitening byte. -/
theorem whiteningNeed_of_noCrc_of_lt {r : DecodedFrame} (hcrc : r.hasCrc = false)
    (h : r.nibbles.length < headerNibbles r + 2) : whiteningNeed r = 0 := by
  rw [whiteningNeed, bodyOf_length, trailerNibbles_of_noCrc hcrc, hcrc, if_neg Bool.false_ne_true]
  omega

/-- The whitening bytes a record that is not short needs are the bytes recovered from it (R216). -/
theorem recoveredBytes_length {r : DecodedFrame} (h : isShort r = false) (w : List Byte) :
    (recoveredBytes w r).length = whiteningNeed r := by
  rw [isShort_eq_false_iff] at h
  cases hcrc : r.hasCrc with
  | false => simp [recoveredBytes, whiteningNeed, hcrc]
  | true =>
    rw [trailerNibbles_of_crc hcrc] at h
    have htrailer : (trailerOf r).length = 4 := by
      rw [trailerOf, List.length_drop]
      omega
    simp [recoveredBytes, whiteningNeed, hcrc, htrailer]

/-! ## The recovered bytes and the check (R201, R207, R215) -/

theorem decodeBytes_of_short {r : DecodedFrame} (h : isShort r = true) (c : Cfg) :
    decodeBytes c r = ([], !r.hasCrc) :=
  if_pos h

theorem decodeBytes_of_not_short {r : DecodedFrame} (h : isShort r = false) (c : Cfg) :
    decodeBytes c r =
      (recoveredBytes c.w r, if r.hasCrc then crcCheck c.crcSpan (recoveredBytes c.w r) else true) := by
  rw [decodeBytes, h]
  rfl

/-- The check of fewer than four bytes fails whatever they are (R207). -/
theorem crcCheck_of_length_lt {bs : List Byte} (h : bs.length < 4) (span : CrcSpan) : crcCheck span bs = false := by
  rw [crcCheck, decide_eq_false (Nat.not_le.2 h), Bool.false_and]

/-- A record without CRC with at most one body nibble, or too short for its header, gives no byte. -/
theorem decodeBytes_of_noCrc_of_lt {r : DecodedFrame} (hcrc : r.hasCrc = false)
    (h : r.nibbles.length < headerNibbles r + 2) (c : Cfg) : decodeBytes c r = ([], true) := by
  cases hshort : isShort r with
  | true => rw [decodeBytes_of_short hshort, hcrc, Bool.not_false]
  | false =>
    have hbytes : recoveredBytes c.w r = [] := by
      rw [← List.length_eq_zero_iff, recoveredBytes_length hshort, whiteningNeed_of_noCrc_of_lt hcrc h]
    rw [decodeBytes_of_not_short hshort, hbytes, hcrc]
    rfl

/-! ## The events, by the outcome of the check -/

/-- R213: the check of a record with a CRC failed. -/
theorem decodeEvents_of_failed {c : Cfg} {r : DecodedFrame} {bs : List Byte} (hcrc : r.hasCrc = true)
    (h : decodeBytes c r = (bs, false)) (n : Nat) :
    decodeEvents c n r =
      [.crcResult n false, .hostFrame n ([0xC0, 0x00] ++ escape bs ++ [0xC0]),
       .hostFrame n ([0xC0, 0x0F] ++ escape [c.readyCrcErr] ++ [0xC0])] := by
  rw [decodeEvents, h, hcrc]
  rfl

/-- R214: a record without CRC. -/
theorem decodeEvents_of_noCrc {c : Cfg} {r : DecodedFrame} {bs : List Byte} (hcrc : r.hasCrc = false)
    (h : decodeBytes c r = (bs, true)) (n : Nat) :
    decodeEvents c n r =
      [.hostFrame n ([0xC0, 0x00] ++ escape bs ++ [0xC0]), .hostFrame n [0xC0, 0x0F, 0x00, 0xC0],
       .payload n bs, .annotatedPayload n bs (mergeAnnotations c r)] := by
  rw [decodeEvents, h, payloadOf, hcrc]
  rfl

/-! ## Which records are refused (R216, R217, R261) -/

theorem hasWideNibble_iff (r : DecodedFrame) : hasWideNibble r = true ↔ ∃ b ∈ r.nibbles, 16 ≤ b.toNat := by
  simp [hasWideNibble]

theorem hasWideNibble_eq_false_iff (r : DecodedFrame) : hasWideNibble r = false ↔ ∀ b ∈ r.nibbles, b.toNat < 16 := by
  simp [hasWideNibble]

/-- DEC.DECODE by a running decoder: the two checks of R261 in their order, then the events. -/
theorem exec_decDecode_of_running {s : State} {n : Nat} {nd : Node} (hn : s.nodes[n]? = some nd)
    (hl : nd.dec.life = Life.fresh true) (r : DecodedFrame) :
    exec (.decDecode n r) s =
      if hasWideNibble r then .refused .nibbleOutOfRange
      else if !isShort r && decide (s.cfg.wLen < whiteningNeed r) then .refused .whiteningIndexOutOfRange
      else .next (s.emit (decodeEvents s.cfg n r)) := by
  change execDecDecode n r s = _
  rw [execDecDecode, withNode_of hn, hl, withLife_fresh]

/-- R217: a wide element is refused before anything else of the record is looked at. -/
theorem exec_decDecode_of_wide {s : State} {n : Nat} {nd : Node} {r : DecodedFrame} (hn : s.nodes[n]? = some nd)
    (hl : nd.dec.life = Life.fresh true) (hwide : ∃ b ∈ r.nibbles, 16 ≤ b.toNat) :
    exec (.decDecode n r) s = .refused .nibbleOutOfRange := by
  rw [exec_decDecode_of_running hn hl, if_pos ((hasWideNibble_iff r).2 hwide)]

/-- R216: a record that is not short and needs more whitening bytes than there are is refused. -/
theorem exec_decDecode_of_need {s : State} {n : Nat} {nd : Node} {r : DecodedFrame} (hn : s.nodes[n]? = some nd)
    (hl : nd.dec.life = Life.fresh true) (hnib : ∀ b ∈ r.nibbles, b.toNat < 16) (hshort : isShort r = false)
    (hneed : s.cfg.w.length < whiteningNeed r) :
    exec (.decDecode n r) s = .refused .whiteningIndexOutOfRange := by
  rw [exec_decDecode_of_running hn hl, (hasWideNibble_eq_false_iff r).2 hnib, hshort, decide_eq_true hneed]
  rfl

/-- Any other record gives its events; a short one needs no whitening byte (R215). -/
theorem exec_decDecode_next {s : State} {n : Nat} {nd : Node} {r : DecodedFrame} (hn : s.nodes[n]? = some nd)
    (hl : nd.dec.life = Life.fresh true) (hnib : ∀ b ∈ r.nibbles, b.toNat < 16)
    (hw : isShort r = true ∨ whiteningNeed r ≤ s.cfg.w.length) :
    exec (.decDecode n r) s = .next (s.emit (decodeEvents s.cfg n r)) := by
  have hserved : (!isShort r && decide (s.cfg.wLen < whiteningNeed r)) = false := by
    rcases hw with hshort | henough
    · rw [hshort, Bool.not_true, Bool.false_and]
    · rw [decide_eq_false (Nat.not_lt.2 henough), Bool.and_false]
  rw [exec_decDecode_of_running hn hl, (hasWideNibble_eq_false_iff r).2 hnib, hserved]
  rfl

/-- Settles O51: the need that the statement writes out is `whiteningNeed`. -/
theorem decRefusesBadRecords : Obligations.DecRefusesBadRecords := by
  intro s n nd r hn hl
  refine ⟨fun hwide => exec_decDecode_of_wide hn hl hwide, fun hnib hlong hneed => ?_⟩
  rw [← bodyOf_length] at hneed
  exact exec_decDecode_of_need hn hl hnib ((isShort_eq_false_iff r).2 hlong) hneed

/-! ## A failed check -/

/-- R213 as an operation, for the bytes that the record gives. -/
theorem exec_decDecode_of_failed {s : State} {n : Nat} {nd : Node} {r : DecodedFrame} {bs : List Byte}
    (hn : s.nodes[n]? = some nd) (hl : nd.dec.life = Life.fresh true) (hnib : ∀ b ∈ r.nibbles, b.toNat < 16)
    (hw : isShort r = true ∨ whiteningNeed r ≤ s.cfg.w.length) (hcrc : r.hasCrc = true)
    (hbytes : decodeBytes s.cfg r = (bs, false)) :
    exec (.decDecode n r) s = .next (s.emit
      [.crcResult n false, .hostFrame n ([0xC0, 0x00] ++ escape bs ++ [0xC0]),
       .hostFrame n ([0xC0, 0x0F] ++ escape [s.cfg.readyCrcErr] ++ [0xC0])]) := by
  rw [exec_decDecode_next hn hl hnib hw, decodeEvents_of_failed hcrc hbytes]

/-- Settles O48: every record but the refused ones reaches its events, and those of a failed check are R213's. -/
theorem decFailedCheckEvents : Obligations.DecFailedCheckEvents := by
  intro s n nd r hn hl hnib hw hcrc hfail
  exact exec_decDecode_of_failed hn hl hnib (hw.imp_left (isShort_iff r).2) hcrc (Prod.ext rfl hfail)

/-! ## The short records (R215) -/

/-- Settles O50: the first row is a short record, the second a check of fewer than four bytes, the third a record without CRC that
gives no byte, whether or not it has its whole header. -/
theorem decShortRecordEvents : Obligations.DecShortRecordEvents := by
  intro s n nd r hn hl hnib
  refine ⟨fun hcrc hlt => ?tooShort, fun hcrc hle hfew hneed => ?fewBytes, fun hcrc hlt => ?noBody⟩
  case tooShort =>
    have hshort : isShort r = true := by
      rw [isShort_iff, trailerNibbles_of_crc hcrc]
      exact hlt
    have hbytes : decodeBytes s.cfg r = ([], false) := by
      rw [decodeBytes_of_short hshort, hcrc, Bool.not_true]
    exact exec_decDecode_of_failed hn hl hnib (.inl hshort) hcrc hbytes
  case fewBytes =>
    have hshort : isShort r = false := by
      rw [isShort_eq_false_iff, trailerNibbles_of_crc hcrc]
      exact hle
    have hlen : (recoveredBytes s.cfg.w r).length = whiteningNeed r := recoveredBytes_length hshort _
    rw [← whiteningNeed_of_crc hcrc] at hfew hneed ⊢
    have hbytes : decodeBytes s.cfg r = (recoveredBytes s.cfg.w r, false) := by
      rw [decodeBytes_of_not_short hshort, crcCheck_of_length_lt (hlen.trans_lt hfew), hcrc, if_pos rfl]
    exact ⟨exec_decDecode_of_failed hn hl hnib (.inr hneed) hcrc hbytes, hlen⟩
  case noBody =>
    have hneed : whiteningNeed r ≤ s.cfg.w.length :=
      (whiteningNeed_of_noCrc_of_lt hcrc hlt).trans_le (Nat.zero_le _)
    rw [exec_decDecode_next hn hl hnib (.inr hneed),
      decodeEvents_of_noCrc hcrc (decodeBytes_of_noCrc_of_lt hcrc hlt s.cfg)]
    rfl

end Sys2Proof.Machine
end


section
/-! PROOF. The escape functions and the command frames as operations (45 R231 to R239): de-escaping undoes escaping, and
HFP.CREATE_CMD frames its payload for the five codes and no other. -/

namespace Sys2Proof.Machine

/-! ## De-escaping undoes escaping -/

@[simp] theorem escape_nil : escape [] = [] := List.flatMap_nil

@[simp] theorem escape_cons (b : Byte) (x : List Byte) : escape (b :: x) = escapeByte b ++ escape x := List.flatMap_cons

@[simp] theorem escapeByte_delim : escapeByte delim = [esc, escDelim] := if_pos rfl

@[simp] theorem escapeByte_esc : escapeByte esc = [esc, escEsc] := rfl

theorem escapeByte_of_ne {b : Byte} (hdelim : b ≠ delim) (hesc : b ≠ esc) : escapeByte b = [b] := by
  rw [escapeByte, if_neg hdelim, if_neg hesc]

@[simp] theorem unescapeSecond_escDelim : unescapeSecond escDelim = delim := if_pos rfl

@[simp] theorem unescapeSecond_escEsc : unescapeSecond escEsc = esc := rfl

/-- What the encoder gives for one byte is one row of the decoder: it is read back whole, whatever stands after it. -/
theorem descape_escapeByte_append (b : Byte) (rest : List Byte) :
    descape (escapeByte b ++ rest) = b :: descape rest := by
  by_cases hdelim : b = delim
  · subst hdelim
    calc descape (escapeByte delim ++ rest)
      _ = descape (esc :: escDelim :: rest) := by rw [escapeByte_delim]; rfl
      _ = delim :: descape rest := by rw [descape_esc_cons, unescapeSecond_escDelim]
  · by_cases hesc : b = esc
    · subst hesc
      calc descape (escapeByte esc ++ rest)
        _ = descape (esc :: escEsc :: rest) := by rw [escapeByte_esc]; rfl
        _ = esc :: descape rest := by rw [descape_esc_cons, unescapeSecond_escEsc]
    · rw [escapeByte_of_ne hdelim hesc]
      exact descape_cons_of_ne hesc rest

/-- R239's round trip. -/
theorem descape_escape (x : List Byte) : descape (escape x) = x := by
  induction x with
  | nil => rw [escape_nil, descape_nil]
  | cons b x ih => rw [escape_cons, descape_escapeByte_append, ih]

theorem exec_hfpDescape (data : List Byte) (s : State) : exec (.hfpDescape data) s = giveBytes (descape data) s := rfl

/-- Settles O57: the round trip delivered, and R239's two sequences that lose their escape byte to the decoder. -/
theorem descapeUndoesEscape : Obligations.DescapeUndoesEscape := by
  refine ⟨fun s x => ?roundTrip, ?needlessEscape, ?loneEscape⟩
  case roundTrip =>
    rw [exec_hfpDescape, descape_escape]
    rfl
  case needlessEscape => decide
  case loneEscape => rw [descape_esc_singleton, escape_nil]

/-! ## Command frames -/

/-- The five codes of R95, as a list. -/
theorem isCommandCode_iff {code : Byte} : isCommandCode code = true ↔ code ∈ [0x00, 0x08, 0x0F, 0x23, 0x24] := by
  simp [isCommandCode, or_assoc]

theorem buildCommand_of_isCommandCode {code : Byte} (h : isCommandCode code = true) (p : List Byte) (s : State) :
    buildCommand code p s = giveBytes (hostFrameBytes code p) s := by
  rw [buildCommand, createCmd, if_pos h]

/-- R98: a reserved code builds no frame. -/
theorem buildCommand_of_reserved {code : Byte} (h : ¬ isCommandCode code = true) (p : List Byte) (s : State) :
    buildCommand code p s = .refused .reservedCommandCode := by
  rw [buildCommand, createCmd, if_neg h]

/-- Settles O59: all six operations are `buildCommand`, and the five commands' codes are none of the reserved ones. -/
theorem commandFramesBuilt : Obligations.CommandFramesBuilt := by
  intro s code p
  refine ⟨fun hmem => ?known, fun hmem => ?reserved, ?data, ?detect, ?ready, ?rssi, ?snr⟩
  case known => exact buildCommand_of_isCommandCode (isCommandCode_iff.2 hmem) p s
  case reserved => exact buildCommand_of_reserved (mt isCommandCode_iff.1 hmem) p s
  case data => exact buildCommand_of_isCommandCode (code := codeData) rfl p s
  case detect => exact buildCommand_of_isCommandCode (code := codeDetect) rfl p s
  case ready => exact buildCommand_of_isCommandCode (code := codeReady) rfl p s
  case rssi => exact buildCommand_of_isCommandCode (code := codeRssi) rfl p s
  case snr => exact buildCommand_of_isCommandCode (code := codeSnr) rfl p s

end Sys2Proof.Machine
end

section
/-! PROOF. Which parameters construction refuses (70 R282). -/

namespace Sys2Proof.Machine

/-- The shape and the values that R29 and R282 ask of `DIST`, as a proposition. -/
theorem validDist_iff {nNodes : Nat} {dist : List (List F32)} : validDist nNodes dist = true ↔
    dist.length = nNodes ∧ ∀ row ∈ dist, row.length = nNodes ∧ ∀ d ∈ row, F32.isNonneg d = true := by
  simp only [validDist, Bool.and_eq_true, decide_eq_true_eq, List.all_eq_true]

/-- When construction refuses; `construct_next` says when it does not. -/
theorem construct_refused {p : Params} :
    construct p = .refused .invalidConfiguration ↔ ¬ validParams p = true := by
  unfold construct
  split
  case isTrue hp => simp [hp]
  case isFalse hp => simp [hp]

/-- Settles O11: construction refuses when `validParams` fails, and the two checks that the obligation does not list are its
premises, one standard deviation and one seed per node (log 30). -/
theorem constructionChecksParameters : Obligations.ConstructionChecksParameters := by
  intro p hsigma hseed
  rw [construct_refused, validParams_iff, validDist_iff, List.all_eq_true, not_iff_not]
  constructor
  · rintro ⟨hnodes, ⟨hrows, hdist⟩, -, hσ, -, hready, hkeys⟩
    exact ⟨hnodes, hrows, hdist, hσ, hready, hkeys⟩
  · rintro ⟨hnodes, hrows, hdist, hσ, hready, hkeys⟩
    exact ⟨hnodes, ⟨hrows, hdist⟩, hsigma, hσ, hseed, hready, hkeys⟩

end Sys2Proof.Machine
end

section
/-! PROOF. The codec (30 R91 to R109; log 12): every reader inverts its writer, so decoding and encoding undo each other, and
the bytes of the wire shape by their offsets. -/

namespace Sys2Proof

/-! ## Readers -/

/-- Reading in sequence: the first reader gives a value and what is left of the bytes, the second goes on from there. -/
theorem bind_reader_ok {α β : Type} {r : Except Reject (α × List Byte)} {k : α × List Byte → Except Reject β} {b : β} :
    (r >>= k) = .ok b ↔ ∃ v rest, r = .ok (v, rest) ∧ k (v, rest) = .ok b := by
  cases r with
  | error e => simp [bind, Except.bind]
  | ok p =>
    obtain ⟨v, rest⟩ := p
    simp [bind, Except.bind, and_assoc]

/-- The reader `read` inverts the writer `write` on the values that have a spelling: it gives a value exactly on the value's
bytes, and leaves what stands after them. -/
def Inverts {α : Type} (read : List Byte → Except Reject (α × List Byte)) (write : α → List Byte)
    (spelled : α → Prop := fun _ => True) : Prop :=
  ∀ bs v rest, read bs = .ok (v, rest) ↔ spelled v ∧ bs = write v ++ rest

/-- What an inverting reader whose values all have a spelling gives. -/
theorem Inverts.ok_iff {α : Type} {read : List Byte → Except Reject (α × List Byte)} {write : α → List Byte}
    (h : Inverts read write) {bs rest : List Byte} {v : α} : read bs = .ok (v, rest) ↔ bs = write v ++ rest := by
  rw [h bs v rest, true_and]

/-! ## Numbers -/

/-- A number that reads is spelled with its own groups, however many groups one allows. -/
theorem natGroups_of_readNat {n : Nat} {rest : List Byte} : ∀ {bs : List Byte}, readNat bs = .ok (n, rest) →
    ∀ k, n < 128 ^ (k + 1) → bs = natGroups k n ++ rest := by
  intro bs
  induction bs generalizing n with
  | nil => intro h; cases h
  | cons b bs ih =>
    intro h k hk
    have hb := b.isLt
    rw [readNat] at h
    split at h
    case isTrue hlast =>
      cases h
      cases k with
      | zero => simp [natGroups]
      | succ k => simp [natGroups, hlast]
    case isFalse hmore =>
      obtain ⟨v, bs', hv, hres⟩ := bind_reader_ok.1 h
      obtain ⟨hv0, hres⟩ : v ≠ 0 ∧ (Except.ok (b.toNat - 128 + 128 * v, bs') : Except Reject _) = .ok (n, rest) := by
        by_cases hv0 : v = 0 <;> simp_all
      cases hres
      cases k with
      | zero => omega
      | succ k =>
        have hdiv : (b.toNat - 128 + 128 * v) / 128 = v := by omega
        have hmod : 128 + (b.toNat - 128 + 128 * v) % 128 = b.toNat := by omega
        have hvk : v < 128 ^ (k + 1) := by
          rw [Nat.pow_succ] at hk
          omega
        rw [natGroups, if_neg (by omega), hdiv, hmod, BitVec.ofNat_toNat, BitVec.setWidth_eq, ih hv k hvk]
        rfl

theorem inverts_readNat : Inverts readNat natBytes := by
  intro bs n rest
  rw [true_and]
  constructor
  · intro h
    refine natGroups_of_readNat h _ ?_
    calc n < 2 ^ (Nat.log2 n + 1) := Nat.lt_log2_self
      _ ≤ 128 ^ (Nat.log2 n + 1) := Nat.pow_le_pow_left (by decide) _
  · rintro rfl
    exact readNat_natBytes n rest

/-! ## Fields of fixed size -/

/-- The `8 * k` bits of a word and its `k` bytes are the same thing. -/
theorem ofNat_leNat_eq_iff {k w : Nat} (hw : 2 ^ w = 256 ^ k) {bs : List Byte} (hbs : bs.length = k) (x : BitVec w) :
    BitVec.ofNat w (leNat bs) = x ↔ bs = leBytes k x.toNat := by
  have hlt : leNat bs < 2 ^ w := by
    rw [hw, ← hbs]
    exact leNat_lt bs
  constructor
  · rintro rfl
    rw [BitVec.toNat_ofNat, Nat.mod_eq_of_lt hlt, ← hbs, leBytes_leNat]
  · intro h
    rw [h, leNat_leBytes (hw ▸ x.isLt), BitVec.ofNat_toNat, BitVec.setWidth_eq]

theorem inverts_readEpoch : Inverts readEpoch (fun e => leBytes 8 e.toNat) := by
  intro bs e rest
  simp only [readEpoch, bind_reader_ok, takeBytes_ok, true_and, pure, Except.pure, Except.ok.injEq, Prod.mk.injEq]
  constructor
  · rintro ⟨u, v, ⟨rfl, hu⟩, he, rfl⟩
    rw [(ofNat_leNat_eq_iff (by decide) hu e).1 he]
  · rintro rfl
    exact ⟨_, _, ⟨rfl, leBytes_length _ _⟩, (ofNat_leNat_eq_iff (by decide) (leBytes_length _ _) e).2 rfl, rfl⟩

theorem inverts_readByte : Inverts readByte (fun b => [b]) := by
  intro bs b rest
  cases bs <;> simp [readByte]

theorem inverts_readBit : Inverts readBit bitBytes := by
  intro bs b rest
  simp only [readBit, bind_reader_ok, inverts_readByte.ok_iff, true_and]
  constructor
  · rintro ⟨v, r, rfl, h⟩
    split at h
    case isTrue hv => cases h; rw [hv]; rfl
    case isFalse =>
      split at h
      case isTrue hv => cases h; rw [hv]; rfl
      case isFalse => cases h
  · rintro rfl
    cases b
    · exact ⟨0, rest, rfl, rfl⟩
    · exact ⟨1, rest, rfl, rfl⟩

theorem inverts_readNibble : Inverts readNibble (fun v => [BitVec.ofNat 8 v.toNat]) := by
  intro bs v rest
  simp only [readNibble, bind_reader_ok, inverts_readByte.ok_iff, true_and]
  constructor
  · rintro ⟨b, r, rfl, h⟩
    split at h
    case isTrue hb =>
      cases h
      rw [BitVec.toNat_ofNat, Nat.mod_eq_of_lt hb, BitVec.ofNat_toNat, BitVec.setWidth_eq]
    case isFalse => cases h
  · rintro rfl
    have hv := v.isLt
    have hb : (BitVec.ofNat 8 v.toNat).toNat = v.toNat := by rw [BitVec.toNat_ofNat]; omega
    refine ⟨_, rest, rfl, ?_⟩
    rw [hb, if_pos hv, BitVec.ofNat_toNat, BitVec.setWidth_eq]
    rfl

/-- The two halves of 8 bytes are a sample exactly when the bytes are the sample's. -/
theorem sample_of_bytes_iff {bs : List Byte} (h : bs.length = 8) (x : C32) :
    (⟨BitVec.ofNat 32 (leNat (bs.take 4)), BitVec.ofNat 32 (leNat (bs.drop 4))⟩ : C32) = x ↔ bs = sampleBytes x := by
  obtain ⟨re, im⟩ := x
  rw [C32.mk.injEq, ofNat_leNat_eq_iff (k := 4) (by decide) (by simp [h]),
    ofNat_leNat_eq_iff (k := 4) (by decide) (by simp [h]), sampleBytes]
  constructor
  · rintro ⟨hre, him⟩
    rw [← hre, ← him, List.take_append_drop]
  · rintro rfl
    simp

theorem inverts_readSample : Inverts readSample sampleBytes := by
  intro bs x rest
  simp only [readSample, bind_reader_ok, takeBytes_ok, true_and, pure, Except.pure, Except.ok.injEq, Prod.mk.injEq]
  constructor
  · rintro ⟨u, v, ⟨rfl, hu⟩, hx, rfl⟩
    rw [(sample_of_bytes_iff hu x).1 hx]
  · rintro rfl
    exact ⟨_, _, ⟨rfl, sampleBytes_length x⟩, (sample_of_bytes_iff (sampleBytes_length x) x).2 rfl, rfl⟩

/-! ## Sequences -/

theorem samplesOf_eq_iff : ∀ {k : Nat} {bs : List Byte} (xs : List C32), bs.length = 8 * k →
    (samplesOf k bs = xs ↔ xs.length = k ∧ bs = samplesBytes xs) := by
  intro k
  induction k with
  | zero =>
    intro bs xs h
    have hbs : bs = [] := List.length_eq_zero_iff.1 h
    cases xs <;> simp [samplesOf, samplesBytes, hbs]
  | succ k ih =>
    intro bs xs h
    have hhead : (bs.take 8).length = 8 := by simp; omega
    have htail : (bs.drop 8).length = 8 * k := by simp; omega
    cases xs with
    | nil => simp [samplesOf]
    | cons x xs =>
      have hx := sample_of_bytes_iff hhead x
      rw [List.take_take, List.drop_take] at hx
      rw [samplesOf, List.cons.injEq, ih xs htail, samplesBytes, List.length_cons, Nat.add_right_cancel_iff]
      constructor
      · rintro ⟨h1, h2, h3⟩
        exact ⟨h2, by rw [← hx.1 h1, ← h3, List.take_append_drop]⟩
      · rintro ⟨h1, rfl⟩
        refine ⟨hx.2 ?_, h1, ?_⟩ <;> simp

theorem inverts_readBytes : Inverts readBytes seqBytes := by
  intro bs v rest
  simp only [readBytes, bind_reader_ok, inverts_readNat.ok_iff, takeBytes_ok, true_and, seqBytes, List.append_assoc]
  constructor
  · rintro ⟨k, r, rfl, rfl, rfl⟩
    rfl
  · rintro rfl
    exact ⟨_, _, rfl, rfl, rfl⟩

theorem inverts_readSamples : Inverts readSamples sampleSeqBytes := by
  intro bs xs rest
  simp only [readSamples, bind_reader_ok, inverts_readNat.ok_iff, takeBytes_ok, true_and, sampleSeqBytes,
    List.append_assoc, pure, Except.pure, Except.ok.injEq, Prod.mk.injEq]
  constructor
  · rintro ⟨k, r, rfl, u, v, ⟨rfl, hu⟩, hxs, rfl⟩
    obtain ⟨rfl, rfl⟩ := (samplesOf_eq_iff xs hu).1 hxs
    rfl
  · rintro rfl
    have hlen := samplesBytes_length xs
    exact ⟨_, _, rfl, _, _, ⟨rfl, hlen⟩, (samplesOf_eq_iff xs hlen).2 ⟨rfl, rfl⟩, rfl⟩

/-! ## Annotations and records -/

theorem inverts_readAnnVal : Inverts readAnnVal annValBytes := by
  intro bs a rest
  simp only [readAnnVal, bind_reader_ok, inverts_readByte.ok_iff, true_and]
  constructor
  · rintro ⟨tag, r, rfl, h⟩
    split at h
    case isTrue htag =>
      obtain ⟨v, r', hv, hres⟩ := bind_reader_ok.1 h
      cases hres
      rw [htag, inverts_readBytes.ok_iff.1 hv]
      rfl
    case isFalse =>
      split at h
      case isTrue htag =>
        obtain ⟨v, r', hv, hres⟩ := bind_reader_ok.1 h
        cases hres
        rw [htag, inverts_readBit.ok_iff.1 hv]
        rfl
      case isFalse => cases h
  · rintro rfl
    cases a with
    | raw v => exact ⟨0, _, rfl, bind_reader_ok.2 ⟨v, rest, inverts_readBytes.ok_iff.2 rfl, rfl⟩⟩
    | bit b => exact ⟨1, _, rfl, bind_reader_ok.2 ⟨b, rest, inverts_readBit.ok_iff.2 rfl, rfl⟩⟩

theorem readAnnPairs_ok {k : Nat} {bs : List Byte} {m : AnnMap} {rest : List Byte} :
    readAnnPairs k bs = .ok (m, rest) ↔ m.length = k ∧ bs = annPairsBytes m ++ rest := by
  induction k generalizing bs m rest with
  | zero =>
    rw [readAnnPairs, List.length_eq_zero_iff]
    constructor
    · intro h; cases h; exact ⟨rfl, rfl⟩
    · rintro ⟨rfl, rfl⟩; rfl
  | succ k ih =>
    simp only [readAnnPairs, bind_reader_ok, inverts_readBytes.ok_iff, inverts_readAnnVal.ok_iff, ih]
    constructor
    · rintro ⟨key, r₁, rfl, v, r₂, rfl, m', r₃, ⟨hlen, rfl⟩, hres⟩
      cases hres
      simp [annPairsBytes, hlen]
    · rintro ⟨hlen, rfl⟩
      cases m with
      | nil => cases hlen
      | cons kv m =>
        exact ⟨kv.1, _, by simp [annPairsBytes], kv.2, _, rfl, m, rest, ⟨Nat.succ.inj hlen, rfl⟩, rfl⟩

theorem inverts_readAnnMap :
    Inverts readAnnMap (fun m => natBytes m.length ++ annPairsBytes m) (fun m => AnnMap.distinct m = true) := by
  intro bs m rest
  simp only [readAnnMap, bind_reader_ok, inverts_readNat.ok_iff, readAnnPairs_ok, List.append_assoc]
  constructor
  · rintro ⟨k, r, rfl, m', r', ⟨rfl, rfl⟩, h⟩
    split at h
    case isTrue hd => cases h; exact ⟨hd, rfl⟩
    case isFalse => cases h
  · rintro ⟨hd, rfl⟩
    exact ⟨_, _, rfl, m, rest, ⟨rfl, rfl⟩, if_pos hd⟩

theorem inverts_readRecord :
    Inverts readRecord recordBytes (fun r => AnnMap.distinct r.annotations = true) := by
  intro bs r rest
  simp only [readRecord, bind_reader_ok, inverts_readBytes.ok_iff, inverts_readBit.ok_iff, inverts_readAnnVal.ok_iff,
    inverts_readAnnMap _ _ _, recordBytes, List.append_assoc]
  constructor
  · rintro ⟨nib, _, rfl, impl, _, rfl, crc, _, rfl, rate, _, rfl, m, _, ⟨hd, rfl⟩, hres⟩
    cases hres
    simp [hd]
  · rintro ⟨hd, rfl⟩
    exact ⟨_, _, rfl, _, _, rfl, _, _, rfl, _, _, rfl, _, _, ⟨hd, by simp⟩, rfl⟩

end Sys2Proof
end

section
/-! PROOF. The five formats (30 R90 to R109): what decodes in each, and the encoding it is the decoding of. -/

namespace Sys2Proof

/-! ## Operations (R109) -/

section
variable {α β γ : Type} {ra : List Byte → Except Reject (α × List Byte)} {rb : List Byte → Except Reject (β × List Byte)}
  {rc : List Byte → Except Reject (γ × List Byte)} {wa : α → List Byte} {wb : β → List Byte} {wc : γ → List Byte}
  {Pa : α → Prop} {Pb : β → Prop} {i : Instr} {bs rest : List Byte}

/-- An operation with one operand. -/
theorem Inverts.one (ha : Inverts ra wa Pa) {op : α → Instr} :
    (ra bs >>= fun p => pure (op p.1, p.2)) = .ok (i, rest) ↔ ∃ a, Pa a ∧ i = op a ∧ bs = wa a ++ rest := by
  rw [bind_reader_ok]
  constructor
  · rintro ⟨a, r, h, hres⟩
    cases hres
    obtain ⟨hPa, rfl⟩ := (ha _ _ _).1 h
    exact ⟨a, hPa, rfl, rfl⟩
  · rintro ⟨a, hPa, rfl, rfl⟩
    exact ⟨a, rest, (ha _ _ _).2 ⟨hPa, rfl⟩, rfl⟩

/-- An operation with two operands. -/
theorem Inverts.two (ha : Inverts ra wa) (hb : Inverts rb wb Pb) {op : α → β → Instr} :
    (ra bs >>= fun p => rb p.2 >>= fun q => pure (op p.1 q.1, q.2)) = .ok (i, rest) ↔
      ∃ a b, Pb b ∧ i = op a b ∧ bs = wa a ++ (wb b ++ rest) := by
  rw [bind_reader_ok]
  constructor
  · rintro ⟨a, r, h, hres⟩
    obtain ⟨b, hPb, rfl, rfl⟩ := hb.one.1 hres
    exact ⟨a, b, hPb, rfl, ha.ok_iff.1 h⟩
  · rintro ⟨a, b, hPb, rfl, rfl⟩
    exact ⟨a, _, ha.ok_iff.2 rfl, hb.one.2 ⟨b, hPb, rfl, rfl⟩⟩

/-- An operation with three operands. -/
theorem Inverts.three (ha : Inverts ra wa) (hb : Inverts rb wb) (hc : Inverts rc wc) {op : α → β → γ → Instr} :
    (ra bs >>= fun p => rb p.2 >>= fun q => rc q.2 >>= fun u => pure (op p.1 q.1 u.1, u.2)) = .ok (i, rest) ↔
      ∃ a b c, i = op a b c ∧ bs = wa a ++ (wb b ++ (wc c ++ rest)) := by
  rw [bind_reader_ok]
  constructor
  · rintro ⟨a, r, h, hres⟩
    obtain ⟨b, c, -, rfl, rfl⟩ := (hb.two hc).1 hres
    exact ⟨a, b, c, rfl, ha.ok_iff.1 h⟩
  · rintro ⟨a, b, c, rfl, rfl⟩
    exact ⟨a, _, ha.ok_iff.2 rfl, (hb.two hc).2 ⟨b, c, trivial, rfl, rfl⟩⟩

end

/-- The bytes of an operation in front of others are read as that operation, with the others left over. -/
theorem readOp_of_encode {i : Instr} (hf : i.format = .op) (hwf : i.wellFormed = true) {sel : Byte} {bs rest : List Byte}
    (h : encode i ++ rest = sel :: bs) : readOp sel bs = .ok (i, rest) := by
  cases i <;> cases hf <;>
    simp only [encode, seqBytes, List.cons_append, List.nil_append, List.append_assoc, List.cons.injEq] at h <;>
    obtain ⟨rfl, rfl⟩ := h
  case pktPush n x => exact (inverts_readNat.two inverts_readSample).2 ⟨n, x, trivial, rfl, rfl⟩
  case pktEos n => exact inverts_readNat.one.2 ⟨n, trivial, rfl, rfl⟩
  case pktWork n xs eos =>
    exact (inverts_readNat.three inverts_readSamples inverts_readBit).2 ⟨n, xs, eos, rfl, rfl⟩
  case dpkWork n m => exact (inverts_readNat.two inverts_readNat).2 ⟨n, m, trivial, rfl, rfl⟩
  case dpkPull n => exact inverts_readNat.one.2 ⟨n, trivial, rfl, rfl⟩
  case nseStep n x => exact (inverts_readNat.two inverts_readSample).2 ⟨n, x, trivial, rfl, rfl⟩
  case nseEos n => exact inverts_readNat.one.2 ⟨n, trivial, rfl, rfl⟩
  case nseWork n xs cap =>
    exact (inverts_readNat.three inverts_readSamples inverts_readNat).2 ⟨n, xs, cap, rfl, rfl⟩
  case cmbRecv | cmbCheck => rfl
  case cmbCombine e => exact inverts_readEpoch.one.2 ⟨e, trivial, rfl, rfl⟩
  case decDecode n r => exact (inverts_readNat.two inverts_readRecord).2 ⟨n, r, hwf, rfl, rfl⟩
  case decDewhiten lo hi j =>
    exact (inverts_readNibble.three inverts_readNibble inverts_readNat).2 ⟨lo, hi, j, rfl, rfl⟩
  case decCrc16 data => exact inverts_readBytes.one.2 ⟨data, trivial, rfl, (List.append_assoc ..).symm⟩
  case hfpEscape data => exact inverts_readBytes.one.2 ⟨data, trivial, rfl, (List.append_assoc ..).symm⟩
  case hfpDescape data => exact inverts_readBytes.one.2 ⟨data, trivial, rfl, (List.append_assoc ..).symm⟩
  case hfpCreateCmd code p =>
    exact (inverts_readByte.two inverts_readBytes).2 ⟨code, p, trivial, rfl, congrArg _ (List.append_assoc ..).symm⟩

/-- What is read as an operation is a well-formed one, read from its own bytes. -/
theorem encode_of_readOp {i : Instr} {sel : Byte} {bs rest : List Byte} (h : readOp sel bs = .ok (i, rest)) :
    i.wellFormed = true ∧ i.format = .op ∧ encode i ++ rest = sel :: bs := by
  by_cases pktPush : sel = 0x01
  · subst pktPush
    obtain ⟨n, x, -, rfl, rfl⟩ := (inverts_readNat.two inverts_readSample).1 h
    exact ⟨rfl, rfl, by simp [encode]⟩
  by_cases pktEos : sel = 0x02
  · subst pktEos
    obtain ⟨n, -, rfl, rfl⟩ := inverts_readNat.one.1 h
    exact ⟨rfl, rfl, by simp [encode]⟩
  by_cases pktWork : sel = 0x03
  · subst pktWork
    obtain ⟨n, xs, eos, rfl, rfl⟩ := (inverts_readNat.three inverts_readSamples inverts_readBit).1 h
    exact ⟨rfl, rfl, by simp [encode]⟩
  by_cases dpkWork : sel = 0x10
  · subst dpkWork
    obtain ⟨n, m, -, rfl, rfl⟩ := (inverts_readNat.two inverts_readNat).1 h
    exact ⟨rfl, rfl, by simp [encode]⟩
  by_cases dpkPull : sel = 0x11
  · subst dpkPull
    obtain ⟨n, -, rfl, rfl⟩ := inverts_readNat.one.1 h
    exact ⟨rfl, rfl, by simp [encode]⟩
  by_cases nseStep : sel = 0x20
  · subst nseStep
    obtain ⟨n, x, -, rfl, rfl⟩ := (inverts_readNat.two inverts_readSample).1 h
    exact ⟨rfl, rfl, by simp [encode]⟩
  by_cases nseEos : sel = 0x21
  · subst nseEos
    obtain ⟨n, -, rfl, rfl⟩ := inverts_readNat.one.1 h
    exact ⟨rfl, rfl, by simp [encode]⟩
  by_cases nseWork : sel = 0x22
  · subst nseWork
    obtain ⟨n, xs, cap, rfl, rfl⟩ := (inverts_readNat.three inverts_readSamples inverts_readNat).1 h
    exact ⟨rfl, rfl, by simp [encode]⟩
  by_cases cmbRecv : sel = 0x30
  · subst cmbRecv
    cases h
    exact ⟨rfl, rfl, rfl⟩
  by_cases cmbCheck : sel = 0x31
  · subst cmbCheck
    cases h
    exact ⟨rfl, rfl, rfl⟩
  by_cases cmbCombine : sel = 0x32
  · subst cmbCombine
    obtain ⟨e, -, rfl, rfl⟩ := inverts_readEpoch.one.1 h
    exact ⟨rfl, rfl, by simp [encode]⟩
  by_cases decDecode : sel = 0x40
  · subst decDecode
    obtain ⟨n, r, hwf, rfl, rfl⟩ := (inverts_readNat.two inverts_readRecord).1 h
    exact ⟨hwf, rfl, by simp [encode]⟩
  by_cases decDewhiten : sel = 0x41
  · subst decDewhiten
    obtain ⟨lo, hi, j, rfl, rfl⟩ := (inverts_readNibble.three inverts_readNibble inverts_readNat).1 h
    exact ⟨rfl, rfl, by simp [encode]⟩
  by_cases decCrc16 : sel = 0x42
  · subst decCrc16
    obtain ⟨data, -, rfl, rfl⟩ := inverts_readBytes.one.1 h
    exact ⟨rfl, rfl, by simp [encode]⟩
  by_cases hfpEscape : sel = 0x50
  · subst hfpEscape
    obtain ⟨data, -, rfl, rfl⟩ := inverts_readBytes.one.1 h
    exact ⟨rfl, rfl, by simp [encode]⟩
  by_cases hfpDescape : sel = 0x51
  · subst hfpDescape
    obtain ⟨data, -, rfl, rfl⟩ := inverts_readBytes.one.1 h
    exact ⟨rfl, rfl, by simp [encode]⟩
  by_cases hfpCreateCmd : sel = 0x52
  · subst hfpCreateCmd
    obtain ⟨code, p, -, rfl, rfl⟩ := (inverts_readByte.two inverts_readBytes).1 h
    exact ⟨rfl, rfl, by simp [encode]⟩
  simp only [readOp, pktPush, pktEos, pktWork, dpkWork, dpkPull, nseStep, nseEos, nseWork, cmbRecv, cmbCheck, cmbCombine, decDecode, decDewhiten, decCrc16, hfpEscape, hfpDescape, hfpCreateCmd, if_false] at h
  cases h

/-- The operation format: the bytes of a well-formed operation and nothing else. -/
theorem decodeOp_ok {bs : List Byte} {i : Instr} :
    decodeOp bs = .ok i ↔ i.wellFormed = true ∧ i.format = .op ∧ encode i = bs := by
  constructor
  · intro h
    cases bs with
    | nil => cases h
    | cons sel bs =>
      obtain ⟨i', rest, hi, hres⟩ := bind_reader_ok.1 h
      simp only at hres
      split at hres
      case isTrue hrest =>
        cases hres
        subst hrest
        simpa using encode_of_readOp hi
      case isFalse => cases hres
  · rintro ⟨hwf, hf, rfl⟩
    cases hbs : encode i with
    | nil => cases i <;> cases hf <;> cases hbs
    | cons sel bs =>
      have hread := readOp_of_encode hf hwf ((List.append_nil _).trans hbs)
      exact bind_reader_ok.2 ⟨i, [], hread, rfl⟩

/-! ## Host frames (R93, R95) -/

theorem noDelim_cons {b : Byte} {p : List Byte} : noDelim (b :: p) = true ↔ b ≠ delim ∧ noDelim p = true := by
  rw [noDelim, List.all_cons, Bool.and_eq_true, bne_iff_ne]
  rfl

/-- The bytes up to the first delimiter hold none. -/
theorem untilDelim_some {bs p rest : List Byte} :
    untilDelim bs = some (p, rest) ↔ noDelim p = true ∧ bs = p ++ delim :: rest := by
  induction bs generalizing p with
  | nil => simp [untilDelim]
  | cons b bs ih =>
    rw [untilDelim]
    split
    case isTrue hb =>
      subst hb
      constructor
      · intro h; cases h; exact ⟨rfl, rfl⟩
      · rintro ⟨hp, h⟩
        cases p with
        | nil => cases h; rfl
        | cons c p => cases h; exact absurd rfl (noDelim_cons.1 hp).1
    case isFalse hb =>
      rw [Option.map_eq_some_iff]
      constructor
      · rintro ⟨⟨p', rest'⟩, h, hres⟩
        cases hres
        obtain ⟨hp, rfl⟩ := ih.1 h
        exact ⟨noDelim_cons.2 ⟨hb, hp⟩, rfl⟩
      · rintro ⟨hp, h⟩
        cases p with
        | nil => cases h; exact absurd rfl hb
        | cons c p => cases h; exact ⟨(p, rest), ih.2 ⟨(noDelim_cons.1 hp).2, rfl⟩, rfl⟩

/-- The host-frame format: a delimiter, a code, a payload without delimiter, a delimiter, and nothing else. -/
theorem decodeHf_ok {bs : List Byte} {i : Instr} :
    decodeHf bs = .ok i ↔ ∃ code p, noDelim p = true ∧ bs = hostFrameBytes code p ∧ commandOf code p = .ok i := by
  constructor
  · intro h
    rcases bs with _ | ⟨d, _ | ⟨code, bs⟩⟩
    · cases h
    · rw [decodeHf] at h
      split at h <;> cases h
    · rw [decodeHf] at h
      split at h
      case isTrue => cases h
      case isFalse hd =>
        obtain rfl := not_not.1 hd
        split at h
        case h_1 => cases h
        case h_2 p rest hp =>
          split at h
          case isTrue hrest =>
            subst hrest
            obtain ⟨hnone, rfl⟩ := untilDelim_some.1 hp
            exact ⟨code, p, hnone, rfl, h⟩
          case isFalse => cases h
  · rintro ⟨code, p, hp, rfl, h⟩
    have huntil : untilDelim (p ++ [delim]) = some (p, []) := untilDelim_some.2 ⟨hp, rfl⟩
    change decodeHf (delim :: code :: (p ++ [delim])) = _
    rw [decodeHf, if_neg (not_not.2 rfl), huntil]
    exact h

/-- The five commands of R95, with their codes. -/
theorem commandOf_ok {code : Byte} {p : List Byte} {i : Instr} : commandOf code p = .ok i ↔
    (code = codeData ∧ i = .cmdData p) ∨ (code = codeDetect ∧ i = .cmdDetect p) ∨ (code = codeReady ∧ i = .cmdReady p) ∨
      (code = codeRssi ∧ i = .cmdRssi p) ∨ (code = codeSnr ∧ i = .cmdSnr p) := by
  constructor
  · intro h
    unfold commandOf at h
    split at h
    case isTrue hc => cases h; exact .inl ⟨hc, rfl⟩
    case isFalse =>
    split at h
    case isTrue hc => cases h; exact .inr (.inl ⟨hc, rfl⟩)
    case isFalse =>
    split at h
    case isTrue hc => cases h; exact .inr (.inr (.inl ⟨hc, rfl⟩))
    case isFalse =>
    split at h
    case isTrue hc => cases h; exact .inr (.inr (.inr (.inl ⟨hc, rfl⟩)))
    case isFalse =>
    split at h
    case isTrue hc => cases h; exact .inr (.inr (.inr (.inr ⟨hc, rfl⟩)))
    case isFalse => cases h
  · rintro (⟨rfl, rfl⟩ | ⟨rfl, rfl⟩ | ⟨rfl, rfl⟩ | ⟨rfl, rfl⟩ | ⟨rfl, rfl⟩) <;> rfl

/-! ## The escape tables (R96, R97) and the wire shape (R91) -/

theorem decodeEscEnc_ok {bs : List Byte} {i : Instr} :
    decodeEscEnc bs = .ok i ↔ i.wellFormed = true ∧ i.format = .escEnc ∧ encode i = bs := by
  constructor
  · intro h
    rcases bs with _ | ⟨b, _ | ⟨x, bs⟩⟩
    · cases h
    · rw [decodeEscEnc] at h
      split at h
      case isTrue hb => cases h; exact ⟨rfl, rfl, by rw [hb]; rfl⟩
      case isFalse hdelim =>
      split at h
      case isTrue hb => cases h; exact ⟨rfl, rfl, by rw [hb]; rfl⟩
      case isFalse hesc =>
      cases h
      refine ⟨?_, rfl, rfl⟩
      rw [Instr.wellFormed, Bool.and_eq_true, bne_iff_ne, bne_iff_ne]
      exact ⟨hdelim, hesc⟩
    · cases h
  · rintro ⟨hwf, hf, rfl⟩
    cases i <;> cases hf
    case escDelim.refl | escEsc.refl => rfl
    case escLit.refl b =>
      rw [Instr.wellFormed, Bool.and_eq_true, bne_iff_ne, bne_iff_ne] at hwf
      obtain ⟨hdelim, hesc⟩ := hwf
      rw [encode, decodeEscEnc, if_neg hdelim, if_neg hesc]

theorem decodeEscDec_ok {bs : List Byte} {i : Instr} :
    decodeEscDec bs = .ok i ↔ i.wellFormed = true ∧ i.format = .escDec ∧ encode i = bs := by
  constructor
  · intro h
    rcases bs with _ | ⟨b, _ | ⟨x, _ | ⟨y, bs⟩⟩⟩
    · cases h
    · rw [decodeEscDec] at h
      split at h
      case isTrue hb => cases h; exact ⟨rfl, rfl, by rw [hb]; rfl⟩
      case isFalse hb =>
      cases h
      exact ⟨bne_iff_ne.2 hb, rfl, rfl⟩
    · rw [decodeEscDec] at h
      split at h
      case isFalse => cases h
      case isTrue hb =>
      subst hb
      split at h
      case isTrue hx => cases h; exact ⟨rfl, rfl, by rw [hx]; rfl⟩
      case isFalse hdelim =>
      split at h
      case isTrue hx => cases h; exact ⟨rfl, rfl, by rw [hx]; rfl⟩
      case isFalse hesc =>
      cases h
      refine ⟨?_, rfl, rfl⟩
      rw [Instr.wellFormed, Bool.and_eq_true, bne_iff_ne, bne_iff_ne]
      exact ⟨hdelim, hesc⟩
    · cases h
  · rintro ⟨hwf, hf, rfl⟩
    cases i <;> cases hf
    case descDelim.refl | descEsc.refl | descTrunc.refl => rfl
    case descOther.refl x =>
      rw [Instr.wellFormed, Bool.and_eq_true, bne_iff_ne, bne_iff_ne] at hwf
      obtain ⟨hdelim, hesc⟩ := hwf
      rw [encode, decodeEscDec, if_pos rfl, if_neg hdelim, if_neg hesc]
    case descLit.refl b =>
      rw [Instr.wellFormed, bne_iff_ne] at hwf
      rw [encode, decodeEscDec, if_neg hwf]

/-- A frame reads from its wire shape alone. -/
theorem frameOf_ok {bs : List Byte} {f : IqFrame} : frameOf bs = .ok f ↔ f.wf ∧ frameBytes f = bs := by
  obtain ⟨e, xs⟩ := f
  constructor
  · intro h
    unfold frameOf at h
    split at h
    case isTrue => cases h
    case isFalse hlong =>
    split at h
    case isTrue => cases h
    case isFalse hshort =>
    have hhead : (bs.take 8).length = 8 := by simp; omega
    have htail : (bs.drop 8).length = 8 * 1024 := by simp; omega
    obtain ⟨he, hxs⟩ := (IqFrame.mk.injEq _ _ _ _).mp (Except.ok.inj h)
    obtain ⟨hlen, hsamples⟩ := (samplesOf_eq_iff xs htail).1 hxs
    have hepoch := (ofNat_leNat_eq_iff (k := 8) (by decide) hhead e).1 he
    refine ⟨hlen, ?_⟩
    rw [frameBytes, ← hepoch, ← hsamples, List.take_append_drop]
  · rintro ⟨hwf, rfl⟩
    have hlen : (frameBytes ⟨e, xs⟩).length = 8200 := by rw [frameBytes_length, hwf]; rfl
    have hxs : (samplesBytes xs).length = 8 * frameLen := by rw [samplesBytes_length, hwf]
    have htake : (frameBytes ⟨e, xs⟩).take 8 = leBytes 8 e.toNat := by simp [frameBytes]
    have hdrop : (frameBytes ⟨e, xs⟩).drop 8 = samplesBytes xs := by simp [frameBytes]
    rw [frameOf, if_neg (by omega), if_neg (by omega), htake, hdrop, (samplesOf_eq_iff xs hxs).2 ⟨hwf, rfl⟩,
      (ofNat_leNat_eq_iff (k := 8) (by decide) (leBytes_length _ _) e).2 rfl]

/-! ## The decoder -/

/-- Decoding gives exactly the well-formed instructions of the format, each from its encoding. -/
theorem decode_ok {f : Format} {bs : List Byte} {i : Instr} :
    decode f bs = .ok i ↔ i.wellFormed = true ∧ i.format = f ∧ encode i = bs := by
  cases f with
  | hf =>
    rw [decode, decodeHf_ok]
    constructor
    · rintro ⟨code, p, hp, rfl, hi⟩
      rcases commandOf_ok.1 hi with ⟨rfl, rfl⟩ | ⟨rfl, rfl⟩ | ⟨rfl, rfl⟩ | ⟨rfl, rfl⟩ | ⟨rfl, rfl⟩ <;> exact ⟨hp, rfl, rfl⟩
    · rintro ⟨hwf, hf, rfl⟩
      cases i <;> cases hf <;> exact ⟨_, _, hwf, rfl, rfl⟩
  | escEnc => exact decodeEscEnc_ok
  | escDec => exact decodeEscDec_ok
  | op => exact decodeOp_ok
  | iq =>
    rw [decode]
    constructor
    · intro h
      cases hframe : frameOf bs with
      | error why => rw [hframe] at h; cases h
      | ok f =>
        rw [hframe] at h
        cases h
        obtain ⟨hwf, hbs⟩ := frameOf_ok.1 hframe
        exact ⟨decide_eq_true hwf, rfl, hbs⟩
    · rintro ⟨hwf, hf, rfl⟩
      cases i <;> cases hf
      case iqFrame.refl f =>
        rw [encode, frameOf_ok.2 ⟨of_decide_eq_true hwf, rfl⟩]
        rfl

/-- Settles O1. -/
theorem decodeEncodeRoundTrip : Obligations.DecodeEncodeRoundTrip := by
  intro i hwf
  exact decode_ok.2 ⟨hwf, rfl, rfl⟩

/-- Settles O2. -/
theorem decodedBytesAreTheEncoding : Obligations.DecodedBytesAreTheEncoding := by
  intro f bs i h
  exact decode_ok.1 h

/-- Settles O3: the words decode by evaluation. -/
theorem specWordsDecode : Obligations.SpecWordsDecode := by
  refine ⟨?ready, ?snr, ?escDelim, ?descDelim, ?descOther, ?descTrunc, ?recv, ?eos, ?detect⟩
  all_goals rfl

/-! ## The wire shape, byte by byte (R91, R92) -/

/-- Byte `j` of a number's low bytes is its bits from `8 * j` on. -/
theorem getElem?_leBytes {k j : Nat} (h : j < k) (n : Nat) : (leBytes k n)[j]? = some (BitVec.ofNat 8 (n / 256 ^ j)) := by
  induction k generalizing j n with
  | zero => omega
  | succ k ih =>
    cases j with
    | zero => simp [leBytes]
    | succ j => rw [leBytes, List.getElem?_cons_succ, ih (by omega), Nat.div_div_eq_div_mul, Nat.pow_succ']

/-- The bytes of a word, the lowest first. -/
theorem getElem?_leBytes_toNat {k j w : Nat} (h : j < k) (x : BitVec w) :
    (leBytes k x.toNat)[j]? = some (x.extractLsb' (8 * j) 8) := by
  rw [getElem?_leBytes h, Option.some.injEq]
  apply BitVec.eq_of_toNat_eq
  rw [BitVec.toNat_ofNat, BitVec.extractLsb'_toNat, Nat.shiftRight_eq_div_pow, Nat.pow_mul]

/-- The samples' bytes, eight for each. -/
theorem getElem?_samplesBytes {xs : List C32} {i : Nat} {x : C32} (h : xs[i]? = some x) {j : Nat} (hj : j < 8) :
    (samplesBytes xs)[8 * i + j]? = (sampleBytes x)[j]? := by
  induction xs generalizing i with
  | nil => simp at h
  | cons y xs ih =>
    rw [samplesBytes]
    cases i with
    | zero =>
      obtain rfl : y = x := by simpa using h
      rw [List.getElem?_append_left (by rw [sampleBytes_length]; omega), Nat.mul_zero, Nat.zero_add]
    | succ i =>
      rw [List.getElem?_append_right (by rw [sampleBytes_length]; omega), sampleBytes_length, ← ih (by simpa using h)]
      congr 1
      omega

/-- Settles O4. -/
theorem wireShapeLayout : Obligations.WireShapeLayout := by
  intro f hwf
  refine ⟨?length, fun k hk => ?epoch, fun i x hx k hk => ⟨?re, ?im⟩⟩
  case length => rw [frameBytes_length, hwf]; rfl
  case epoch =>
    rw [frameBytes, List.getElem?_append_left (by rw [leBytes_length]; exact hk), getElem?_leBytes_toNat hk]
  case re =>
    rw [frameBytes, List.getElem?_append_right (by rw [leBytes_length]; omega), leBytes_length,
      show 8 + 8 * i + k - 8 = 8 * i + k by omega, getElem?_samplesBytes hx (by omega), sampleBytes,
      List.getElem?_append_left (by rw [leBytes_length]; exact hk), getElem?_leBytes_toNat hk]
  case im =>
    rw [frameBytes, List.getElem?_append_right (by rw [leBytes_length]; omega), leBytes_length,
      show 12 + 8 * i + k - 8 = 8 * i + (4 + k) by omega, getElem?_samplesBytes hx (by omega), sampleBytes,
      List.getElem?_append_right (by rw [leBytes_length]; omega), leBytes_length, Nat.add_sub_cancel_left,
      getElem?_leBytes_toNat hk]

end Sys2Proof
end

section
/-! PROOF. What a packetizer's operations do to the block, said once: its own node goes through moves, and at most one fault ends
them (40 R121 to R128; log 18). -/

namespace Sys2Proof.Machine

open Relation (ReflTransGen)

/-! ## Changes of one node -/

/-- `t` is `s` but for its node `n`, which is `nd'`, and for what is recorded of events, faults and NaNs. -/
structure AtNode (n : Nat) (nd' : Node) (s t : State) : Prop where
  cfg : t.cfg = s.cfg
  nodes : t.nodes = s.nodes.set n nd'
  cmb : t.cmb = s.cmb
  inbox : t.inbox = s.inbox

theorem AtNode.setNode (n : Nat) (nd' : Node) (s : State) : AtNode n nd' s (s.setNode n nd') := ⟨rfl, rfl, rfl, rfl⟩

theorem AtNode.refl {n : Nat} {nd : Node} {s : State} (h : s.nodes[n]? = some nd) : AtNode n nd s s :=
  ⟨rfl, (congrArg State.nodes (setNode_self s n nd h)).symm, rfl, rfl⟩

theorem AtNode.trans {n : Nat} {a b : Node} {s t u : State} (h : AtNode n a s t) (h' : AtNode n b t u) : AtNode n b s u :=
  ⟨h'.cfg.trans h.cfg, by rw [h'.nodes, h.nodes, List.set_set], h'.cmb.trans h.cmb, h'.inbox.trans h.inbox⟩

/-- The changed node stands in its place. -/
theorem AtNode.getElem?_self {n : Nat} {nd nd' : Node} {s t : State} (h : AtNode n nd' s t) (hn : s.nodes[n]? = some nd) :
    t.nodes[n]? = some nd' := by
  obtain ⟨hlt, -⟩ := List.getElem?_eq_some_iff.1 hn
  rw [h.nodes, List.getElem?_set_self hlt]

/-! ## Moves of a packetizer -/

/-- A node whose packetizer has sent the window `win` (R122). -/
def Node.emitted (nd : Node) (win : List C32) : Node :=
  { nd with
    tx := { nd.tx with q := nd.tx.q ++ [⟨nd.pkt.epoch, win⟩] }
    pkt := { nd.pkt with win := win, epoch := nd.pkt.epoch + 1, fill := 0 } }

/-- A node whose packetizer keeps `w` of its work cycle (R82). -/
def Node.withPktWork (nd : Node) (w : Option PktWork) : Node :=
  { nd with pkt := { nd.pkt with work := w } }

/-- A node whose packetizer has ended its stream (R123). -/
def Node.ended (nd : Node) : Node :=
  { nd with pkt := { nd.pkt with done := true } }

/-- One thing a packetizer does to its node without a fault (R121 to R124). A work cycle is recorded only by one that may run
and has one in progress or has not ended its stream; completion comes when no work cycle is in progress. -/
inductive PktMove (nd : Node) : Node → Prop
  | record (w : Option PktWork)
      (hw : w ≠ none → nd.pkt.life = Life.fresh true ∧ (nd.pkt.done = false ∨ nd.pkt.work ≠ none)) :
      PktMove nd (nd.withPktWork w)
  | store (x : C32) (hl : nd.pkt.life = Life.fresh true) (hfill : nd.pkt.fill + 1 ≠ frameLen) :
      PktMove nd { nd with pkt := { nd.pkt with win := nd.pkt.win.set nd.pkt.fill x, fill := nd.pkt.fill + 1 } }
  | emit (win : List C32) (hwin : nd.pkt.win.length = frameLen → nd.pkt.fill ≤ frameLen → win.length = frameLen)
      (hl : nd.pkt.life = Life.fresh true) (hepoch : nd.pkt.epoch ≠ BitVec.allOnes 64) (halive : nd.tx.rxAlive = true) :
      PktMove nd (nd.emitted win)
  | finish (hl : nd.pkt.life = Life.fresh true) (hwork : nd.pkt.work = none) : PktMove nd nd.ended

/-- A fault of a packetizer in its node (R127, R128, R256): an emission of the last epoch or to a dead receiver. -/
inductive PktFault (nd : Node) : Fault → Node → Prop
  | intro (r : Fault) (win : List C32) (fill : Nat) (hl : nd.pkt.life = Life.fresh true)
      (hr : (r = .epochOverflow nd.pkt.epoch ∧ nd.pkt.epoch = BitVec.allOnes 64) ∨
        (r = .channelDisconnected ∧ nd.tx.rxAlive = false))
      (hwin : nd.pkt.win.length = frameLen → nd.pkt.fill ≤ frameLen → win.length = frameLen)
      (hfill : fill = nd.pkt.fill ∨ fill = frameLen) :
      PktFault nd r { nd with pkt := { nd.pkt with win := win, fill := fill } : Node }.pktDead

/-- The queues of a node after at most one emission, under the current epoch (R122). -/
def SendsAtMostOne (nd nd' : Node) : Prop :=
  nd'.rx.q = nd.rx.q ∧ (nd'.tx.q = nd.tx.q ∨ ∃ f : IqFrame, f.epoch = nd.pkt.epoch ∧ nd'.tx.q = nd.tx.q ++ [f])

theorem PktMove.sendsAtMostOne {nd nd' : Node} (h : PktMove nd nd') : SendsAtMostOne nd nd' := by
  cases h with
  | record _ _ | store _ _ _ | finish _ _ => exact ⟨rfl, .inl rfl⟩
  | emit win _ _ _ _ => exact ⟨rfl, .inr ⟨⟨nd.pkt.epoch, win⟩, rfl, rfl⟩⟩

theorem PktFault.sendsAtMostOne {nd nd' : Node} {r : Fault} (h : PktFault nd r nd') : SendsAtMostOne nd nd' := by
  cases h
  exact ⟨rfl, .inl rfl⟩

/-- What an operation of the packetizer of node `n` does: its node goes from `nd` through moves, and at most one fault ends
them. -/
inductive PktOp (n : Nat) (nd : Node) (s t : State) : Prop
  | calm (nd' : Node) (hat : AtNode n nd' s t) (hfaults : t.faults = s.faults) (hmoves : ReflTransGen PktMove nd nd')
  | faulted (mid nd' : Node) (r : Fault) (hat : AtNode n nd' s t) (hfaults : t.faults = s.faults ++ [(.pkt n, r)])
      (hmoves : ReflTransGen PktMove nd mid) (hfault : PktFault mid r nd')

theorem PktOp.refl {n : Nat} {nd : Node} {s : State} (hn : s.nodes[n]? = some nd) : PktOp n nd s s :=
  .calm nd (.refl hn) rfl .refl

/-- Moves first, then an operation. -/
theorem PktOp.head {n : Nat} {nd mid : Node} {s t u : State} (hat : AtNode n mid s t) (hfaults : t.faults = s.faults)
    (hmoves : ReflTransGen PktMove nd mid) (h : PktOp n mid t u) : PktOp n nd s u := by
  cases h with
  | calm nd' hat' hfaults' hmoves' => exact .calm nd' (hat.trans hat') (hfaults'.trans hfaults) (hmoves.trans hmoves')
  | faulted mid' nd' r hat' hfaults' hmoves' hfault =>
    exact .faulted mid' nd' r (hat.trans hat') (hfaults'.trans (by rw [hfaults])) (hmoves.trans hmoves') hfault

theorem pktFaulted_at (n : Nat) (nd : Node) (r : Fault) (s : State) : AtNode n nd.pktDead s (pktFaulted n nd r s) :=
  ⟨rfl, rfl, rfl, rfl⟩

/-! ## The operations -/

/-- Everything an emission of the window `win` at the fill `fill` can do, for a packetizer that may run. -/
theorem emitWindow_moves {nd : Node} (hl : nd.pkt.life = Life.fresh true) (n : Nat) (s : State) {win : List C32} {fill : Nat}
    (hwin : nd.pkt.win.length = frameLen → nd.pkt.fill ≤ frameLen → win.length = frameLen)
    (hfill : fill = nd.pkt.fill ∨ fill = frameLen) :
    let nd₁ : Node := { nd with pkt := { nd.pkt with win := win, fill := fill } }
    (emitWindow n nd₁ s = .done (s.setNode n (nd.emitted win)) ∧ nd.pkt.epoch ≠ BitVec.allOnes 64 ∧
      nd.tx.rxAlive = true) ∨
    ∃ r, emitWindow n nd₁ s = .raised (pktFaulted n nd₁ r s) ∧ PktFault nd r nd₁.pktDead := by
  intro nd₁
  have hl₁ : nd₁.pkt.life = Life.fresh true := hl
  rcases emitWindow_cases n nd₁ s with ⟨hepoch, h⟩ | ⟨hepoch, hdead, h⟩ | ⟨hepoch, halive, h⟩
  · exact .inr ⟨_, h.trans (by rw [raiseFault_eq_pktFaulted hl₁]), .intro _ win fill hl (.inl ⟨rfl, hepoch⟩) hwin hfill⟩
  · exact .inr ⟨_, h.trans (by rw [raiseFault_eq_pktFaulted hl₁]), .intro _ win fill hl (.inr ⟨rfl, hdead⟩) hwin hfill⟩
  · exact .inl ⟨h, hepoch, halive⟩

/-- Everything the acceptance of a sample can do, for a packetizer that may run. -/
theorem acceptSample_moves {nd : Node} (hl : nd.pkt.life = Life.fresh true) (n : Nat) (x : C32) (s : State) :
    (∃ nd', acceptSample n nd x s = s.setNode n nd' ∧ PktMove nd nd' ∧ nd'.pkt.life = Life.fresh true ∧
      nd'.pkt.work = nd.pkt.work) ∨
    ∃ mid r, acceptSample n nd x s = pktFaulted n mid r s ∧ PktFault nd r mid.pktDead ∧ nd.pkt.fill + 1 = frameLen := by
  unfold acceptSample
  by_cases hfill : nd.pkt.fill + 1 = frameLen
  · rw [if_pos hfill]
    rcases emitWindow_moves hl n s (win := nd.pkt.win.set nd.pkt.fill x) (fill := nd.pkt.fill + 1)
      (fun h _ => by rw [List.length_set, h]) (.inr hfill) with ⟨h, hepoch, halive⟩ | ⟨r, h, hfault⟩
    · exact .inl ⟨_, by rw [h], .emit _ (fun h _ => by rw [List.length_set, h]) hl hepoch halive, hl, rfl⟩
    · exact .inr ⟨_, r, by rw [h], hfault, hfill⟩
  · rw [if_neg hfill]
    exact .inl ⟨_, rfl, .store x hl hfill, hl, rfl⟩

theorem padWindow_length {win : List C32} {fill : Nat} (hwin : win.length = frameLen) (hfill : fill ≤ frameLen) :
    (padWindow win fill).length = frameLen := by
  rw [padWindow, List.length_append, List.length_take, List.length_replicate, hwin]
  omega

theorem modifyNode_eq_setNode {s : State} {n : Nat} {nd : Node} (hn : s.nodes[n]? = some nd) (f : Node → Node) :
    s.modifyNode n f = s.setNode n (f nd) := by
  conv_lhs => rw [← setNode_self s n nd hn]
  exact modifyNode_setNode s n nd f

theorem signalDone_setNode (n : Nat) (nd : Node) (s : State) :
    signalDone n (s.setNode n nd) = (s.setNode n nd.ended).emit [.pktDone n] := by
  rw [signalDone, modifyNode_setNode]
  rfl

theorem signalDone_of {n : Nat} {nd : Node} {s : State} (hn : s.nodes[n]? = some nd) :
    signalDone n s = (s.setNode n nd.ended).emit [.pktDone n] := by
  conv_lhs => rw [← setNode_self s n nd hn]
  exact signalDone_setNode n nd s

theorem setPktWork_of {n : Nat} {nd : Node} {s : State} (hn : s.nodes[n]? = some nd) (w : Option PktWork) :
    setPktWork n w s = s.setNode n (nd.withPktWork w) :=
  modifyNode_eq_setNode hn _

/-- Everything the end of the stream can do, for a packetizer that may run: without its work cycle the node goes through moves
to one whose stream has ended. -/
theorem flushWindow_moves {n : Nat} {nd : Node} {s : State} (hn : s.nodes[n]? = some nd) (hl : nd.pkt.life = Life.fresh true) :
    (∃ nd', flushWindow n nd s = (s.setNode n nd').emit [.pktDone n] ∧
      ReflTransGen PktMove (nd.withPktWork none) (nd'.withPktWork none) ∧ nd'.pkt.work = nd.pkt.work ∧
      SendsAtMostOne nd nd') ∨
    ∃ mid r, flushWindow n nd s = pktFaulted n mid r s ∧ PktFault nd r mid.pktDead := by
  have hfinish : ∀ a : Node, a.pkt.life = Life.fresh true → PktMove (a.withPktWork none) (a.ended.withPktWork none) :=
    fun a ha => .finish (nd := a.withPktWork none) ha rfl
  rw [flushWindow]
  split
  case isTrue =>
    rcases emitWindow_moves hl n s (win := padWindow nd.pkt.win nd.pkt.fill) (fill := nd.pkt.fill) padWindow_length (.inl rfl)
      with ⟨h, hepoch, halive⟩ | ⟨r, h, hfault⟩
    · refine .inl ⟨(nd.emitted (padWindow nd.pkt.win nd.pkt.fill)).ended, ?_, ?_, rfl, rfl, .inr ⟨_, rfl, rfl⟩⟩
      · rw [h, ← signalDone_setNode]
      · exact .tail (.single (.emit (nd := nd.withPktWork none) _ padWindow_length hl hepoch halive))
          (hfinish (nd.emitted _) hl)
    · exact .inr ⟨_, r, by rw [h], hfault⟩
  case isFalse => exact .inl ⟨nd.ended, signalDone_of hn, .single (hfinish nd hl), rfl, rfl, .inl rfl⟩

/-- An end of stream that also drops the work cycle. -/
theorem PktOp.flush {n : Nat} {nd : Node} {s : State} (hn : s.nodes[n]? = some nd) (hl : nd.pkt.life = Life.fresh true) :
    PktOp n nd s (setPktWork n none (flushWindow n nd s)) := by
  rcases flushWindow_moves hn hl with ⟨nd', h, hmoves, -⟩ | ⟨mid, r, h, hfault⟩
  · have hat : AtNode n nd' s (flushWindow n nd s) := by rw [h]; exact ⟨rfl, rfl, rfl, rfl⟩
    rw [setPktWork_of (hat.getElem?_self hn)]
    refine .calm _ (hat.trans (.setNode n _ _)) (by rw [h]; rfl) (.head (.record none (absurd rfl)) hmoves)
  · have hat : AtNode n mid.pktDead s (flushWindow n nd s) := by rw [h]; exact pktFaulted_at n mid r s
    rw [setPktWork_of (hat.getElem?_self hn)]
    exact .faulted nd mid.pktDead r (hat.trans (.setNode n _ _)) (by rw [h]; rfl) .refl hfault

/-- An end of stream with no work cycle in progress. -/
theorem PktOp.endStream {n : Nat} {nd : Node} {s t : State} (hn : s.nodes[n]? = some nd) (hwork : nd.pkt.work = none)
    (h : endStream n s = .next t) : PktOp n nd s t := by
  obtain ⟨nd₀, hn₀, hl, -, rfl⟩ := endStream_next.1 h
  obtain rfl : nd = nd₀ := Option.some.inj (hn.symm.trans hn₀)
  rcases flushWindow_moves hn hl with ⟨nd', h, hmoves, hwork', -⟩ | ⟨mid, r, h, hfault⟩
  · have hidle : ∀ a : Node, a.pkt.work = none → a.withPktWork none = a := by
      rintro ⟨⟨_, _, _, _, _, _⟩, _, _, _, _, _⟩ rfl; rfl
    rw [hidle nd hwork, hidle nd' (hwork'.trans hwork)] at hmoves
    exact .calm nd' (by rw [h]; exact ⟨rfl, rfl, rfl, rfl⟩) (by rw [h]; rfl) hmoves
  · exact .faulted nd mid.pktDead r (by rw [h]; exact pktFaulted_at n mid r s) (by rw [h]; rfl) .refl hfault

theorem pktRunning_of_fresh {n : Nat} {nd : Node} {s : State} (hn : s.nodes[n]? = some nd)
    (hl : nd.pkt.life = Life.fresh true) : pktRunning n s = true := by
  rw [pktRunning_of hn, hl]
  rfl

/-- After a fault the packetizer does not run. -/
theorem pktRunning_pktFaulted {n : Nat} {nd : Node} {s : State} (hn : s.nodes[n]? = some nd) (mid : Node) (r : Fault) :
    pktRunning n (pktFaulted n mid r s) = false := by
  rw [pktRunning_of (getElem?_pktFaulted hn mid r)]
  rfl

/-- A whole work cycle, with none in progress before. -/
theorem PktOp.pushAll {n : Nat} : ∀ (xs : List C32) (eos : Bool) {nd : Node} {s t : State}, s.nodes[n]? = some nd →
    nd.pkt.work = none → pushAll n xs eos s = .next t → PktOp n nd s t := by
  intro xs
  induction xs with
  | nil =>
    intro eos nd s t hn hwork h
    cases eos with
    | false => cases h; exact .refl hn
    | true => exact .endStream hn hwork h
  | cons x xs ih =>
    intro eos nd s t hn hwork h
    rw [pushAll_cons] at h
    split at h
    case h_1 u hu =>
      obtain ⟨nd₀, hn₀, hl, -, rfl⟩ := pushSample_next.1 hu
      obtain rfl : nd = nd₀ := Option.some.inj (hn.symm.trans hn₀)
      rcases acceptSample_moves hl n x s with ⟨nd', h', hmove, hl', hwork'⟩ | ⟨mid, r, h', hfault, hfill⟩
      · have hn' := getElem?_setNode_self s n nd nd' hn
        rw [h', pktRunning_of_fresh hn' hl', if_pos rfl] at h
        exact .head (.setNode n nd' s) rfl (.single hmove) (ih eos hn' (hwork'.trans hwork) h)
      · rw [h', pktRunning_pktFaulted hn, if_neg Bool.false_ne_true] at h
        cases h
        exact .faulted nd mid.pktDead r (pktFaulted_at n mid r s) rfl .refl hfault
    case h_2 => cases h
    case h_3 => cases h

/-- One atomic step of a work cycle in progress. -/
theorem PktOp.advance {n : Nat} : ∀ (xs : List C32) (eos : Bool) {nd : Node} {s : State}, s.nodes[n]? = some nd →
    nd.pkt.life = Life.fresh true → nd.pkt.work ≠ none → PktOp n nd s (pktAdvance n xs eos s) := by
  intro xs
  induction xs with
  | nil =>
    intro eos nd s hn hl hwork
    rw [pktAdvance_nil hn]
    cases eos with
    | false =>
      rw [if_neg Bool.false_ne_true, setPktWork_of hn]
      exact .calm _ (.setNode n _ s) rfl (.single (.record none (absurd rfl)))
    | true => exact .flush hn hl
  | cons x xs ih =>
    intro eos nd s hn hl hwork
    rcases acceptSample_moves hl n x s with ⟨nd', h', hmove, hl', hwork'⟩ | ⟨mid, r, h', hfault, hfill⟩
    · have hn' := getElem?_setNode_self s n nd nd' hn
      have hbusy : nd'.pkt.work ≠ none := fun hnone => hwork (hwork'.symm.trans hnone)
      by_cases hfill : nd.pkt.fill + 1 = frameLen
      · rw [pktAdvance_emits hn hfill, h', pktRunning_of_fresh hn' hl', if_pos rfl, setPktWork_of hn']
        exact .calm _ ((AtNode.setNode n nd' s).trans (.setNode n _ _)) rfl
          (.tail (.single hmove) (.record _ fun _ => ⟨hl', .inr hbusy⟩))
      · rw [pktAdvance_inside hn hfill, h']
        exact .head (.setNode n nd' s) rfl (.single hmove) (ih eos hn' hl' hbusy)
    · rw [pktAdvance_emits hn hfill, h', pktRunning_pktFaulted hn, if_neg Bool.false_ne_true]
      exact .faulted nd mid.pktDead r (pktFaulted_at n mid r s) rfl .refl hfault

/-- A packetizer's turn: nothing, or an operation of a packetizer that may run. -/
theorem pktTurn_op (n : Nat) (s : State) :
    pktTurn n s = s ∨ ∃ nd, s.nodes[n]? = some nd ∧ PktOp n nd s (pktTurn n s) := by
  rcases pktTurn_cases n s with h | ⟨nd, w, hn, hw, hl, h⟩
  · exact .inl h
  · exact .inr ⟨nd, hn, h ▸ .advance w.rest w.eos hn hl (by rw [hw]; exact Option.some_ne_none w)⟩

/-- The start of a work cycle records it, and that of an empty one does nothing. -/
theorem PktOp.start {n : Nat} {xs : List C32} {eos : Bool} {s t : State} (h : startPktWork n xs eos s = .next t) :
    ∃ nd, s.nodes[n]? = some nd ∧ PktOp n nd s t := by
  obtain ⟨nd, hn, hl, h⟩ := startPktWork_next.1 h
  refine ⟨nd, hn, ?_⟩
  rcases h with ⟨-, -, rfl⟩ | ⟨-, hdone, rfl⟩
  · exact .refl hn
  · rw [setPktWork_of hn]
    exact .calm _ (.setNode n _ s) rfl (.single (.record _ fun _ => ⟨hl, .inl hdone⟩))

end Sys2Proof.Machine
end

section
/-! PROOF. What a depacketizer's operations do to the block, said once: its node and its inbound channel change together, and what
it hands out is what was pending, in order, with silence after it (41 R141 to R146; log 18). -/

namespace Sys2Proof.Machine

/-! ## Pending samples -/

/-- A depacketizer's reading place and its channel are legal (R25, R22). -/
structure Dpk.Reads (q : Dpk) (c : Chan) : Prop where
  rd : q.rd ≤ frameLen
  fresh : q.cur = none → q.rd = frameLen
  cur : ∀ f, q.cur = some f → f.wf
  queue : c.Wf

theorem Dpk.Reads.inside {q : Dpk} {c : Chan} (h : q.Reads c) (hr : q.rd ≠ frameLen) :
    ({ q with rd := q.rd + 1 } : Dpk).Reads c where
  rd := Nat.lt_of_le_of_ne h.rd hr
  fresh := fun hnone => absurd (h.fresh hnone) hr
  cur := h.cur
  queue := h.queue

theorem Dpk.Reads.next {q : Dpk} {c : Chan} {f : IqFrame} {fs : List IqFrame} (h : q.Reads c) (hq : c.q = f :: fs) :
    ({ q with cur := some f, rd := 0 } : Dpk).Reads { c with q := fs } where
  rd := Nat.zero_le _
  fresh := fun hnone => nomatch hnone
  cur := by
    rintro _ ⟨⟩
    exact h.queue f (hq ▸ List.mem_cons_self)
  queue := fun g hg => h.queue g (hq ▸ List.mem_cons_of_mem f hg)

/-- Inside a frame the next sample is the first pending one. -/
theorem pendingSamples_inside {q : Dpk} {c : Chan} (h : q.Reads c) (hr : q.rd ≠ frameLen) :
    pendingSamples q c = readSampleAt q.cur q.rd :: pendingSamples { q with rd := q.rd + 1 } c := by
  obtain ⟨cur, rd, work, life⟩ := q
  cases cur with
  | none => exact absurd (h.fresh rfl) hr
  | some f =>
    have hlt : rd < f.samples.length := by
      rw [h.cur f rfl]
      exact Nat.lt_of_le_of_ne h.rd hr
    change f.samples.drop rd ++ _ = f.samples.getD rd _ :: (f.samples.drop (rd + 1) ++ _)
    rw [List.drop_eq_getElem_cons hlt, List.getD_eq_getElem _ _ hlt]
    rfl

/-- At a frame's end what is pending is the queue, and a receive only moves its first frame. -/
theorem pendingSamples_next {q : Dpk} {c : Chan} {f : IqFrame} {fs : List IqFrame} (h : q.Reads c) (hr : q.rd = frameLen)
    (hq : c.q = f :: fs) :
    pendingSamples q c = pendingSamples { q with cur := some f, rd := 0 } { c with q := fs } := by
  obtain ⟨cur, rd, work, life⟩ := q
  cases cur with
  | none => simp [pendingSamples, hq]
  | some g =>
    have hdone : g.samples.drop rd = [] := by
      rw [List.drop_eq_nil_iff, h.cur g rfl]
      exact hr.ge
    simp [pendingSamples, hq, hdone]

/-- At a frame's end with nothing queued nothing is pending. -/
theorem pendingSamples_silence {q : Dpk} {c : Chan} (h : q.Reads c) (hr : q.rd = frameLen) (hq : c.q = []) :
    pendingSamples q c = [] := by
  obtain ⟨cur, rd, work, life⟩ := q
  cases cur with
  | none => simp [pendingSamples, hq]
  | some g =>
    have hdone : g.samples.drop rd = [] := by
      rw [List.drop_eq_nil_iff, h.cur g rfl]
      exact hr.ge
    simp [pendingSamples, hq, hdone]

/-! ## What the loop delivers -/

/-- The loop of `m` samples keeps the work cycle that is in progress. -/
theorem drain_work (m : Nat) (q : Dpk) (c : Chan) : (drain m q c).2.1.work = q.work :=
  drain_induct (fun q' _ => q'.work = q.work) (fun _ _ h _ => h) (fun _ _ _ _ h _ _ => h) m q c rfl

theorem drain_reads (m : Nat) {q : Dpk} {c : Chan} (h : q.Reads c) : (drain m q c).2.1.Reads (drain m q c).2.2 :=
  drain_induct (fun q' c' => q'.Reads c') (fun _ _ h hr => h.inside hr)
    (fun _ _ _ _ h _ hq => (h.next hq).inside (by decide : (0 : Nat) ≠ frameLen)) m q c h

/-- The loop of `m` samples gives the first `m` pending ones and then silence, and leaves the rest pending (R141, R143). -/
theorem drain_delivers : ∀ (m : Nat) {q : Dpk} {c : Chan}, q.Reads c →
    (drain m q c).1 = (pendingSamples q c).take m ++ List.replicate (m - (pendingSamples q c).length) C32.zero ∧
    pendingSamples (drain m q c).2.1 (drain m q c).2.2 = (pendingSamples q c).drop m := by
  intro m
  induction m with
  | zero => intro q c _; simp [drain_zero]
  | succ m ih =>
    intro q c h
    by_cases hr : q.rd = frameLen
    · cases hq : c.q with
      | nil => simp [drain_silence hr hq, pendingSamples_silence h hr hq]
      | cons f fs =>
        have h0 := h.next hq
        have hne : ({ q with cur := some f, rd := 0 } : Dpk).rd ≠ frameLen := (by decide : (0 : Nat) ≠ frameLen)
        obtain ⟨hout, hrest⟩ := ih (h0.inside hne)
        rw [drain_next hr hq, pendingSamples_next h hr hq, pendingSamples_inside h0 hne]
        simp only [Nat.zero_add] at hout hrest ⊢
        simp [hout, hrest]
    · obtain ⟨hout, hrest⟩ := ih (h.inside hr)
      rw [drain_inside hr, pendingSamples_inside h hr]
      simp [hout, hrest]

theorem dpkAdvance_reads : ∀ (m : Nat) {q : Dpk} {c : Chan}, q.Reads c →
    (dpkAdvance m q c).2.2.1.Reads (dpkAdvance m q c).2.2.2 := by
  intro m
  induction m with
  | zero => intro q c h; exact h
  | succ m ih =>
    intro q c h
    by_cases hr : q.rd = frameLen
    · cases hq : c.q with
      | nil => rw [dpkAdvance_silence hr hq]; exact h
      | cons f fs => rw [dpkAdvance_next hr hq]; exact h.next hq
    · rw [dpkAdvance_inside hr]; exact ih (h.inside hr)

/-- One atomic step gives pending samples in order, then perhaps silence, and leaves the rest pending. -/
theorem dpkAdvance_delivers : ∀ (m : Nat) {q : Dpk} {c : Chan}, q.Reads c →
    ∃ j z, (dpkAdvance m q c).1 = (pendingSamples q c).take j ++ List.replicate z C32.zero ∧
      pendingSamples (dpkAdvance m q c).2.2.1 (dpkAdvance m q c).2.2.2 = (pendingSamples q c).drop j := by
  intro m
  induction m with
  | zero => intro q c _; exact ⟨0, 0, rfl, rfl⟩
  | succ m ih =>
    intro q c h
    by_cases hr : q.rd = frameLen
    · cases hq : c.q with
      | nil => exact ⟨0, m + 1, by rw [dpkAdvance_silence hr hq]; rfl, by rw [dpkAdvance_silence hr hq]; rfl⟩
      | cons f fs =>
        rw [dpkAdvance_next hr hq]
        exact ⟨0, 0, rfl, (pendingSamples_next h hr hq).symm⟩
    · obtain ⟨j, z, hout, hrest⟩ := ih (h.inside hr)
      rw [dpkAdvance_inside hr, pendingSamples_inside h hr]
      exact ⟨j + 1, z, by simp [hout], by simp [hrest]⟩

/-! ## The operations -/

/-- What a depacketizer at `q` with the channel `c` may become, having handed out `ds` (R141, R143, R146): it keeps its life
and the channel's ends, it takes frames from the channel's front, and it hands out what was pending. -/
structure DpkMove (q : Dpk) (c : Chan) (q' : Dpk) (c' : Chan) (ds : List C32) : Prop where
  life : q'.life = q.life
  txAlive : c'.txAlive = c.txAlive
  rxAlive : c'.rxAlive = c.rxAlive
  taken : ∃ k, c'.q = c.q.drop k
  reads : q.Reads c → q'.Reads c'
  delivers : q.Reads c →
    ∃ j z, ds = (pendingSamples q c).take j ++ List.replicate z C32.zero ∧ pendingSamples q' c' = (pendingSamples q c).drop j

theorem DpkMove.drain (m : Nat) (q : Dpk) (c : Chan) :
    DpkMove q c (drain m q c).2.1 (drain m q c).2.2 (drain m q c).1 := by
  obtain ⟨hlife, htx, hrx, htaken⟩ := drain_frame m q c
  exact ⟨hlife, htx, hrx, htaken, drain_reads m, fun h => ⟨m, _, drain_delivers m h⟩⟩

/-- An atomic step, whatever is recorded of the work cycle. -/
theorem DpkMove.advance (m : Nat) (q : Dpk) (c : Chan) (w : Option DpkWork) :
    DpkMove q c { (dpkAdvance m q c).2.2.1 with work := w } (dpkAdvance m q c).2.2.2 (dpkAdvance m q c).1 := by
  obtain ⟨hlife, -, hcases⟩ := dpkAdvance_cases m q c
  have hreads : q.Reads c → _ := fun h =>
    (⟨(dpkAdvance_reads m h).rd, (dpkAdvance_reads m h).fresh, (dpkAdvance_reads m h).cur, (dpkAdvance_reads m h).queue⟩ :
      ({ (dpkAdvance m q c).2.2.1 with work := w } : Dpk).Reads (dpkAdvance m q c).2.2.2)
  rcases hcases with ⟨-, hc, -⟩ | ⟨f, fs, -, hq, hc, -⟩
  · exact ⟨hlife, by rw [hc], by rw [hc], ⟨0, by rw [hc]; rfl⟩, hreads, dpkAdvance_delivers m⟩
  · exact ⟨hlife, by rw [hc], by rw [hc], ⟨1, by rw [hc, hq]; rfl⟩, hreads, dpkAdvance_delivers m⟩

/-- A start, which only records the work cycle. -/
theorem DpkMove.start (q : Dpk) (c : Chan) (w : Option DpkWork) : DpkMove q c { q with work := w } c [] :=
  ⟨rfl, rfl, rfl, ⟨0, rfl⟩, fun h => ⟨h.rd, h.fresh, h.cur, h.queue⟩, fun _ => ⟨0, 0, rfl, rfl⟩⟩

/-- What an operation of the depacketizer of node `n` does to the block. -/
structure DpkOp (n : Nat) (nd : Node) (s t : State) (q' : Dpk) (c' : Chan) (ds : List C32) : Prop where
  life : nd.dpk.life = Life.fresh true
  node : AtNode n (Node.setDpkIn s.cfg.wiring { nd with dpk := q' } c') s t
  faults : t.faults = s.faults
  move : DpkMove nd.dpk (nd.dpkIn s.cfg.wiring) q' c' ds
  handed : handedOut n t = handedOut n s ++ ds

/-- A whole work cycle, with none in progress. -/
theorem DpkOp.fillBuffer {n m : Nat} {nd : Node} {s t : State} (hn : s.nodes[n]? = some nd) (hwork : nd.dpk.work = none)
    (h : fillBuffer n m s = .next t) : ∃ q' c' ds, DpkOp n nd s t q' c' ds := by
  obtain ⟨nd₀, hn₀, hl, rfl⟩ := fillBuffer_next.1 h
  obtain rfl : nd = nd₀ := Option.some.inj (hn.symm.trans hn₀)
  have hn' := getElem?_setNode_self s n nd (Node.setDpkIn s.cfg.wiring
    { nd with dpk := (drain m nd.dpk (nd.dpkIn s.cfg.wiring)).2.1 } (drain m nd.dpk (nd.dpkIn s.cfg.wiring)).2.2) hn
  refine ⟨_, _, _, hl, ⟨rfl, rfl, rfl, rfl⟩, rfl, .drain m _ _, ?_⟩
  rw [setNode_nodes] at hn'
  simp [handedOut, hn, hn', drain_work, hwork]

theorem DpkOp.start {n m : Nat} {nd : Node} {s t : State} (hn : s.nodes[n]? = some nd) (hwork : nd.dpk.work = none)
    (h : startDpkWork n m s = .next t) : ∃ q' c' ds, DpkOp n nd s t q' c' ds := by
  obtain ⟨nd₀, hn₀, hl, rfl⟩ := startDpkWork_next.1 h
  obtain rfl : nd = nd₀ := Option.some.inj (hn.symm.trans hn₀)
  have hn' := getElem?_setNode_self s n nd { nd with dpk := { nd.dpk with work := some ⟨m, []⟩ } } hn
  refine ⟨{ nd.dpk with work := some ⟨m, []⟩ }, nd.dpkIn s.cfg.wiring, [], hl, ?_, rfl, .start _ _ _, ?_⟩
  · have hsame : Node.setDpkIn s.cfg.wiring { nd with dpk := { nd.dpk with work := some ⟨m, []⟩ } } (nd.dpkIn s.cfg.wiring) =
        { nd with dpk := { nd.dpk with work := some ⟨m, []⟩ } } := by
      cases s.cfg.wiring <;> rfl
    rw [hsame]
    exact .setNode n _ s
  · rw [setNode_nodes] at hn'
    simp [handedOut, hn, hn', hwork]

/-- A depacketizer's turn: nothing, or an atomic step of its work cycle. -/
theorem dpkTurn_op (n : Nat) (s : State) :
    dpkTurn n s = s ∨ ∃ nd q' c' ds, s.nodes[n]? = some nd ∧ DpkOp n nd s (dpkTurn n s) q' c' ds := by
  rcases dpkTurn_cases n s with h | ⟨nd, w, hn, hw, hl, h⟩
  · exact .inl h
  · refine .inr ⟨nd, ?_⟩
    rw [h, continueFill]
    dsimp only
    split
    case isTrue hdone =>
      refine ⟨_, _, _, hn, hl, ⟨rfl, rfl, rfl, rfl⟩, rfl, .advance w.left _ _ none, ?_⟩
      have hn' := getElem?_setNode_self s n nd (Node.setDpkIn s.cfg.wiring
        { nd with dpk := { (dpkAdvance w.left nd.dpk (nd.dpkIn s.cfg.wiring)).2.2.1 with work := none } }
        (dpkAdvance w.left nd.dpk (nd.dpkIn s.cfg.wiring)).2.2.2) hn
      rw [setNode_nodes] at hn'
      simp [handedOut, hn, hn', hw]
    case isFalse =>
      refine ⟨_, _, _, hn, hl, ⟨rfl, rfl, rfl, rfl⟩, rfl, .advance w.left _ _ _, ?_⟩
      rw [handedOut, getElem?_setNode_self s n nd _ hn]
      simp [handedOut, hn, hw]

end Sys2Proof.Machine
end

section
/-! PROOF. What a step can do, said once: the effect of every operation, turn and action of the environment, in terms of the
moves of the unit that makes it (00 R10 to R13; 20 R67 to R70, R82). -/

namespace Sys2Proof.Machine

open Relation (ReflTransGen)

/-! ## Steps that leave the units alone -/

/-- Nothing but events (and the counter of free NaNs) is new. -/
structure Quiet (s t : State) : Prop where
  cfg : t.cfg = s.cfg
  nodes : t.nodes = s.nodes
  cmb : t.cmb = s.cmb
  inbox : t.inbox = s.inbox
  faults : t.faults = s.faults

theorem Quiet.refl (s : State) : Quiet s s := ⟨rfl, rfl, rfl, rfl, rfl⟩

theorem Quiet.emit (s : State) (es : List Event) : Quiet s (s.emit es) := ⟨rfl, rfl, rfl, rfl, rfl⟩

/-! ## The noise injector -/

/-- A noise injector's node changes in `k`, `eos` and `done` alone, the last two together (R156, R159). -/
structure NseMove (nd nd' : Node) : Prop where
  node : nd' = { nd with nse := nd'.nse }
  sigma : nd'.nse.sigma = nd.nse.sigma
  seed : nd'.nse.seed = nd.nse.seed
  life : nd'.nse.life = nd.nse.life
  done : nd.nse.done = nd.nse.eos → nd'.nse.done = nd'.nse.eos

theorem NseMove.refl (nd : Node) : NseMove nd nd := ⟨rfl, rfl, rfl, rfl, id⟩

theorem NseMove.trans {a b c : Node} (h : NseMove a b) (h' : NseMove b c) : NseMove a c :=
  ⟨by rw [h'.node, h.node], h'.sigma.trans h.sigma, h'.seed.trans h.seed, h'.life.trans h.life, h'.done ∘ h.done⟩

/-- What an operation of the noise injector of node `n` does to the block. -/
def NseOp (n : Nat) (s t : State) : Prop :=
  t.faults = s.faults ∧ ∀ nd, s.nodes[n]? = some nd → ∃ nd', AtNode n nd' s t ∧ NseMove nd nd'

theorem NseOp.refl (n : Nat) (s : State) : NseOp n s s :=
  ⟨rfl, fun nd hn => ⟨nd, .refl hn, .refl nd⟩⟩

theorem NseOp.trans {n : Nat} (s t u : State) (h : NseOp n s t) (h' : NseOp n t u) : NseOp n s u := by
  refine ⟨h'.1.trans h.1, fun nd hn => ?_⟩
  obtain ⟨nd₁, hat₁, hmove₁⟩ := h.2 nd hn
  obtain ⟨nd₂, hat₂, hmove₂⟩ := h'.2 nd₁ (hat₁.getElem?_self hn)
  exact ⟨nd₂, hat₁.trans hat₂, hmove₁.trans hmove₂⟩

theorem NseOp.inject {n : Nat} (x : C32) (s t : State) (h : injectNoise n x s = .next t) : NseOp n s t := by
  obtain ⟨nd₀, hn₀, -, -, rfl⟩ := injectNoise_next.1 h
  refine ⟨rfl, fun nd hn => ?_⟩
  obtain rfl : nd₀ = nd := Option.some.inj (hn₀.symm.trans hn)
  exact ⟨{ nd₀ with nse := { nd₀.nse with k := nd₀.nse.k + 1 } }, ⟨rfl, rfl, rfl, rfl⟩, ⟨rfl, rfl, rfl, rfl, id⟩⟩

theorem NseOp.finish {n : Nat} {s t : State} (h : endNoise n s = .next t) : NseOp n s t := by
  obtain ⟨nd₀, hn₀, -, -, rfl⟩ := endNoise_next.1 h
  refine ⟨rfl, fun nd hn => ?_⟩
  obtain rfl : nd₀ = nd := Option.some.inj (hn₀.symm.trans hn)
  exact ⟨{ nd₀ with nse := { nd₀.nse with eos := true, done := true } }, ⟨rfl, rfl, rfl, rfl⟩, ⟨rfl, rfl, rfl, rfl, fun _ => rfl⟩⟩

theorem NseOp.work {n : Nat} {xs : List C32} {cap : Nat} {s t : State} (h : execNseWork n xs cap s = .next t) :
    NseOp n s t := by
  obtain ⟨nd, -, h⟩ := withNode_next.1 h
  obtain ⟨-, h⟩ := withLife_next.1 h
  obtain ⟨u, hu, rfl⟩ := reportConsumed_next.1 h
  obtain ⟨hfaults, hnode⟩ := injectAll_induct (NseOp n) n (NseOp.refl n) NseOp.trans NseOp.inject _ s u hu
  refine ⟨hfaults, fun nd hn => ?_⟩
  obtain ⟨nd', hat, hmove⟩ := hnode nd hn
  exact ⟨nd', ⟨hat.cfg, hat.nodes, hat.cmb, hat.inbox⟩, hmove⟩

/-! ## The combiner -/

/-- A send of the combine of epoch `e` that finds its receiver alive (R174). -/
inductive CmbSend (e : Epoch) (es : List Entry) (s : State) : State → Prop
  | intro (nd : Node) (hn : s.nodes[s.cmb.sent]? = some nd) (halive : nd.rx.rxAlive = true) :
      CmbSend e es s { s.setNode s.cmb.sent
          { nd with rx := { nd.rx with q := nd.rx.q ++ [combinedFrame s e es s.cmb.sent] } } with
        cmb := { s.cmb with sent := s.cmb.sent + 1 }
        nanCtr := s.nanCtr + 1 }

/-- What the combiner does in its CHECK phase (R173, R174, R177, R183): it goes back to receiving, or it makes sends of the
complete oldest epoch, after which it stops for now, takes the fault of a dead receiver, or, having served all, removes the
set. -/
inductive CheckOp (s t : State) : Prop
  | collect (hready : readyEpoch s = none) (ht : t = keepCollecting s)
  | sends (e : Epoch) (es : List Entry) (hready : readyEpoch s = some (e, es)) (hsends : ReflTransGen (CmbSend e es) s t)
  | dead (e : Epoch) (es : List Entry) (hready : readyEpoch s = some (e, es)) (mid : State) (nd : Node)
      (hsends : ReflTransGen (CmbSend e es) s mid) (hn : mid.nodes[mid.cmb.sent]? = some nd) (hdead : nd.rx.rxAlive = false)
      (ht : t = raiseFault .cmb .channelDisconnected mid)
  | finish (e : Epoch) (es : List Entry) (hready : readyEpoch s = some (e, es)) (mid : State)
      (hsends : ReflTransGen (CmbSend e es) s mid) (hall : mid.nNodes ≤ mid.cmb.sent) (ht : t = finishCombine e mid)

/-- Everything one send can do, as a send that succeeds, the end of the receivers, or a fault. -/
theorem sendOne_send (e : Epoch) (es : List Entry) (s : State) :
    (s.nNodes ≤ s.cmb.sent ∧ sendOne e es s = .done s) ∨
    (∃ t, sendOne e es s = .done t ∧ CmbSend e es s t) ∨
    ∃ nd, s.nodes[s.cmb.sent]? = some nd ∧ nd.rx.rxAlive = false ∧
      sendOne e es s = .raised (raiseFault .cmb .channelDisconnected s) := by
  rcases sendOne_cases e es s with ⟨hn, h⟩ | ⟨nd, hn, ⟨hdead, h⟩ | ⟨halive, h⟩⟩
  · exact .inl ⟨List.getElem?_eq_none_iff.1 hn, h⟩
  · exact .inr (.inr ⟨nd, hn, hdead, h⟩)
  · exact .inr (.inl ⟨_, h, .intro nd hn halive⟩)

theorem CmbSend.nNodes {e : Epoch} {es : List Entry} {s t : State} (h : CmbSend e es s t) : t.nNodes = s.nNodes := by
  cases h
  exact List.length_set

theorem CmbSend.sent {e : Epoch} {es : List Entry} {s t : State} (h : CmbSend e es s t) : t.cmb.sent = s.cmb.sent + 1 := by
  cases h
  rfl

/-- What the next `k` sends of a combine do: all that there are receivers for, or those before a dead receiver. -/
theorem sendMany_sends (e : Epoch) (es : List Entry) : ∀ (k : Nat) (s : State),
    (∃ t, sendMany e es k s = .done t ∧ ReflTransGen (CmbSend e es) s t ∧
      (t.nNodes ≤ t.cmb.sent ∨ t.cmb.sent = s.cmb.sent + k) ∧ t.nNodes = s.nNodes) ∨
    ∃ mid nd, sendMany e es k s = .raised (raiseFault .cmb .channelDisconnected mid) ∧ ReflTransGen (CmbSend e es) s mid ∧
      mid.nodes[mid.cmb.sent]? = some nd ∧ nd.rx.rxAlive = false := by
  intro k
  induction k with
  | zero => intro s; exact .inl ⟨s, rfl, .refl, .inr rfl, rfl⟩
  | succ k ih =>
    intro s
    rw [sendMany]
    rcases sendOne_send e es s with ⟨hall, h⟩ | ⟨u, h, hsend⟩ | ⟨nd, hn, hdead, h⟩
    · rw [h]
      rcases ih s with ⟨t, h', hsends, hsent, hlen⟩ | hraised
      · refine .inl ⟨t, h', hsends, .inl ?_, hlen⟩
        rcases hsent with hsent | hsent
        · exact hsent
        · omega
      · exact .inr hraised
    · rw [h]
      rcases ih u with ⟨t, h', hsends, hsent, hlen⟩ | ⟨mid, nd, h', hsends, hn, hdead⟩
      · refine .inl ⟨t, h', .head hsend hsends, hsent.imp_right fun hk => ?_, hlen.trans hsend.nNodes⟩
        rw [hk, hsend.sent]
        omega
      · exact .inr ⟨mid, nd, h', .head hsend hsends, hn, hdead⟩
    · rw [h]
      exact .inr ⟨s, nd, rfl, .refl, hn, hdead⟩

theorem CheckOp.wholeCombine {s : State} {e : Epoch} {es : List Entry} (hready : readyEpoch s = some (e, es)) :
    CheckOp s (wholeCombine e es s) := by
  rw [Machine.wholeCombine]
  rcases sendMany_sends e es (s.nNodes - s.cmb.sent) s with ⟨t, h, hsends, hsent, hlen⟩ | ⟨mid, nd, h, hsends, hn, hdead⟩
  · rw [h]
    exact .finish e es hready t hsends (by rcases hsent with h | h <;> omega) rfl
  · rw [h]
    exact .dead e es hready mid nd hsends hn hdead rfl

theorem CheckOp.wholeCheck (s : State) : CheckOp s (wholeCheck s) := by
  cases hready : readyEpoch s with
  | none => exact .collect hready (by rw [Machine.wholeCheck, hready])
  | some p => exact wholeCheck_ready hready ▸ .wholeCombine hready

/-- Everything one atomic step of a check can do: at most one send. -/
theorem checkTurn_cases (s : State) :
    (readyEpoch s = none ∧ checkTurn s = keepCollecting s) ∨
    ∃ e es, readyEpoch s = some (e, es) ∧
      ((s.nNodes ≤ s.cmb.sent ∧ checkTurn s = finishCombine e s) ∨
       (∃ t, CmbSend e es s t ∧ t.cmb.sent < t.nNodes ∧ checkTurn s = t) ∨
       (∃ t, CmbSend e es s t ∧ t.nNodes ≤ t.cmb.sent ∧ checkTurn s = finishCombine e t) ∨
       ∃ nd, s.nodes[s.cmb.sent]? = some nd ∧ nd.rx.rxAlive = false ∧
        checkTurn s = raiseFault .cmb .channelDisconnected s) := by
  rw [checkTurn]
  cases hready : readyEpoch s with
  | none => exact .inl ⟨rfl, rfl⟩
  | some p =>
    obtain ⟨e, es⟩ := p
    refine .inr ⟨e, es, rfl, ?_⟩
    dsimp only
    split
    case isFalse hall => exact .inl ⟨Nat.not_lt.1 hall, rfl⟩
    case isTrue hlt =>
      refine .inr ?_
      rcases sendOne_send e es s with ⟨hall, -⟩ | ⟨t, h, hsend⟩ | ⟨nd, hn, hdead, h⟩
      · omega
      · rw [h]
        dsimp only
        split
        case isTrue hmore => exact .inl ⟨t, hsend, hmore, rfl⟩
        case isFalse hall => exact .inr (.inl ⟨t, hsend, Nat.not_lt.1 hall, rfl⟩)
      · rw [h]
        exact .inr (.inr ⟨nd, hn, hdead, rfl⟩)

theorem CheckOp.turn (s : State) : CheckOp s (checkTurn s) := by
  rcases checkTurn_cases s with ⟨hready, h⟩ | ⟨e, es, hready, ⟨hall, h⟩ | ⟨t, hsend, -, h⟩ | ⟨t, hsend, hall, h⟩ |
    ⟨nd, hn, hdead, h⟩⟩
  · exact .collect hready h
  · exact .finish e es hready s .refl hall h
  · exact .sends e es hready (h ▸ .single hsend)
  · exact .finish e es hready t (.single hsend) hall h
  · exact .dead e es hready s nd .refl hn hdead h

/-! ## The environment -/

/-- What the environment does on a channel end that it owns (R67, R68, R70). -/
inductive EnvOp (c : ChanId) (nd : Node) (s t : State) : Prop
  | send (f : IqFrame) (hf : f.wf) (howns : envOwns s nd c .sender = true)
      (hat : AtNode c.node (nd.setChan c { nd.chan c with q := (nd.chan c).q ++ [f] }) s t)
  | recv (f : IqFrame) (q : List IqFrame) (hq : (nd.chan c).q = f :: q) (howns : envOwns s nd c .receiver = true)
      (hat : AtNode c.node (nd.setChan c { nd.chan c with q := q }) s t) (hout : t.out = s.out ++ [.wireOut c (frameBytes f)])
  | closeSender (howns : envOwns s nd c .sender = true)
      (hat : AtNode c.node (nd.setChan c { nd.chan c with txAlive := false }) s t)
  | closeReceiver (howns : envOwns s nd c .receiver = true)
      (hat : AtNode c.node (nd.setChan c { nd.chan c with rxAlive := false }) s t)

/-! ## The effects of a step -/

/-- Everything that a step does, but for taking its entry out of the inbox. -/
inductive Effect (s t : State) : Prop
  | quiet (h : Quiet s t)
  | pkt (n : Nat) (nd : Node) (hn : s.nodes[n]? = some nd) (h : PktOp n nd s t)
  | dpk (n : Nat) (nd : Node) (hn : s.nodes[n]? = some nd) (q' : Dpk) (c' : Chan) (ds : List C32) (h : DpkOp n nd s t q' c' ds)
  | nse (n : Nat) (nd : Node) (hn : s.nodes[n]? = some nd) (h : NseOp n s t)
  | recv (hl : s.cmb.life = Life.fresh true) (hphase : s.cmb.phase = .recv) (ht : t = recvTurn s)
  | check (hl : s.cmb.life = Life.fresh true) (hphase : s.cmb.phase = .check) (h : CheckOp s t)
  | env (c : ChanId) (nd : Node) (hn : s.nodes[c.node]? = some nd) (hfaults : t.faults = s.faults) (h : EnvOp c nd s t)
  | remove (u : UnitId) (l : Life) (hlife : lifeOf u s = some l) (hpresent : l.present = true)
      (ht : t = killEnds u (mapLife u (fun l => { l with present := false }) s))

theorem isBusy_pkt_eq_false {n : Nat} {nd : Node} {s : State} (hn : s.nodes[n]? = some nd) :
    isBusy (.pkt n) s = false ↔ nd.pkt.work = none := by
  rw [isBusy, hn, Option.any_some, Option.isSome_eq_false_iff, Option.isNone_iff_eq_none]

theorem isBusy_dpk_eq_false {n : Nat} {nd : Node} {s : State} (hn : s.nodes[n]? = some nd) :
    isBusy (.dpk n) s = false ↔ nd.dpk.work = none := by
  rw [isBusy, hn, Option.any_some, Option.isSome_eq_false_iff, Option.isNone_iff_eq_none]

/-- A unit's turn (R82). -/
theorem unitTurn_effect (u : UnitId) (s : State) : Effect s (unitTurn u s) := by
  cases u with
  | pkt n =>
    rcases pktTurn_op n s with h | ⟨nd, hn, h⟩
    · exact .quiet (by rw [unitTurn, h]; exact .refl s)
    · exact .pkt n nd hn h
  | dpk n =>
    rcases dpkTurn_op n s with h | ⟨nd, q', c', ds, hn, h⟩
    · exact .quiet (by rw [unitTurn, h]; exact .refl s)
    · exact .dpk n nd hn q' c' ds h
  | nse n => exact .quiet (.refl s)
  | dec n => exact .quiet (.refl s)
  | cmb =>
    rw [unitTurn]
    by_cases hl : s.cmb.life = Life.fresh true
    · cases hphase : s.cmb.phase with
      | recv => exact .recv hl hphase (combinerTurn_recv hl hphase)
      | check => rw [combinerTurn_check hl hphase]; exact .check hl hphase (.turn s)
    · rw [combinerTurn_idle hl]
      exact .quiet (.refl s)

/-- The functions only deliver a result. -/
theorem buildCommand_quiet {code : Byte} {p : List Byte} {s t : State} (h : buildCommand code p s = .next t) : Quiet s t := by
  unfold buildCommand at h
  split at h
  case h_1 => cases h
  case h_2 bs _ => cases h; exact .emit s _

theorem Effect.pushSample {n : Nat} {x : C32} {s t : State} (h : pushSample n x s = .next t) (hfree : isBusy (.pkt n) s = false) :
    Effect s t := by
  obtain ⟨nd, hn, -⟩ := pushSample_next.1 h
  refine .pkt n nd hn (.pushAll [x] false hn ((isBusy_pkt_eq_false hn).1 hfree) ?_)
  rw [pushAll_cons, h]
  simp

theorem Effect.endStream {n : Nat} {s t : State} (h : endStream n s = .next t) (hfree : isBusy (.pkt n) s = false) :
    Effect s t := by
  obtain ⟨nd, hn, -⟩ := endStream_next.1 h
  exact .pkt n nd hn (.endStream hn ((isBusy_pkt_eq_false hn).1 hfree) h)

theorem Effect.pktWork {n : Nat} {xs : List C32} {eos : Bool} {s t : State} (h : execPktWork n xs eos s = .next t)
    (hfree : isBusy (.pkt n) s = false) : Effect s t := by
  obtain ⟨nd, hn, h⟩ := withNode_next.1 h
  obtain ⟨-, h⟩ := withLife_next.1 h
  exact .pkt n nd hn (.pushAll xs eos hn ((isBusy_pkt_eq_false hn).1 hfree) h)

theorem Effect.fillBuffer {n m : Nat} {s t : State} (h : fillBuffer n m s = .next t) (hfree : isBusy (.dpk n) s = false) :
    Effect s t := by
  obtain ⟨nd, hn, -⟩ := fillBuffer_next.1 h
  obtain ⟨q', c', ds, hop⟩ := DpkOp.fillBuffer hn ((isBusy_dpk_eq_false hn).1 hfree) h
  exact .dpk n nd hn q' c' ds hop

theorem Effect.cmbRecv {s t : State} (h : execCmbRecv s = .next t) : Effect s t := by
  obtain ⟨hl, h⟩ := withLife_next.1 h
  split at h
  case h_1 hphase => exact .recv hl hphase (Host.Outcome.next.inj h).symm
  case h_2 => cases h; exact .quiet (.refl s)

theorem Effect.cmbCheck {s t : State} (h : execCmbCheck s = .next t) : Effect s t := by
  obtain ⟨hl, h⟩ := withLife_next.1 h
  split at h
  case h_1 => cases h; exact .quiet (.refl s)
  case h_2 hphase => cases h; exact .check hl hphase (.wholeCheck s)

theorem Effect.cmbCombine {e : Epoch} {s t : State} (h : execCmbCombine e s = .next t) : Effect s t := by
  obtain ⟨hl, h⟩ := withLife_next.1 h
  split at h
  case h_1 e' es hphase hready =>
    split at h
    case isTrue he =>
      cases h
      exact .check hl hphase (.wholeCombine (he ▸ hready))
    case isFalse => cases h; exact .quiet (.refl s)
  case h_2 => cases h; exact .quiet (.refl s)

theorem Effect.decDecode {n : Nat} {r : DecodedFrame} {s t : State} (h : execDecDecode n r s = .next t) : Effect s t := by
  obtain ⟨nd, -, h⟩ := withNode_next.1 h
  obtain ⟨-, h⟩ := withLife_next.1 h
  split at h
  case isTrue => cases h
  case isFalse =>
    split at h
    case isTrue => cases h
    case isFalse => cases h; exact .quiet (.emit s _)

/-- An operation invoked whole, whose unit has none in progress. -/
theorem exec_effect {i : Instr} {s t : State} (h : exec i s = .next t) (hfree : ∀ u, usesUnit i = some u → isBusy u s = false) :
    Effect s t := by
  cases i with
  | cmdData p => exact .quiet (buildCommand_quiet (code := codeData) (p := p) h)
  | cmdDetect p => exact .quiet (buildCommand_quiet (code := codeDetect) (p := p) h)
  | cmdReady p => exact .quiet (buildCommand_quiet (code := codeReady) (p := p) h)
  | cmdRssi p => exact .quiet (buildCommand_quiet (code := codeRssi) (p := p) h)
  | cmdSnr p => exact .quiet (buildCommand_quiet (code := codeSnr) (p := p) h)
  | hfpCreateCmd code p => exact .quiet (buildCommand_quiet h)
  | escDelim | escEsc | descDelim | descEsc | descTrunc => cases h; exact .quiet (.emit s _)
  | iqFrame _ | decCrc16 _ | hfpEscape _ | hfpDescape _ => cases h; exact .quiet (.emit s _)
  | escLit b =>
    change execEscLit b s = _ at h
    unfold execEscLit at h
    split at h
    case isTrue => cases h
    case isFalse => cases h; exact .quiet (.emit s _)
  | descOther b =>
    change execDescOther b s = _ at h
    unfold execDescOther at h
    split at h
    case isTrue => cases h
    case isFalse => cases h; exact .quiet (.emit s _)
  | descLit b =>
    change execDescLit b s = _ at h
    unfold execDescLit at h
    split at h
    case isTrue => cases h
    case isFalse => cases h; exact .quiet (.emit s _)
  | decDewhiten lo hi j =>
    change execDecDewhiten lo hi j s = _ at h
    unfold execDecDewhiten at h
    split at h
    case isTrue => cases h
    case isFalse => cases h; exact .quiet (.emit s _)
  | pktPush n x => exact .pushSample h (hfree _ rfl)
  | pktEos n => exact .endStream h (hfree _ rfl)
  | pktWork n xs eos => exact .pktWork h (hfree _ rfl)
  | dpkWork n m => exact .fillBuffer h (hfree _ rfl)
  | dpkPull n => exact .fillBuffer h (hfree _ rfl)
  | nseStep n x =>
    obtain ⟨nd, hn, -⟩ := injectNoise_next.1 h
    exact .nse n nd hn (.inject x s t h)
  | nseEos n =>
    obtain ⟨nd, hn, -⟩ := endNoise_next.1 h
    exact .nse n nd hn (.finish h)
  | nseWork n xs cap =>
    obtain ⟨nd, hn, -⟩ := withNode_next.1 h
    exact .nse n nd hn (.work h)
  | cmbRecv => exact .cmbRecv h
  | cmbCheck => exact .cmbCheck h
  | cmbCombine e => exact .cmbCombine h
  | decDecode n r => exact .decDecode h

/-- An operation that is started, whose unit has none in progress (R82). -/
theorem startOp_effect {i : Instr} {s t : State} (h : startOp i s = .next t)
    (hfree : ∀ u, usesUnit i = some u → isBusy u s = false) : Effect s t := by
  rcases startOp_cases i s with ⟨n, xs, eos, rfl, hi⟩ | ⟨n, m, rfl, hi⟩ | hi
  · obtain ⟨nd, hn, hop⟩ := PktOp.start (hi ▸ h)
    exact .pkt n nd hn hop
  · rw [hi] at h
    obtain ⟨nd, hn, -⟩ := startDpkWork_next.1 h
    obtain ⟨q', c', ds, hop⟩ := DpkOp.start hn ((isBusy_dpk_eq_false hn).1 (hfree _ rfl)) h
    exact .dpk n nd hn q' c' ds hop
  · exact exec_effect (hi ▸ h) hfree

theorem envSend_effect {c : ChanId} {wire : List Byte} {s t : State} (h : envSend c wire s = .next t) : Effect s t := by
  obtain ⟨nd, hn, howns, h⟩ := withEnvEnd_next.1 h
  split at h
  case h_1 => cases h
  case h_2 f hf =>
    split at h
    case h_1 => cases h; exact .quiet (.refl s)
    case h_2 ch hch =>
      cases h
      obtain ⟨-, rfl⟩ := send_some.1 hch
      exact .env c nd hn rfl (.send f (frameOf_ok.1 hf).1 howns (.setNode ..))

theorem envRecv_effect {c : ChanId} {s t : State} (h : envRecv c s = .next t) : Effect s t := by
  obtain ⟨nd, hn, howns, h⟩ := withEnvEnd_next.1 h
  split at h
  case h_1 => cases h; exact .quiet (.refl s)
  case h_2 f ch hch =>
    cases h
    obtain ⟨q, hq, rfl⟩ := tryRecv_some.1 hch
    exact .env c nd hn rfl (.recv f q hq howns ⟨rfl, rfl, rfl, rfl⟩ rfl)

theorem envClose_effect {c : ChanId} {e : End} {s t : State} (h : envClose c e s = .next t) : Effect s t := by
  obtain ⟨nd, hn, howns, h⟩ := withEnvEnd_next.1 h
  cases e with
  | sender => cases h; exact .env c nd hn rfl (.closeSender howns (.setNode ..))
  | receiver => cases h; exact .env c nd hn rfl (.closeReceiver howns (.setNode ..))

theorem busyUnit_eq_none {f : Format} {bs : List Byte} {s : State} (h : busyUnit f bs s = none) {i : Instr}
    (hi : decode f bs = .ok i) : ∀ u, usesUnit i = some u → isBusy u s = false := by
  intro u hu
  by_contra hbusy
  rw [Bool.not_eq_false] at hbusy
  have := busyUnit_some.2 ⟨i, hi, hu, hbusy⟩
  rw [h] at this
  cases this

/-- Every step is one effect, on the state or on the state with its first entry taken out of the inbox. -/
theorem step_effect {s t : State} (h : step s = .next t) : ∃ inbox, Effect { s with inbox := inbox } t := by
  rcases step_cases h with ⟨u, rfl⟩ | ⟨slot, rest, -, hfree, h⟩
  · exact ⟨s.inbox, unitTurn_effect u s⟩
  · refine ⟨rest, ?_⟩
    cases slot with
    | invoke f bs =>
      obtain ⟨i, hi, h⟩ := invoke_next.1 h
      exact exec_effect h (busyUnit_eq_none (s := s) hfree hi)
    | start f bs =>
      obtain ⟨i, hi, h⟩ := start_next.1 h
      exact startOp_effect h (busyUnit_eq_none (s := s) hfree hi)
    | turn u => cases h; exact unitTurn_effect u _
    | envSend c wire => exact envSend_effect h
    | envRecv c => exact envRecv_effect h
    | envClose c e => exact envClose_effect h
    | remove u =>
      obtain ⟨l, hlife, hpresent, ht⟩ := removeUnit_next.1 h
      exact .remove u l hlife hpresent ht

end Sys2Proof.Machine
end

section
/-! PROOF. What no step changes (00 R9; 10 R35, R36; 60 R255 to R258): the configuration, and the statuses but for the one unit
whose fault is recorded; and no step answers a fault. -/

namespace Sys2Proof.Machine

open Relation (ReflTransGen)

/-! ## No outcome is a fault -/

/-- The outcome is a next state or a refusal. -/
def NoFault (r : Result) : Prop := ∀ f, r ≠ .fault f

theorem NoFault.next (s : State) : NoFault (.next s) := fun _ h => nomatch h

theorem NoFault.refused (r : Refusal) : NoFault (.refused r) := fun _ h => nomatch h

theorem NoFault.ite {p : Prop} [Decidable p] {a b : Result} (ha : NoFault a) (hb : NoFault b) : NoFault (if p then a else b) := by
  split
  · exact ha
  · exact hb

theorem NoFault.withNode {s : State} {n : Nat} {k : Node → Result} (h : ∀ nd, NoFault (k nd)) : NoFault (withNode s n k) := by
  intro f hf
  obtain ⟨nd, -, hk⟩ := withNode_fault.1 hf
  exact h nd f hk

theorem NoFault.withLife {l : Life} {k : Result} (h : NoFault k) : NoFault (withLife l k) := by
  intro f hf
  exact h f (withLife_fault.1 hf).2

theorem pushSample_noFault (n : Nat) (x : C32) (s : State) : NoFault (pushSample n x s) :=
  .withNode fun _ => .withLife (.ite (.refused _) (.next _))

theorem endStream_noFault (n : Nat) (s : State) : NoFault (endStream n s) :=
  .withNode fun _ => .withLife (.ite (.refused _) (.next _))

theorem pushAll_noFault (n : Nat) (xs : List C32) (eos : Bool) (s : State) : NoFault (pushAll n xs eos s) := by
  induction xs generalizing s with
  | nil => exact .ite (endStream_noFault n s) (.next s)
  | cons x xs ih =>
    rw [pushAll_cons]
    have hpush := pushSample_noFault n x s
    split
    case h_1 t _ => exact .ite (ih t) (.next t)
    case h_2 r hr => exact absurd hr (hpush r)
    case h_3 r _ => exact .refused r

theorem injectNoise_noFault (n : Nat) (x : C32) (s : State) : NoFault (injectNoise n x s) :=
  .withNode fun _ => .withLife (.ite (.refused _) (.next _))

theorem injectAll_noFault (n : Nat) (xs : List C32) (s : State) : NoFault (injectAll n xs s) := by
  induction xs generalizing s with
  | nil => exact .next s
  | cons x xs ih =>
    rw [injectAll]
    have hinject := injectNoise_noFault n x s
    split
    case h_1 t _ => exact ih t
    case h_2 r hr => exact absurd hr (hinject r)
    case h_3 r _ => exact .refused r

theorem reportConsumed_noFault {n j : Nat} {r : Result} (h : NoFault r) : NoFault (reportConsumed n j r) := by
  cases r with
  | next t => exact .next _
  | fault f => exact absurd rfl (h f)
  | refused f => exact .refused f

theorem buildCommand_noFault (code : Byte) (p : List Byte) (s : State) : NoFault (buildCommand code p s) := by
  unfold buildCommand
  split
  · exact .refused _
  · exact .next _

theorem execCmbRecv_noFault (s : State) : NoFault (execCmbRecv s) := by
  refine .withLife ?_
  split <;> exact .next _

theorem execCmbCheck_noFault (s : State) : NoFault (execCmbCheck s) := by
  refine .withLife ?_
  split <;> exact .next _

theorem execCmbCombine_noFault (e : Epoch) (s : State) : NoFault (execCmbCombine e s) := by
  refine .withLife ?_
  split
  · exact .ite (.next _) (.next _)
  · exact .next _

/-- R255 for every operation. -/
theorem exec_noFault (i : Instr) (s : State) : NoFault (exec i s) := by
  cases i with
  | cmdData p => exact buildCommand_noFault codeData p s
  | cmdDetect p => exact buildCommand_noFault codeDetect p s
  | cmdReady p => exact buildCommand_noFault codeReady p s
  | cmdRssi p => exact buildCommand_noFault codeRssi p s
  | cmdSnr p => exact buildCommand_noFault codeSnr p s
  | hfpCreateCmd code p => exact buildCommand_noFault code p s
  | escDelim | escEsc | descDelim | descEsc | descTrunc => exact .next _
  | iqFrame _ | decCrc16 _ | hfpEscape _ | hfpDescape _ => exact .next _
  | escLit _ | descOther _ | descLit _ => exact .ite (.refused _) (.next _)
  | decDewhiten _ _ _ => exact .ite (.refused _) (.next _)
  | pktPush n x => exact pushSample_noFault n x s
  | pktEos n => exact endStream_noFault n s
  | pktWork n xs eos => exact .withNode fun _ => .withLife (pushAll_noFault n xs eos s)
  | dpkWork _ _ | dpkPull _ => exact .withNode fun _ => .withLife (.next _)
  | nseStep n x => exact injectNoise_noFault n x s
  | nseEos n => exact .withNode fun _ => .withLife (.ite (.refused _) (.next _))
  | nseWork n xs cap => exact .withNode fun _ => .withLife (reportConsumed_noFault (injectAll_noFault n _ s))
  | cmbRecv => exact execCmbRecv_noFault s
  | cmbCheck => exact execCmbCheck_noFault s
  | cmbCombine e => exact execCmbCombine_noFault e s
  | decDecode n r => exact .withNode fun _ => .withLife (.ite (.refused _) (.ite (.refused _) (.next _)))

theorem startOp_noFault (i : Instr) (s : State) : NoFault (startOp i s) := by
  rcases startOp_cases i s with ⟨n, xs, eos, -, h⟩ | ⟨n, m, -, h⟩ | h
  · exact h ▸ .withNode fun _ => .withLife (.ite (.next _) (.ite (.refused _) (.next _)))
  · exact h ▸ .withNode fun _ => .withLife (.next _)
  · exact h ▸ exec_noFault i s

theorem withEnvEnd_noFault {c : ChanId} {e : End} {s : State} {k : Node → Result} (h : ∀ nd, NoFault (k nd)) :
    NoFault (withEnvEnd c e s k) :=
  .withNode fun nd => .ite (h nd) (.refused _)

theorem runSlot_noFault (slot : Slot) (s : State) : NoFault (runSlot slot s) := by
  cases slot with
  | invoke f bs =>
    rw [runSlot, invoke]
    split
    · exact .refused _
    · exact exec_noFault _ s
  | start f bs =>
    rw [runSlot, start]
    split
    · exact .refused _
    · exact startOp_noFault _ s
  | turn u => exact .next _
  | envSend c wire =>
    refine withEnvEnd_noFault fun nd => ?_
    split
    · exact .refused _
    · split <;> exact .next _
  | envRecv c =>
    refine withEnvEnd_noFault fun nd => ?_
    split <;> exact .next _
  | envClose c e =>
    refine withEnvEnd_noFault fun nd => ?_
    cases e <;> exact .next _
  | remove u =>
    rw [runSlot, removeUnit]
    split
    · exact .refused _
    · exact .ite (.next _) (.refused _)

/-- Settles O6: nothing that a step runs answers a fault, whatever waits in the inbox. -/
theorem stepNeverStopsOnFault : Obligations.StepNeverStopsOnFault := by
  intro s
  change NoFault (step s)
  cases hinbox : s.inbox with
  | nil => rw [step_nil hinbox]; exact .next _
  | cons slot rest =>
    cases hwaits : waitsFor slot s with
    | none => rw [step_runs hinbox hwaits]; exact runSlot_noFault slot _
    | some u => rw [step_waits hinbox hwaits]; exact .next _

/-! ## Node by node -/

/-- The same nodes, each in the relation `R` to what it was. -/
structure NodeWise (R : Nat → Node → Node → Prop) (s t : State) : Prop where
  length : t.nodes.length = s.nodes.length
  node : ∀ m nd nd', s.nodes[m]? = some nd → t.nodes[m]? = some nd' → R m nd nd'

section
variable {R : Nat → Node → Node → Prop} {s t u : State}

theorem NodeWise.same (h : t.nodes = s.nodes) (hR : ∀ m a, R m a a) : NodeWise R s t where
  length := by rw [h]
  node := by
    intro m nd nd' hn hn'
    rw [h, hn] at hn'
    cases hn'
    exact hR m nd

theorem NodeWise.set {n : Nat} {nd nd' : Node} (h : t.nodes = s.nodes.set n nd') (hn : s.nodes[n]? = some nd)
    (hnd : R n nd nd') (hR : ∀ m a, m ≠ n → R m a a) : NodeWise R s t where
  length := by rw [h, List.length_set]
  node := by
    intro m a a' ha ha'
    by_cases hm : m = n
    · subst hm
      obtain ⟨hlt, -⟩ := List.getElem?_eq_some_iff.1 hn
      rw [h, List.getElem?_set_self hlt] at ha'
      rw [hn] at ha
      cases ha
      cases ha'
      exact hnd
    · rw [h, List.getElem?_set_ne (Ne.symm hm), ha] at ha'
      cases ha'
      exact hR m a hm

theorem NodeWise.map {f : Node → Node} (h : t.nodes = s.nodes.map f) (hR : ∀ m a, R m a (f a)) : NodeWise R s t where
  length := by rw [h, List.length_map]
  node := by
    intro m nd nd' hn hn'
    rw [h, List.getElem?_map, hn] at hn'
    cases hn'
    exact hR m nd

/-- What is there after a step was there before it. -/
theorem NodeWise.getElem? (h : NodeWise R s t) {m : Nat} {nd' : Node} (hn' : t.nodes[m]? = some nd') :
    ∃ nd, s.nodes[m]? = some nd ∧ R m nd nd' := by
  obtain ⟨hlt, -⟩ := List.getElem?_eq_some_iff.1 hn'
  have hn := List.getElem?_eq_getElem (h.length ▸ hlt)
  exact ⟨_, hn, h.node m _ nd' hn hn'⟩

theorem NodeWise.trans (hR : ∀ m a b c, R m a b → R m b c → R m a c) (h : NodeWise R s t) (h' : NodeWise R t u) :
    NodeWise R s u where
  length := h'.length.trans h.length
  node := by
    intro m nd nd' hn hn'
    obtain ⟨b, hb, hb'⟩ := h'.getElem? hn'
    exact hR m nd b nd' (h.node m nd b hn hb) hb'

end

/-- A successful send changes the channel of its receiver alone. -/
theorem CmbSend.nodeWise {R : Nat → Node → Node → Prop} {e : Epoch} {es : List Entry} {s t : State} (h : CmbSend e es s t)
    (hR : ∀ m a, R m a a) (hrx : ∀ m a f, R m a { a with rx := { a.rx with q := a.rx.q ++ [f] } }) : NodeWise R s t := by
  cases h with
  | intro nd hn halive =>
    exact .set (nd' := { nd with rx := { nd.rx with q := nd.rx.q ++ [combinedFrame s e es s.cmb.sent] } }) rfl hn
      (hrx _ _ _) fun m a _ => hR m a

/-! ## Death of the combiner -/

/-- A node without the combiner's channel ends, which it has in the combined wiring (R257). -/
def Node.withoutCmb (w : Wiring) (nd : Node) : Node :=
  match w with
  | .combined => { nd with tx := { nd.tx with rxAlive := false }, rx := { nd.rx with txAlive := false } }
  | .direct => nd

theorem killEnds_cmb_nodes (s : State) : (killEnds .cmb s).nodes = s.nodes.map (Node.withoutCmb s.cfg.wiring) := by
  rw [killEnds]
  cases s.cfg.wiring with
  | combined => rfl
  | direct => exact (List.map_id' s.nodes).symm

theorem raiseFault_cmb_nodes_eq_map (r : Fault) (s : State) :
    (raiseFault .cmb r s).nodes = s.nodes.map (Node.withoutCmb s.cfg.wiring) :=
  killEnds_cmb_nodes _

section
variable {R : Nat → Node → Node → Prop} {s t : State}

/-- What a receive of the combiner does to the nodes. -/
theorem recvTurn_nodeWise (hR : ∀ m a, R m a a) (htrans : ∀ m a b c, R m a b → R m b c → R m a c)
    (htx : ∀ m a q, R m a { a with tx := { a.tx with q := q } }) (hdead : ∀ w m a, R m a (a.withoutCmb w)) :
    NodeWise R s (recvTurn s) := by
  have hraise : ∀ r u, NodeWise R u (raiseFault .cmb r u) := fun r u =>
    .map (raiseFault_cmb_nodes_eq_map r u) (hdead u.cfg.wiring)
  rcases recvTurn_cases s with ⟨-, h⟩ | ⟨nd, hn, ⟨-, -, h⟩ | ⟨-, -, h⟩ | ⟨f, q, -, ⟨-, h⟩ | ⟨b, -, h⟩⟩⟩
  · exact .same (by rw [h]) hR
  · exact .same (by rw [h]) hR
  · exact h ▸ hraise _ s
  · have htaken : NodeWise R s (s.setNode s.cmb.rr { nd with tx := { nd.tx with q := q } }) :=
      .set rfl hn (htx _ _ _) fun m a _ => hR m a
    exact h ▸ htaken.trans htrans (hraise _ _)
  · exact .set (by rw [h]; rfl) hn (htx _ _ _) fun m a _ => hR m a

/-- What a check of the combiner does to the nodes. -/
theorem CheckOp.nodeWise (h : CheckOp s t) (hR : ∀ m a, R m a a) (htrans : ∀ m a b c, R m a b → R m b c → R m a c)
    (hrx : ∀ m a f, R m a { a with rx := { a.rx with q := a.rx.q ++ [f] } }) (hdead : ∀ w m a, R m a (a.withoutCmb w)) :
    NodeWise R s t := by
  have hsends : ∀ {e es u}, ReflTransGen (CmbSend e es) s u → NodeWise R s u := by
    intro e es u hu
    induction hu with
    | refl => exact .same rfl hR
    | tail _ hsend ih => exact ih.trans htrans (hsend.nodeWise hR hrx)
  cases h with
  | collect _ ht => exact .same (by rw [ht]; rfl) hR
  | sends e es _ hs => exact hsends hs
  | dead e es _ mid nd hs _ _ ht =>
    exact ht ▸ (hsends hs).trans htrans (.map (raiseFault_cmb_nodes_eq_map _ mid) (hdead mid.cfg.wiring))
  | finish e es _ mid hs _ ht => exact ht ▸ (hsends hs).trans htrans (.same rfl hR)

end

/-! ## Removal of a unit -/

/-- What the removal of a unit of node `n` does (R70, R257). -/
theorem removed_cases {u : UnitId} {l : Life} {s t : State} (hlife : lifeOf u s = some l)
    (ht : t = killEnds u (mapLife u (fun l => { l with present := false }) s)) :
    (∃ n nd, s.nodes[n]? = some nd ∧ u = .pkt n ∧ t = s.setNode n { nd with
      pkt := { nd.pkt with work := none, life := { nd.pkt.life with present := false } }
      tx := { nd.tx with txAlive := false } }) ∨
    (∃ n nd, s.nodes[n]? = some nd ∧ u = .dpk n ∧ t = s.setNode n (Node.setDpkIn s.cfg.wiring
      { nd with dpk := { nd.dpk with work := none, life := { nd.dpk.life with present := false } } }
      { nd.dpkIn s.cfg.wiring with rxAlive := false })) ∨
    (∃ n nd, s.nodes[n]? = some nd ∧ u = .nse n ∧
      t = s.setNode n { nd with nse := { nd.nse with life := { nd.nse.life with present := false } } }) ∨
    (∃ n nd, s.nodes[n]? = some nd ∧ u = .dec n ∧
      t = s.setNode n { nd with dec := ⟨{ nd.dec.life with present := false }⟩ }) ∨
    (u = .cmb ∧ t.cfg = s.cfg ∧ t.cmb = { s.cmb with life := { s.cmb.life with present := false } } ∧ t.inbox = s.inbox ∧
      t.nodes = s.nodes.map (Node.withoutCmb s.cfg.wiring)) := by
  cases u with
  | pkt n =>
    obtain ⟨nd, hn, -⟩ := Option.map_eq_some_iff.1 hlife
    refine .inl ⟨n, nd, hn, rfl, ?_⟩
    rw [ht, mapLife, killEnds, modifyNode_eq_setNode hn, modifyNode_setNode]
  | dpk n =>
    obtain ⟨nd, hn, -⟩ := Option.map_eq_some_iff.1 hlife
    refine .inr (.inl ⟨n, nd, hn, rfl, ?_⟩)
    rw [ht, mapLife, killEnds, modifyNode_eq_setNode hn, modifyNode_setNode]
    cases hw : s.cfg.wiring <;> simp [hw, Node.dpkIn]
  | nse n =>
    obtain ⟨nd, hn, -⟩ := Option.map_eq_some_iff.1 hlife
    refine .inr (.inr (.inl ⟨n, nd, hn, rfl, ?_⟩))
    rw [ht, mapLife, killEnds, modifyNode_eq_setNode hn]
  | dec n =>
    obtain ⟨nd, hn, -⟩ := Option.map_eq_some_iff.1 hlife
    refine .inr (.inr (.inr (.inl ⟨n, nd, hn, rfl, ?_⟩)))
    rw [ht, mapLife, killEnds, modifyNode_eq_setNode hn]
  | cmb =>
    refine .inr (.inr (.inr (.inr ⟨rfl, ?_⟩)))
    rw [ht]
    exact ⟨by simp, by simp [mapLife], by simp, by rw [killEnds_cmb_nodes, mapLife]⟩

end Sys2Proof.Machine
end

section
/-! PROOF. The configuration never changes (00 R9, 10 R36), and a step changes at most the status of the unit whose fault it
records (10 R35; 60 R255 to R258). -/

namespace Sys2Proof.Machine

open Relation (ReflTransGen)

/-! ## What a packetizer leaves of its node -/

/-- The node but for its packetizer's own state, the frames it adds at the end of `TX`, and the end of `TX` that it owns. -/
structure PktKept (nd nd' : Node) : Prop where
  dpk : nd'.dpk = nd.dpk
  nse : nd'.nse = nd.nse
  dec : nd'.dec = nd.dec
  rx : nd'.rx = nd.rx
  rxAlive : nd'.tx.rxAlive = nd.tx.rxAlive
  present : nd'.pkt.life.present = nd.pkt.life.present
  sent : ∃ new, nd'.tx.q = nd.tx.q ++ new

theorem PktKept.refl (nd : Node) : PktKept nd nd := ⟨rfl, rfl, rfl, rfl, rfl, rfl, [], (List.append_nil _).symm⟩

theorem PktKept.trans {a b c : Node} (h : PktKept a b) (h' : PktKept b c) : PktKept a c where
  dpk := h'.dpk.trans h.dpk
  nse := h'.nse.trans h.nse
  dec := h'.dec.trans h.dec
  rx := h'.rx.trans h.rx
  rxAlive := h'.rxAlive.trans h.rxAlive
  present := h'.present.trans h.present
  sent := by
    obtain ⟨new, hnew⟩ := h.sent
    obtain ⟨new', hnew'⟩ := h'.sent
    exact ⟨new ++ new', by rw [hnew', hnew, List.append_assoc]⟩

theorem PktMove.kept {nd nd' : Node} (h : PktMove nd nd') : PktKept nd nd' := by
  cases h with
  | record _ _ | store _ _ _ | finish _ _ => exact ⟨rfl, rfl, rfl, rfl, rfl, rfl, [], (List.append_nil _).symm⟩
  | emit win _ _ _ _ => exact ⟨rfl, rfl, rfl, rfl, rfl, rfl, [⟨nd.pkt.epoch, win⟩], rfl⟩

theorem PktMove.life {nd nd' : Node} (h : PktMove nd nd') : nd'.pkt.life = nd.pkt.life := by
  cases h <;> rfl

theorem pktMoves_kept {nd nd' : Node} (h : ReflTransGen PktMove nd nd') : PktKept nd nd' ∧ nd'.pkt.life = nd.pkt.life := by
  induction h with
  | refl => exact ⟨.refl nd, rfl⟩
  | tail _ hmove ih => exact ⟨ih.1.trans hmove.kept, hmove.life.trans ih.2⟩

/-- A fault leaves the same of the node; the packetizer that takes it had run. -/
theorem PktFault.kept {nd nd' : Node} {r : Fault} (h : PktFault nd r nd') :
    PktKept nd nd' ∧ nd'.pkt.life = ⟨.terminated, true⟩ := by
  cases h with
  | intro _ _ hl _ _ _ => exact ⟨⟨rfl, rfl, rfl, rfl, rfl, by rw [hl]; rfl, [], (List.append_nil _).symm⟩, rfl⟩

/-- What an operation of a packetizer leaves of its node, with its status and the fault record. -/
theorem PktOp.kept {n : Nat} {nd : Node} {s t : State} (h : PktOp n nd s t) : ∃ nd', AtNode n nd' s t ∧ PktKept nd nd' ∧
    ((t.faults = s.faults ∧ nd'.pkt.life = nd.pkt.life) ∨
      ∃ r, t.faults = s.faults ++ [(.pkt n, r)] ∧ nd'.pkt.life = ⟨.terminated, true⟩) := by
  cases h with
  | calm nd' hat hfaults hmoves =>
    obtain ⟨hkept, hlife⟩ := pktMoves_kept hmoves
    exact ⟨nd', hat, hkept, .inl ⟨hfaults, hlife⟩⟩
  | faulted mid nd' r hat hfaults hmoves hfault =>
    obtain ⟨hkept, hlife⟩ := hfault.kept
    exact ⟨nd', hat, (pktMoves_kept hmoves).1.trans hkept, .inr ⟨r, hfaults, hlife⟩⟩

/-! ## What the combiner leaves -/

/-- Sends change the count of sends alone in the combiner. -/
theorem cmbSends_kept {e : Epoch} {es : List Entry} {s t : State} (h : ReflTransGen (CmbSend e es) s t) :
    t.cfg = s.cfg ∧ t.cmb = { s.cmb with sent := t.cmb.sent } ∧ t.faults = s.faults ∧ t.nNodes = s.nNodes := by
  induction h with
  | refl => exact ⟨rfl, rfl, rfl, rfl⟩
  | tail _ hsend ih =>
    obtain ⟨hcfg, hcmb, hfaults, hlen⟩ := ih
    have hlen' := hsend.nNodes
    cases hsend with
    | intro nd hn halive => exact ⟨hcfg, by rw [hcmb], hfaults, hlen'.trans hlen⟩

/-- What a fault of the combiner records. -/
def CmbFaulted (s t : State) : Prop :=
  ∃ r, t.faults = s.faults ++ [(.cmb, r)] ∧ t.cmb.life = { s.cmb.life with status := .terminated }

theorem recvTurn_kept (s : State) : (recvTurn s).cfg = s.cfg ∧ (recvTurn s).cmb.dist = s.cmb.dist ∧
    (((recvTurn s).faults = s.faults ∧ (recvTurn s).cmb.life = s.cmb.life) ∨ CmbFaulted s (recvTurn s)) := by
  have hadvance : ∀ b, (advanceRecv s.nNodes s.cmb b).dist = s.cmb.dist ∧ (advanceRecv s.nNodes s.cmb b).life = s.cmb.life := by
    intro b
    rw [advanceRecv]
    split <;> exact ⟨rfl, rfl⟩
  rcases recvTurn_cases s with ⟨-, h⟩ | ⟨nd, hn, ⟨-, -, h⟩ | ⟨-, -, h⟩ | ⟨f, q, -, ⟨-, h⟩ | ⟨b, -, h⟩⟩⟩ <;> rw [h]
  · exact ⟨rfl, rfl, .inl ⟨rfl, rfl⟩⟩
  · exact ⟨rfl, rfl, .inl ⟨rfl, rfl⟩⟩
  · exact ⟨raiseFault_cfg .., by rw [raiseFault_cmb_cmb], .inr ⟨_, raiseFault_faults .., by rw [raiseFault_cmb_cmb]⟩⟩
  · exact ⟨raiseFault_cfg .., by rw [raiseFault_cmb_cmb, setNode_cmb],
      .inr ⟨_, raiseFault_faults .., by rw [raiseFault_cmb_cmb, setNode_cmb]⟩⟩
  · exact ⟨rfl, (hadvance b).1, .inl ⟨rfl, (hadvance b).2⟩⟩

theorem CheckOp.kept {s t : State} (h : CheckOp s t) : t.cfg = s.cfg ∧ t.cmb.dist = s.cmb.dist ∧
    ((t.faults = s.faults ∧ t.cmb.life = s.cmb.life) ∨ CmbFaulted s t) := by
  cases h with
  | collect _ ht => exact ht ▸ ⟨rfl, rfl, .inl ⟨rfl, rfl⟩⟩
  | sends e es _ hs =>
    obtain ⟨hcfg, hcmb, hfaults, -⟩ := cmbSends_kept hs
    exact ⟨hcfg, by rw [hcmb], .inl ⟨hfaults, by rw [hcmb]⟩⟩
  | dead e es _ mid nd hs _ _ ht =>
    obtain ⟨hcfg, hcmb, hfaults, -⟩ := cmbSends_kept hs
    subst ht
    exact ⟨(raiseFault_cfg ..).trans hcfg, by rw [raiseFault_cmb_cmb, hcmb],
      .inr ⟨_, by rw [raiseFault_faults, hfaults], by rw [raiseFault_cmb_cmb, hcmb]⟩⟩
  | finish e es _ mid hs _ ht =>
    obtain ⟨hcfg, hcmb, hfaults, -⟩ := cmbSends_kept hs
    subst ht
    exact ⟨hcfg, by rw [finishCombine, hcmb], .inl ⟨hfaults, by rw [finishCombine, hcmb]⟩⟩

/-! ## The environment's actions -/

/-- What an action of the environment does to its node: one channel of it changes. -/
theorem EnvOp.at {c : ChanId} {nd : Node} {s t : State} (h : EnvOp c nd s t) :
    ∃ ch, AtNode c.node (nd.setChan c ch) s t := by
  cases h with
  | send f _ _ hat => exact ⟨_, hat⟩
  | recv f q _ _ hat _ => exact ⟨_, hat⟩
  | closeSender _ hat => exact ⟨_, hat⟩
  | closeReceiver _ hat => exact ⟨_, hat⟩

/-! ## The configuration -/

/-- A node keeps its standard deviation and its seed (R36). -/
def KeepsNoise (_ : Nat) (nd nd' : Node) : Prop := nd'.nse.sigma = nd.nse.sigma ∧ nd'.nse.seed = nd.nse.seed

theorem KeepsNoise.of_nse {m : Nat} {nd nd' : Node} (h : nd'.nse = nd.nse) : KeepsNoise m nd nd' :=
  ⟨by rw [h], by rw [h]⟩

theorem KeepsNoise.trans (m : Nat) (a b c : Node) (h : KeepsNoise m a b) (h' : KeepsNoise m b c) : KeepsNoise m a c :=
  ⟨h'.1.trans h.1, h'.2.trans h.2⟩

theorem withoutCmb_nse (w : Wiring) (nd : Node) : (nd.withoutCmb w).nse = nd.nse := by
  cases w <;> rfl

theorem setChan_nse (nd : Node) (c : ChanId) (ch : Chan) : (nd.setChan c ch).nse = nd.nse := by
  cases c <;> rfl

/-- The configuration, the distances, and every node's standard deviation and seed (R9, R36, R79). -/
structure KeepsConfig (s t : State) : Prop where
  cfg : t.cfg = s.cfg
  dist : t.cmb.dist = s.cmb.dist
  noise : NodeWise KeepsNoise s t

/-- A change of one node that keeps its noise injector's parameters. -/
theorem KeepsConfig.at {n : Nat} {nd nd' : Node} {s t : State} (hat : AtNode n nd' s t) (hn : s.nodes[n]? = some nd)
    (h : KeepsNoise n nd nd') : KeepsConfig s t :=
  ⟨hat.cfg, by rw [hat.cmb], .set hat.nodes hn h fun _ _ _ => .of_nse rfl⟩

theorem Effect.keepsConfig {s t : State} (h : Effect s t) : KeepsConfig s t := by
  cases h with
  | quiet h => exact ⟨h.cfg, by rw [h.cmb], .same h.nodes fun _ _ => .of_nse rfl⟩
  | pkt n nd hn h =>
    obtain ⟨nd', hat, hkept, -⟩ := h.kept
    exact .at hat hn (.of_nse hkept.nse)
  | dpk n nd hn q' c' ds h => exact .at h.node hn (.of_nse (setDpkIn_nse ..))
  | nse n nd hn h =>
    obtain ⟨nd', hat, hmove⟩ := h.2 nd hn
    exact .at hat hn ⟨hmove.sigma, hmove.seed⟩
  | recv hl hphase ht =>
    subst ht
    obtain ⟨hcfg, hdist, -⟩ := recvTurn_kept s
    exact ⟨hcfg, hdist, recvTurn_nodeWise (fun _ _ => .of_nse rfl) KeepsNoise.trans (fun _ _ _ => .of_nse rfl)
      fun w _ a => .of_nse (withoutCmb_nse w a)⟩
  | check hl hphase h =>
    obtain ⟨hcfg, hdist, -⟩ := h.kept
    exact ⟨hcfg, hdist, h.nodeWise (fun _ _ => .of_nse rfl) KeepsNoise.trans (fun _ _ _ => .of_nse rfl)
      fun w _ a => .of_nse (withoutCmb_nse w a)⟩
  | env c nd hn hfaults h =>
    obtain ⟨ch, hat⟩ := h.at
    exact .at hat hn (.of_nse (setChan_nse nd c ch))
  | remove u l hlife hpresent ht =>
    rcases removed_cases hlife ht with ⟨n, nd, hn, -, rfl⟩ | ⟨n, nd, hn, -, rfl⟩ | ⟨n, nd, hn, -, rfl⟩ | ⟨n, nd, hn, -, rfl⟩ |
      ⟨-, hcfg, hcmb, -, hnodes⟩
    · exact .at (.setNode ..) hn (.of_nse rfl)
    · exact .at (.setNode ..) hn (.of_nse (setDpkIn_nse ..))
    · exact .at (.setNode ..) hn ⟨rfl, rfl⟩
    · exact .at (.setNode ..) hn (.of_nse rfl)
    · exact ⟨hcfg, by rw [hcmb], .map hnodes fun _ a => .of_nse (withoutCmb_nse _ a)⟩

/-- Settles O12. -/
theorem configurationNeverChanges : Obligations.ConfigurationNeverChanges := by
  intro s t hstep
  obtain ⟨inbox, h⟩ := step_effect hstep
  obtain ⟨hcfg, hdist, hnoise⟩ := h.keepsConfig
  exact ⟨hcfg, hdist, hnoise.length, hnoise.node⟩

/-! ## The statuses -/

/-- Node `m` keeps the statuses of those of its units of which `P` holds. -/
structure KeepsStatus (P : UnitId → Prop) (m : Nat) (nd nd' : Node) : Prop where
  pkt : P (.pkt m) → nd'.pkt.life.status = nd.pkt.life.status
  dpk : P (.dpk m) → nd'.dpk.life.status = nd.dpk.life.status
  nse : P (.nse m) → nd'.nse.life.status = nd.nse.life.status
  dec : P (.dec m) → nd'.dec.life.status = nd.dec.life.status

theorem KeepsStatus.refl {P : UnitId → Prop} (m : Nat) (nd : Node) : KeepsStatus P m nd nd :=
  ⟨fun _ => rfl, fun _ => rfl, fun _ => rfl, fun _ => rfl⟩

theorem KeepsStatus.trans {P : UnitId → Prop} (m : Nat) (a b c : Node) (h : KeepsStatus P m a b) (h' : KeepsStatus P m b c) :
    KeepsStatus P m a c :=
  ⟨fun p => (h'.pkt p).trans (h.pkt p), fun p => (h'.dpk p).trans (h.dpk p), fun p => (h'.nse p).trans (h.nse p),
    fun p => (h'.dec p).trans (h.dec p)⟩

theorem withoutCmb_keepsStatus {P : UnitId → Prop} (w : Wiring) (m : Nat) (nd : Node) :
    KeepsStatus P m nd (nd.withoutCmb w) := by
  cases w <;> exact ⟨fun _ => rfl, fun _ => rfl, fun _ => rfl, fun _ => rfl⟩

theorem setChan_keepsStatus {P : UnitId → Prop} (m : Nat) (nd : Node) (c : ChanId) (ch : Chan) :
    KeepsStatus P m nd (nd.setChan c ch) := by
  cases c <;> exact ⟨fun _ => rfl, fun _ => rfl, fun _ => rfl, fun _ => rfl⟩

theorem setDpkIn_keepsStatus {P : UnitId → Prop} (m : Nat) (w : Wiring) (nd : Node) {q : Dpk} (c : Chan)
    (hq : q.life.status = nd.dpk.life.status) : KeepsStatus P m nd (Node.setDpkIn w { nd with dpk := q } c) := by
  cases w <;> exact ⟨fun _ => rfl, fun _ => hq, fun _ => rfl, fun _ => rfl⟩

/-- Statuses unit by unit, from those of the nodes and of the combiner. -/
theorem lifeOf_status {P : UnitId → Prop} {s t : State} (hnodes : NodeWise (KeepsStatus P) s t)
    (hcmb : P .cmb → t.cmb.life.status = s.cmb.life.status) (v : UnitId) (hv : P v) :
    (lifeOf v t).map Life.status = (lifeOf v s).map Life.status := by
  have hnode : ∀ (m : Nat) (f : Node → Life), (∀ nd nd', KeepsStatus P m nd nd' → (f nd').status = (f nd).status) →
      ((t.nodes[m]?).map f).map Life.status = ((s.nodes[m]?).map f).map Life.status := by
    intro m f hf
    cases hn' : t.nodes[m]? with
    | none =>
      rw [List.getElem?_eq_none_iff, hnodes.length, ← List.getElem?_eq_none_iff] at hn'
      rw [hn']
    | some nd' =>
      obtain ⟨nd, hn, hkeeps⟩ := hnodes.getElem? hn'
      rw [hn, Option.map_some, Option.map_some, Option.map_some, Option.map_some, hf nd nd' hkeeps]
  cases v with
  | pkt m => exact hnode m _ fun _ _ h => h.pkt hv
  | dpk m => exact hnode m _ fun _ _ h => h.dpk hv
  | nse m => exact hnode m _ fun _ _ h => h.nse hv
  | dec m => exact hnode m _ fun _ _ h => h.dec hv
  | cmb => exact congrArg some (hcmb hv)

/-- No status changes and no fault is recorded. -/
def NoTermination (s t : State) : Prop :=
  t.faults = s.faults ∧ ∀ u, (lifeOf u t).map Life.status = (lifeOf u s).map Life.status

/-- One unit takes a fault and is TERMINATED, and no other status changes. -/
def OneTermination (s t : State) : Prop :=
  ∃ u r, t.faults = s.faults ++ [(u, r)] ∧ (lifeOf u t).map Life.status = some .terminated ∧
    ∀ v, v ≠ u → (lifeOf v t).map Life.status = (lifeOf v s).map Life.status

theorem NoTermination.at {n : Nat} {nd nd' : Node} {s t : State} (hfaults : t.faults = s.faults) (hat : AtNode n nd' s t)
    (hn : s.nodes[n]? = some nd) (h : KeepsStatus (fun _ => True) n nd nd') : NoTermination s t :=
  ⟨hfaults, fun u => lifeOf_status (P := fun _ => True) (.set hat.nodes hn h fun m a _ => .refl m a)
    (fun _ => by rw [hat.cmb]) u trivial⟩

/-- A fault of the combiner, with what it did to the nodes. -/
theorem terminates_of_cmb {s t : State} (hnodes : ∀ P, NodeWise (KeepsStatus P) s t)
    (h : (t.faults = s.faults ∧ t.cmb.life = s.cmb.life) ∨ CmbFaulted s t) : NoTermination s t ∨ OneTermination s t := by
  rcases h with ⟨hfaults, hlife⟩ | ⟨r, hfaults, hlife⟩
  · exact .inl ⟨hfaults, fun u => lifeOf_status (P := fun _ => True) (hnodes _) (fun _ => by rw [hlife]) u trivial⟩
  · refine .inr ⟨.cmb, r, hfaults, by rw [lifeOf, Option.map_some, hlife], fun v hv => ?_⟩
    exact lifeOf_status (P := (· ≠ .cmb)) (hnodes _) (fun hne => absurd rfl hne) v hv

theorem Effect.terminates {s t : State} (h : Effect s t) : NoTermination s t ∨ OneTermination s t := by
  cases h with
  | quiet h =>
    exact .inl ⟨h.faults, fun u => lifeOf_status (P := fun _ => True) (.same h.nodes .refl) (fun _ => by rw [h.cmb]) u trivial⟩
  | pkt n nd hn h =>
    obtain ⟨nd', hat, hkept, ⟨hfaults, hlife⟩ | ⟨r, hfaults, hlife⟩⟩ := h.kept
    · exact .inl (.at hfaults hat hn ⟨fun _ => by rw [hlife], fun _ => by rw [hkept.dpk], fun _ => by rw [hkept.nse],
        fun _ => by rw [hkept.dec]⟩)
    · refine .inr ⟨.pkt n, r, hfaults, ?_, fun v hv => lifeOf_status (P := (· ≠ .pkt n)) (.set hat.nodes hn ?_ ?_) ?_ v hv⟩
      · rw [lifeOf, hat.getElem?_self hn, Option.map_some, Option.map_some, hlife]
      · exact ⟨fun hne => absurd rfl hne, fun _ => by rw [hkept.dpk], fun _ => by rw [hkept.nse], fun _ => by rw [hkept.dec]⟩
      · exact fun m a _ => .refl m a
      · exact fun _ => by rw [hat.cmb]
  | dpk n nd hn q' c' ds h => exact .inl (.at h.faults h.node hn (setDpkIn_keepsStatus n _ nd c' (by rw [h.move.life])))
  | nse n nd hn h =>
    obtain ⟨nd', hat, hmove⟩ := h.2 nd hn
    refine .inl (.at h.1 hat hn ⟨fun _ => ?_, fun _ => ?_, fun _ => by rw [hmove.life], fun _ => ?_⟩) <;> rw [hmove.node]
  | recv hl hphase ht =>
    subst ht
    exact terminates_of_cmb (fun P => recvTurn_nodeWise .refl .trans
      (fun _ _ _ => ⟨fun _ => rfl, fun _ => rfl, fun _ => rfl, fun _ => rfl⟩) withoutCmb_keepsStatus) (recvTurn_kept s).2.2
  | check hl hphase h =>
    exact terminates_of_cmb (fun P => h.nodeWise .refl .trans
      (fun _ _ _ => ⟨fun _ => rfl, fun _ => rfl, fun _ => rfl, fun _ => rfl⟩) withoutCmb_keepsStatus) h.kept.2.2
  | env c nd hn hfaults h =>
    obtain ⟨ch, hat⟩ := h.at
    exact .inl (.at hfaults hat hn (setChan_keepsStatus _ nd c ch))
  | remove u l hlife hpresent ht =>
    have hfaults : t.faults = s.faults := by rw [ht]; simp
    rcases removed_cases hlife ht with ⟨n, nd, hn, -, rfl⟩ | ⟨n, nd, hn, -, rfl⟩ | ⟨n, nd, hn, -, rfl⟩ | ⟨n, nd, hn, -, rfl⟩ |
      ⟨-, hcfg, hcmb, -, hnodes⟩
    · exact .inl (.at hfaults (.setNode ..) hn ⟨fun _ => rfl, fun _ => rfl, fun _ => rfl, fun _ => rfl⟩)
    · exact .inl (.at hfaults (.setNode ..) hn (setDpkIn_keepsStatus n _ nd _ rfl))
    · exact .inl (.at hfaults (.setNode ..) hn ⟨fun _ => rfl, fun _ => rfl, fun _ => rfl, fun _ => rfl⟩)
    · exact .inl (.at hfaults (.setNode ..) hn ⟨fun _ => rfl, fun _ => rfl, fun _ => rfl, fun _ => rfl⟩)
    · exact .inl ⟨hfaults, fun v => lifeOf_status (P := fun _ => True) (.map hnodes (withoutCmb_keepsStatus _))
        (fun _ => by rw [hcmb]) v trivial⟩

/-- Settles O13. -/
theorem faultTerminatesOnlyItsUnit : Obligations.FaultTerminatesOnlyItsUnit := by
  intro s t hstep
  obtain ⟨inbox, h⟩ := step_effect hstep
  have hsame : ∀ u, lifeOf u { s with inbox := inbox } = lifeOf u s := by
    intro u
    cases u <;> rfl
  have hterm := h.terminates
  simp only [NoTermination, OneTermination, hsame] at hterm
  exact hterm

end Sys2Proof.Machine
end

section
/-! PROOF. Every step keeps a legal state legal, and construction gives one (10 R23 to R29, R34, R35; 41 R146; 70 R280 to R282). -/

namespace Sys2Proof.Machine

open Relation (ReflTransGen)

/-! ## Legal units -/

/-- Of its channel a packetizer's legality reads the sender end alone. -/
theorem Pkt.Inv.congr {p : Pkt} {c c' : Chan} (h : p.Inv c) (hc : c'.txAlive = c.txAlive) : p.Inv c' :=
  ⟨h.win, h.fill, h.fillMax, by rw [hc]; exact h.alive, h.work⟩

/-- Of its channel a depacketizer's legality reads the receiver end alone. -/
theorem Dpk.Inv.congr {q : Dpk} {c c' : Chan} (h : q.Inv c) (hc : c'.rxAlive = c.rxAlive) : q.Inv c' :=
  ⟨h.rd, h.fresh, h.cur, h.running, by rw [hc]; exact h.alive, h.work⟩

theorem Node.Inv.reads {w : Wiring} {nd : Node} (h : nd.Inv w) : nd.dpk.Reads (nd.dpkIn w) where
  rd := h.dpk.rd
  fresh := h.dpk.fresh
  cur := h.dpk.cur
  queue := by
    cases w with
    | combined => exact h.rx
    | direct => exact h.tx

theorem dpkIn_rxAlive_congr {nd nd' : Node} (htx : nd'.tx.rxAlive = nd.tx.rxAlive) (hrx : nd'.rx = nd.rx) (w : Wiring) :
    (nd'.dpkIn w).rxAlive = (nd.dpkIn w).rxAlive := by
  cases w with
  | combined => exact congrArg Chan.rxAlive hrx
  | direct => exact htx

/-- A node in which the packetizer and its channel alone have changed, and are legal. -/
theorem PktKept.inv {w : Wiring} {nd nd' : Node} (h : PktKept nd nd') (hinv : nd.Inv w) (hpkt : nd'.pkt.Inv nd'.tx)
    (htx : nd'.tx.Wf) : nd'.Inv w where
  pkt := hpkt
  dpk := by rw [h.dpk]; exact hinv.dpk.congr (dpkIn_rxAlive_congr h.rxAlive h.rx w)
  nse := by rw [h.nse]; exact hinv.nse
  dec := by rw [h.dec]; exact hinv.dec
  tx := htx
  rx := by rw [h.rx]; exact hinv.rx

theorem PktMove.inv {w : Wiring} {nd nd' : Node} (h : PktMove nd nd') (hinv : nd.Inv w) : nd'.Inv w := by
  have hp := hinv.pkt
  refine h.kept.inv hinv ?pkt ?tx
  case pkt =>
    cases h with
    | record wk hw =>
      refine ⟨hp.win, hp.fill, hp.fillMax, hp.alive, fun hsome => ?_⟩
      obtain ⟨hl, hdone | hbusy⟩ := hw hsome
      · exact ⟨hl, hdone⟩
      · exact hp.work hbusy
    | store x hl hfill =>
      have hlt : nd.pkt.fill + 1 < frameLen := by
        have := hp.fill (by rw [hl])
        omega
      exact ⟨List.length_set.trans hp.win, fun _ => hlt, hlt.le, hp.alive, hp.work⟩
    | emit win hwin hl hepoch halive =>
      exact ⟨hwin hp.win hp.fillMax, fun _ => (by decide : (0 : Nat) < frameLen), Nat.zero_le _, hp.alive, hp.work⟩
    | finish hl hwork => exact ⟨hp.win, hp.fill, hp.fillMax, hp.alive, fun hbusy => absurd hwork hbusy⟩
  case tx =>
    cases h with
    | record _ _ | store _ _ _ | finish _ _ => exact hinv.tx
    | emit win hwin hl hepoch halive =>
      intro f hf
      rcases List.mem_append.1 hf with hf | hf
      · exact hinv.tx f hf
      · rw [List.mem_singleton] at hf
        subst hf
        exact hwin hp.win hp.fillMax

theorem pktMoves_inv {w : Wiring} {nd nd' : Node} (h : ReflTransGen PktMove nd nd') (hinv : nd.Inv w) : nd'.Inv w := by
  induction h with
  | refl => exact hinv
  | tail _ hmove ih => exact hmove.inv ih

theorem PktFault.inv {w : Wiring} {nd nd' : Node} {r : Fault} (h : PktFault nd r nd') (hinv : nd.Inv w) : nd'.Inv w := by
  have hp := hinv.pkt
  refine h.kept.1.inv hinv ?pkt ?tx
  case pkt =>
    cases h with
    | intro win fill hl hr hwin hfill =>
      refine ⟨hwin hp.win hp.fillMax, fun hrun => (nomatch hrun), ?_, fun _ => ⟨fun h => (nomatch h), fun h => (nomatch h)⟩,
        fun hbusy => absurd rfl hbusy⟩
      rcases hfill with rfl | rfl
      · exact hp.fillMax
      · exact Nat.le_refl _
  case tx =>
    cases h
    exact hinv.tx

/-- A packetizer's operation keeps its node legal. -/
theorem PktOp.inv {n : Nat} {nd : Node} {s t : State} {w : Wiring} (h : PktOp n nd s t) (hinv : nd.Inv w) :
    ∃ nd', AtNode n nd' s t ∧ PktKept nd nd' ∧ nd'.Inv w := by
  cases h with
  | calm nd' hat _ hmoves => exact ⟨nd', hat, (pktMoves_kept hmoves).1, pktMoves_inv hmoves hinv⟩
  | faulted mid nd' r hat _ hmoves hfault =>
    exact ⟨nd', hat, (pktMoves_kept hmoves).1.trans hfault.kept.1, hfault.inv (pktMoves_inv hmoves hinv)⟩

/-- A node whose depacketizer and inbound channel are new and legal, with the channel's sender end as it was. -/
theorem Node.Inv.setDpkIn {w : Wiring} {nd : Node} (hinv : nd.Inv w) {q : Dpk} {c : Chan} (hq : q.Inv c) (hc : c.Wf)
    (htx : c.txAlive = (nd.dpkIn w).txAlive) : (Node.setDpkIn w { nd with dpk := q } c).Inv w := by
  cases w with
  | combined => exact ⟨hinv.pkt, hq, hinv.nse, hinv.dec, hinv.tx, hc⟩
  | direct => exact ⟨hinv.pkt.congr htx, hq, hinv.nse, hinv.dec, hc, hinv.rx⟩

theorem DpkMove.inv {w : Wiring} {nd : Node} {q' : Dpk} {c' : Chan} {ds : List C32}
    (h : DpkMove nd.dpk (nd.dpkIn w) q' c' ds) (hl : nd.dpk.life = Life.fresh true) (hinv : nd.Inv w) :
    (Node.setDpkIn w { nd with dpk := q' } c').Inv w := by
  have hreads := h.reads hinv.reads
  have hlife : q'.life = Life.fresh true := h.life.trans hl
  refine hinv.setDpkIn ⟨hreads.rd, hreads.fresh, hreads.cur, by rw [hlife], fun _ => ?_, fun _ => by rw [hlife]⟩ hreads.queue
    h.txAlive
  rw [h.rxAlive]
  exact hinv.dpk.alive (by rw [hl])

theorem NseMove.inv {w : Wiring} {nd nd' : Node} (h : NseMove nd nd') (hinv : nd.Inv w) : nd'.Inv w := by
  have hnse : nd'.nse.Inv := ⟨by rw [h.sigma]; exact hinv.nse.sigma, h.done hinv.nse.done, by rw [h.life]; exact hinv.nse.running⟩
  rw [h.node]
  exact ⟨hinv.pkt, hinv.dpk.congr (dpkIn_rxAlive_congr rfl rfl w), hnse, hinv.dec, hinv.tx, hinv.rx⟩

/-! ## The environment's ends (log 21) -/

theorem envOwns_sender_tx {s : State} {nd : Node} {n : Nat} (h : envOwns s nd (.tx n) .sender = true) :
    nd.pkt.life.present = false := by
  cases hw : s.cfg.wiring <;> simp_all [envOwns, ownersPresent]

theorem envOwns_sender_rx {s : State} {nd : Node} {n : Nat} (h : envOwns s nd (.rx n) .sender = true) :
    s.cmb.life.present = false := by
  cases hw : s.cfg.wiring <;> simp_all [envOwns, ownersPresent]

theorem envOwns_receiver_tx {s : State} {nd : Node} {n : Nat} (h : envOwns s nd (.tx n) .receiver = true) :
    (s.cfg.wiring = .combined ∧ s.cmb.life.present = false) ∨ (s.cfg.wiring = .direct ∧ nd.dpk.life.present = false) := by
  cases hw : s.cfg.wiring <;> simp_all [envOwns, ownersPresent]

theorem envOwns_receiver_rx {s : State} {nd : Node} {n : Nat} (h : envOwns s nd (.rx n) .receiver = true) :
    s.cfg.wiring = .combined ∧ nd.dpk.life.present = false := by
  cases hw : s.cfg.wiring <;> simp_all [envOwns, ownersPresent]

/-- Frames added to or taken from a channel of a node keep the node legal. -/
theorem Node.Inv.setQueue {w : Wiring} {nd : Node} (hinv : nd.Inv w) (c : ChanId) {q : List IqFrame} (hq : ∀ f ∈ q, f.wf) :
    (nd.setChan c { nd.chan c with q := q }).Inv w := by
  cases c with
  | tx n =>
    refine ⟨hinv.pkt.congr rfl, ?_, hinv.nse, hinv.dec, hq, hinv.rx⟩
    cases w <;> exact hinv.dpk.congr rfl
  | rx n =>
    refine ⟨hinv.pkt, ?_, hinv.nse, hinv.dec, hinv.tx, hq⟩
    cases w <;> exact hinv.dpk.congr rfl

theorem Node.Inv.wf_chan {w : Wiring} {nd : Node} (hinv : nd.Inv w) (c : ChanId) : (nd.chan c).Wf := by
  cases c with
  | tx n => exact hinv.tx
  | rx n => exact hinv.rx

/-- Without its packetizer a node's `TX` may lose its sender end. -/
theorem Pkt.Inv.of_absent {p : Pkt} {c c' : Chan} (h : p.Inv c) (habsent : p.life.present = false) : p.Inv c' :=
  ⟨h.win, h.fill, h.fillMax, fun hp => (nomatch habsent.symm.trans hp), h.work⟩

/-- Without its depacketizer a node's inbound channel may lose its receiver end. -/
theorem Dpk.Inv.of_absent {q : Dpk} {c c' : Chan} (h : q.Inv c) (habsent : q.life.present = false) : q.Inv c' :=
  ⟨h.rd, h.fresh, h.cur, h.running, fun hp => (nomatch habsent.symm.trans hp), h.work⟩

/-- A closed sender end is no packetizer's. -/
theorem Node.Inv.closeSender {w : Wiring} {nd : Node} (hinv : nd.Inv w) {c : ChanId}
    (habsent : ∀ n, c = .tx n → nd.pkt.life.present = false) :
    (nd.setChan c { nd.chan c with txAlive := false }).Inv w := by
  cases c with
  | tx n =>
    refine ⟨hinv.pkt.of_absent (habsent n rfl), ?_, hinv.nse, hinv.dec, hinv.tx, hinv.rx⟩
    cases w <;> exact hinv.dpk.congr rfl
  | rx n =>
    refine ⟨hinv.pkt, ?_, hinv.nse, hinv.dec, hinv.tx, hinv.rx⟩
    cases w <;> exact hinv.dpk.congr rfl

/-- A closed receiver end is no depacketizer's. -/
theorem Node.Inv.closeReceiver {w : Wiring} {nd : Node} (hinv : nd.Inv w) {c : ChanId}
    (habsent : (∃ n, c = .tx n) ∧ w = .combined ∨ nd.dpk.life.present = false) :
    (nd.setChan c { nd.chan c with rxAlive := false }).Inv w := by
  have hpkt : (nd.setChan c { nd.chan c with rxAlive := false }).pkt.Inv
      (nd.setChan c { nd.chan c with rxAlive := false }).tx := by
    cases c <;> exact hinv.pkt.congr rfl
  have hdpk : (nd.setChan c { nd.chan c with rxAlive := false }).dpk.Inv
      ((nd.setChan c { nd.chan c with rxAlive := false }).dpkIn w) := by
    rcases habsent with ⟨⟨n, rfl⟩, rfl⟩ | habsent
    · exact hinv.dpk.congr rfl
    · cases c <;> exact hinv.dpk.of_absent habsent
  cases c <;> exact ⟨hpkt, hdpk, hinv.nse, hinv.dec, hinv.tx, hinv.rx⟩

/-- An action of the environment keeps its node legal, and does not touch the ends that a combiner in existence owns. -/
theorem EnvOp.inv {c : ChanId} {nd : Node} {s t : State} (h : EnvOp c nd s t) (hinv : nd.Inv s.cfg.wiring)
    (hdirect : s.cfg.wiring = .direct → s.cmb.life.present = false) :
    ∃ nd', AtNode c.node nd' s t ∧ nd'.Inv s.cfg.wiring ∧
      (s.cmb.life.present = true → nd'.tx.rxAlive = nd.tx.rxAlive ∧ nd'.rx.txAlive = nd.rx.txAlive) := by
  have hwf := hinv.wf_chan c
  cases h with
  | send f hf howns hat =>
    refine ⟨_, hat, hinv.setQueue c fun g hg => ?_, fun _ => by cases c <;> exact ⟨rfl, rfl⟩⟩
    rcases List.mem_append.1 hg with hg | hg
    · exact hwf g hg
    · rw [List.mem_singleton] at hg
      exact hg ▸ hf
  | recv f q hq howns hat hout =>
    exact ⟨_, hat, hinv.setQueue c fun g hg => hwf g (hq ▸ List.mem_cons_of_mem f hg), fun _ => by cases c <;> exact ⟨rfl, rfl⟩⟩
  | closeSender howns hat =>
    refine ⟨_, hat, hinv.closeSender fun n hc => ?_, fun hp => ?_⟩
    · subst hc
      exact envOwns_sender_tx howns
    · cases c with
      | tx n => exact ⟨rfl, rfl⟩
      | rx n => exact (nomatch (envOwns_sender_rx howns).symm.trans hp)
  | closeReceiver howns hat =>
    cases c with
    | tx n =>
      rcases envOwns_receiver_tx howns with ⟨hw, habsent⟩ | ⟨hw, habsent⟩
      · exact ⟨_, hat, hinv.closeReceiver (.inl ⟨⟨n, rfl⟩, hw⟩), fun hp => (nomatch habsent.symm.trans hp)⟩
      · exact ⟨_, hat, hinv.closeReceiver (.inr habsent), fun hp => (nomatch (hdirect hw).symm.trans hp)⟩
    | rx n => exact ⟨_, hat, hinv.closeReceiver (.inr (envOwns_receiver_rx howns).2), fun _ => ⟨rfl, rfl⟩⟩

/-! ## A legal combiner -/

theorem readyEpoch_congr {s t : State} (hbuf : t.cmb.buf = s.cmb.buf) (hlen : t.nNodes = s.nNodes) :
    readyEpoch t = readyEpoch s := by
  rw [readyEpoch, readyEpoch, hbuf, hlen]

/-- The combiner's own state is as it was but for its life, and its channel ends agree with that. -/
theorem CmbInv.congr {s t : State} (h : CmbInv s) {l : Life} (hcmb : t.cmb = { s.cmb with life := l })
    (hlen : t.nNodes = s.nNodes)
    (halive : l.present = true → ∀ nd ∈ t.nodes,
      (nd.tx.rxAlive = true ↔ l.status = .running) ∧ (nd.rx.txAlive = true ↔ l.status = .running))
    (hdirect : t.cfg.wiring = .direct → l.present = false) : CmbInv t where
  buf := by rw [hcmb, hlen]; exact h.buf
  rr := by rw [hcmb, hlen]; exact h.rr
  check := by rw [hcmb]; exact h.check
  recv := by rw [hcmb]; exact h.recv
  sent := by rw [hcmb, hlen]; exact h.sent
  sending := by rw [readyEpoch_congr (by rw [hcmb]) hlen, hcmb]; exact h.sending
  dist := by rw [hcmb, hlen]; exact h.dist
  alive := by rw [hcmb]; exact halive
  direct := by rw [hcmb]; exact hdirect

/-! ## A legal state -/

/-- A change of one node that keeps it legal and leaves the ends that a combiner in existence owns. -/
theorem State.Inv.at {n : Nat} {nd nd' : Node} {s t : State} (h : s.Inv) (hn : s.nodes[n]? = some nd) (hat : AtNode n nd' s t)
    (hnd : nd'.Inv s.cfg.wiring)
    (hends : s.cmb.life.present = true → nd'.tx.rxAlive = nd.tx.rxAlive ∧ nd'.rx.txAlive = nd.rx.txAlive) : t.Inv where
  cfg := by rw [hat.cfg]; exact h.cfg
  node := by
    intro a ha
    rw [hat.cfg]
    rw [hat.nodes] at ha
    rcases List.mem_or_eq_of_mem_set ha with ha | rfl
    · exact h.node a ha
    · exact hnd
  cmb := by
    refine h.cmb.congr (l := s.cmb.life) hat.cmb (by rw [State.nNodes, hat.nodes, List.length_set]) (fun hp a ha => ?_)
      (by rw [hat.cfg]; exact h.cmb.direct)
    rw [hat.nodes] at ha
    rcases List.mem_or_eq_of_mem_set ha with ha | rfl
    · exact h.cmb.alive hp a ha
    · obtain ⟨htx, hrx⟩ := hends hp
      rw [htx, hrx]
      exact h.cmb.alive hp nd (List.mem_of_getElem? hn)

theorem State.Inv.nodeAt {n : Nat} {nd : Node} {s : State} (h : s.Inv) (hn : s.nodes[n]? = some nd) :
    nd.Inv s.cfg.wiring :=
  h.node nd (List.mem_of_getElem? hn)

theorem State.Inv.congr {s t : State} (h : s.Inv) (hcfg : t.cfg = s.cfg) (hnodes : t.nodes = s.nodes) (hcmb : t.cmb = s.cmb) :
    t.Inv where
  cfg := by rw [hcfg]; exact h.cfg
  node := by rw [hcfg, hnodes]; exact h.node
  cmb := h.cmb.congr (l := s.cmb.life) hcmb (by rw [State.nNodes, hnodes])
    (by rw [hnodes]; exact h.cmb.alive) (by rw [hcfg]; exact h.cmb.direct)

theorem Node.Inv.withoutCmb {w : Wiring} {nd : Node} (h : nd.Inv w) : (nd.withoutCmb w).Inv w := by
  cases w with
  | combined => exact ⟨h.pkt.congr rfl, h.dpk.congr rfl, h.nse, h.dec, h.tx, h.rx⟩
  | direct => exact h

/-- The combiner dies, by a fault or by its removal: every end of it dies with it. -/
theorem State.Inv.withoutCmb {s t : State} (h : s.Inv) {l : Life} (hcfg : t.cfg = s.cfg)
    (hnodes : t.nodes = s.nodes.map (Node.withoutCmb s.cfg.wiring)) (hcmb : t.cmb = { s.cmb with life := l })
    (hl : l.present = true → l.status = .terminated) (hpresent : l.present = true → s.cmb.life.present = true) : t.Inv where
  cfg := by rw [hcfg]; exact h.cfg
  node := by
    intro a ha
    rw [hnodes] at ha
    obtain ⟨nd, hnd, rfl⟩ := List.mem_map.1 ha
    rw [hcfg]
    exact (h.node nd hnd).withoutCmb
  cmb := by
    have hdirect : s.cfg.wiring = .direct → l.present = false := fun hw =>
      Bool.eq_false_iff.2 fun hp => (nomatch (h.cmb.direct hw).symm.trans (hpresent hp))
    refine h.cmb.congr hcmb (by rw [State.nNodes, hnodes, List.length_map]) (fun hp a ha => ?_) (by rw [hcfg]; exact hdirect)
    rw [hnodes] at ha
    obtain ⟨nd, -, rfl⟩ := List.mem_map.1 ha
    rw [hl hp]
    cases hw : s.cfg.wiring with
    | combined => exact ⟨⟨fun h => (nomatch h), fun h => (nomatch h)⟩, ⟨fun h => (nomatch h), fun h => (nomatch h)⟩⟩
    | direct => exact (nomatch (hdirect hw).symm.trans hp)

theorem State.Inv.raiseFault_cmb {s : State} (h : s.Inv) (r : Fault) : (raiseFault .cmb r s).Inv :=
  h.withoutCmb (raiseFault_cfg ..) (raiseFault_cmb_nodes_eq_map r s) (raiseFault_cmb_cmb r s) (fun _ => rfl) id

/-- A frame taken from `TX[rr]`. -/
theorem State.Inv.takeTx {s : State} {n : Nat} {nd : Node} {f : IqFrame} {q : List IqFrame} (h : s.Inv)
    (hn : s.nodes[n]? = some nd) (hq : nd.tx.q = f :: q) : (s.setNode n { nd with tx := { nd.tx with q := q } }).Inv :=
  h.at hn (.setNode ..) ((h.nodeAt hn).setQueue (.tx n) fun g hg => (h.nodeAt hn).tx g (hq ▸ List.mem_cons_of_mem f hg))
    fun _ => ⟨rfl, rfl⟩

theorem Buf.insert_ne_nil {f : IqFrame} {n : Nat} {b b' : Buf} (h : Buf.insert f n b = some b') : b' ≠ [] := by
  rintro rfl
  have := (Buf.insert_keys h f.epoch).2 (.inl rfl)
  cases this

theorem recvTurn_inv {s : State} (h : s.Inv) (hphase : s.cmb.phase = .recv) : (recvTurn s).Inv := by
  rcases recvTurn_cases s with ⟨-, hs⟩ | ⟨nd, hn, ⟨-, -, hs⟩ | ⟨-, -, hs⟩ | ⟨f, q, hq, ⟨-, hs⟩ | ⟨b, hb, hs⟩⟩⟩ <;> rw [hs]
  · exact h
  · exact h
  · exact h.raiseFault_cmb _
  · exact (h.takeTx hn hq).raiseFault_cmb _
  · have htaken := h.takeTx hn hq
    have hf : f.wf := (h.nodeAt hn).tx f (hq ▸ List.mem_cons_self)
    have hsent := h.cmb.recv hphase
    have hrr := h.cmb.rr
    have hlen : (s.nodes.set s.cmb.rr { nd with tx := { nd.tx with q := q } }).length = s.nodes.length := List.length_set
    have hbuf : BufInv (s.nodes.set s.cmb.rr { nd with tx := { nd.tx with q := q } }).length b := by
      rw [hlen]
      exact h.cmb.buf.insert hf hrr hb
    refine ⟨htaken.cfg, htaken.node, ?_⟩
    unfold advanceRecv
    split
    case isTrue hlast =>
      exact ⟨hbuf, (Nat.zero_lt_of_lt hrr).trans_eq hlen.symm, fun _ => ⟨rfl, Buf.insert_ne_nil hb⟩, fun hp => (nomatch hp),
        htaken.cmb.sent, fun hpos => absurd hsent hpos.ne', htaken.cmb.dist, htaken.cmb.alive, htaken.cmb.direct⟩
    case isFalse hmore =>
      exact ⟨hbuf, (Nat.lt_of_le_of_ne hrr hmore).trans_eq hlen.symm, fun hp => (nomatch hphase.symm.trans hp), fun _ => hsent,
        htaken.cmb.sent, fun hpos => absurd hsent hpos.ne', htaken.cmb.dist, htaken.cmb.alive, htaken.cmb.direct⟩

theorem BufInv.remove {nNodes : Nat} {b : Buf} (h : BufInv nNodes b) (e : Epoch) : BufInv nNodes (Buf.remove e b) :=
  ⟨Buf.remove_wf h.keys, fun kv hkv => h.sets kv (List.mem_of_mem_filter hkv)⟩

theorem finishCombine_inv {s : State} (h : s.Inv) (e : Epoch) : (finishCombine e s).Inv where
  cfg := h.cfg
  node := h.node
  cmb := ⟨h.cmb.buf.remove e, h.cmb.rr, fun hp => (nomatch hp), fun _ => rfl, Nat.zero_le _, fun hpos => (nomatch hpos),
    h.cmb.dist, h.cmb.alive, h.cmb.direct⟩

theorem keepCollecting_inv {s : State} (h : s.Inv) (hready : readyEpoch s = none) : (keepCollecting s).Inv where
  cfg := h.cfg
  node := h.node
  cmb := ⟨h.cmb.buf, h.cmb.rr, fun hp => (nomatch hp),
    fun _ => Nat.eq_zero_of_not_pos fun hpos => h.cmb.sending hpos hready, h.cmb.sent,
    h.cmb.sending, h.cmb.dist, h.cmb.alive, h.cmb.direct⟩

/-- A send of a complete oldest epoch in phase CHECK. -/
theorem CmbSend.inv {e : Epoch} {es : List Entry} {s t : State} (hsend : CmbSend e es s t) (h : s.Inv)
    (hphase : s.cmb.phase = .check) (hready : readyEpoch s = some (e, es)) : t.Inv := by
  cases hsend with
  | intro nd hn halive =>
    have hnd := h.nodeAt hn
    have hsent : (s.setNode s.cmb.sent
        { nd with rx := { nd.rx with q := nd.rx.q ++ [combinedFrame s e es s.cmb.sent] } }).Inv := by
      refine h.at hn (.setNode ..) (hnd.setQueue (.rx s.cmb.sent) fun g hg => ?_) fun _ => ⟨rfl, rfl⟩
      rcases List.mem_append.1 hg with hg | hg
      · exact hnd.rx g hg
      · rw [List.mem_singleton] at hg
        exact hg ▸ combinedFrame_wf s e es s.cmb.sent
    obtain ⟨hlt, -⟩ := List.getElem?_eq_some_iff.1 hn
    have hready' : readyEpoch { s.setNode s.cmb.sent
        { nd with rx := { nd.rx with q := nd.rx.q ++ [combinedFrame s e es s.cmb.sent] } } with
        cmb := { s.cmb with sent := s.cmb.sent + 1 }, nanCtr := s.nanCtr + 1 } = readyEpoch s :=
      readyEpoch_congr rfl List.length_set
    have hle : s.cmb.sent + 1 ≤ (s.nodes.set s.cmb.sent
        { nd with rx := { nd.rx with q := nd.rx.q ++ [combinedFrame s e es s.cmb.sent] } }).length := by
      rw [List.length_set]
      exact hlt
    exact ⟨hsent.cfg, hsent.node, ⟨hsent.cmb.buf, hsent.cmb.rr, hsent.cmb.check, fun hp => (nomatch hphase.symm.trans hp),
      hle, fun _ => by rw [hready', hready]; exact Option.some_ne_none _,
      hsent.cmb.dist, hsent.cmb.alive, hsent.cmb.direct⟩⟩

theorem cmbSends_inv {e : Epoch} {es : List Entry} {s t : State} (hsends : ReflTransGen (CmbSend e es) s t) (h : s.Inv)
    (hphase : s.cmb.phase = .check) (hready : readyEpoch s = some (e, es)) : t.Inv := by
  induction hsends with
  | refl => exact h
  | tail hu hsend ih =>
    obtain ⟨-, hcmb, -, hlen⟩ := cmbSends_kept hu
    exact hsend.inv ih (by rw [hcmb]; exact hphase) ((readyEpoch_congr (by rw [hcmb]) hlen).trans hready)

theorem CheckOp.inv {s t : State} (hop : CheckOp s t) (h : s.Inv) (hphase : s.cmb.phase = .check) : t.Inv := by
  cases hop with
  | collect hready ht => exact ht ▸ keepCollecting_inv h hready
  | sends e es hready hs => exact cmbSends_inv hs h hphase hready
  | dead e es hready mid nd hs _ _ ht => exact ht ▸ (cmbSends_inv hs h hphase hready).raiseFault_cmb _
  | finish e es hready mid hs _ ht => exact ht ▸ finishCombine_inv (cmbSends_inv hs h hphase hready) e

/-- The removal of a unit (R70, R257). -/
theorem removed_inv {u : UnitId} {l : Life} {s t : State} (h : s.Inv) (hlife : lifeOf u s = some l)
    (ht : t = killEnds u (mapLife u (fun l => { l with present := false }) s)) : t.Inv := by
  rcases removed_cases hlife ht with ⟨n, nd, hn, -, rfl⟩ | ⟨n, nd, hn, -, rfl⟩ | ⟨n, nd, hn, -, rfl⟩ | ⟨n, nd, hn, -, rfl⟩ |
    ⟨-, hcfg, hcmb, -, hnodes⟩
  · have hnd := h.nodeAt hn
    have hpkt : Pkt.Inv { nd.pkt with work := none, life := { nd.pkt.life with present := false } }
        { nd.tx with txAlive := false } :=
      ⟨hnd.pkt.win, hnd.pkt.fill, hnd.pkt.fillMax, fun hp => (nomatch hp), fun hbusy => absurd rfl hbusy⟩
    exact h.at hn (.setNode ..) ⟨hpkt, hnd.dpk.congr (dpkIn_rxAlive_congr (by rfl) (by rfl) _), hnd.nse, hnd.dec, hnd.tx, hnd.rx⟩
      fun _ => ⟨rfl, rfl⟩
  · have hnd := h.nodeAt hn
    have hdpk : Dpk.Inv { nd.dpk with work := none, life := { nd.dpk.life with present := false } }
        { nd.dpkIn s.cfg.wiring with rxAlive := false } :=
      ⟨hnd.dpk.rd, hnd.dpk.fresh, hnd.dpk.cur, hnd.dpk.running, fun hp => (nomatch hp), fun hbusy => absurd rfl hbusy⟩
    refine h.at hn (.setNode ..) (hnd.setDpkIn hdpk hnd.reads.queue rfl) fun hp => ?_
    cases hw : s.cfg.wiring with
    | combined => exact ⟨rfl, rfl⟩
    | direct => exact (nomatch (h.cmb.direct hw).symm.trans hp)
  · have hnd := h.nodeAt hn
    exact h.at hn (.setNode ..) ⟨hnd.pkt, hnd.dpk.congr (dpkIn_rxAlive_congr rfl rfl _),
      ⟨hnd.nse.sigma, hnd.nse.done, hnd.nse.running⟩, hnd.dec, hnd.tx, hnd.rx⟩ fun _ => ⟨rfl, rfl⟩
  · have hnd := h.nodeAt hn
    exact h.at hn (.setNode ..) ⟨hnd.pkt, hnd.dpk.congr (dpkIn_rxAlive_congr rfl rfl _), hnd.nse, hnd.dec, hnd.tx, hnd.rx⟩
      fun _ => ⟨rfl, rfl⟩
  · exact h.withoutCmb hcfg hnodes hcmb (fun h => (nomatch h)) (fun h => (nomatch h))

/-! ## Every step -/

theorem setDpkIn_ends {w : Wiring} {nd : Node} {q : Dpk} {c : Chan} (htx : c.txAlive = (nd.dpkIn w).txAlive)
    (hrx : c.rxAlive = (nd.dpkIn w).rxAlive) :
    (Node.setDpkIn w { nd with dpk := q } c).tx.rxAlive = nd.tx.rxAlive ∧
      (Node.setDpkIn w { nd with dpk := q } c).rx.txAlive = nd.rx.txAlive := by
  cases w with
  | combined => exact ⟨rfl, htx⟩
  | direct => exact ⟨hrx, rfl⟩

theorem Effect.inv {s t : State} (heffect : Effect s t) (h : s.Inv) : t.Inv := by
  cases heffect with
  | quiet hop => exact h.congr hop.cfg hop.nodes hop.cmb
  | pkt n nd hn hop =>
    obtain ⟨nd', hat, hkept, hnd⟩ := hop.inv (h.nodeAt hn)
    exact h.at hn hat hnd fun _ => ⟨hkept.rxAlive, by rw [hkept.rx]⟩
  | dpk n nd hn q' c' ds hop =>
    exact h.at hn hop.node (hop.move.inv hop.life (h.nodeAt hn)) fun _ => setDpkIn_ends hop.move.txAlive hop.move.rxAlive
  | nse n nd hn hop =>
    obtain ⟨nd', hat, hmove⟩ := hop.2 nd hn
    exact h.at hn hat (hmove.inv (h.nodeAt hn)) fun _ => by rw [hmove.node]; exact ⟨rfl, rfl⟩
  | recv hl hphase ht => exact ht ▸ recvTurn_inv h hphase
  | check hl hphase hop => exact hop.inv h hphase
  | env c nd hn hfaults hop =>
    obtain ⟨nd', hat, hnd, hends⟩ := hop.inv (h.nodeAt hn) h.cmb.direct
    exact h.at hn hat hnd hends
  | remove u l hlife hpresent ht => exact removed_inv h hlife ht

/-- Settles O7. -/
theorem stepKeepsLegalState : Obligations.StepKeepsLegalState := by
  intro s t h hstep
  obtain ⟨inbox, heffect⟩ := step_effect hstep
  exact heffect.inv (h.congr rfl rfl rfl)

/-! ## Construction (R280 to R282) -/

/-- A node right after construction is legal. -/
theorem fresh_inv {p : Params} (hsigma : p.sigma.all F32.isNonneg = true) {n : Nat} (hn : n < p.sigma.length) (w : Wiring) :
    (Node.fresh p n).Inv w where
  pkt := ⟨win_length_fresh p n, fun _ => (by decide : (0 : Nat) < frameLen), Nat.zero_le _,
    fun _ => ⟨fun _ => rfl, fun _ => rfl⟩, fun hbusy => absurd rfl hbusy⟩
  dpk := ⟨Nat.le_refl _, fun _ => rfl, fun f hf => (nomatch hf), rfl, fun _ => by cases w <;> rfl, fun hbusy => absurd rfl hbusy⟩
  nse := ⟨List.all_eq_true.1 hsigma _ (List.mem_of_getElem? (sigma_fresh hn)), rfl, rfl⟩
  dec := rfl
  tx := fun f hf => (nomatch hf)
  rx := fun f hf => (nomatch hf)

theorem construct_inv {p : Params} (hp : validParams p = true) : (State.construct p).Inv := by
  obtain ⟨hnodes, hdist, hsigmaLen, hsigma, hseed, hready, hkeys12, hkeys13, hkeys23, hw⟩ := (validParams_iff p).1 hp
  have hlen := nodes_length_construct p
  have hfresh : ∀ nd ∈ (State.construct p).nodes, ∃ n, n < p.nNodes ∧ nd = Node.fresh p n := by
    intro nd hnd
    obtain ⟨n, hn⟩ := List.mem_iff_getElem?.1 hnd
    exact ⟨n, getElem?_nodes_construct.1 hn⟩
  refine ⟨⟨hready, hkeys12, hkeys13, hkeys23⟩, fun nd hnd => ?_, ?_⟩
  · obtain ⟨n, hn, rfl⟩ := hfresh nd hnd
    exact fresh_inv hsigma (hn.trans_eq hsigmaLen.symm) _
  · refine ⟨⟨List.Pairwise.nil, fun kv hkv => (nomatch hkv)⟩, hnodes.trans_eq hlen.symm, fun hphase => (nomatch hphase),
      fun _ => rfl, Nat.zero_le _, fun hpos => (nomatch hpos), ?_, fun _ nd hnd => ?_, fun hdirect => ?_⟩
    · rw [State.nNodes, hlen]
      exact hdist
    · obtain ⟨n, -, rfl⟩ := hfresh nd hnd
      exact ⟨⟨fun _ => rfl, fun _ => rfl⟩, ⟨fun _ => rfl, fun _ => rfl⟩⟩
    · have hw : p.wiring = .direct := hdirect
      simp [State.construct, hw]

/-- R186 at the start: every channel and the buffer are empty, and every epoch is 0. -/
theorem construct_aligned {p : Params} (hw : p.wiring = .combined) (hpkt : p.hasPkt = true) (hcmb : p.hasCmb = true) :
    Aligned (State.construct p) 0 := by
  have hfresh : ∀ nd ∈ (State.construct p).nodes, ∃ n, nd = Node.fresh p n := by
    intro nd hnd
    obtain ⟨n, hn⟩ := List.mem_iff_getElem?.1 hnd
    exact ⟨n, (getElem?_nodes_construct.1 hn).2⟩
  have hpresent : (State.construct p).cmb.life.present = true := by simp [State.construct, hw, hcmb]
  refine ⟨hw, fun nd hnd => ?_, fun m nd hm => ?_, fun _ _ => rfl, fun _ hpos => (nomatch hpos), fun hphase => (nomatch hphase),
    fun r nd hr => ?_⟩
  · obtain ⟨n, rfl⟩ := hfresh nd hnd
    exact ⟨.inl hpkt, .inl hpresent⟩
  · obtain ⟨-, rfl⟩ := getElem?_nodes_construct.1 hm
    exact ⟨rfl, rfl⟩
  · obtain ⟨-, rfl⟩ := getElem?_nodes_construct.1 hr
    exact ⟨List.Pairwise.nil, fun f hf => (nomatch hf)⟩

/-- Settles O8. -/
theorem constructionGivesLegalState : Obligations.ConstructionGivesLegalState := by
  intro p s h
  obtain ⟨hp, rfl⟩ := construct_next.1 h
  exact ⟨construct_inv hp, construct_aligned⟩

/-- Settles O9: the reset parameters pass the checks of R282. -/
theorem resetStateIsLegal : Obligations.ResetStateIsLegal := by
  have hp : validParams Config.resetParams = true := by decide +kernel
  exact ⟨construct_inv hp, construct_next.2 ⟨hp, rfl⟩⟩

end Sys2Proof.Machine
end

section
/-! PROOF. The sends of a combine, exactly: which receivers they serve, with which frames (43 R174, R177, R183, R185). -/

namespace Sys2Proof.Machine

open Relation (ReflTransGen)

/-- States are the same when their parts are. -/
theorem State.eq_of {s t : State} (hcfg : s.cfg = t.cfg) (hnodes : s.nodes = t.nodes) (hcmb : s.cmb = t.cmb)
    (hinbox : s.inbox = t.inbox) (hout : s.out = t.out) (hfaults : s.faults = t.faults) (hctr : s.nanCtr = t.nanCtr) : s = t := by
  cases s
  cases t
  simp_all

/-! ## The state after some sends -/

/-- Node `r` after the combine that `s` stands in has served it. -/
def Node.served (s : State) (e : Epoch) (es : List Entry) (r : Nat) (nd : Node) : Node :=
  { nd with rx := { nd.rx with
      q := nd.rx.q ++ [combinedFrame { s with nanCtr := s.nanCtr + (r - s.cmb.sent) } e es r] } }

/-- The state in which the combine has gone on from `s` and has served the receivers below `k`. -/
def servedUpTo (e : Epoch) (es : List Entry) (k : Nat) (s : State) : State :=
  { s with
    nodes := s.nodes.mapIdx fun r nd => if s.cmb.sent ≤ r ∧ r < k then nd.served s e es r else nd
    cmb := { s.cmb with sent := k }
    nanCtr := s.nanCtr + (k - s.cmb.sent) }

theorem getElem?_servedUpTo (e : Epoch) (es : List Entry) (k : Nat) (s : State) (r : Nat) :
    (servedUpTo e es k s).nodes[r]? =
      (s.nodes[r]?).map fun nd => if s.cmb.sent ≤ r ∧ r < k then nd.served s e es r else nd :=
  List.getElem?_mapIdx

theorem servedUpTo_sent (e : Epoch) (es : List Entry) (s : State) : servedUpTo e es s.cmb.sent s = s := by
  have hnodes : (servedUpTo e es s.cmb.sent s).nodes = s.nodes := by
    refine List.ext_getElem? fun r => ?_
    rw [getElem?_servedUpTo]
    cases s.nodes[r]? with
    | none => rfl
    | some nd => rw [Option.map_some, if_neg (by omega)]
  calc servedUpTo e es s.cmb.sent s
    _ = { s with nodes := (servedUpTo e es s.cmb.sent s).nodes, nanCtr := s.nanCtr + (s.cmb.sent - s.cmb.sent) } := rfl
    _ = s := by rw [hnodes, Nat.sub_self, Nat.add_zero]

/-- A send serves the next receiver. -/
theorem CmbSend.servedUpTo {e : Epoch} {es : List Entry} {k : Nat} {s t : State} (hk : s.cmb.sent ≤ k)
    (h : CmbSend e es (servedUpTo e es k s) t) : t = Machine.servedUpTo e es (k + 1) s := by
  cases h with
  | intro nd hn halive =>
    have hnd : s.nodes[k]? = some nd := by
      have hn' : (Machine.servedUpTo e es k s).nodes[k]? = some nd := hn
      rw [getElem?_servedUpTo] at hn'
      cases hs : s.nodes[k]? with
      | none => rw [hs] at hn'; cases hn'
      | some a =>
        rw [hs, Option.map_some, if_neg (by omega)] at hn'
        exact hn'
    have hnodes : ((Machine.servedUpTo e es k s).nodes.set k
        { nd with rx := { nd.rx with q := nd.rx.q ++ [combinedFrame (Machine.servedUpTo e es k s) e es k] } }) =
        (Machine.servedUpTo e es (k + 1) s).nodes := by
      refine List.ext_getElem? fun r => ?_
      rw [getElem?_servedUpTo]
      by_cases hr : k = r
      · subst hr
        rw [List.getElem?_set_self (by simpa [Machine.servedUpTo] using (List.getElem?_eq_some_iff.1 hnd).1), hnd,
          Option.map_some, if_pos ⟨hk, Nat.lt_succ_self k⟩]
        rfl
      · rw [List.getElem?_set_ne hr, getElem?_servedUpTo]
        congr 1
        funext a
        exact if_congr (by omega) rfl rfl
    have hctr : s.nanCtr + (k - s.cmb.sent) + 1 = s.nanCtr + (k + 1 - s.cmb.sent) := by omega
    change ({ Machine.servedUpTo e es (k + 1) s with
      nodes := (Machine.servedUpTo e es k s).nodes.set k
        { nd with rx := { nd.rx with q := nd.rx.q ++ [combinedFrame (Machine.servedUpTo e es k s) e es k] } }
      nanCtr := s.nanCtr + (k - s.cmb.sent) + 1 } : State) = _
    rw [hnodes, hctr]
    rfl

/-- What sends make of the state. -/
theorem cmbSends_eq {e : Epoch} {es : List Entry} {s t : State} (h : ReflTransGen (CmbSend e es) s t) :
    s.cmb.sent ≤ t.cmb.sent ∧ t = servedUpTo e es t.cmb.sent s := by
  induction h with
  | refl => exact ⟨Nat.le_refl _, (servedUpTo_sent e es s).symm⟩
  | tail _ hsend ih =>
    obtain ⟨hle, heq⟩ := ih
    have hnext := hsend.sent
    rw [heq] at hsend
    refine ⟨by omega, ?_⟩
    rw [hnext]
    exact hsend.servedUpTo hle

/-- The receivers that sends serve are there and alive. -/
theorem cmbSends_alive {e : Epoch} {es : List Entry} {s t : State} (h : ReflTransGen (CmbSend e es) s t) :
    ∀ r, s.cmb.sent ≤ r → r < t.cmb.sent → ∃ nd, s.nodes[r]? = some nd ∧ nd.rx.rxAlive = true := by
  induction h with
  | refl => intro r hle hlt; omega
  | @tail u t hu hsend ih =>
    intro r hle hlt
    have hnext := hsend.sent
    by_cases hr : r < u.cmb.sent
    · exact ih r hle hr
    · obtain rfl : r = u.cmb.sent := by omega
      obtain ⟨-, heq⟩ := cmbSends_eq hu
      cases hsend with
      | intro nd hn halive =>
        rw [heq] at hn
        have hn' : (servedUpTo e es u.cmb.sent s).nodes[u.cmb.sent]? = some nd := hn
        rw [getElem?_servedUpTo] at hn'
        obtain ⟨a, ha, haeq⟩ := Option.map_eq_some_iff.1 hn'
        refine ⟨a, ha, ?_⟩
        rw [← halive, ← haeq]
        split <;> rfl

/-- Sends stay within the receivers. -/
theorem cmbSends_sent_le {e : Epoch} {es : List Entry} {s t : State} (h : ReflTransGen (CmbSend e es) s t)
    (hle : s.cmb.sent ≤ s.nNodes) : t.cmb.sent ≤ s.nNodes := by
  by_contra hlt
  obtain ⟨nd, hn, -⟩ := cmbSends_alive h s.nNodes hle (Nat.not_le.1 hlt)
  exact absurd (List.getElem?_eq_some_iff.1 hn).1 (Nat.lt_irrefl _)

/-! ## A whole combine (R174, R177, R183) -/

/-- From the first receiver on, a served node is what the statements call so. -/
theorem served_eq_nodeServed {s : State} (h : s.cmb.sent = 0) (e : Epoch) (es : List Entry) (r : Nat) (nd : Node) :
    nd.served s e es r = nodeServed s e es r nd := by
  rw [Node.served, nodeServed, h, Nat.sub_zero]

theorem servedUpTo_nodes {s : State} (h : s.cmb.sent = 0) (e : Epoch) (es : List Entry) (k : Nat) :
    (servedUpTo e es k s).nodes = s.nodes.mapIdx fun r nd => if r < k then nodeServed s e es r nd else nd := by
  simp only [servedUpTo, h, Nat.zero_le, true_and, served_eq_nodeServed h]

/-- CMB.CHECK and CMB.COMBINE where there is something to combine are the whole combine. -/
theorem exec_combine {s : State} {e : Epoch} {es : List Entry} {i : Instr} (hi : i = .cmbCheck ∨ i = .cmbCombine e)
    (hl : s.cmb.life = Life.fresh true) (hphase : s.cmb.phase = .check) (hready : readyEpoch s = some (e, es)) :
    exec i s = .next (wholeCombine e es s) := by
  rcases hi with rfl | rfl
  · change execCmbCheck s = _
    rw [execCmbCheck, hl, withLife_fresh, hphase]
    exact congrArg _ (wholeCheck_ready hready)
  · change execCmbCombine e s = _
    rw [execCmbCombine, hl, withLife_fresh, hphase, hready]
    exact if_pos rfl

/-- With every receiver alive all of them are served. -/
theorem wholeCombine_served {s : State} {e : Epoch} {es : List Entry} (hsent : s.cmb.sent = 0)
    (halive : ∀ nd ∈ s.nodes, nd.rx.rxAlive = true) :
    wholeCombine e es s = finishCombine e (servedUpTo e es s.nNodes s) := by
  rw [wholeCombine, hsent, Nat.sub_zero]
  rcases sendMany_sends e es s.nNodes s with ⟨t, h, hsends, hall, hlen⟩ | ⟨mid, nd, h, hsends, hn, hdead⟩
  · rw [h]
    have hle := cmbSends_sent_le hsends (by omega)
    have hcount : t.cmb.sent = s.nNodes := by omega
    obtain ⟨-, heq⟩ := cmbSends_eq hsends
    rw [hcount] at heq
    exact congrArg (finishCombine e) heq
  · obtain ⟨-, heq⟩ := cmbSends_eq hsends
    rw [heq, getElem?_servedUpTo] at hn
    obtain ⟨a, ha, rfl⟩ := Option.map_eq_some_iff.1 hn
    have hlive := halive a (List.mem_of_getElem? ha)
    split at hdead <;> exact (nomatch hlive.symm.trans hdead)

/-- Settles O39. -/
theorem cmbCheckServesEveryReceiver : Obligations.CmbCheckServesEveryReceiver := by
  intro s e es i hi hl hphase hready hsent halive
  have hnodes : (servedUpTo e es s.nNodes s).nodes = s.nodes.mapIdx fun r nd => nodeServed s e es r nd := by
    rw [servedUpTo_nodes hsent]
    refine List.ext_getElem? fun r => ?_
    rw [List.getElem?_mapIdx, List.getElem?_mapIdx]
    cases hr : s.nodes[r]? with
    | none => rfl
    | some nd => rw [Option.map_some, Option.map_some, if_pos (List.getElem?_eq_some_iff.1 hr).1]
  rw [exec_combine hi hl hphase hready, wholeCombine_served hsent halive, finishCombine, ← hnodes]
  have hctr : s.nanCtr + (s.nNodes - s.cmb.sent) = s.nanCtr + s.nodes.length := by rw [hsent]; rfl
  rw [← hctr]
  rfl

/-- When `r0` is the first dead receiver, those below it are served, and the combiner takes the fault there. -/
theorem wholeCombine_dead {s : State} {e : Epoch} {es : List Entry} {r0 : Nat} {dead : Node} (hsent : s.cmb.sent = 0)
    (hr0 : s.nodes[r0]? = some dead) (hdead : dead.rx.rxAlive = false)
    (halive : ∀ r nd, r < r0 → s.nodes[r]? = some nd → nd.rx.rxAlive = true) :
    wholeCombine e es s = raiseFault .cmb .channelDisconnected (servedUpTo e es r0 s) := by
  have hstops : ∀ t, ReflTransGen (CmbSend e es) s t → t.cmb.sent ≤ r0 := by
    intro t hsends
    by_contra hlt
    obtain ⟨nd, hn, hlive⟩ := cmbSends_alive hsends r0 (by omega) (Nat.not_le.1 hlt)
    rw [hr0] at hn
    cases hn
    exact (nomatch hlive.symm.trans hdead)
  have hlt0 : r0 < s.nNodes := (List.getElem?_eq_some_iff.1 hr0).1
  rw [wholeCombine, hsent, Nat.sub_zero]
  rcases sendMany_sends e es s.nNodes s with ⟨t, h, hsends, hall, hlen⟩ | ⟨mid, nd, h, hsends, hn, hnd⟩
  · have := hstops t hsends
    omega
  · rw [h]
    obtain ⟨-, heq⟩ := cmbSends_eq hsends
    have hle := hstops mid hsends
    have hcount : mid.cmb.sent = r0 := by
      by_contra hne
      have hn' := hn
      rw [heq, getElem?_servedUpTo] at hn'
      obtain ⟨a, ha, rfl⟩ := Option.map_eq_some_iff.1 hn'
      have hlive := halive _ a (by change mid.cmb.sent < r0; omega) ha
      split at hnd <;> exact (nomatch hlive.symm.trans hnd)
    rw [hcount] at heq
    exact congrArg (raiseFault .cmb .channelDisconnected) heq

/-- Settles O41. -/
theorem cmbCheckDeadReceiverTerminates : Obligations.CmbCheckDeadReceiverTerminates := by
  intro s e es r0 dead i hi hl hphase hw hready hsent hr0 hdead halive
  rw [exec_combine hi hl hphase hready, wholeCombine_dead hsent hr0 hdead halive]
  have hnodes := raiseFault_cmb_nodes .channelDisconnected (servedUpTo e es r0 s) hw
  rw [servedUpTo_nodes hsent] at hnodes
  refine congrArg _ (State.eq_of (raiseFault_cfg ..) hnodes ?cmb (raiseFault_inbox ..) (raiseFault_out ..)
    (raiseFault_faults ..) ?ctr)
  case cmb =>
    rw [raiseFault_cmb_cmb]
    change ({ s.cmb with sent := r0, life := { s.cmb.life with status := .terminated } } : Cmb) = _
    rw [hl]
  case ctr =>
    rw [raiseFault_nanCtr, servedUpTo, hsent]
    rfl

/-! ## The combined samples (R174, R176) -/

/-- A contribution at one sample index reads that index alone. -/
theorem getElem?_accumulateFrom (fp : FpKind) (c j : Nat) (g : F32) : ∀ {os xs : List C32} {k : Nat} {o x : C32} (i : Nat),
    os[k]? = some o → xs[k]? = some x →
    (accumulateFrom fp c j g i os xs)[k]? = some (accumulateOne fp ⟨c, j, i + k⟩ g o x) := by
  intro os
  induction os with
  | nil => intro xs k o x i ho _; cases ho
  | cons o' os ih =>
    intro xs k o x i ho hx
    cases xs with
    | nil => cases hx
    | cons x' xs =>
      cases k with
      | zero => cases ho; cases hx; rfl
      | succ k =>
        rw [accumulateFrom, List.getElem?_cons_succ, ih (i + 1) ho hx, show i + 1 + k = i + (k + 1) by omega]

/-- The sum over an entry set at one sample index is the ordered sum of the contributions there. -/
theorem getElem?_sumEntries (s : State) (r : Nat) {i : Nat} (hi : i < 1024) : ∀ {es : List Entry} {os : List C32} {o : C32} (j : Nat),
    (∀ x ∈ es, x.frame.wf) → os[i]? = some o →
    (sumEntries s.cfg.fp s.cmb.dist r s.nanCtr j es os)[i]? = some (sampleSum s r i j es o) := by
  intro es
  induction es with
  | nil => intro os o j _ ho; exact ho
  | cons e es ih =>
    intro os o j hwf ho
    have hlt : i < e.frame.samples.length := hi.trans_eq (hwf e List.mem_cons_self).symm
    have hx : e.frame.samples[i]? = some (e.frame.samples.getD i ⟨0, 0⟩) := by
      rw [List.getD_eq_getElem _ _ hlt, List.getElem?_eq_getElem hlt]
    have hone := getElem?_accumulateFrom s.cfg.fp s.nanCtr j (fpCoeff s.cfg.fp (distAt s.cmb.dist e.sender r)) 0 ho hx
    rw [Nat.zero_add] at hone
    exact ih (j + 1) (fun x hx => hwf x (List.mem_cons_of_mem e hx)) hone

/-- Settles O40. -/
theorem combinedSampleIsOrderedSum : Obligations.CombinedSampleIsOrderedSum := by
  intro s e es r i hwf hi
  have hzero : (List.replicate frameLen C32.zero)[i]? = some ⟨0, 0⟩ := List.getElem?_replicate_of_lt hi
  exact ⟨rfl, combinedFrame_wf s e es r, getElem?_sumEntries s r hi 0 hwf hzero⟩

end Sys2Proof.Machine
end

section
/-! PROOF. The channels (20 R72, R76, R82): what a step makes of every queue, what one turn of a unit makes of it, and the barrier
before every send to a receiver (43 R173, R179). -/

namespace Sys2Proof.Machine

open Relation (ReflTransGen)

/-! ## Queues that a step does not touch -/

theorem withoutCmb_tx_q (w : Wiring) (nd : Node) : (nd.withoutCmb w).tx.q = nd.tx.q := by
  cases w <;> rfl

theorem withoutCmb_rx_q (w : Wiring) (nd : Node) : (nd.withoutCmb w).rx.q = nd.rx.q := by
  cases w <;> rfl

theorem setDpkIn_tx {w : Wiring} (hw : w = .combined) (nd : Node) (c : Chan) : (nd.setDpkIn w c).tx = nd.tx := by
  rw [hw]
  rfl

theorem setDpkIn_rx {w : Wiring} (hw : w = .direct) (nd : Node) (c : Chan) : (nd.setDpkIn w c).rx = nd.rx := by
  rw [hw]
  rfl

/-- The queues of a node are as they were. -/
def SameQueues (_ : Nat) (nd nd' : Node) : Prop := nd'.tx.q = nd.tx.q ∧ nd'.rx.q = nd.rx.q

theorem SameQueues.refl (m : Nat) (nd : Node) : SameQueues m nd nd := ⟨rfl, rfl⟩

theorem setDpkIn_sameQueues (m : Nat) (w : Wiring) (nd : Node) {q : Dpk} {c : Chan} (hq : c.q = (nd.dpkIn w).q) :
    SameQueues m nd (Node.setDpkIn w { nd with dpk := q } c) := by
  cases w with
  | combined => exact ⟨rfl, hq⟩
  | direct => exact ⟨hq, rfl⟩

/-- A removal takes no frame from a queue and adds none. -/
theorem removed_sameQueues {u : UnitId} {l : Life} {s t : State} (hlife : lifeOf u s = some l)
    (ht : t = killEnds u (mapLife u (fun l => { l with present := false }) s)) : NodeWise SameQueues s t := by
  rcases removed_cases hlife ht with ⟨n, nd, hn, -, rfl⟩ | ⟨n, nd, hn, -, rfl⟩ | ⟨n, nd, hn, -, rfl⟩ | ⟨n, nd, hn, -, rfl⟩ |
    ⟨-, -, -, -, hnodes⟩
  · exact .set rfl hn ⟨rfl, rfl⟩ fun m a _ => .refl m a
  · exact .set rfl hn (setDpkIn_sameQueues n _ nd rfl) fun m a _ => .refl m a
  · exact .set rfl hn ⟨rfl, rfl⟩ fun m a _ => .refl m a
  · exact .set rfl hn ⟨rfl, rfl⟩ fun m a _ => .refl m a
  · exact .map hnodes fun m a => ⟨withoutCmb_tx_q _ a, withoutCmb_rx_q _ a⟩

/-! ## What a check adds to the channels -/

/-- A check adds to the channel of a receiver at most the one combined frame of the complete oldest epoch, and touches no
`TX`. -/
theorem CheckOp.queues {s t : State} (h : CheckOp s t) : NodeWise (fun m nd nd' => nd'.tx.q = nd.tx.q ∧
    (nd'.rx.q = nd.rx.q ∨ s.cmb.sent ≤ m ∧ ∃ e es, readyEpoch s = some (e, es) ∧
      nd'.rx.q = nd.rx.q ++ [combinedFrame { s with nanCtr := s.nanCtr + (m - s.cmb.sent) } e es m])) s t := by
  have hsends : ∀ {e es u}, readyEpoch s = some (e, es) → ReflTransGen (CmbSend e es) s u →
      NodeWise (fun m nd nd' => nd'.tx.q = nd.tx.q ∧
        (nd'.rx.q = nd.rx.q ∨ s.cmb.sent ≤ m ∧ ∃ e es, readyEpoch s = some (e, es) ∧
          nd'.rx.q = nd.rx.q ++ [combinedFrame { s with nanCtr := s.nanCtr + (m - s.cmb.sent) } e es m])) s u := by
    intro e es u hready hu
    obtain ⟨-, heq⟩ := cmbSends_eq hu
    rw [heq]
    refine ⟨List.length_mapIdx, fun m nd nd' hn hn' => ?_⟩
    rw [getElem?_servedUpTo, hn, Option.map_some] at hn'
    cases hn'
    split
    case isTrue hserved => exact ⟨rfl, .inr ⟨hserved.1, e, es, hready, rfl⟩⟩
    case isFalse => exact ⟨rfl, .inl rfl⟩
  cases h with
  | collect _ ht => exact .same (by rw [ht]; rfl) fun _ _ => ⟨rfl, .inl rfl⟩
  | sends e es hready hs => exact hsends hready hs
  | dead e es hready mid nd hs _ _ ht =>
    obtain ⟨hlen, hnode⟩ := hsends hready hs
    have hnodes := raiseFault_cmb_nodes_eq_map .channelDisconnected mid
    rw [← ht] at hnodes
    refine ⟨by rw [hnodes, List.length_map, hlen], fun m a a' ha ha' => ?_⟩
    rw [hnodes, List.getElem?_map] at ha'
    obtain ⟨b, hb, rfl⟩ := Option.map_eq_some_iff.1 ha'
    rw [withoutCmb_tx_q, withoutCmb_rx_q]
    exact hnode m a b ha hb
  | finish e es hready mid hs _ ht =>
    obtain ⟨hlen, hnode⟩ := hsends hready hs
    subst ht
    exact ⟨hlen, hnode⟩

/-! ## First in, first out (R72) -/

/-- What a step may make of the channels of node `n`, as R72 has it. -/
def Fifo (s t : State) (n : Nat) (nd nd' : Node) : Prop :=
  ((∃ new, nd'.tx.q = nd.tx.q ++ new) ∨
   (∃ f q, nd.tx.q = f :: q ∧ nd'.tx.q = q ∧
     (Buf.entries f.epoch t.cmb.buf = Buf.entries f.epoch s.cmb.buf ++ [⟨f, n⟩] ∨
      t.faults = s.faults ++ [(.cmb, .duplicateEntry f.epoch n)] ∨
      t.out = s.out ++ [.wireOut (.tx n) (frameBytes f)])) ∨
   (s.cfg.wiring = .direct ∧ TakenByDpk s t n nd nd')) ∧
  ((∃ new, nd'.rx.q = nd.rx.q ++ new) ∨
   (∃ f q, nd.rx.q = f :: q ∧ nd'.rx.q = q ∧ t.out = s.out ++ [.wireOut (.rx n) (frameBytes f)]) ∨
   (s.cfg.wiring = .combined ∧ TakenByDpk s t n nd nd'))

/-- Frames added at the ends, if any. -/
theorem Fifo.grown {s t : State} {n : Nat} {nd nd' : Node} (htx : ∃ new, nd'.tx.q = nd.tx.q ++ new)
    (hrx : ∃ new, nd'.rx.q = nd.rx.q ++ new) : Fifo s t n nd nd' :=
  ⟨.inl htx, .inl hrx⟩

theorem Fifo.of_sameQueues {s t : State} {n m : Nat} {nd nd' : Node} (h : SameQueues m nd nd') : Fifo s t n nd nd' :=
  .grown ⟨[], by rw [h.1, List.append_nil]⟩ ⟨[], by rw [h.2, List.append_nil]⟩

theorem Fifo.refl (s t : State) (n : Nat) (nd : Node) : Fifo s t n nd nd := .of_sameQueues (.refl n nd)

/-- A depacketizer's operation on its inbound channel. -/
theorem DpkOp.fifo {n : Nat} {nd : Node} {s t : State} {q' : Dpk} {c' : Chan} {ds : List C32} (h : DpkOp n nd s t q' c' ds)
    (hreads : nd.dpk.Reads (nd.dpkIn s.cfg.wiring)) :
    Fifo s t n nd (Node.setDpkIn s.cfg.wiring { nd with dpk := q' } c') := by
  obtain ⟨k, hk⟩ := h.move.taken
  obtain ⟨j, z, hds, hpending⟩ := h.move.delivers hreads
  have htaken : TakenByDpk s t n nd (Node.setDpkIn s.cfg.wiring { nd with dpk := q' } c') := by
    refine ⟨k, j, z, ?_⟩
    simp only [dpkIn_setDpkIn, setDpkIn_dpk]
    exact ⟨hk, by rw [h.handed, hds, List.append_assoc], hpending⟩
  cases hw : s.cfg.wiring with
  | combined =>
    rw [hw] at htaken
    exact ⟨.inl ⟨[], (List.append_nil _).symm⟩, .inr (.inr ⟨hw, htaken⟩)⟩
  | direct =>
    rw [hw] at htaken
    exact ⟨.inr (.inr ⟨hw, htaken⟩), .inl ⟨[], (List.append_nil _).symm⟩⟩

/-- The combiner's receive: the frame it takes stands last in its epoch's set, or was the duplicate. -/
theorem recvTurn_fifo {s : State} (h : s.Inv) : NodeWise (Fifo s (recvTurn s)) s (recvTurn s) := by
  have hraise : ∀ r u, NodeWise SameQueues u (raiseFault .cmb r u) := fun r u =>
    .map (raiseFault_cmb_nodes_eq_map r u) fun _ a => ⟨withoutCmb_tx_q _ a, withoutCmb_rx_q _ a⟩
  rcases recvTurn_cases s with ⟨-, ht⟩ | ⟨nd, hn, ⟨-, -, ht⟩ | ⟨-, -, ht⟩ | ⟨f, q, hq, ⟨-, ht⟩ | ⟨b, hb, ht⟩⟩⟩
  · exact .same (by rw [ht]) (Fifo.refl _ _)
  · exact .same (by rw [ht]) (Fifo.refl _ _)
  · have hsame := hraise .channelDisconnected s
    rw [← ht] at hsame
    exact ⟨hsame.length, fun m a a' ha ha' => .of_sameQueues (hsame.node m a a' ha ha')⟩
  · have hfaults : (recvTurn s).faults = s.faults ++ [(.cmb, .duplicateEntry f.epoch s.cmb.rr)] := by
      rw [ht, raiseFault_faults, setNode_faults]
    have hnodes : (recvTurn s).nodes =
        (s.nodes.set s.cmb.rr { nd with tx := { nd.tx with q := q } }).map (Node.withoutCmb s.cfg.wiring) := by
      rw [ht, raiseFault_cmb_nodes_eq_map, setNode_nodes, setNode_cfg]
    rw [List.map_set] at hnodes
    refine ⟨by rw [hnodes, List.length_set, List.length_map], fun m a a' ha ha' => ?_⟩
    rw [hnodes, List.getElem?_set, List.getElem?_map, ha] at ha'
    split at ha'
    case isTrue hm =>
      subst hm
      rw [hn] at ha
      cases ha
      split at ha'
      case isFalse => cases ha'
      case isTrue =>
        cases ha'
        refine ⟨.inr (.inl ⟨f, q, hq, withoutCmb_tx_q _ _, .inr (.inl hfaults)⟩), .inl ⟨[], ?_⟩⟩
        rw [withoutCmb_rx_q, List.append_nil]
    case isFalse =>
      cases ha'
      exact .of_sameQueues (m := m) ⟨withoutCmb_tx_q _ a, withoutCmb_rx_q _ a⟩
  · have hbuf : (recvTurn s).cmb.buf = b := by
      rw [ht, advanceRecv]
      split <;> rfl
    have hentries : Buf.entries f.epoch (recvTurn s).cmb.buf = Buf.entries f.epoch s.cmb.buf ++ [⟨f, s.cmb.rr⟩] := by
      rw [hbuf, Buf.entries_insert h.cmb.buf.keys hb, if_pos rfl]
    exact .set (nd' := { nd with tx := { nd.tx with q := q } }) (by rw [ht]; rfl) hn
      ⟨.inr (.inl ⟨f, q, hq, rfl, .inl hentries⟩), .inl ⟨[], (List.append_nil _).symm⟩⟩ fun m a _ => .refl _ _ m a

/-- An action of the environment on a channel. -/
theorem EnvOp.fifo {c : ChanId} {nd : Node} {s t : State} (h : EnvOp c nd s t) :
    ∃ nd', AtNode c.node nd' s t ∧ Fifo s t c.node nd nd' := by
  cases h with
  | send f hf howns hat =>
    refine ⟨_, hat, ?_⟩
    cases c with
    | tx n => exact .grown ⟨[f], rfl⟩ ⟨[], (List.append_nil _).symm⟩
    | rx n => exact .grown ⟨[], (List.append_nil _).symm⟩ ⟨[f], rfl⟩
  | recv f q hq howns hat hout =>
    refine ⟨_, hat, ?_⟩
    cases c with
    | tx n => exact ⟨.inr (.inl ⟨f, q, hq, rfl, .inr (.inr hout)⟩), .inl ⟨[], (List.append_nil _).symm⟩⟩
    | rx n => exact ⟨.inl ⟨[], (List.append_nil _).symm⟩, .inr (.inl ⟨f, q, hq, rfl, hout⟩)⟩
  | closeSender howns hat | closeReceiver howns hat =>
    refine ⟨_, hat, .of_sameQueues (m := c.node) ?_⟩
    cases c <;> exact ⟨rfl, rfl⟩

theorem Effect.fifo {s t : State} (heffect : Effect s t) (h : s.Inv) : NodeWise (Fifo s t) s t := by
  cases heffect with
  | quiet hop => exact .same hop.nodes (Fifo.refl s t)
  | pkt n nd hn hop =>
    obtain ⟨nd', hat, hkept, -⟩ := hop.kept
    exact .set hat.nodes hn (.grown hkept.sent ⟨[], by rw [hkept.rx, List.append_nil]⟩) fun m a _ => .refl s t m a
  | dpk n nd hn q' c' ds hop => exact .set hop.node.nodes hn (hop.fifo (h.nodeAt hn).reads) fun m a _ => .refl s t m a
  | nse n nd hn hop =>
    obtain ⟨nd', hat, hmove⟩ := hop.2 nd hn
    exact .set hat.nodes hn (.of_sameQueues (m := n) (by rw [hmove.node]; exact ⟨rfl, rfl⟩)) fun m a _ => .refl s t m a
  | recv hl hphase ht => exact ht ▸ recvTurn_fifo h
  | check hl hphase hop =>
    obtain ⟨hlen, hnode⟩ := hop.queues
    refine ⟨hlen, fun m nd nd' hn hn' => ?_⟩
    obtain ⟨htx, hrx | ⟨-, e, es, -, hrx⟩⟩ := hnode m nd nd' hn hn'
    · exact .of_sameQueues (m := m) ⟨htx, hrx⟩
    · exact .grown ⟨[], by rw [htx, List.append_nil]⟩ ⟨_, hrx⟩
  | env c nd hn hfaults hop =>
    obtain ⟨nd', hat, hfifo⟩ := hop.fifo
    exact .set hat.nodes hn hfifo fun m a _ => .refl s t m a
  | remove u l hlife hpresent ht =>
    obtain ⟨hlen, hnode⟩ := removed_sameQueues hlife ht
    exact ⟨hlen, fun m nd nd' hn hn' => .of_sameQueues (hnode m nd nd' hn hn')⟩

/-- Settles O14. -/
theorem channelsAreFirstInFirstOut : Obligations.ChannelsAreFirstInFirstOut := by
  intro s t h hstep n nd nd' hn hn'
  obtain ⟨inbox, heffect⟩ := step_effect hstep
  exact (heffect.fifo (h.congr rfl rfl rfl)).node n nd nd' hn hn'

/-! ## The barrier (R76, R173, R179) -/

/-- The complete oldest epoch is the smallest key, and its set has one entry from every transmitter. -/
theorem readyEpoch_complete {s : State} {e : Epoch} {es : List Entry} (h : CmbInv s) (hready : readyEpoch s = some (e, es)) :
    (∀ kv ∈ s.cmb.buf, e ≤ kv.1) ∧ Buf.entries e s.cmb.buf = es ∧ (es.map Entry.sender).Perm (List.range s.nNodes) := by
  obtain ⟨hlen, rest, hbuf⟩ := readyEpoch_some.1 hready
  have hkeys : Buf.wf ((e, es) :: rest) := hbuf ▸ h.buf.keys
  obtain ⟨hlt, -⟩ := Buf.wf_cons.1 hkeys
  have hset : EntriesInv s.nNodes e es := h.buf.sets (e, es) (hbuf ▸ List.mem_cons_self)
  rw [hbuf]
  refine ⟨fun kv hkv => ?_, ?_, ?_⟩
  · rcases List.mem_cons.1 hkv with rfl | hkv
    · exact BitVec.le_refl _
    · exact BitVec.le_of_lt (hlt kv.1 (List.mem_map_of_mem hkv))
  · rw [Buf.entries_cons, if_pos rfl]
  · refine (List.subperm_of_subset hset.senders fun m hm => ?_).perm_of_length_le ?_
    · obtain ⟨x, hx, rfl⟩ := List.mem_map.1 hm
      exact List.mem_range.2 (hset.entry x hx).2.2
    · rw [List.length_range, List.length_map]
      exact hlen

/-- What a step may make of the channel of a receiver while the combiner exists. -/
def Barrier (s : State) (_ : Nat) (nd nd' : Node) : Prop :=
  (∃ k : Nat, nd'.rx.q = nd.rx.q.drop k) ∨
  (∃ f : IqFrame, nd'.rx.q = nd.rx.q ++ [f] ∧ (∀ kv ∈ s.cmb.buf, f.epoch ≤ kv.1) ∧
    ((Buf.entries f.epoch s.cmb.buf).map Entry.sender).Perm (List.range s.nodes.length))

theorem Barrier.of_eq {s : State} {m : Nat} {nd nd' : Node} (h : nd'.rx.q = nd.rx.q) : Barrier s m nd nd' :=
  .inl ⟨0, h⟩

theorem EnvOp.barrier {c : ChanId} {nd : Node} {s t : State} (h : EnvOp c nd s t) (hcmb : s.cmb.life.present = true) :
    ∃ nd', AtNode c.node nd' s t ∧ Barrier s c.node nd nd' := by
  cases h with
  | send f hf howns hat =>
    refine ⟨_, hat, ?_⟩
    cases c with
    | tx n => exact .of_eq rfl
    | rx n => exact (nomatch (envOwns_sender_rx howns).symm.trans hcmb)
  | recv f q hq howns hat hout =>
    refine ⟨_, hat, ?_⟩
    cases c with
    | tx n => exact .of_eq rfl
    | rx n =>
      have hq' : nd.rx.q = f :: q := hq
      exact .inl ⟨1, by rw [hq']; rfl⟩
  | closeSender howns hat | closeReceiver howns hat =>
    refine ⟨_, hat, .of_eq ?_⟩
    cases c <;> rfl

theorem Effect.barrier {s t : State} (heffect : Effect s t) (h : s.Inv) (hcmb : s.cmb.life.present = true) :
    NodeWise (Barrier s) s t := by
  cases heffect with
  | quiet hop => exact .same hop.nodes fun _ _ => .of_eq rfl
  | pkt n nd hn hop =>
    obtain ⟨nd', hat, hkept, -⟩ := hop.kept
    exact .set hat.nodes hn (.of_eq (by rw [hkept.rx])) fun _ _ _ => .of_eq rfl
  | dpk n nd hn q' c' ds hop =>
    refine .set hop.node.nodes hn ?_ fun _ _ _ => .of_eq rfl
    obtain ⟨k, hk⟩ := hop.move.taken
    cases hw : s.cfg.wiring with
    | combined => exact .inl ⟨k, by rw [hw] at hk; exact hk⟩
    | direct => exact .of_eq rfl
  | nse n nd hn hop =>
    obtain ⟨nd', hat, hmove⟩ := hop.2 nd hn
    exact .set hat.nodes hn (.of_eq (by rw [hmove.node])) fun _ _ _ => .of_eq rfl
  | recv hl hphase ht =>
    have hsame : NodeWise (fun _ nd nd' => nd'.rx.q = nd.rx.q) s (recvTurn s) :=
      recvTurn_nodeWise (fun _ _ => rfl) (fun _ _ _ _ h h' => h'.trans h) (fun _ _ _ => rfl) fun w _ a => withoutCmb_rx_q w a
    exact ht ▸ ⟨hsame.length, fun m nd nd' hn hn' => .of_eq (hsame.node m nd nd' hn hn')⟩
  | check hl hphase hop =>
    obtain ⟨hlen, hnode⟩ := hop.queues
    refine ⟨hlen, fun m nd nd' hn hn' => ?_⟩
    obtain ⟨-, hrx | ⟨-, e, es, hready, hrx⟩⟩ := hnode m nd nd' hn hn'
    · exact .of_eq hrx
    · obtain ⟨hmin, hset, hperm⟩ := readyEpoch_complete h.cmb hready
      exact .inr ⟨_, hrx, hmin, by rw [combinedFrame_epoch, hset]; exact hperm⟩
  | env c nd hn hfaults hop =>
    obtain ⟨nd', hat, hbarrier⟩ := hop.barrier hcmb
    exact .set hat.nodes hn hbarrier fun _ _ _ => .of_eq rfl
  | remove u l hlife hpresent ht =>
    obtain ⟨hlen, hnode⟩ := removed_sameQueues hlife ht
    exact ⟨hlen, fun m nd nd' hn hn' => .of_eq (hnode m nd nd' hn hn').2⟩

/-- Settles O44. -/
theorem barrierBeforeEverySend : Obligations.BarrierBeforeEverySend := by
  intro s t h hcmb hstep r nd nd' hn hn'
  obtain ⟨inbox, heffect⟩ := step_effect hstep
  exact (heffect.barrier (h.congr rfl rfl rfl) hcmb).node r nd nd' hn hn'

end Sys2Proof.Machine
end

section
/-! PROOF. One turn of a unit, and what it makes of the queues (20 R82; 40 R121, R122; 41 R141; 43 R171, R174). -/

namespace Sys2Proof.Machine

open Relation (ReflTransGen)

/-- A node whose packetizer has stored a sample in its window (R121). -/
def Node.stored (nd : Node) (x : C32) : Node :=
  { nd with pkt := { nd.pkt with win := nd.pkt.win.set nd.pkt.fill x, fill := nd.pkt.fill + 1 } }

theorem acceptSample_stores {nd : Node} (hfill : nd.pkt.fill + 1 ≠ frameLen) (n : Nat) (x : C32) (s : State) :
    acceptSample n nd x s = s.setNode n (nd.stored x) :=
  if_neg hfill

/-- A packetizer's turn sends at most one frame: it ends with the first emission. -/
theorem pktAdvance_sendsAtMostOne {n : Nat} : ∀ (xs : List C32) (eos : Bool) {nd : Node} {s : State},
    s.nodes[n]? = some nd → nd.pkt.life = Life.fresh true →
    ∃ nd', AtNode n nd' s (pktAdvance n xs eos s) ∧ SendsAtMostOne nd nd' := by
  intro xs
  induction xs with
  | nil =>
    intro eos nd s hn hl
    rw [pktAdvance_nil hn]
    cases eos with
    | false =>
      rw [if_neg Bool.false_ne_true, setPktWork_of hn]
      exact ⟨_, .setNode n _ s, rfl, .inl rfl⟩
    | true =>
      rw [if_pos rfl]
      rcases flushWindow_moves hn hl with ⟨nd', h, -, -, hsends⟩ | ⟨mid, r, h, hfault⟩
      · have hat : AtNode n nd' s (flushWindow n nd s) := by rw [h]; exact ⟨rfl, rfl, rfl, rfl⟩
        rw [setPktWork_of (hat.getElem?_self hn)]
        exact ⟨_, hat.trans (.setNode n _ _), hsends⟩
      · have hat : AtNode n mid.pktDead s (flushWindow n nd s) := by rw [h]; exact pktFaulted_at n mid r s
        rw [setPktWork_of (hat.getElem?_self hn)]
        exact ⟨_, hat.trans (.setNode n _ _), hfault.sendsAtMostOne⟩
  | cons x xs ih =>
    intro eos nd s hn hl
    by_cases hfill : nd.pkt.fill + 1 = frameLen
    · rw [pktAdvance_emits hn hfill]
      rcases acceptSample_moves hl n x s with ⟨nd', h', hmove, hl', -⟩ | ⟨mid, r, h', hfault, -⟩
      · have hn' := getElem?_setNode_self s n nd nd' hn
        rw [h', pktRunning_of_fresh hn' hl', if_pos rfl, setPktWork_of hn']
        exact ⟨_, (AtNode.setNode n nd' s).trans (.setNode n _ _), hmove.sendsAtMostOne⟩
      · rw [h', pktRunning_pktFaulted hn, if_neg Bool.false_ne_true]
        exact ⟨_, pktFaulted_at n mid r s, hfault.sendsAtMostOne⟩
    · rw [pktAdvance_inside hn hfill, acceptSample_stores hfill]
      obtain ⟨nd', hat, hsends⟩ := ih eos (getElem?_setNode_self s n nd (nd.stored x) hn) hl
      exact ⟨nd', (AtNode.setNode n _ s).trans hat, hsends⟩

/-- Queues that a turn leaves alone. -/
theorem QueuesAfterTurn.same {s : State} {u : UnitId} {m : Nat} {nd nd' : Node} (htx : nd'.tx.q = nd.tx.q)
    (hrx : nd'.rx.q = nd.rx.q) : QueuesAfterTurn s u m nd nd' := by
  cases u with
  | pkt n => exact ⟨hrx, .inl htx⟩
  | dpk n =>
    refine ⟨fun _ => htx, fun _ => hrx, .inl ?_⟩
    cases s.cfg.wiring with
    | combined => exact hrx
    | direct => exact htx
  | nse n | dec n => exact ⟨htx, hrx⟩
  | cmb => exact ⟨.inl htx, .inl hrx⟩

theorem QueuesAfterTurn.refl (s : State) (u : UnitId) (m : Nat) (nd : Node) : QueuesAfterTurn s u m nd nd := .same rfl rfl

theorem pktTurn_queues (n : Nat) (s : State) : NodeWise (QueuesAfterTurn s (.pkt n)) s (pktTurn n s) := by
  rcases pktTurn_cases n s with h | ⟨nd, w, hn, -, hl, h⟩
  · exact .same (by rw [h]) (.refl s _)
  · obtain ⟨nd', hat, hrx, htx⟩ := pktAdvance_sendsAtMostOne w.rest w.eos hn hl
    exact h ▸ .set hat.nodes hn ⟨hrx, htx.imp_right fun hf => ⟨rfl, hf⟩⟩ fun m a _ => .refl s _ m a

theorem continueFill_node {n : Nat} {nd : Node} (w : DpkWork) (s : State) :
    ∃ work, AtNode n (Node.setDpkIn s.cfg.wiring
      { nd with dpk := { (dpkAdvance w.left nd.dpk (nd.dpkIn s.cfg.wiring)).2.2.1 with work := work } }
      (dpkAdvance w.left nd.dpk (nd.dpkIn s.cfg.wiring)).2.2.2) s (continueFill n nd w s) := by
  rw [continueFill]
  dsimp only
  split
  · exact ⟨none, rfl, rfl, rfl, rfl⟩
  · exact ⟨_, rfl, rfl, rfl, rfl⟩

theorem dpkTurn_queues (n : Nat) (s : State) : NodeWise (QueuesAfterTurn s (.dpk n)) s (dpkTurn n s) := by
  rcases dpkTurn_cases n s with h | ⟨nd, w, hn, -, -, h⟩
  · exact .same (by rw [h]) (.refl s _)
  · obtain ⟨work, hat⟩ := continueFill_node (n := n) (nd := nd) w s
    refine h ▸ .set hat.nodes hn ⟨fun hw => ?_, fun hw => ?_, ?_⟩ fun m a _ => .refl s _ m a
    · rw [hw]
      rfl
    · rw [hw]
      rfl
    · rw [dpkIn_setDpkIn, setDpkIn_dpk]
      obtain ⟨-, -, ⟨-, hc, -⟩ | ⟨f, fs, -, hq, hc, hcur, -⟩⟩ := dpkAdvance_cases w.left nd.dpk (nd.dpkIn s.cfg.wiring)
      · exact .inl (by rw [hc])
      · exact .inr ⟨rfl, f, by rw [hc, hq], hcur⟩

/-- The fault of the combiner takes no frame and adds none. -/
theorem QueuesAfterTurn.withoutCmb {s : State} {m : Nat} {nd nd' : Node} (h : QueuesAfterTurn s .cmb m nd nd') (w : Wiring) :
    QueuesAfterTurn s .cmb m nd (nd'.withoutCmb w) := by
  cases w <;> exact h

theorem raiseFault_queues {s t : State} {r : Fault} (h : NodeWise (QueuesAfterTurn s .cmb) s t) :
    NodeWise (QueuesAfterTurn s .cmb) s (raiseFault .cmb r t) := by
  have hnodes := raiseFault_cmb_nodes_eq_map r t
  refine ⟨by rw [hnodes, List.length_map, h.length], fun m nd nd' hn hn' => ?_⟩
  rw [hnodes, List.getElem?_map] at hn'
  obtain ⟨a, ha, rfl⟩ := Option.map_eq_some_iff.1 hn'
  exact (h.node m nd a hn ha).withoutCmb _

theorem recvTurn_queues {s : State} (hphase : s.cmb.phase = .recv) :
    NodeWise (QueuesAfterTurn s .cmb) s (recvTurn s) := by
  have hsame : NodeWise (QueuesAfterTurn s .cmb) s s := .same rfl (.refl s _)
  rcases recvTurn_cases s with ⟨-, h⟩ | ⟨nd, hn, ⟨-, -, h⟩ | ⟨-, -, h⟩ | ⟨f, q, hq, hins⟩⟩
  · exact h.symm ▸ hsame
  · exact h.symm ▸ hsame
  · exact h ▸ raiseFault_queues hsame
  · have htaken : ∀ t : State, t.nodes = s.nodes.set s.cmb.rr { nd with tx := { nd.tx with q := q } } →
        NodeWise (QueuesAfterTurn s .cmb) s t := fun t ht =>
      .set ht hn ⟨.inr ⟨hphase, rfl, f, hq⟩, .inl rfl⟩ fun m a _ => .refl s _ m a
    rcases hins with ⟨-, h⟩ | ⟨b, -, h⟩
    · exact h ▸ raiseFault_queues (htaken _ rfl)
    · exact h ▸ htaken _ rfl

/-- A send of a combine. -/
theorem CmbSend.queues {e : Epoch} {es : List Entry} {s t : State} (h : CmbSend e es s t) (hphase : s.cmb.phase = .check)
    (hready : readyEpoch s = some (e, es)) : NodeWise (QueuesAfterTurn s .cmb) s t := by
  cases h with
  | intro nd hn halive =>
    exact .set (nd' := { nd with rx := { nd.rx with q := nd.rx.q ++ [combinedFrame s e es s.cmb.sent] } }) rfl hn
      ⟨.inl rfl, .inr ⟨hphase, rfl, e, es, hready, rfl⟩⟩ fun m a _ => .refl s _ m a

theorem checkTurn_queues {s : State} (hphase : s.cmb.phase = .check) :
    NodeWise (QueuesAfterTurn s .cmb) s (checkTurn s) := by
  have hsame : ∀ t : State, t.nodes = s.nodes → NodeWise (QueuesAfterTurn s .cmb) s t := fun t ht => .same ht (.refl s _)
  rcases checkTurn_cases s with ⟨-, h⟩ | ⟨e, es, hready, ⟨-, h⟩ | ⟨t, hsend, -, h⟩ | ⟨t, hsend, -, h⟩ | ⟨nd, -, -, h⟩⟩
  · exact h ▸ hsame _ rfl
  · exact h ▸ hsame _ rfl
  · exact h ▸ hsend.queues hphase hready
  · obtain ⟨hlen, hnode⟩ := hsend.queues hphase hready
    exact h ▸ ⟨hlen, hnode⟩
  · exact h ▸ raiseFault_queues (hsame s rfl)

theorem combinerTurn_queues (s : State) : NodeWise (QueuesAfterTurn s .cmb) s (combinerTurn s) := by
  by_cases hl : s.cmb.life = Life.fresh true
  · cases hphase : s.cmb.phase with
    | recv => rw [combinerTurn_recv hl hphase]; exact recvTurn_queues hphase
    | check => rw [combinerTurn_check hl hphase]; exact checkTurn_queues hphase
  · rw [combinerTurn_idle hl]
    exact .same rfl (.refl s _)

/-- Settles O42. -/
theorem eachTurnIsOneChannelOperation : Obligations.EachTurnIsOneChannelOperation := by
  intro s u
  have h : NodeWise (QueuesAfterTurn s u) s (unitTurn u s) := by
    cases u with
    | pkt n => exact pktTurn_queues n s
    | dpk n => exact dpkTurn_queues n s
    | nse n | dec n => exact .same rfl (.refl s _)
    | cmb => exact combinerTurn_queues s
  exact ⟨h.length, h.node⟩

end Sys2Proof.Machine
end

section
/-! PROOF. Aligned streams stay aligned (43 R180, R186), and in a complete block with aligned streams no step takes a fault but
the overflow of an epoch counter (43 R184; 60 R253; 70 R295). -/

namespace Sys2Proof.Machine

open Relation (ReflTransGen)

/-! ## The regime, node by node -/

/-- The smallest epoch that has not been sent to receiver `m` in outer iteration `i` (R180). -/
def rxBound (c : Cmb) (i m : Nat) : Nat := if c.phase = .check ∧ m < c.sent then i + 1 else i

/-- What the regime of aligned streams says of node `m`: its ends, and the epochs in its channels (R180, R186). -/
structure NodeAligned (s : State) (i m : Nat) (nd : Node) : Prop where
  pktEnd : nd.pkt.life.present = true ∨ nd.tx.txAlive = false
  cmbEnds : s.cmb.life.present = true ∨ (nd.tx.rxAlive = false ∧ nd.rx.txAlive = false)
  tx : nd.tx.q.map (fun f => f.epoch.toNat) = List.range' (framesTaken s i m) nd.tx.q.length
  epoch : nd.pkt.epoch.toNat = framesTaken s i m + nd.tx.q.length
  rising : (nd.rx.q.map (fun f => f.epoch.toNat)).Pairwise (· < ·)
  below : ∀ f ∈ nd.rx.q, f.epoch.toNat < rxBound s.cmb i m

/-- What the regime says of the pending buffer (R186). -/
structure BufAligned (s : State) (i : Nat) : Prop where
  empty : s.cmb.phase = .recv → s.cmb.rr = 0 → s.cmb.buf = []
  partly : s.cmb.phase = .recv → 0 < s.cmb.rr →
    ∃ es, s.cmb.buf = [(BitVec.ofNat 64 i, es)] ∧ es.map Entry.sender = List.range s.cmb.rr
  full : s.cmb.phase = .check →
    ∃ es, s.cmb.buf = [(BitVec.ofNat 64 i, es)] ∧ es.map Entry.sender = List.range s.nNodes

theorem aligned_iff {s : State} {i : Nat} : Aligned s i ↔
    s.cfg.wiring = .combined ∧ (∀ m nd, s.nodes[m]? = some nd → NodeAligned s i m nd) ∧ BufAligned s i := by
  constructor
  · intro h
    refine ⟨h.wiring, fun m nd hn => ?_, h.empty, h.partly, h.full⟩
    obtain ⟨hpkt, hcmb⟩ := h.ends nd (List.mem_of_getElem? hn)
    obtain ⟨htx, hepoch⟩ := h.tx m nd hn
    obtain ⟨hrising, hbelow⟩ := h.rx m nd hn
    exact ⟨hpkt, hcmb, htx, hepoch, hrising, hbelow⟩
  · rintro ⟨hw, hnode, hbuf⟩
    refine ⟨hw, fun nd hnd => ?_, fun m nd hn => ?_, hbuf.empty, hbuf.partly, hbuf.full, fun r nd hn => ?_⟩
    · obtain ⟨m, hn⟩ := List.mem_iff_getElem?.1 hnd
      exact ⟨(hnode m nd hn).pktEnd, (hnode m nd hn).cmbEnds⟩
    · exact ⟨(hnode m nd hn).tx, (hnode m nd hn).epoch⟩
    · exact ⟨(hnode r nd hn).rising, (hnode r nd hn).below⟩

theorem Aligned.node {s : State} {i m : Nat} {nd : Node} (h : Aligned s i) (hn : s.nodes[m]? = some nd) :
    NodeAligned s i m nd :=
  (aligned_iff.1 h).2.1 m nd hn

theorem framesTaken_congr {s t : State} (hphase : t.cmb.phase = s.cmb.phase) (hrr : t.cmb.rr = s.cmb.rr) (i m : Nat) :
    framesTaken t i m = framesTaken s i m := by
  rw [framesTaken, framesTaken, hphase, hrr]

/-- What is said of a node depends on the combiner alone. -/
theorem NodeAligned.congr {s t : State} {i m : Nat} {nd : Node} (h : NodeAligned s i m nd) (hcmb : t.cmb = s.cmb) :
    NodeAligned t i m nd := by
  have htaken := framesTaken_congr (s := s) (t := t) (by rw [hcmb]) (by rw [hcmb]) i m
  exact ⟨h.pktEnd, by rw [hcmb]; exact h.cmbEnds, by rw [htaken]; exact h.tx, by rw [htaken]; exact h.epoch, h.rising,
    by rw [hcmb]; exact h.below⟩

theorem BufAligned.congr {s t : State} {i : Nat} (h : BufAligned s i) (hphase : t.cmb.phase = s.cmb.phase)
    (hrr : t.cmb.rr = s.cmb.rr) (hbuf : t.cmb.buf = s.cmb.buf) (hlen : t.nNodes = s.nNodes) : BufAligned t i := by
  obtain ⟨hempty, hpartly, hfull⟩ := h
  rw [← hphase, ← hrr, ← hbuf] at hempty hpartly
  rw [← hphase, ← hbuf, ← hlen] at hfull
  exact ⟨hempty, hpartly, hfull⟩

/-- A change of one node that the regime admits. -/
theorem Aligned.at {n i : Nat} {nd' : Node} {s t : State} (h : Aligned s i) (hat : AtNode n nd' s t)
    (hnd : NodeAligned s i n nd') : Aligned t i := by
  obtain ⟨hw, hnode, hbuf⟩ := aligned_iff.1 h
  refine aligned_iff.2 ⟨by rw [hat.cfg, hw], fun m a ha => ?_,
    hbuf.congr (by rw [hat.cmb]) (by rw [hat.cmb]) (by rw [hat.cmb]) (by rw [State.nNodes, hat.nodes, List.length_set])⟩
  rw [hat.nodes, List.getElem?_set] at ha
  split at ha
  case isTrue hm =>
    subst hm
    split at ha
    case isTrue =>
      cases ha
      exact hnd.congr hat.cmb
    case isFalse => cases ha
  case isFalse => exact (hnode m a ha).congr hat.cmb

/-! ## The units of a node -/

/-- A node whose packetizer, sender end and queues are as they were. -/
theorem NodeAligned.of_same {s : State} {i m : Nat} {nd nd' : Node} (h : NodeAligned s i m nd)
    (hpkt : nd'.pkt.life.present = true ∨ nd'.tx.txAlive = false) (hepoch : nd'.pkt.epoch = nd.pkt.epoch)
    (htx : nd'.tx.q = nd.tx.q) (hrx : nd'.rx = nd.rx) (halive : nd'.tx.rxAlive = nd.tx.rxAlive) : NodeAligned s i m nd' :=
  ⟨hpkt, by rw [halive, hrx]; exact h.cmbEnds, by rw [htx]; exact h.tx, by rw [htx, hepoch]; exact h.epoch,
    by rw [hrx]; exact h.rising, by rw [hrx]; exact h.below⟩

/-- The window goes out under the epoch that follows those in the channel (R122). -/
theorem NodeAligned.emitted {s : State} {i m : Nat} {nd : Node} (h : NodeAligned s i m nd) (win : List C32)
    (hepoch : nd.pkt.epoch ≠ BitVec.allOnes 64) : NodeAligned s i m (nd.emitted win) := by
  have hnext : (nd.pkt.epoch + 1).toNat = nd.pkt.epoch.toNat + 1 := by
    have hne : nd.pkt.epoch.toNat ≠ 2 ^ 64 - 1 := fun he => hepoch (BitVec.eq_of_toNat_eq he)
    have := nd.pkt.epoch.isLt
    have hone : (1 : Epoch).toNat = 1 := rfl
    rw [BitVec.toNat_add, hone]
    exact Nat.mod_eq_of_lt (by omega)
  refine ⟨h.pktEnd, h.cmbEnds, ?_, ?_, h.rising, h.below⟩
  · change ((nd.tx.q ++ [_]).map _) = List.range' _ (nd.tx.q ++ [_]).length
    rw [List.map_append, h.tx, List.length_append, List.length_singleton, List.range'_1_concat, ← h.epoch]
    rfl
  · change (nd.pkt.epoch + 1).toNat = _ + (nd.tx.q ++ [_]).length
    rw [hnext, h.epoch, List.length_append]
    rfl

theorem PktMove.aligned {s : State} {i m : Nat} {nd nd' : Node} (hmove : PktMove nd nd') (h : NodeAligned s i m nd) :
    NodeAligned s i m nd' := by
  cases hmove with
  | record _ _ | store _ _ _ | finish _ _ => exact h.of_same h.pktEnd rfl rfl rfl rfl
  | emit win _ _ hepoch _ => exact h.emitted win hepoch

theorem pktMoves_aligned {s : State} {i m : Nat} {nd nd' : Node} (hmoves : ReflTransGen PktMove nd nd')
    (h : NodeAligned s i m nd) : NodeAligned s i m nd' := by
  induction hmoves with
  | refl => exact h
  | tail _ hmove ih => exact hmove.aligned ih

theorem PktFault.aligned {s : State} {i m : Nat} {nd nd' : Node} {r : Fault} (hfault : PktFault nd r nd')
    (h : NodeAligned s i m nd) : NodeAligned s i m nd' := by
  cases hfault with
  | intro _ _ _ _ _ _ => exact h.of_same (.inr rfl) rfl rfl rfl rfl

theorem PktOp.aligned {i n : Nat} {nd : Node} {s t : State} (hop : PktOp n nd s t) (h : NodeAligned s i n nd) :
    ∃ nd', AtNode n nd' s t ∧ NodeAligned s i n nd' := by
  cases hop with
  | calm nd' hat _ hmoves => exact ⟨nd', hat, pktMoves_aligned hmoves h⟩
  | faulted mid nd' r hat _ hmoves hfault => exact ⟨nd', hat, hfault.aligned (pktMoves_aligned hmoves h)⟩

/-- Frames leave the front of `RX`. -/
theorem NodeAligned.dropRx {s : State} {i m : Nat} {nd : Node} (h : NodeAligned s i m nd) (q : Dpk) {c : Chan}
    (hq : ∃ k, c.q = nd.rx.q.drop k) (htx : c.txAlive = nd.rx.txAlive) : NodeAligned s i m { nd with dpk := q, rx := c } := by
  obtain ⟨k, hk⟩ := hq
  refine ⟨h.pktEnd, ?_, h.tx, h.epoch, ?_, fun f hf => h.below f ?_⟩
  · change _ ∨ (_ ∧ c.txAlive = false)
    rw [htx]
    exact h.cmbEnds
  · change (c.q.map _).Pairwise _
    rw [hk, List.map_drop]
    exact h.rising.drop
  · have hf' : f ∈ c.q := hf
    rw [hk] at hf'
    exact List.mem_of_mem_drop hf'

/-- The environment acts only on ends that no packetizer and no combiner has. -/
theorem EnvOp.aligned {i : Nat} {c : ChanId} {nd : Node} {s t : State} (hop : EnvOp c nd s t) (h : NodeAligned s i c.node nd)
    (hw : s.cfg.wiring = .combined) : ∃ nd', AtNode c.node nd' s t ∧ NodeAligned s i c.node nd' := by
  have hsender : envOwns s nd c .sender = false := by
    cases c with
    | tx n =>
      rcases h.pktEnd with hp | hp <;> simp [envOwns, ownersPresent, hw, Node.chan, hp]
    | rx n =>
      rcases h.cmbEnds with hp | ⟨-, hp⟩ <;> simp [envOwns, ownersPresent, hw, Node.chan, hp]
  have hreceiver : ∀ n, c = .tx n → envOwns s nd c .receiver = false := by
    rintro n rfl
    rcases h.cmbEnds with hp | ⟨hp, -⟩ <;> simp [envOwns, ownersPresent, hw, Node.chan, hp]
  cases hop with
  | send f hf howns hat => exact (nomatch hsender.symm.trans howns)
  | recv f q hq howns hat hout =>
    refine ⟨_, hat, ?_⟩
    cases c with
    | tx n => exact (nomatch (hreceiver n rfl).symm.trans howns)
    | rx n =>
      have hq' : nd.rx.q = f :: q := hq
      exact h.dropRx nd.dpk (c := { nd.rx with q := q }) ⟨1, by rw [hq']; rfl⟩ rfl
  | closeSender howns hat => exact (nomatch hsender.symm.trans howns)
  | closeReceiver howns hat =>
    refine ⟨_, hat, ?_⟩
    cases c with
    | tx n => exact (nomatch (hreceiver n rfl).symm.trans howns)
    | rx n => exact h.dropRx nd.dpk (c := { nd.rx with rxAlive := false }) ⟨0, rfl⟩ rfl

/-! ## The combiner -/

/-- The combiner dies with its ends, or the ends alone. -/
theorem Aligned.withoutCmb {s t : State} {i : Nat} (h : Aligned s i) {l : Life} (hcfg : t.cfg = s.cfg)
    (hnodes : t.nodes = s.nodes.map (Node.withoutCmb s.cfg.wiring)) (hcmb : t.cmb = { s.cmb with life := l }) : Aligned t i := by
  obtain ⟨hw, hnode, hbuf⟩ := aligned_iff.1 h
  refine aligned_iff.2 ⟨by rw [hcfg, hw], fun m a ha => ?_, hbuf.congr (by rw [hcmb]) (by rw [hcmb]) (by rw [hcmb])
    (by rw [State.nNodes, hnodes, List.length_map])⟩
  rw [hnodes, List.getElem?_map, hw] at ha
  obtain ⟨nd, hn, rfl⟩ := Option.map_eq_some_iff.1 ha
  have hnd := hnode m nd hn
  have htaken := framesTaken_congr (s := s) (t := t) (by rw [hcmb]) (by rw [hcmb]) i m
  exact ⟨hnd.pktEnd, .inr ⟨rfl, rfl⟩, by rw [htaken]; exact hnd.tx, by rw [htaken]; exact hnd.epoch, hnd.rising,
    by rw [hcmb]; exact hnd.below⟩

theorem Aligned.raiseFault_cmb {s : State} {i : Nat} (h : Aligned s i) (r : Fault) : Aligned (raiseFault .cmb r s) i :=
  h.withoutCmb (raiseFault_cfg ..) (raiseFault_cmb_nodes_eq_map r s) (raiseFault_cmb_cmb r s)

/-- In phase RECV the next frame of transmitter `rr` is that of epoch `i`. -/
theorem Aligned.next_epoch {s : State} {i : Nat} {nd : Node} {f : IqFrame} {q : List IqFrame} (h : Aligned s i)
    (hphase : s.cmb.phase = .recv) (hn : s.nodes[s.cmb.rr]? = some nd) (hq : nd.tx.q = f :: q) :
    f.epoch = BitVec.ofNat 64 i ∧ q.map (fun g => g.epoch.toNat) = List.range' (i + 1) q.length := by
  have htx := (h.node hn).tx
  rw [framesTaken, hphase] at htx
  simp only [Nat.lt_irrefl, if_false] at htx
  rw [hq, List.map_cons, List.length_cons, List.range'_succ] at htx
  obtain ⟨hhead, htail⟩ := List.cons.inj htx
  exact ⟨BitVec.eq_of_toNat_eq (by rw [hhead, BitVec.toNat_ofNat, ← hhead, Nat.mod_eq_of_lt f.epoch.isLt]), htail⟩

/-- In the regime of aligned streams the frame that CMB.RECV takes can be inserted, and stands last under the key `i`
(R184, R186). -/
theorem Aligned.insert_next {s : State} {i : Nat} {f : IqFrame} (h : Aligned s i) (hphase : s.cmb.phase = .recv)
    (hf : f.epoch = BitVec.ofNat 64 i) :
    ∃ es, Buf.insert f s.cmb.rr s.cmb.buf = some [(BitVec.ofNat 64 i, es)] ∧
      es.map Entry.sender = List.range (s.cmb.rr + 1) := by
  rcases Nat.eq_zero_or_pos s.cmb.rr with hrr | hrr
  · rw [h.empty hphase hrr, hrr]
    exact ⟨[⟨f, 0⟩], by rw [Buf.insert, hf], rfl⟩
  · obtain ⟨es, hbuf, hsenders⟩ := h.partly hphase hrr
    have hnew : (es.any fun x => x.sender = s.cmb.rr) = false := by
      rw [List.any_eq_false]
      intro x hx hsender
      have hmem := List.mem_map_of_mem (f := Entry.sender) hx
      rw [hsenders, of_decide_eq_true hsender, List.mem_range] at hmem
      exact Nat.lt_irrefl _ hmem
    refine ⟨es ++ [⟨f, s.cmb.rr⟩], ?_, ?_⟩
    · rw [hbuf, Buf.insert_cons, hf, if_neg (BitVec.lt_irrefl _), if_pos rfl, hnew, if_neg Bool.false_ne_true]
    · rw [List.map_append, hsenders, List.range_succ]
      rfl

/-- After CMB.RECV has taken the frame of transmitter `rr`, `rr` is one of those that have been taken from. -/
theorem framesTaken_advance {s t : State} {i m : Nat} {b : Buf} (hphase : s.cmb.phase = .recv)
    (hcmb : t.cmb = advanceRecv s.nNodes s.cmb b) (hm : m < s.nNodes) :
    framesTaken t i m = if m = s.cmb.rr then i + 1 else framesTaken s i m := by
  rw [framesTaken, framesTaken, hcmb, hphase]
  by_cases hlast : s.cmb.rr + 1 = s.nNodes
  · rw [advanceRecv, if_pos hlast]
    dsimp only
    split
    case isTrue => rfl
    case isFalse => rw [if_pos (by omega)]
  · rw [advanceRecv, if_neg hlast]
    dsimp only
    rw [hphase]
    dsimp only
    by_cases hm : m = s.cmb.rr
    · rw [if_pos hm, if_pos (by omega)]
    · rw [if_neg hm]
      exact if_congr (by omega) rfl rfl

theorem rxBound_recv {c : Cmb} (h : c.phase = .recv ∨ c.sent = 0) (i m : Nat) : rxBound c i m = i := by
  refine if_neg fun hc => ?_
  rcases h with h | h
  · exact (nomatch hc.1.symm.trans h)
  · exact absurd (h ▸ hc.2) (Nat.not_lt_zero m)

/-- CMB.RECV takes epoch `i` of transmitter `rr` (R171, R186). -/
theorem recvTurn_aligned {s : State} {i : Nat} (hinv : s.Inv) (h : Aligned s i) (hphase : s.cmb.phase = .recv) :
    Aligned (recvTurn s) i := by
  rcases recvTurn_cases s with ⟨-, ht⟩ | ⟨nd, hn, ⟨-, -, ht⟩ | ⟨-, -, ht⟩ | ⟨f, q, hq, ⟨hins, -⟩ | ⟨b, hins, ht⟩⟩⟩
  · exact ht.symm ▸ h
  · exact ht.symm ▸ h
  · exact ht.symm ▸ h.raiseFault_cmb _
  · obtain ⟨es, hins', -⟩ := h.insert_next hphase (h.next_epoch hphase hn hq).1
    exact (nomatch hins.symm.trans hins')
  · obtain ⟨hepoch, hrest⟩ := h.next_epoch hphase hn hq
    obtain ⟨es, hins', hsenders⟩ := h.insert_next hphase hepoch
    obtain rfl : b = _ := Option.some.inj (hins.symm.trans hins')
    have hrr := hinv.cmb.rr
    have hsent := hinv.cmb.recv hphase
    have hcmb : (recvTurn s).cmb = advanceRecv s.nNodes s.cmb [(BitVec.ofNat 64 i, es)] := by rw [ht]
    have hnodes : (recvTurn s).nodes = s.nodes.set s.cmb.rr { nd with tx := { nd.tx with q := q } } := by rw [ht]; rfl
    have hlife : (recvTurn s).cmb.life = s.cmb.life ∧ (recvTurn s).cmb.sent = s.cmb.sent := by
      rw [hcmb, advanceRecv]
      split <;> exact ⟨rfl, rfl⟩
    have hbound : ∀ m, rxBound (recvTurn s).cmb i m = rxBound s.cmb i m := fun m => by
      rw [rxBound_recv (.inr (hlife.2.trans hsent)), rxBound_recv (.inr hsent)]
    refine aligned_iff.2 ⟨by rw [ht]; exact h.wiring, fun m a ha => ?_, ?_⟩
    · rw [hnodes] at ha
      have hm : m < s.nNodes := by
        have hlt := (List.getElem?_eq_some_iff.1 ha).1
        rwa [List.length_set] at hlt
      have htaken := framesTaken_advance (i := i) hphase hcmb hm
      by_cases hmr : m = s.cmb.rr
      · subst hmr
        rw [List.getElem?_set_self hrr] at ha
        cases ha
        have hnd := h.node hn
        have hepoch' := hnd.epoch
        rw [framesTaken, hphase] at hepoch'
        simp only [Nat.lt_irrefl, if_false, hq, List.length_cons] at hepoch'
        rw [if_pos rfl] at htaken
        refine ⟨hnd.pktEnd, by rw [hlife.1]; exact hnd.cmbEnds, by rw [htaken]; exact hrest, ?_, hnd.rising,
          by rw [hbound]; exact hnd.below⟩
        rw [htaken]
        change nd.pkt.epoch.toNat = i + 1 + q.length
        omega
      · rw [List.getElem?_set_ne (Ne.symm hmr)] at ha
        have hnd := h.node ha
        rw [if_neg hmr] at htaken
        exact ⟨hnd.pktEnd, by rw [hlife.1]; exact hnd.cmbEnds, by rw [htaken]; exact hnd.tx, by rw [htaken]; exact hnd.epoch,
          hnd.rising, by rw [hbound]; exact hnd.below⟩
    · have hlen : (recvTurn s).nNodes = s.nNodes := by rw [State.nNodes, hnodes, List.length_set]
      rw [advanceRecv] at hcmb
      split at hcmb
      case isTrue hlast =>
        refine ⟨fun hp => ?_, fun hp => ?_, fun _ => ⟨es, by rw [hcmb], by rw [hsenders, hlen, hlast]⟩⟩ <;>
          rw [hcmb] at hp <;> cases hp
      case isFalse =>
        refine ⟨fun _ hz => ?_, fun _ _ => ⟨es, by rw [hcmb], by rw [hsenders, hcmb]⟩, fun hp => ?_⟩
        · rw [hcmb] at hz
          exact absurd hz (Nat.succ_ne_zero _)
        · rw [hcmb] at hp
          exact (nomatch hphase.symm.trans hp)

/-- In the regime of aligned streams the complete oldest epoch of phase CHECK is `i`. -/
theorem Aligned.ready {s : State} {i : Nat} (h : Aligned s i) (hphase : s.cmb.phase = .check) :
    ∃ es, readyEpoch s = some (BitVec.ofNat 64 i, es) ∧ s.cmb.buf = [(BitVec.ofNat 64 i, es)] := by
  obtain ⟨es, hbuf, hsenders⟩ := h.full hphase
  have hlen := congrArg List.length hsenders
  rw [List.length_map, List.length_range] at hlen
  exact ⟨es, readyEpoch_some.2 ⟨hlen.ge, [], hbuf⟩, hbuf⟩

/-- In phase CHECK every packetizer is past epoch `i`, so `i` is an epoch. -/
theorem Aligned.lt_of_check {s : State} {i m : Nat} {nd : Node} (h : Aligned s i) (hphase : s.cmb.phase = .check)
    (hn : s.nodes[m]? = some nd) : i < 2 ^ 64 := by
  have hepoch := (h.node hn).epoch
  rw [framesTaken, hphase] at hepoch
  have hlt := nd.pkt.epoch.isLt
  dsimp only at hepoch
  omega

/-- A send of epoch `i` to the next receiver, to which only smaller epochs have been sent (R180). -/
theorem CmbSend.aligned {i : Nat} {es : List Entry} {s t : State} (hsend : CmbSend (BitVec.ofNat 64 i) es s t)
    (h : Aligned s i) (hphase : s.cmb.phase = .check) : Aligned t i := by
  cases hsend with
  | intro nd hn halive =>
    obtain ⟨hw, hnode, hbuf⟩ := aligned_iff.1 h
    refine aligned_iff.2 ⟨hw, fun m a ha => ?_, hbuf.congr rfl rfl rfl List.length_set⟩
    have ha' : (s.nodes.set s.cmb.sent
        { nd with rx := { nd.rx with q := nd.rx.q ++ [combinedFrame s (BitVec.ofNat 64 i) es s.cmb.sent] } })[m]? = some a := ha
    have hbound : ∀ m, rxBound s.cmb i m ≤ rxBound { s.cmb with sent := s.cmb.sent + 1 } i m := fun m => by
      by_cases hc : s.cmb.phase = .check ∧ m < s.cmb.sent
      · rw [rxBound, if_pos hc, rxBound, if_pos ⟨hc.1, Nat.lt_succ_of_lt hc.2⟩]
      · rw [rxBound, if_neg hc, rxBound]
        split <;> omega
    by_cases hm : m = s.cmb.sent
    · subst hm
      rw [List.getElem?_set_self (List.getElem?_eq_some_iff.1 hn).1] at ha'
      cases ha'
      have hnd := hnode _ nd hn
      have hi := h.lt_of_check hphase hn
      have hepoch : (combinedFrame s (BitVec.ofNat 64 i) es s.cmb.sent).epoch.toNat = i := by
        rw [combinedFrame_epoch, BitVec.toNat_ofNat, Nat.mod_eq_of_lt hi]
      have hbelow := hnd.below
      rw [rxBound, if_neg (fun hc => absurd hc.2 (Nat.lt_irrefl _))] at hbelow
      have hbound' : rxBound { s.cmb with sent := s.cmb.sent + 1 } i s.cmb.sent = i + 1 :=
        if_pos ⟨hphase, Nat.lt_succ_self _⟩
      refine ⟨hnd.pktEnd, hnd.cmbEnds, hnd.tx, hnd.epoch, ?_, fun f hf => ?_⟩
      · change ((nd.rx.q ++ [_]).map _).Pairwise _
        rw [List.map_append, List.pairwise_append]
        refine ⟨hnd.rising, List.pairwise_singleton _ _, fun a ha b hb => ?_⟩
        obtain ⟨g, hg, rfl⟩ := List.mem_map.1 ha
        rw [List.map_singleton, List.mem_singleton] at hb
        rw [hb, hepoch]
        exact hbelow g hg
      · refine Nat.lt_of_lt_of_eq ?_ hbound'.symm
        rcases List.mem_append.1 hf with hf | hf
        · exact Nat.lt_succ_of_lt (hbelow f hf)
        · rw [List.mem_singleton.1 hf, hepoch]
          exact Nat.lt_succ_self i
    · rw [List.getElem?_set_ne (Ne.symm hm)] at ha'
      have hnd := hnode m a ha'
      exact ⟨hnd.pktEnd, hnd.cmbEnds, hnd.tx, hnd.epoch, hnd.rising, fun f hf => (hnd.below f hf).trans_le (hbound m)⟩

theorem cmbSends_aligned {i : Nat} {es : List Entry} {s t : State} (hsends : ReflTransGen (CmbSend (BitVec.ofNat 64 i) es) s t)
    (h : Aligned s i) (hphase : s.cmb.phase = .check) : Aligned t i := by
  induction hsends with
  | refl => exact h
  | tail hu hsend ih => exact hsend.aligned ih (by rw [(cmbSends_kept hu).2.1]; exact hphase)

/-- The set of epoch `i` goes, and with it the outer iteration `i` (R177, R186). -/
theorem finishCombine_aligned {s : State} {i : Nat} (hinv : s.Inv) (h : Aligned s i) (hphase : s.cmb.phase = .check) :
    Aligned (finishCombine (BitVec.ofNat 64 i) s) (i + 1) := by
  obtain ⟨hrr, -⟩ := hinv.cmb.check hphase
  obtain ⟨es, -, hbuf⟩ := h.ready hphase
  have htaken : ∀ m, framesTaken (finishCombine (BitVec.ofNat 64 i) s) (i + 1) m = framesTaken s i m := fun m => by
    rw [framesTaken, framesTaken, hphase]
    change (if m < s.cmb.rr then _ else _) = _
    rw [hrr, if_neg (Nat.not_lt_zero m)]
  have hbound : ∀ m, rxBound s.cmb i m ≤ rxBound (finishCombine (BitVec.ofNat 64 i) s).cmb (i + 1) m := fun m => by
    rw [rxBound_recv (c := (finishCombine (BitVec.ofNat 64 i) s).cmb) (.inl rfl), rxBound]
    split <;> omega
  refine aligned_iff.2 ⟨h.wiring, fun m nd hn => ?_, fun _ _ => ?_, fun _ hpos => ?_, fun hp => (nomatch hp)⟩
  · have hnd := h.node (m := m) hn
    exact ⟨hnd.pktEnd, hnd.cmbEnds, by rw [htaken]; exact hnd.tx, by rw [htaken]; exact hnd.epoch, hnd.rising,
      fun f hf => (hnd.below f hf).trans_le (hbound m)⟩
  · change Buf.remove _ s.cmb.buf = []
    rw [hbuf, Buf.remove]
    simp
  · exact absurd hrr (Nat.pos_iff_ne_zero.1 hpos)

theorem CheckOp.aligned {s t : State} {i : Nat} (hop : CheckOp s t) (hinv : s.Inv) (h : Aligned s i)
    (hphase : s.cmb.phase = .check) : Aligned t i ∨ Aligned t (i + 1) := by
  obtain ⟨es₀, hready₀, -⟩ := h.ready hphase
  have hepoch : ∀ {e es}, readyEpoch s = some (e, es) → e = BitVec.ofNat 64 i := fun hready =>
    (Prod.mk.inj (Option.some.inj (hready.symm.trans hready₀))).1
  cases hop with
  | collect hready ht => exact (nomatch hready.symm.trans hready₀)
  | sends e es hready hs =>
    obtain rfl := hepoch hready
    exact .inl (cmbSends_aligned hs h hphase)
  | dead e es hready mid nd hs _ _ ht =>
    obtain rfl := hepoch hready
    exact .inl (ht ▸ (cmbSends_aligned hs h hphase).raiseFault_cmb _)
  | finish e es hready mid hs _ ht =>
    obtain rfl := hepoch hready
    have hphase' : mid.cmb.phase = .check := by rw [(cmbSends_kept hs).2.1]; exact hphase
    exact .inr (ht ▸ finishCombine_aligned (cmbSends_inv hs hinv hphase hready) (cmbSends_aligned hs h hphase) hphase')

/-! ## Every step -/

theorem Aligned.congr {s t : State} {i : Nat} (h : Aligned s i) (hcfg : t.cfg = s.cfg) (hnodes : t.nodes = s.nodes)
    (hcmb : t.cmb = s.cmb) : Aligned t i := by
  obtain ⟨hw, hnode, hbuf⟩ := aligned_iff.1 h
  exact aligned_iff.2 ⟨by rw [hcfg, hw], fun m nd hn => (hnode m nd (hnodes ▸ hn)).congr hcmb,
    hbuf.congr (by rw [hcmb]) (by rw [hcmb]) (by rw [hcmb]) (by rw [State.nNodes, hnodes])⟩

theorem removed_aligned {u : UnitId} {l : Life} {s t : State} {i : Nat} (h : Aligned s i) (hlife : lifeOf u s = some l)
    (ht : t = killEnds u (mapLife u (fun l => { l with present := false }) s)) : Aligned t i := by
  rcases removed_cases hlife ht with ⟨n, nd, hn, -, rfl⟩ | ⟨n, nd, hn, -, rfl⟩ | ⟨n, nd, hn, -, rfl⟩ | ⟨n, nd, hn, -, rfl⟩ |
    ⟨-, hcfg, hcmb, -, hnodes⟩
  · exact h.at (.setNode ..) ((h.node hn).of_same (.inr rfl) rfl rfl rfl rfl)
  · rw [h.wiring]
    exact h.at (.setNode ..) ((h.node hn).dropRx _ (c := { nd.rx with rxAlive := false }) ⟨0, rfl⟩ rfl)
  · exact h.at (.setNode ..) ((h.node hn).of_same (h.node hn).pktEnd rfl rfl rfl rfl)
  · exact h.at (.setNode ..) ((h.node hn).of_same (h.node hn).pktEnd rfl rfl rfl rfl)
  · exact h.withoutCmb hcfg hnodes hcmb

theorem Effect.aligned {s t : State} {i : Nat} (heffect : Effect s t) (hinv : s.Inv) (h : Aligned s i) :
    Aligned t i ∨ Aligned t (i + 1) := by
  cases heffect with
  | quiet hop => exact .inl (h.congr hop.cfg hop.nodes hop.cmb)
  | pkt n nd hn hop =>
    obtain ⟨nd', hat, hnd⟩ := hop.aligned (h.node hn)
    exact .inl (h.at hat hnd)
  | dpk n nd hn q' c' ds hop =>
    obtain ⟨-, hat, -, hmove, -⟩ := hop
    rw [h.wiring] at hat hmove
    exact .inl (h.at hat ((h.node hn).dropRx q' hmove.taken hmove.txAlive))
  | nse n nd hn hop =>
    obtain ⟨nd', hat, hmove⟩ := hop.2 nd hn
    refine .inl (h.at hat ?_)
    rw [hmove.node]
    exact (h.node hn).of_same (h.node hn).pktEnd rfl rfl rfl rfl
  | recv hl hphase ht => exact .inl (ht ▸ recvTurn_aligned hinv h hphase)
  | check hl hphase hop => exact hop.aligned hinv h hphase
  | env c nd hn hfaults hop =>
    obtain ⟨nd', hat, hnd⟩ := hop.aligned (h.node hn) h.wiring
    exact .inl (h.at hat hnd)
  | remove u l hlife hpresent ht => exact .inl (removed_aligned h hlife ht)

/-- Settles O45. -/
theorem alignedStreamsStayAligned : Obligations.AlignedStreamsStayAligned := by
  intro s t i hinv h hstep
  obtain ⟨inbox, heffect⟩ := step_effect hstep
  exact heffect.aligned (hinv.congr rfl rfl rfl) (h.congr rfl rfl rfl)

end Sys2Proof.Machine
end

section
/-! PROOF. In a complete block with aligned streams no step takes a fault but the overflow of an epoch counter (43 R184, R186;
60 R253; 70 R295). -/

namespace Sys2Proof.Machine

open Relation (ReflTransGen)

/-- A step takes no fault, or a packetizer's counter overflows (R253). -/
def OverflowOrNone (s t : State) : Prop :=
  t.faults = s.faults ∨ ∃ n, t.faults = s.faults ++ [(.pkt n, .epochOverflow (BitVec.allOnes 64))]

/-- The next receiver of a combine is as it was before the sends. -/
theorem cmbSends_next {e : Epoch} {es : List Entry} {s t : State} {nd : Node} (h : ReflTransGen (CmbSend e es) s t)
    (hn : t.nodes[t.cmb.sent]? = some nd) : s.nodes[t.cmb.sent]? = some nd := by
  rw [(cmbSends_eq h).2] at hn
  have hn' : (servedUpTo e es t.cmb.sent s).nodes[t.cmb.sent]? = some nd := hn
  rw [getElem?_servedUpTo] at hn'
  obtain ⟨a, ha, haeq⟩ := Option.map_eq_some_iff.1 hn'
  rw [if_neg fun hc => Nat.lt_irrefl _ hc.2] at haeq
  rw [ha, haeq]

section
variable {s t : State} {i : Nat}

/-- A packetizer whose receiver is the live combiner takes no fault but an overflow. -/
theorem PktOp.overflowOrNone {n : Nat} {nd : Node} (hop : PktOp n nd s t) (halive : nd.tx.rxAlive = true) :
    OverflowOrNone s t := by
  cases hop with
  | calm nd' _ hfaults _ => exact .inl hfaults
  | faulted mid nd' r _ hfaults hmoves hfault =>
    obtain ⟨win, fill, -, ⟨rfl, hepoch⟩ | ⟨-, hdead⟩, -, -⟩ := hfault
    · exact .inr ⟨n, hepoch ▸ hfaults⟩
    · exact (nomatch ((pktMoves_kept hmoves).1.rxAlive.trans halive).symm.trans hdead)

/-- CMB.RECV finds no dead sender among running packetizers, and no duplicate in aligned streams. -/
theorem recvTurn_faults (h : Aligned s i) (hphase : s.cmb.phase = .recv) (halive : ∀ nd ∈ s.nodes, nd.tx.txAlive = true) :
    (recvTurn s).faults = s.faults := by
  rcases recvTurn_cases s with ⟨-, ht⟩ | ⟨nd, hn, ⟨-, -, ht⟩ | ⟨-, hdead, -⟩ | ⟨f, q, hq, ⟨hins, -⟩ | ⟨b, -, ht⟩⟩⟩
  · rw [ht]
  · rw [ht]
  · exact (nomatch (halive nd (List.mem_of_getElem? hn)).symm.trans hdead)
  · obtain ⟨es, hins', -⟩ := h.insert_next hphase (h.next_epoch hphase hn hq).1
    exact (nomatch hins.symm.trans hins')
  · rw [ht]
    rfl

/-- A check finds no dead receiver among depacketizers in existence. -/
theorem CheckOp.faults (hop : CheckOp s t) (halive : ∀ nd ∈ s.nodes, nd.rx.rxAlive = true) : t.faults = s.faults := by
  cases hop with
  | collect _ ht => rw [ht]; rfl
  | sends e es _ hs => exact (cmbSends_kept hs).2.2.1
  | dead e es _ mid nd hs hn hdead _ =>
    exact (nomatch (halive nd (List.mem_of_getElem? (cmbSends_next hs hn))).symm.trans hdead)
  | finish e es _ mid hs _ ht => rw [ht]; exact (cmbSends_kept hs).2.2.1

theorem Effect.overflowOrNone (heffect : Effect s t) (hinv : s.Inv) (h : Aligned s i) (hsafe : s.Safe)
    (hcmb : s.cmb.life.present = true) (hnodes : ∀ nd ∈ s.nodes, nd.pkt.life.present = true ∧ nd.dpk.life.present = true) :
    OverflowOrNone s t := by
  cases heffect with
  | quiet hop => exact .inl hop.faults
  | pkt n nd hn hop => exact hop.overflowOrNone ((hinv.cmb.alive hcmb nd (List.mem_of_getElem? hn)).1.2 hsafe.cmb)
  | dpk n nd hn q' c' ds hop => exact .inl hop.faults
  | nse n nd hn hop => exact .inl hop.1
  | recv hl hphase ht =>
    exact .inl (ht ▸ recvTurn_faults h hphase fun nd hnd =>
      ((hinv.node nd hnd).pkt.alive (hnodes nd hnd).1).2 (hsafe.node nd hnd).1)
  | check hl hphase hop =>
    refine .inl (hop.faults fun nd hnd => ?_)
    have hdpk := (hinv.node nd hnd).dpk.alive (hnodes nd hnd).2
    rw [h.wiring] at hdpk
    exact hdpk
  | env c nd hn hfaults hop => exact .inl hfaults
  | remove u l hlife hpresent ht => exact .inl (by rw [ht]; simp)

/-- Without a new status and a new fault a safe state stays safe. -/
theorem NoTermination.safe (hterm : NoTermination s t) (hsafe : s.Safe) : t.Safe := by
  obtain ⟨hfaults, hlife⟩ := hterm
  refine ⟨(Option.some.inj (hlife .cmb)).trans hsafe.cmb, fun nd hnd => ?_, hfaults.trans hsafe.faults⟩
  obtain ⟨m, hn⟩ := List.mem_iff_getElem?.1 hnd
  have hunit : ∀ f : Node → Life, (∀ a ∈ s.nodes, (f a).status = .running) →
      ((t.nodes[m]?).map f).map Life.status = ((s.nodes[m]?).map f).map Life.status → (f nd).status = .running := by
    intro f hrun heq
    rw [hn] at heq
    cases hs : s.nodes[m]? with
    | none => rw [hs] at heq; cases heq
    | some a =>
      rw [hs] at heq
      exact (Option.some.inj heq).trans (hrun a (List.mem_of_getElem? hs))
  exact ⟨hunit _ (fun a ha => (hsafe.node a ha).1) (hlife (.pkt m)), hunit _ (fun a ha => (hsafe.node a ha).2.1) (hlife (.dpk m)),
    hunit _ (fun a ha => (hsafe.node a ha).2.2.1) (hlife (.nse m)),
    hunit _ (fun a ha => (hsafe.node a ha).2.2.2) (hlife (.dec m))⟩

end

/-- Settles O46: a step that takes no fault changes no status, so the state stays safe. -/
theorem alignedBlockTakesNoOtherFault : Obligations.AlignedBlockTakesNoOtherFault := by
  intro s t i hinv h hsafe hcmb hnodes _ hstep
  obtain ⟨inbox, heffect⟩ := step_effect hstep
  have hfaults : OverflowOrNone { s with inbox := inbox } t := heffect.overflowOrNone (hinv.congr rfl rfl rfl)
    (h.congr rfl rfl rfl) ⟨hsafe.cmb, hsafe.node, hsafe.faults⟩ hcmb hnodes
  rcases hfaults with hsame | ⟨n, hnew⟩
  · rcases faultTerminatesOnlyItsUnit s t hstep with hterm | ⟨u, r, hnew, -⟩
    · exact .inl (NoTermination.safe hterm hsafe)
    · rw [hsame] at hnew
      exact absurd hnew (by simp)
  · have hempty : s.faults = [] := hsafe.faults
    exact .inr ⟨n, hnew.trans (by rw [hempty]; rfl)⟩

end Sys2Proof.Machine
end

section
/-! PROOF. An operation invoked whole is its atomic steps taken one after the other (20 R82; 40 R124; 41 R141; 43 R177; log 18). -/

namespace Sys2Proof.Machine

/-! ## CMB.CHECK -/

section
variable {e : Epoch} {es : List Entry} {s t : State}

theorem CmbSend.sendOne_eq (h : CmbSend e es s t) : sendOne e es s = .done t := by
  cases h with
  | intro nd hn halive =>
    rw [sendOne, hn]
    dsimp only
    rw [send_alive _ halive]

theorem wholeCombine_all (h : s.nNodes ≤ s.cmb.sent) : wholeCombine e es s = finishCombine e s := by
  rw [wholeCombine, Nat.sub_eq_zero_of_le h]
  rfl

/-- A send, and then the whole combine for the receivers that are left. -/
theorem CmbSend.wholeCombine_eq (h : CmbSend e es s t) : wholeCombine e es s = wholeCombine e es t := by
  have hsend := h.sendOne_eq
  have hlen := h.nNodes
  have hsent := h.sent
  have hlt : s.cmb.sent < s.nNodes := by
    cases h with
    | intro nd hn _ => exact (List.getElem?_eq_some_iff.1 hn).1
  obtain ⟨k, hk⟩ : ∃ k, s.nNodes - s.cmb.sent = k + 1 := ⟨s.nNodes - s.cmb.sent - 1, by omega⟩
  have hk' : t.nNodes - t.cmb.sent = k := by omega
  rw [wholeCombine, wholeCombine, hk, hk', sendMany, hsend]

theorem wholeCombine_dead_next {nd : Node} (hn : s.nodes[s.cmb.sent]? = some nd) (hdead : nd.rx.rxAlive = false) :
    wholeCombine e es s = raiseFault .cmb .channelDisconnected s := by
  have hlt : s.cmb.sent < s.nNodes := (List.getElem?_eq_some_iff.1 hn).1
  obtain ⟨k, hk⟩ : ∃ k, s.nNodes - s.cmb.sent = k + 1 := ⟨s.nNodes - s.cmb.sent - 1, by omega⟩
  have hone : sendOne e es s = .raised (raiseFault .cmb .channelDisconnected s) := by
    rw [sendOne, hn]
    dsimp only
    rw [send_dead _ hdead]
  rw [wholeCombine, hk, sendMany, hone]

end

/-- The whole combine is turns of the combiner: one for each receiver that is left, up to the first dead one, and one at
least. -/
theorem wholeCombine_turns {e : Epoch} {es : List Entry} : ∀ (j : Nat) {s : State}, s.cmb.life = Life.fresh true →
    s.cmb.phase = .check → readyEpoch s = some (e, es) → s.nNodes - s.cmb.sent ≤ j →
    ∃ k, 1 ≤ k ∧ k ≤ max 1 j ∧ combinerTurn^[k] s = wholeCombine e es s := by
  intro j
  induction j with
  | zero =>
    intro s hl hphase hready hj
    refine ⟨1, Nat.le_refl _, Nat.le_max_left _ _, ?_⟩
    have hall : ¬ s.cmb.sent < s.nNodes := by omega
    rw [Function.iterate_one, combinerTurn_check hl hphase, checkTurn, hready]
    dsimp only
    rw [if_neg hall, wholeCombine_all (by omega)]
  | succ j ih =>
    intro s hl hphase hready hj
    have hone : ∀ t, checkTurn s = t → wholeCombine e es s = t →
        ∃ k, 1 ≤ k ∧ k ≤ max 1 (j + 1) ∧ combinerTurn^[k] s = wholeCombine e es s := fun t ht hw =>
      ⟨1, Nat.le_refl _, Nat.le_max_left _ _, by rw [Function.iterate_one, combinerTurn_check hl hphase, ht, hw]⟩
    rcases checkTurn_cases s with ⟨hnone, -⟩ | ⟨e', es', hready', hcases⟩
    · exact (nomatch hnone.symm.trans hready)
    · obtain ⟨rfl, rfl⟩ := Prod.mk.inj (Option.some.inj (hready'.symm.trans hready))
      rcases hcases with ⟨hall, ht⟩ | ⟨t, hsend, hmore, ht⟩ | ⟨t, hsend, hall, ht⟩ | ⟨nd, hn, hdead, ht⟩
      · exact hone _ ht (wholeCombine_all hall)
      · obtain ⟨-, hcmb, -, hlen⟩ := cmbSends_kept (.single hsend)
        have hsent := hsend.sent
        obtain ⟨k, hk, hkj, hturns⟩ := ih (s := t) (by rw [hcmb]; exact hl) (by rw [hcmb]; exact hphase)
          ((readyEpoch_congr (by rw [hcmb]) hlen).trans hready) (by omega)
        refine ⟨k + 1, by omega, by omega, ?_⟩
        rw [Function.iterate_succ_apply, combinerTurn_check hl hphase, ht, hturns, hsend.wholeCombine_eq]
      · exact hone _ ht (hsend.wholeCombine_eq.trans (wholeCombine_all hall))
      · exact hone _ ht (wholeCombine_dead_next hn hdead)

theorem cmbCheck_turns {s t : State} (hinv : s.Inv) (hl : s.cmb.life = Life.fresh true) (hphase : s.cmb.phase = .check)
    (h : exec .cmbCheck s = .next t) : ∃ k, 1 ≤ k ∧ k ≤ s.nodes.length ∧ (unitTurn .cmb)^[k] s = t := by
  change execCmbCheck s = _ at h
  rw [execCmbCheck, hl, withLife_fresh, hphase] at h
  obtain rfl : wholeCheck s = t := Host.Outcome.next.inj h
  have hpos : 1 ≤ s.nodes.length := Nat.one_le_of_lt hinv.cmb.rr
  cases hready : readyEpoch s with
  | none =>
    refine ⟨1, Nat.le_refl _, hpos, ?_⟩
    rw [Function.iterate_one, unitTurn, combinerTurn_check hl hphase, checkTurn, wholeCheck, hready]
  | some p =>
    obtain ⟨k, hk, hkj, hturns⟩ := wholeCombine_turns (s.nNodes - s.cmb.sent) hl hphase hready (Nat.le_refl _)
    have hle : s.nNodes - s.cmb.sent ≤ s.nodes.length := Nat.sub_le _ _
    exact ⟨k, hk, by omega, hturns.trans (wholeCheck_ready hready).symm⟩

/-! ## Refusals -/

theorem withNode_none {s : State} {n : Nat} {k : Node → Result} (h : s.nodes[n]? = none) :
    withNode s n k = .refused .noSuchInstance := by
  rw [withNode, h]

/-- A unit that may not run refuses every operation alike (R35). -/
theorem withLife_refuses {l : Life} (h : l ≠ Life.fresh true) : ∃ why, ∀ k, withLife l k = .refused why := by
  obtain ⟨status, present⟩ := l
  cases present with
  | false => exact ⟨_, fun k => withLife_absent rfl⟩
  | true =>
    cases status with
    | terminated => exact ⟨_, fun k => withLife_terminated⟩
    | running => exact absurd rfl h

/-! ## PKT.WORK -/

section
variable {n : Nat} {nd : Node} {s : State}

theorem pktFaulted_setNode (a b : Node) (r : Fault) : pktFaulted n a r (s.setNode n b) = pktFaulted n a r s := by
  rw [pktFaulted, pktFaulted, setNode_setNode, setNode_faults]

theorem setPktWork_setNode (w : Option PktWork) (a : Node) : setPktWork n w (s.setNode n a) = s.setNode n (a.withPktWork w) :=
  modifyNode_setNode s n a _

/-- An emission does not look at the work cycle that is in progress; a fault drops it. -/
theorem emitWindow_withPktWork (hl : nd.pkt.life = Life.fresh true) (w : Option PktWork) (b : Node) :
    (emitWindow n nd s = .done (s.setNode n (nd.emitted nd.pkt.win)) ∧
      emitWindow n (nd.withPktWork w) (s.setNode n b) = .done (s.setNode n ((nd.emitted nd.pkt.win).withPktWork w))) ∨
    ∃ r, emitWindow n nd s = .raised (pktFaulted n nd r s) ∧
      emitWindow n (nd.withPktWork w) (s.setNode n b) = .raised (pktFaulted n nd r s) := by
  have hlw : (nd.withPktWork w).pkt.life = Life.fresh true := hl
  have hdead : ∀ r, pktFaulted n (nd.withPktWork w) r (s.setNode n b) = pktFaulted n nd r s := fun r => by
    rw [pktFaulted_setNode]
    rfl
  rcases emitWindow_cases n nd s with ⟨hepoch, h⟩ | ⟨hepoch, hrx, h⟩ | ⟨hepoch, hrx, h⟩
  · refine .inr ⟨.epochOverflow nd.pkt.epoch, by rw [h, raiseFault_eq_pktFaulted hl], ?_⟩
    rw [emitWindow_overflow (nd := nd.withPktWork w) hepoch, raiseFault_eq_pktFaulted hlw, hdead]
    rfl
  · refine .inr ⟨.channelDisconnected, by rw [h, raiseFault_eq_pktFaulted hl], ?_⟩
    rw [emitWindow_dead (nd := nd.withPktWork w) hepoch hrx, raiseFault_eq_pktFaulted hlw, hdead]
  · refine .inl ⟨h, ?_⟩
    rw [emitWindow_alive (nd := nd.withPktWork w) hepoch hrx, setNode_setNode]
    rfl

/-- The sample that fills the window makes its emission. -/
theorem acceptSample_of_done {x : C32} {t : State} (hfill : nd.pkt.fill + 1 = frameLen)
    (h : emitWindow n (nd.stored x) s = .done t) : acceptSample n nd x s = t := by
  rw [Node.stored] at h
  rw [acceptSample, if_pos hfill, h]

theorem acceptSample_of_raised {x : C32} {t : State} (hfill : nd.pkt.fill + 1 = frameLen)
    (h : emitWindow n (nd.stored x) s = .raised t) : acceptSample n nd x s = t := by
  rw [Node.stored] at h
  rw [acceptSample, if_pos hfill, h]

/-- The end of the stream with a window that is not empty makes its emission. -/
theorem flushWindow_of_done {t : State} (hfill : 0 < nd.pkt.fill) (h : emitWindow n nd.padded s = .done t) :
    flushWindow n nd s = signalDone n t := by
  rw [Node.padded] at h
  rw [flushWindow, if_pos hfill, h]

theorem flushWindow_of_raised {t : State} (hfill : 0 < nd.pkt.fill) (h : emitWindow n nd.padded s = .raised t) :
    flushWindow n nd s = t := by
  rw [Node.padded] at h
  rw [flushWindow, if_pos hfill, h]

/-- Nor does the acceptance of a sample: it goes on from the node it makes, or the packetizer takes the same fault. -/
theorem acceptSample_withPktWork (hl : nd.pkt.life = Life.fresh true) (x : C32) (w : Option PktWork) (b : Node) :
    (∃ nd', acceptSample n nd x s = s.setNode n nd' ∧
      acceptSample n (nd.withPktWork w) x (s.setNode n b) = s.setNode n (nd'.withPktWork w) ∧
      nd'.pkt.life = Life.fresh true ∧ nd'.pkt.work = nd.pkt.work ∧ nd'.pkt.done = nd.pkt.done) ∨
    ∃ mid r, acceptSample n nd x s = pktFaulted n mid r s ∧
      acceptSample n (nd.withPktWork w) x (s.setNode n b) = pktFaulted n mid r s ∧ nd.pkt.fill + 1 = frameLen := by
  by_cases hfill : nd.pkt.fill + 1 = frameLen
  · have hl' : (nd.stored x).pkt.life = Life.fresh true := hl
    have hfill' : (nd.withPktWork w).pkt.fill + 1 = frameLen := hfill
    rcases emitWindow_withPktWork (s := s) (n := n) hl' w b with ⟨h, h'⟩ | ⟨r, h, h'⟩
    · exact .inl ⟨(nd.stored x).emitted (nd.stored x).pkt.win, acceptSample_of_done hfill h, acceptSample_of_done hfill' h',
        hl, rfl, rfl⟩
    · exact .inr ⟨nd.stored x, r, acceptSample_of_raised hfill h, acceptSample_of_raised hfill' h', hfill⟩
  · refine .inl ⟨nd.stored x, acceptSample_stores hfill n x s, ?_, hl, rfl, rfl⟩
    rw [acceptSample_stores (nd := nd.withPktWork w) hfill, setNode_setNode]
    rfl

/-- Without its work cycle a packetizer's node is as it was before it had one. -/
theorem withPktWork_none {a : Node} (h : a.pkt.work = none) (w : Option PktWork) : (a.withPktWork w).withPktWork none = a := by
  obtain ⟨⟨_, _, _, _, _, _⟩, _, _, _, _, _⟩ := a
  cases h
  rfl

/-- The end of the stream inside a work cycle, which ends with it. -/
theorem flushWindow_withPktWork (hn : s.nodes[n]? = some nd) (hl : nd.pkt.life = Life.fresh true) (hwork : nd.pkt.work = none)
    (w : Option PktWork) : setPktWork n none (flushWindow n (nd.withPktWork w) (s.setNode n (nd.withPktWork w))) =
      flushWindow n nd s := by
  by_cases hfill : 0 < nd.pkt.fill
  · have hl' : nd.padded.pkt.life = Life.fresh true := hl
    rcases emitWindow_withPktWork (s := s) (n := n) hl' w (nd.withPktWork w) with ⟨h, h'⟩ | ⟨r, h, h'⟩
    · rw [flushWindow_of_done hfill h, flushWindow_of_done (nd := nd.withPktWork w) hfill h', signalDone_setNode, signalDone_setNode]
      have hidle : (nd.padded.emitted nd.padded.pkt.win).ended.pkt.work = none := hwork
      change (setPktWork n none (s.setNode n ((nd.padded.emitted nd.padded.pkt.win).ended.withPktWork w))).emit _ = _
      rw [setPktWork_setNode, withPktWork_none hidle]
    · rw [flushWindow_of_raised hfill h, flushWindow_of_raised (nd := nd.withPktWork w) hfill h']
      change ({ setPktWork n none (s.setNode n nd.padded.pktDead) with faults := _ } : State) = _
      rw [setPktWork_setNode]
      rfl
  · have hfill' : ¬ 0 < (nd.withPktWork w).pkt.fill := hfill
    have hidle : nd.ended.pkt.work = none := hwork
    rw [flushWindow, if_neg hfill', flushWindow, if_neg hfill, signalDone_setNode, signalDone_of hn]
    change (setPktWork n none (s.setNode n (nd.ended.withPktWork w))).emit _ = _
    rw [setPktWork_setNode, withPktWork_none hidle]

/-- What the rest of a work cycle does in one turn and those after it is what it does whole, whatever is recorded of it. -/
theorem pktAdvance_turns : ∀ (xs : List C32) (eos : Bool) {nd : Node} {s t : State} (w : Option PktWork),
    s.nodes[n]? = some nd → nd.pkt.life = Life.fresh true → nd.pkt.work = none → pushAll n xs eos s = .next t →
    ∃ k, (pktTurn n)^[k] (pktAdvance n xs eos (s.setNode n (nd.withPktWork w))) = t := by
  intro xs
  induction xs with
  | nil =>
    intro eos nd s t w hn hl hwork h
    refine ⟨0, ?_⟩
    rw [Function.iterate_zero_apply, pktAdvance_nil (getElem?_setNode_self s n nd _ hn)]
    cases eos with
    | false =>
      cases h
      rw [if_neg Bool.false_ne_true, setPktWork_setNode, withPktWork_none hwork, setNode_self s n nd hn]
    | true =>
      obtain ⟨nd₀, hn₀, -, -, rfl⟩ := endStream_next.1 h
      obtain rfl : nd = nd₀ := Option.some.inj (hn.symm.trans hn₀)
      rw [if_pos rfl, flushWindow_withPktWork hn hl hwork]
  | cons x xs ih =>
    intro eos nd s t w hn hl hwork h
    have hnw := getElem?_setNode_self s n nd (nd.withPktWork w) hn
    rw [pushAll_cons] at h
    split at h
    case h_2 | h_3 => cases h
    case h_1 u hu =>
      obtain ⟨nd₀, hn₀, -, -, rfl⟩ := pushSample_next.1 hu
      obtain rfl : nd = nd₀ := Option.some.inj (hn.symm.trans hn₀)
      rcases acceptSample_withPktWork (s := s) (n := n) hl x w (nd.withPktWork w) with
        ⟨nd', h₁, h₂, hl', hwork', -⟩ | ⟨mid, r, h₁, h₂, hfill⟩
      · have hn' := getElem?_setNode_self s n nd nd' hn
        have hnw' := getElem?_setNode_self s n nd (nd'.withPktWork w) hn
        rw [h₁, pktRunning_of_fresh hn' hl', if_pos rfl] at h
        by_cases hfill : nd.pkt.fill + 1 = frameLen
        · obtain ⟨k, hk⟩ := ih eos (some ⟨xs, eos⟩) hn' hl' (hwork'.trans hwork) h
          refine ⟨k + 1, ?_⟩
          have hnk := getElem?_setNode_self s n nd (nd'.withPktWork (some ⟨xs, eos⟩)) hn
          have hturn : pktTurn n (s.setNode n (nd'.withPktWork (some ⟨xs, eos⟩))) =
              pktAdvance n xs eos (s.setNode n (nd'.withPktWork (some ⟨xs, eos⟩))) := by
            rw [pktTurn, hnk]
            exact if_pos hl'
          rw [Function.iterate_succ_apply, pktAdvance_emits hnw hfill, h₂, pktRunning_of_fresh hnw' hl', if_pos rfl,
            setPktWork_setNode]
          change (pktTurn n)^[k] (pktTurn n (s.setNode n (nd'.withPktWork (some ⟨xs, eos⟩)))) = t
          rw [hturn]
          rw [setNode_setNode] at hk
          exact hk
        · obtain ⟨k, hk⟩ := ih eos w hn' hl' (hwork'.trans hwork) h
          refine ⟨k, ?_⟩
          rw [pktAdvance_inside hnw hfill, h₂]
          rw [setNode_setNode] at hk
          exact hk
      · rw [h₁, pktRunning_pktFaulted hn, if_neg Bool.false_ne_true] at h
        cases h
        exact ⟨0, by rw [Function.iterate_zero_apply, pktAdvance_emits hnw hfill, h₂, pktRunning_pktFaulted hn,
          if_neg Bool.false_ne_true]⟩

/-- A packetizer that may run and has not ended its stream refuses nothing of a work cycle (R126). -/
theorem pushAll_not_refused : ∀ (xs : List C32) (eos : Bool) {nd : Node} {s : State}, s.nodes[n]? = some nd →
    nd.pkt.life = Life.fresh true → nd.pkt.done = false → ∀ r, pushAll n xs eos s ≠ .refused r := by
  intro xs
  induction xs with
  | nil =>
    intro eos nd s hn hl hdone r h
    cases eos with
    | false => cases h
    | true => cases (endStream_next.2 ⟨nd, hn, hl, hdone, rfl⟩).symm.trans h
  | cons x xs ih =>
    intro eos nd s hn hl hdone r h
    rw [pushAll_cons, pushSample_next.2 ⟨nd, hn, hl, hdone, rfl⟩] at h
    dsimp only at h
    rcases acceptSample_withPktWork (s := s) (n := n) hl x none nd with ⟨nd', h₁, -, hl', -, hdone'⟩ | ⟨mid, r', h₁, -, -⟩
    · have hn' := getElem?_setNode_self s n nd nd' hn
      rw [h₁, pktRunning_of_fresh hn' hl', if_pos rfl] at h
      exact ih eos hn' hl' (hdone'.trans hdone) r h
    · rw [h₁, pktRunning_pktFaulted hn, if_neg Bool.false_ne_true] at h
      cases h

/-- After the end of its stream a packetizer refuses a work cycle that is not empty (R126). -/
theorem pushAll_of_done {xs : List C32} {eos : Bool} (hn : s.nodes[n]? = some nd) (hl : nd.pkt.life = Life.fresh true)
    (hdone : nd.pkt.done = true) (hsome : ¬ (xs.isEmpty && !eos) = true) : pushAll n xs eos s = .refused .pktAfterDone := by
  cases xs with
  | nil =>
    cases eos with
    | false => exact absurd rfl hsome
    | true =>
      change endStream n s = _
      rw [endStream, withNode_of hn, hl, withLife_fresh, if_pos hdone]
  | cons x xs => rw [pushAll_cons, pushSample, withNode_of hn, hl, withLife_fresh, if_pos hdone]

/-- PKT.WORK is its start and then turns of the packetizer. -/
theorem pktWork_turns {xs : List C32} {eos : Bool} {t : State} (hidle : ∀ nd, s.nodes[n]? = some nd → nd.pkt.work = none)
    (h : exec (.pktWork n xs eos) s = .next t) :
    ∃ u k, startOp (.pktWork n xs eos) s = .next u ∧ (unitTurn (.pkt n))^[k] u = t := by
  obtain ⟨nd, hn, h⟩ := withNode_next.1 h
  obtain ⟨hl, h⟩ := withLife_next.1 h
  change ∃ u k, startPktWork n xs eos s = .next u ∧ (pktTurn n)^[k] u = t
  by_cases hempty : (xs.isEmpty && !eos) = true
  · refine ⟨s, 0, ?_, ?_⟩
    · rw [startPktWork, withNode_of hn, hl, withLife_fresh, if_pos hempty]
    · rw [Bool.and_eq_true, List.isEmpty_iff, Bool.not_eq_true'] at hempty
      obtain ⟨rfl, rfl⟩ := hempty
      cases h
      rfl
  · cases hdone : nd.pkt.done with
    | true => cases (pushAll_of_done hn hl hdone hempty).symm.trans h
    | false =>
      obtain ⟨k, hk⟩ := pktAdvance_turns xs eos (some ⟨xs, eos⟩) hn hl (hidle nd hn) h
      refine ⟨s.setNode n (nd.withPktWork (some ⟨xs, eos⟩)), k + 1, ?_, ?_⟩
      · rw [startPktWork, withNode_of hn, hl, withLife_fresh, if_neg hempty, hdone, if_neg Bool.false_ne_true, setPktWork_of hn]
      · rw [Function.iterate_succ_apply, pktTurn, getElem?_setNode_self s n nd _ hn]
        dsimp only [Node.withPktWork]
        rw [if_pos hl]
        exact hk

theorem pktWork_refused {xs : List C32} {eos : Bool} {r : Refusal} (h : exec (.pktWork n xs eos) s = .refused r) :
    startOp (.pktWork n xs eos) s = .refused r := by
  change execPktWork n xs eos s = _ at h
  change startPktWork n xs eos s = _
  rw [execPktWork] at h
  rw [startPktWork]
  cases hn : s.nodes[n]? with
  | none =>
    rw [withNode_none hn] at h ⊢
    exact h
  | some nd =>
    rw [withNode_of hn] at h ⊢
    by_cases hl : nd.pkt.life = Life.fresh true
    · rw [hl, withLife_fresh] at h ⊢
      by_cases hempty : (xs.isEmpty && !eos) = true
      · rw [Bool.and_eq_true, List.isEmpty_iff, Bool.not_eq_true'] at hempty
        obtain ⟨rfl, rfl⟩ := hempty
        cases h
      · rw [if_neg hempty]
        cases hdone : nd.pkt.done with
        | true =>
          rw [pushAll_of_done hn hl hdone hempty] at h
          exact h
        | false => exact absurd h (pushAll_not_refused xs eos hn hl hdone r)
    · obtain ⟨why, hwhy⟩ := withLife_refuses hl
      rw [hwhy] at h ⊢
      exact h

end

/-! ## DPK.WORK -/

/-- The loop does not look at the work cycle that is in progress. -/
theorem drain_withWork (w : Option DpkWork) : ∀ (m : Nat) (q : Dpk) (c : Chan), drain m { q with work := w } c =
    ((drain m q c).1, { (drain m q c).2.1 with work := w }, (drain m q c).2.2) := by
  intro m
  induction m with
  | zero => intro q c; rfl
  | succ m ih =>
    intro q c
    by_cases hr : q.rd = frameLen
    · have hr' : ({ q with work := w } : Dpk).rd = frameLen := hr
      cases hq : c.q with
      | nil => rw [drain_silence hr' hq, drain_silence hr hq]
      | cons f fs =>
        rw [drain_next hr' hq, drain_next hr hq]
        have := ih { q with cur := some f, rd := 1 } { c with q := fs }
        rw [this]
    · have hr' : ({ q with work := w } : Dpk).rd ≠ frameLen := hr
      rw [drain_inside hr', drain_inside hr]
      have := ih { q with rd := q.rd + 1 } c
      rw [this]

/-- A depacketizer's node after `m` more samples of a work cycle, which ends with them. -/
def Node.drained (w : Wiring) (m : Nat) (nd : Node) : Node :=
  Node.setDpkIn w { nd with dpk := { (drain m nd.dpk (nd.dpkIn w)).2.1 with work := none } } (drain m nd.dpk (nd.dpkIn w)).2.2

theorem setDpkIn_with_dpk (w : Wiring) (nd : Node) (a b : Dpk) (c d : Chan) :
    Node.setDpkIn w { Node.setDpkIn w { nd with dpk := a } c with dpk := b } d = Node.setDpkIn w { nd with dpk := b } d := by
  cases w <;> rfl

section
variable {n : Nat} {nd : Node} {w : DpkWork} {s : State}

theorem dpkTurn_of (hn : s.nodes[n]? = some nd) (hl : nd.dpk.life = Life.fresh true) (hw : nd.dpk.work = some w) :
    dpkTurn n s = continueFill n nd w s := by
  rw [dpkTurn, hn]
  dsimp only
  rw [hw]
  exact if_pos hl

/-- The last turn of a work cycle: it leaves nothing to fill. -/
theorem continueFill_last (hleft : (dpkAdvance w.left nd.dpk (nd.dpkIn s.cfg.wiring)).2.1 = 0) :
    continueFill n nd w s = (s.setNode n (nd.drained s.cfg.wiring w.left)).emit
      [.dpkOut n (w.out ++ (drain w.left nd.dpk (nd.dpkIn s.cfg.wiring)).1)] := by
  have hdrain := dpkAdvance_drain w.left nd.dpk (nd.dpkIn s.cfg.wiring)
  rw [continueFill]
  dsimp only at hdrain ⊢
  rw [if_pos hleft, Node.drained, hdrain, hleft, drain_zero, List.append_nil]

/-- Turns of a work cycle in progress fill what is left of the request: each but the last takes a frame from the channel. -/
theorem continueFill_turns : ∀ (fs : List IqFrame) {nd : Node} {w : DpkWork} {s : State}, s.nodes[n]? = some nd →
    nd.dpk.life = Life.fresh true → nd.dpk.work = some w → (nd.dpkIn s.cfg.wiring).q = fs →
    ∃ k, (dpkTurn n)^[k] s = (s.setNode n (nd.drained s.cfg.wiring w.left)).emit
      [.dpkOut n (w.out ++ (drain w.left nd.dpk (nd.dpkIn s.cfg.wiring)).1)] := by
  intro fs
  induction fs with
  | nil =>
    intro nd w s hn hl hw hq
    obtain ⟨-, -, ⟨hleft, -, -⟩ | ⟨f, gs, -, hq', -⟩⟩ := dpkAdvance_cases w.left nd.dpk (nd.dpkIn s.cfg.wiring)
    · exact ⟨1, (dpkTurn_of hn hl hw).trans (continueFill_last hleft)⟩
    · exact (nomatch hq.symm.trans hq')
  | cons f fs ih =>
    intro nd w s hn hl hw hq
    have hdrain := dpkAdvance_drain w.left nd.dpk (nd.dpkIn s.cfg.wiring)
    obtain ⟨hlife, -, ⟨hleft, -, -⟩ | ⟨g, gs, hmore, hq', hc, -⟩⟩ := dpkAdvance_cases w.left nd.dpk (nd.dpkIn s.cfg.wiring)
    · exact ⟨1, (dpkTurn_of hn hl hw).trans (continueFill_last hleft)⟩
    · obtain ⟨rfl, rfl⟩ := List.cons.inj (hq.symm.trans hq')
      have hturn := dpkTurn_of hn hl hw
      rw [continueFill] at hturn
      dsimp only at hturn hdrain
      rw [if_neg hmore.ne'] at hturn
      generalize dpkAdvance w.left nd.dpk (nd.dpkIn s.cfg.wiring) = r at hturn hdrain hlife hmore hc
      obtain ⟨out, left, q, c⟩ := r
      have hn' := getElem?_setNode_self s n nd
        (Node.setDpkIn s.cfg.wiring { nd with dpk := { q with work := some ⟨left, w.out ++ out⟩ } } c) hn
      obtain ⟨k, hk⟩ := ih (w := ⟨left, w.out ++ out⟩) hn' (by rw [setDpkIn_dpk]; exact hlife.trans hl)
        (by rw [setDpkIn_dpk]) (by rw [setNode_cfg, dpkIn_setDpkIn]; exact congrArg Chan.q hc)
      refine ⟨k + 1, ?_⟩
      rw [Function.iterate_succ_apply, hturn, hk, setNode_setNode, setNode_cfg]
      simp only [Node.drained, setDpkIn_dpk, dpkIn_setDpkIn, setDpkIn_with_dpk, drain_withWork, hdrain, List.append_assoc]

end

/-- DPK.WORK is its start and then turns of the depacketizer. -/
theorem dpkWork_turns {n m : Nat} {s t : State} (hidle : ∀ nd, s.nodes[n]? = some nd → nd.dpk.work = none)
    (h : exec (.dpkWork n m) s = .next t) :
    ∃ u k, startOp (.dpkWork n m) s = .next u ∧ (unitTurn (.dpk n))^[k] u = t := by
  obtain ⟨nd, hn, hl, rfl⟩ := fillBuffer_next.1 h
  have hn' := getElem?_setNode_self s n nd { nd with dpk := { nd.dpk with work := some ⟨m, []⟩ } } hn
  obtain ⟨k, hk⟩ := continueFill_turns (w := ⟨m, []⟩) _ hn' hl rfl rfl
  refine ⟨_, k, startDpkWork_next.2 ⟨nd, hn, hl, rfl⟩, hk.trans ?_⟩
  have hkept : ∀ w, ({ (drain m nd.dpk (nd.dpkIn w)).2.1 with work := none } : Dpk) = (drain m nd.dpk (nd.dpkIn w)).2.1 := fun w => by
    have hwork := (drain_work m nd.dpk (nd.dpkIn w)).trans (hidle nd hn)
    generalize (drain m nd.dpk (nd.dpkIn w)).2.1 = q at hwork
    obtain ⟨_, _, _, _⟩ := q
    cases hwork
    rfl
  rw [setNode_setNode, setNode_cfg, Node.drained]
  simp only [dpkIn_with_dpk, drain_withWork, hkept, List.nil_append]

theorem dpkWork_refused {n m : Nat} {s : State} {r : Refusal} (h : exec (.dpkWork n m) s = .refused r) :
    startOp (.dpkWork n m) s = .refused r := by
  change fillBuffer n m s = _ at h
  change startDpkWork n m s = _
  rw [fillBuffer] at h
  rw [startDpkWork]
  cases hn : s.nodes[n]? with
  | none =>
    rw [withNode_none hn] at h ⊢
    exact h
  | some nd =>
    rw [withNode_of hn] at h ⊢
    by_cases hl : nd.dpk.life = Life.fresh true
    · rw [hl, withLife_fresh] at h
      cases h
    · obtain ⟨why, hwhy⟩ := withLife_refuses hl
      rw [hwhy] at h ⊢
      exact h

/-- Settles O43. -/
theorem atomicTurnsMakeWholeOperation : Obligations.AtomicTurnsMakeWholeOperation :=
  ⟨fun _ _ hinv hl hphase h => cmbCheck_turns hinv hl hphase h,
    fun _ _ _ _ hidle => ⟨fun _ h => pktWork_turns hidle h, fun _ h => pktWork_refused h⟩,
    fun _ _ _ hidle => ⟨fun _ h => dpkWork_turns hidle h, fun _ h => dpkWork_refused h⟩⟩

end Sys2Proof.Machine
end

section
/-! PROOF. Whole work cycles of a packetizer and of a depacketizer (40 R120 to R125; 41 R141 to R146), and the direct path between
them (00 R4; 70 R299). -/

namespace Sys2Proof.Machine

/-! ## A stream in frames -/

/-- The samples of frame `j` of a stream. -/
def chunk (stream : List C32) (j : Nat) : List C32 := (stream.drop (1024 * j)).take 1024

/-- The first `c` frames of a stream that starts under the epoch `e` (R125). -/
def fullFrames (e : Epoch) (stream : List C32) (c : Nat) : List IqFrame :=
  (List.range c).map fun j => ⟨BitVec.ofNat 64 (e.toNat + j), chunk stream j⟩

/-- More samples do not change a full frame. -/
theorem chunk_append {stream : List C32} {j : Nat} (h : 1024 * (j + 1) ≤ stream.length) (ys : List C32) :
    chunk (stream ++ ys) j = chunk stream j := by
  have hlen : 1024 ≤ (stream.drop (1024 * j)).length := by
    rw [List.length_drop]
    omega
  rw [chunk, chunk, List.drop_append_of_le_length (by omega), List.take_append_of_le_length hlen]

theorem fullFrames_append {stream : List C32} {c : Nat} (h : 1024 * c ≤ stream.length) (e : Epoch) (ys : List C32) :
    fullFrames e (stream ++ ys) c = fullFrames e stream c := by
  refine List.map_congr_left fun j hj => ?_
  have hj := List.mem_range.1 hj
  rw [chunk_append (by omega)]

theorem fullFrames_succ (e : Epoch) (stream : List C32) (c : Nat) :
    fullFrames e stream (c + 1) = fullFrames e stream c ++ [⟨BitVec.ofNat 64 (e.toNat + c), chunk stream c⟩] := by
  rw [fullFrames, List.range_succ, List.map_append]
  rfl

theorem fullFrames_length (e : Epoch) (stream : List C32) (c : Nat) : (fullFrames e stream c).length = c := by
  rw [fullFrames, List.length_map, List.length_range]

theorem getElem?_fullFrames {e : Epoch} {stream : List C32} {c j : Nat} (hj : j < c) :
    (fullFrames e stream c)[j]? = some ⟨BitVec.ofNat 64 (e.toNat + j), chunk stream j⟩ := by
  rw [fullFrames, List.getElem?_map, List.getElem?_range hj]
  rfl

/-- The frames in order hold the stream in order. -/
theorem fullFrames_samples (e : Epoch) (stream : List C32) (c : Nat) :
    (fullFrames e stream c).flatMap IqFrame.samples = stream.take (1024 * c) := by
  induction c with
  | zero => rfl
  | succ c ih =>
    rw [fullFrames_succ, List.flatMap_append, ih, Nat.mul_succ, List.take_add]
    simp [chunk]

/-! ## The window -/

/-- The window holds what the full frames leave of the stream. -/
structure HoldsRest (win stream : List C32) : Prop where
  length : win.length = 1024
  rest : win.take (stream.length % 1024) = stream.drop (1024 * (stream.length / 1024))

/-- A node whose packetizer has sent the full frames of a stream (R120, R122). -/
def Node.sentFrames (nd : Node) (win stream : List C32) : Node :=
  { nd with
    pkt := { nd.pkt with
      win := win
      fill := stream.length % 1024
      epoch := nd.pkt.epoch + BitVec.ofNat 64 (stream.length / 1024) }
    tx := { nd.tx with q := nd.tx.q ++ fullFrames nd.pkt.epoch stream (stream.length / 1024) } }

/-- A node whose packetizer has sent a stream, with the samples that fill its last frame, and has ended it (R123). -/
def Node.sentStream (nd : Node) (win stream : List C32) (c : Nat) : Node :=
  { nd with
    pkt := { nd.pkt with win := win, fill := 0, done := true, epoch := nd.pkt.epoch + BitVec.ofNat 64 c }
    tx := { nd.tx with q := nd.tx.q ++ fullFrames nd.pkt.epoch stream c } }

/-- What stands in the window is the start of a stream. -/
theorem sentFrames_window {nd : Node} (hwin : nd.pkt.win.length = 1024) (hfill : nd.pkt.fill < 1024) :
    nd.sentFrames nd.pkt.win (nd.pkt.win.take nd.pkt.fill) = nd ∧
      HoldsRest nd.pkt.win (nd.pkt.win.take nd.pkt.fill) := by
  have hlen : (nd.pkt.win.take nd.pkt.fill).length = nd.pkt.fill := by
    rw [List.length_take, hwin]
    omega
  have hdiv : nd.pkt.fill / 1024 = 0 := Nat.div_eq_of_lt hfill
  have hmod : nd.pkt.fill % 1024 = nd.pkt.fill := Nat.mod_eq_of_lt hfill
  constructor
  · rw [Node.sentFrames, hlen, hdiv, hmod]
    change ({ nd with pkt := { nd.pkt with epoch := nd.pkt.epoch + 0#64 }, tx := { nd.tx with q := nd.tx.q ++ [] } } : Node) = nd
    rw [BitVec.add_zero, List.append_nil]
  · exact ⟨hwin, by rw [hlen, hdiv, hmod, Nat.mul_zero, List.drop_zero]⟩

theorem take_set_self {win : List C32} {k : Nat} (h : k < win.length) (x : C32) :
    (win.set k x).take (k + 1) = win.take k ++ [x] := by
  rw [List.take_add_one, List.take_set_of_le (Nat.le_refl k), List.getElem?_set_self h]
  rfl

theorem ofNat_add_toNat (e : Epoch) (c : Nat) : BitVec.ofNat 64 (e.toNat + c) = e + BitVec.ofNat 64 c := by
  rw [BitVec.ofNat_add, BitVec.ofNat_toNat, BitVec.setWidth_eq]

/-- An epoch that does not run out is not the last one. -/
theorem ne_allOnes_of_lt {e : Epoch} {c : Nat} (h : e.toNat + (c + 1) < 2 ^ 64) : e + BitVec.ofNat 64 c ≠ BitVec.allOnes 64 := by
  intro he
  have := congrArg BitVec.toNat he
  rw [← ofNat_add_toNat, BitVec.toNat_ofNat, Nat.mod_eq_of_lt (by omega), BitVec.toNat_allOnes] at this
  omega

section
variable {n : Nat} {nd : Node} {s : State}

/-- One more sample of the stream (R121, R122). -/
theorem acceptSample_sentFrames (halive : nd.tx.rxAlive = true) {win stream : List C32} (hrest : HoldsRest win stream) (x : C32)
    (hepoch : nd.pkt.epoch.toNat + (stream.length + 1) / 1024 < 2 ^ 64) :
    ∃ win', acceptSample n (nd.sentFrames win stream) x s = s.setNode n (nd.sentFrames win' (stream ++ [x])) ∧
      HoldsRest win' (stream ++ [x]) := by
  obtain ⟨hwin, hrest⟩ := hrest
  have hset : (win.set (stream.length % 1024) x).length = 1024 := by rw [List.length_set, hwin]
  have htake := take_set_self (by rw [hwin]; omega : stream.length % 1024 < win.length) x
  have hdrop : (stream ++ [x]).drop (1024 * (stream.length / 1024)) = win.take (stream.length % 1024) ++ [x] := by
    rw [hrest, List.drop_append_of_le_length (by omega)]
  have hlen : (stream ++ [x]).length = stream.length + 1 := List.length_append
  refine ⟨win.set (stream.length % 1024) x, ?_⟩
  by_cases hfill : stream.length % 1024 + 1 = 1024
  · have hdiv : (stream.length + 1) / 1024 = stream.length / 1024 + 1 := by omega
    have hmod : (stream.length + 1) % 1024 = 0 := by omega
    have hne : nd.pkt.epoch + BitVec.ofNat 64 (stream.length / 1024) ≠ BitVec.allOnes 64 :=
      ne_allOnes_of_lt (by omega)
    rw [hfill, List.take_of_length_le hset.le] at htake
    have hchunk : chunk (stream ++ [x]) (stream.length / 1024) = win.set (stream.length % 1024) x := by
      rw [chunk, hdrop, ← htake, List.take_of_length_le hset.le]
    constructor
    · rw [acceptSample_of_done (t := s.setNode n (nd.sentFrames (win.set (stream.length % 1024) x) (stream ++ [x]))) hfill]
      rw [emitWindow_alive (nd := (nd.sentFrames win stream).stored x) hne halive, Node.sentFrames, Node.sentFrames, Node.stored]
      dsimp only
      rw [hlen, hdiv, hmod, fullFrames_succ, fullFrames_append (by omega), hchunk, ofNat_add_toNat, List.append_assoc,
        BitVec.ofNat_add, ← BitVec.add_assoc]
      rfl
    · refine ⟨hset, ?_⟩
      rw [hlen, hmod, hdiv, List.take_zero, List.drop_eq_nil_of_le (by rw [hlen]; omega)]
  · have hdiv : (stream.length + 1) / 1024 = stream.length / 1024 := by omega
    have hmod : (stream.length + 1) % 1024 = stream.length % 1024 + 1 := by omega
    constructor
    · rw [acceptSample_stores hfill, Node.stored, Node.sentFrames, Node.sentFrames]
      dsimp only
      rw [hlen, hdiv, hmod, fullFrames_append (by omega)]
    · exact ⟨hset, by rw [hlen, hdiv, hmod, htake, hdrop]⟩

/-- The rest of a stream without its end. -/
theorem pushAll_sentFrames (hl : nd.pkt.life = Life.fresh true) (hdone : nd.pkt.done = false) (halive : nd.tx.rxAlive = true) :
    ∀ (xs : List C32) {win stream : List C32} {s : State}, s.nodes[n]? = some (nd.sentFrames win stream) →
    HoldsRest win stream → nd.pkt.epoch.toNat + (stream.length + xs.length) / 1024 < 2 ^ 64 →
    ∃ win', pushAll n xs false s = .next (s.setNode n (nd.sentFrames win' (stream ++ xs))) ∧
      HoldsRest win' (stream ++ xs) := by
  intro xs
  induction xs with
  | nil =>
    intro win stream s hn hrest _
    exact ⟨win, by rw [List.append_nil, setNode_self s n _ hn]; rfl, by rw [List.append_nil]; exact hrest⟩
  | cons x xs ih =>
    intro win stream s hn hrest hepoch
    rw [List.length_cons] at hepoch
    obtain ⟨win₁, haccept, hrest₁⟩ := acceptSample_sentFrames (n := n) (s := s) halive hrest x (by omega)
    have hn₁ := getElem?_setNode_self s n _ (nd.sentFrames win₁ (stream ++ [x])) hn
    obtain ⟨win', hpush, hrest'⟩ := ih hn₁ hrest₁ (by rw [List.length_append, List.length_singleton]; omega)
    refine ⟨win', ?_, by rw [List.append_cons]; exact hrest'⟩
    rw [pushAll_cons, pushSample_next.2 ⟨_, hn, hl, hdone, rfl⟩]
    dsimp only
    rw [haccept, pktRunning_of_fresh hn₁ hl, if_pos rfl, hpush, setNode_setNode, ← List.append_cons]

/-- An empty window sends nothing at the end of the stream. -/
theorem flushWindow_empty (hfill : ¬ 0 < nd.pkt.fill) : flushWindow n nd s = signalDone n s := if_neg hfill

/-- The end of a stream (R123): the rest of it leaves in a padded frame. -/
theorem flushWindow_sentFrames (halive : nd.tx.rxAlive = true) {win stream : List C32}
    (hn : s.nodes[n]? = some (nd.sentFrames win stream)) (hrest : HoldsRest win stream)
    (hepoch : nd.pkt.epoch.toNat + (stream.length + 1023) / 1024 < 2 ^ 64) :
    ∃ (win' : List C32) (z : Nat), flushWindow n (nd.sentFrames win stream) s =
        (s.setNode n (nd.sentStream win' (stream ++ List.replicate z C32.zero) ((stream.length + 1023) / 1024))).emit [.pktDone n] ∧
      win'.length = 1024 ∧ stream.length + z = 1024 * ((stream.length + 1023) / 1024) := by
  by_cases hfill : 0 < stream.length % 1024
  · have hdiv : (stream.length + 1023) / 1024 = stream.length / 1024 + 1 := by omega
    have hne : nd.pkt.epoch + BitVec.ofNat 64 (stream.length / 1024) ≠ BitVec.allOnes 64 := ne_allOnes_of_lt (by omega)
    have hpad : chunk (stream ++ List.replicate (1024 - stream.length % 1024) C32.zero) (stream.length / 1024) =
        padWindow win (stream.length % 1024) := by
      rw [chunk, List.drop_append_of_le_length (by omega), ← hrest.rest]
      exact List.take_of_length_le (padWindow_length hrest.length (by change _ ≤ 1024; omega)).le
    refine ⟨padWindow win (stream.length % 1024), 1024 - stream.length % 1024, ?_,
      padWindow_length hrest.length (by change _ ≤ 1024; omega), by omega⟩
    rw [flushWindow_of_done (nd := nd.sentFrames win stream) hfill
      (emitWindow_alive (nd := (nd.sentFrames win stream).padded) hne halive), signalDone_setNode, Node.sentFrames, Node.sentStream, Node.padded, Node.ended]
    dsimp only
    rw [hdiv, fullFrames_succ, fullFrames_append (by omega), hpad, ofNat_add_toNat, List.append_assoc, BitVec.ofNat_add,
      ← BitVec.add_assoc]
    rfl
  · have hdiv : (stream.length + 1023) / 1024 = stream.length / 1024 := by omega
    have hmod : stream.length % 1024 = 0 := by omega
    refine ⟨win, 0, ?_, hrest.length, by omega⟩
    rw [flushWindow_empty (nd := nd.sentFrames win stream) hfill, signalDone_of hn, Node.sentFrames, Node.sentStream, Node.ended, hdiv, hmod, List.replicate_zero,
      List.append_nil]

/-- A whole stream with its end, from the window of the start. -/
theorem pktWork_wholeStream {xs : List C32} (hn : s.nodes[n]? = some nd) (hl : nd.pkt.life = Life.fresh true)
    (hdone : nd.pkt.done = false) (halive : nd.tx.rxAlive = true) (hwin : nd.pkt.win.length = 1024) (hfill : nd.pkt.fill < 1024)
    {stream : List C32} (hstream : stream = nd.pkt.win.take nd.pkt.fill ++ xs)
    (hepoch : nd.pkt.epoch.toNat + (stream.length + 1023) / 1024 < 2 ^ 64) :
    ∃ (win' : List C32) (z : Nat), exec (.pktWork n xs true) s = .next
        ((s.setNode n (nd.sentStream win' (stream ++ List.replicate z C32.zero) ((stream.length + 1023) / 1024))).emit [.pktDone n]) ∧
      win'.length = 1024 ∧ stream.length + z = 1024 * ((stream.length + 1023) / 1024) := by
  obtain ⟨hsame, hrest⟩ := sentFrames_window hwin hfill
  have hn₀ : s.nodes[n]? = some (nd.sentFrames nd.pkt.win (nd.pkt.win.take nd.pkt.fill)) := by rw [hsame]; exact hn
  have hlen : stream.length = (nd.pkt.win.take nd.pkt.fill).length + xs.length := by rw [hstream, List.length_append]
  obtain ⟨win₁, hpush, hrest₁⟩ := pushAll_sentFrames hl hdone halive xs hn₀ hrest (by omega)
  rw [← hstream] at hpush hrest₁
  have hn₁ := getElem?_setNode_self s n nd (nd.sentFrames win₁ stream) hn
  obtain ⟨win', z, hflush, hwin', hz⟩ := flushWindow_sentFrames halive hn₁ hrest₁ hepoch
  refine ⟨win', z, ?_, hwin', hz⟩
  have happend := pushAll_append n [] true xs s _ hpush
  rw [List.append_nil, pktRunning_of_fresh hn₁ hl, if_pos (.inr rfl)] at happend
  change execPktWork n xs true s = _
  rw [execPktWork, withNode_of hn, hl, withLife_fresh, happend]
  refine (endStream_next.2 ⟨_, hn₁, hl, hdone, rfl⟩).trans ?_
  rw [hflush, setNode_setNode]

end

/-- Settles O22. -/
theorem pktWorkSendsFullWindows : Obligations.PktWorkSendsFullWindows := by
  intro s n nd xs hn hl hdone halive hwin hfill hepoch
  obtain ⟨hsame, hrest⟩ := sentFrames_window hwin hfill
  have hlen : (nd.pkt.win.take nd.pkt.fill).length = nd.pkt.fill := by
    rw [List.length_take, hwin]
    omega
  obtain ⟨win, hpush, hwin', hrest'⟩ := pushAll_sentFrames hl hdone halive xs (hsame ▸ hn) hrest (by rw [hlen]; exact hepoch)
  refine ⟨win, _, ?_, hwin', hrest', fullFrames_length _ _ _, fun j hj => getElem?_fullFrames hj⟩
  change execPktWork n xs false s = _
  rw [execPktWork, withNode_of hn, hl, withLife_fresh]
  exact hpush

/-- Settles O23. -/
theorem pktWholeStreamSent : Obligations.PktWholeStreamSent := by
  intro s n nd xs hn hl hdone halive hwin hfill stream c hepoch
  obtain ⟨win, z, hexec, hwin', hz⟩ := pktWork_wholeStream (stream := stream) hn hl hdone halive hwin hfill rfl hepoch
  refine ⟨win, _, hexec, hwin', fullFrames_length _ _ _, fun j hj => ⟨_, getElem?_fullFrames hj, rfl, ?_, fun k hk => ?_⟩⟩
  · replace hj : j < (stream.length + 1023) / 1024 := hj
    change (((stream ++ List.replicate z C32.zero).drop (1024 * j)).take 1024).length = 1024
    rw [List.length_take, List.length_drop, List.length_append, List.length_replicate]
    omega
  · replace hj : j < (stream.length + 1023) / 1024 := hj
    change (((stream ++ List.replicate z C32.zero).drop (1024 * j)).take 1024)[k]? = _
    rw [List.getElem?_take_of_lt hk, List.getElem?_drop, List.getElem?_append]
    split
    case isTrue hlt => rw [List.getD_eq_getElem?_getD, List.getElem?_eq_getElem hlt, Option.getD_some]
    case isFalse hge =>
      rw [List.getD_eq_getElem?_getD, List.getElem?_eq_none (Nat.not_lt.1 hge), List.getElem?_replicate, if_pos (by omega)]
      rfl

end Sys2Proof.Machine
end

section
/-! PROOF. Work cycles of a depacketizer, cycles split in two, and the direct path (00 R4; 30 R111; 41 R141 to R146; 70 R299). -/

namespace Sys2Proof.Machine

open Relation (ReflTransGen)

/-! ## Delivery -/

theorem exec_fillBuffer {n m : Nat} {i : Instr} (hi : i = .dpkWork n m ∨ (i = .dpkPull n ∧ m = 1)) (s : State) :
    exec i s = fillBuffer n m s := by
  rcases hi with rfl | ⟨rfl, rfl⟩ <;> rfl

/-- Settles O24. -/
theorem dpkDeliversPendingThenSilence : Obligations.DpkDeliversPendingThenSilence := by
  intro s n m nd i hi hn hl hrd hfresh hcur hwf c pending
  have hreads : nd.dpk.Reads c := ⟨hrd, hfresh, hcur, hwf⟩
  obtain ⟨hout, hrest⟩ := drain_delivers m hreads
  obtain ⟨hlife, htx, hrx, k, hk⟩ := drain_frame m nd.dpk c
  have hchan : (drain m nd.dpk c).2.2 = { c with q := c.q.drop k } := by
    rw [← hk, ← htx, ← hrx]
  refine ⟨(drain m nd.dpk c).2.1, k, ?_, ?_, hlife, drain_work m nd.dpk c, (drain_reads m hreads).rd⟩
  · rw [exec_fillBuffer hi]
    refine fillBuffer_next.2 ⟨nd, hn, hl, ?_⟩
    change _ = (s.setNode n (Node.setDpkIn s.cfg.wiring { nd with dpk := (drain m nd.dpk c).2.1 } (drain m nd.dpk c).2.2)).emit
      [.dpkOut n (drain m nd.dpk c).1]
    rw [hchan, hout]
  · rw [← hchan, hrest]

/-! ## Cycles split in two -/

/-- A relation between a node and what it becomes, from each push and the end of the stream to the whole cycle: the packetizer
stays in existence, RUNNING or TERMINATED. -/
def KeepsPkt (n : Nat) (s t : State) : Prop :=
  ∀ nd, s.nodes[n]? = some nd → ∃ nd', t.nodes[n]? = some nd' ∧ nd'.pkt.life.present = nd.pkt.life.present

theorem pushAll_keepsPkt {n : Nat} {xs : List C32} {eos : Bool} {s t : State} (h : pushAll n xs eos s = .next t) :
    KeepsPkt n s t := by
  refine pushAll_induct (KeepsPkt n) n (fun s nd hn => ⟨nd, hn, rfl⟩) ?trans ?push ?eos xs eos s t h
  case trans =>
    intro a b c hab hbc nd hn
    obtain ⟨nd₁, hn₁, h₁⟩ := hab nd hn
    obtain ⟨nd₂, hn₂, h₂⟩ := hbc nd₁ hn₁
    exact ⟨nd₂, hn₂, h₂.trans h₁⟩
  case push =>
    intro x s t h nd hn
    obtain ⟨nd₀, hn₀, hl, -, rfl⟩ := pushSample_next.1 h
    obtain rfl : nd = nd₀ := Option.some.inj (hn.symm.trans hn₀)
    rcases acceptSample_moves hl n x s with ⟨nd', h', hmove, -⟩ | ⟨mid, r, h', hfault, -⟩
    · exact ⟨nd', by rw [h']; exact getElem?_setNode_self s n nd nd' hn, hmove.kept.present⟩
    · exact ⟨mid.pktDead, by rw [h']; exact getElem?_pktFaulted hn mid r, hfault.kept.1.present⟩
  case eos =>
    intro s t h nd hn
    obtain ⟨nd₀, hn₀, hl, -, rfl⟩ := endStream_next.1 h
    obtain rfl : nd = nd₀ := Option.some.inj (hn.symm.trans hn₀)
    rcases flushWindow_moves hn hl with ⟨nd', h', hmoves, -⟩ | ⟨mid, r, h', hfault⟩
    · exact ⟨nd', by rw [h']; exact getElem?_setNode_self s n nd nd' hn, (pktMoves_kept hmoves).1.present⟩
    · exact ⟨mid.pktDead, by rw [h']; exact getElem?_pktFaulted hn mid r, hfault.kept.1.present⟩

theorem execPktWork_next {n : Nat} {xs : List C32} {eos : Bool} {s t : State} : exec (.pktWork n xs eos) s = .next t ↔
    ∃ nd, s.nodes[n]? = some nd ∧ nd.pkt.life = Life.fresh true ∧ pushAll n xs eos s = .next t := by
  change execPktWork n xs eos s = _ ↔ _
  simp only [execPktWork, withNode_next, withLife_next]

/-- What a work cycle of a packetizer that may run is. -/
theorem execPktWork_of {n : Nat} {nd : Node} {s : State} (hn : s.nodes[n]? = some nd) (hl : nd.pkt.life = Life.fresh true)
    (xs : List C32) (eos : Bool) : exec (.pktWork n xs eos) s = pushAll n xs eos s := by
  change execPktWork n xs eos s = _
  rw [execPktWork, withNode_of hn, hl, withLife_fresh]

/-- R111: a cycle that is a single operation checks what that operation checks. -/
theorem pktWork_single {n : Nat} {s : State} {xs : List C32} {eos : Bool} {r : Node → Result}
    (h : ∀ nd, s.nodes[n]? = some nd → nd.pkt.life = Life.fresh true → pushAll n xs eos s = r nd) :
    exec (.pktWork n xs eos) s = withNode s n fun nd => withLife nd.pkt.life (r nd) := by
  change execPktWork n xs eos s = _
  rw [execPktWork]
  cases hn : s.nodes[n]? with
  | none => rw [withNode_none hn, withNode_none hn]
  | some nd =>
    rw [withNode_of hn, withNode_of hn]
    by_cases hl : nd.pkt.life = Life.fresh true
    · rw [h nd hn hl]
    · obtain ⟨why, hwhy⟩ := withLife_refuses hl
      rw [hwhy, hwhy]

theorem pktWork_eos (n : Nat) (s : State) : exec (.pktWork n [] true) s = exec (.pktEos n) s := by
  refine pktWork_single fun nd hn hl => ?_
  change endStream n s = _
  rw [endStream, withNode_of hn, hl, withLife_fresh]

theorem pktWork_push (n : Nat) (x : C32) (s : State) : exec (.pktWork n [x] false) s = exec (.pktPush n x) s := by
  refine pktWork_single fun nd hn hl => ?_
  rw [pushAll_cons, pushSample, withNode_of hn, hl, withLife_fresh]
  split
  case h_1 t ht => rw [ht, pushAll_nil, ite_self]
  case h_2 r hr => exact hr.symm
  case h_3 r hr => exact hr.symm

theorem life_eq_fresh {l : Life} (hstatus : l.status = .running) (hpresent : l.present = true) : l = Life.fresh true := by
  obtain ⟨_, _⟩ := l
  cases hstatus
  cases hpresent
  rfl

/-- R124: a cycle goes on after its first part unless a fault ended it. -/
theorem pktWork_append {n : Nat} {xs ys : List C32} {eos : Bool} {s t : State} (h : exec (.pktWork n xs false) s = .next t)
    {nd : Node} (hn : t.nodes[n]? = some nd) : exec (.pktWork n (xs ++ ys) eos) s =
      if nd.pkt.life.status = .terminated then .next t else exec (.pktWork n ys eos) t := by
  obtain ⟨nd₀, hn₀, hl, hpush⟩ := execPktWork_next.1 h
  obtain ⟨nd', hn', hpresent⟩ := pushAll_keepsPkt hpush nd₀ hn₀
  obtain rfl : nd = nd' := Option.some.inj (hn.symm.trans hn')
  rw [execPktWork_of hn₀ hl, pushAll_append n ys eos xs s t hpush, pktRunning_of hn]
  rw [hl] at hpresent
  cases hstatus : nd.pkt.life.status with
  | terminated =>
    have hsome : xs ≠ [] := by
      rintro rfl
      cases hpush
      obtain rfl : nd = nd₀ := Option.some.inj (hn.symm.trans hn₀)
      rw [hl] at hstatus
      cases hstatus
    rw [if_pos rfl, if_neg]
    rintro (hnil | hrun)
    · exact hsome hnil
    · cases of_decide_eq_true hrun
  | running =>
    rw [if_pos (.inr (decide_eq_true rfl)), if_neg (fun h => nomatch h),
      execPktWork_of hn (life_eq_fresh hstatus hpresent)]

/-- R141: two cycles with nothing between them give what one of both lengths gives. -/
theorem dpkWork_add {n a b : Nat} {s t u v : State} (ha : fillBuffer n a s = .next t) (hb : fillBuffer n b t = .next u)
    (hab : fillBuffer n (a + b) s = .next v) : v.nodes = u.nodes ∧
      ∃ oa ob, u.out = s.out ++ [.dpkOut n oa, .dpkOut n ob] ∧ v.out = s.out ++ [.dpkOut n (oa ++ ob)] := by
  obtain ⟨nd, hn, -, rfl⟩ := fillBuffer_next.1 ha
  obtain ⟨nd₀, hn₀, -, rfl⟩ := fillBuffer_next.1 hab
  obtain rfl : nd = nd₀ := Option.some.inj (hn.symm.trans hn₀)
  obtain ⟨nd₁, hn₁, -, rfl⟩ := fillBuffer_next.1 hb
  have hn' := getElem?_setNode_self s n nd (Node.setDpkIn s.cfg.wiring
    { nd with dpk := (drain a nd.dpk (nd.dpkIn s.cfg.wiring)).2.1 } (drain a nd.dpk (nd.dpkIn s.cfg.wiring)).2.2) hn
  cases hn'.symm.trans hn₁
  have hsum := drain_add a b nd.dpk (nd.dpkIn s.cfg.wiring)
  refine ⟨?nodes, (drain a nd.dpk (nd.dpkIn s.cfg.wiring)).1,
    (drain b (drain a nd.dpk (nd.dpkIn s.cfg.wiring)).2.1 (drain a nd.dpk (nd.dpkIn s.cfg.wiring)).2.2).1, ?parts, ?whole⟩
  case nodes =>
    change s.nodes.set n _ = (s.nodes.set n _).set n (Node.setDpkIn s.cfg.wiring { Node.setDpkIn s.cfg.wiring _ _ with dpk := _ } _)
    rw [List.set_set, setDpkIn_with_dpk, hsum]
    simp
  case parts => simp
  case whole => simp [hsum]

/-- Settles O25. -/
theorem workCyclesSplit : Obligations.WorkCyclesSplit :=
  ⟨fun s n x => ⟨pktWork_eos n s, pktWork_push n x s, rfl⟩, fun _ _ _ _ _ _ h _ hn => pktWork_append h hn,
    fun _ _ _ _ _ _ _ ha hb hab => dpkWork_add ha hb hab⟩

/-! ## The direct path -/

/-- At a frame's end the loop does not look at that frame again. -/
theorem drain_without_cur {q : Dpk} (h : q.rd = frameLen) (m : Nat) (c : Chan) :
    (drain m q c).1 = (drain m { q with cur := none } c).1 := by
  have h' : ({ q with cur := none } : Dpk).rd = frameLen := h
  cases m with
  | zero => rfl
  | succ m =>
    cases hq : c.q with
    | nil => rw [drain_silence h hq, drain_silence h' hq]
    | cons f fs => rw [drain_next h hq, drain_next h' hq]

/-- Settles O26: the padded stream is what is pending, and its first samples are those given. -/
theorem directPathRoundTrip : Obligations.DirectPathRoundTrip := by
  intro s n nd xs hw hn hl hdone hfill hwin hdl hrd hq halive hepoch
  have hstream : xs = nd.pkt.win.take nd.pkt.fill ++ xs := by rw [hfill, List.take_zero, List.nil_append]
  obtain ⟨win, z, hexec, -, hz⟩ := pktWork_wholeStream hn hl hdone halive hwin (by omega) hstream hepoch
  obtain ⟨t, ht⟩ : ∃ t, t = (s.setNode n (nd.sentStream win (xs ++ List.replicate z C32.zero) ((xs.length + 1023) / 1024))).emit
    [.pktDone n] := ⟨_, rfl⟩
  rw [← ht] at hexec
  obtain ⟨nd', hnd'⟩ : ∃ nd', nd' = nd.sentStream win (xs ++ List.replicate z C32.zero) ((xs.length + 1023) / 1024) := ⟨_, rfl⟩
  have hn' : t.nodes[n]? = some nd' := by
    rw [ht, hnd']
    exact getElem?_setNode_self s n nd _ hn
  have hframes : nd'.tx.q = fullFrames nd.pkt.epoch (xs ++ List.replicate z C32.zero) ((xs.length + 1023) / 1024) := by
    rw [hnd', Node.sentStream, hq, List.nil_append]
  have hlen : (xs ++ List.replicate z C32.zero).length = 1024 * ((xs.length + 1023) / 1024) := by
    rw [List.length_append, List.length_replicate, hz]
  have hreads : ({ nd'.dpk with cur := none } : Dpk).Reads nd'.tx := by
    have hrd' : nd'.dpk.rd = frameLen := by rw [hnd']; exact hrd
    refine ⟨hrd'.le, fun _ => hrd', fun f hf => (nomatch hf), fun f hf => ?_⟩
    rw [hframes, fullFrames] at hf
    obtain ⟨j, hj, rfl⟩ := List.mem_map.1 hf
    have hj := List.mem_range.1 hj
    change (chunk _ j).length = 1024
    rw [chunk, List.length_take, List.length_drop, hlen]
    omega
  have hpending : pendingSamples { nd'.dpk with cur := none } nd'.tx = xs ++ List.replicate z C32.zero := by
    rw [pendingSamples, hframes, fullFrames_samples, List.nil_append, ← hlen, List.take_length]
  have hdelivered : (drain xs.length nd'.dpk nd'.tx).1 = xs := by
    rw [drain_without_cur (by rw [hnd']; exact hrd), (drain_delivers xs.length hreads).1, hpending, List.take_left,
      List.length_append, Nat.sub_eq_zero_of_le (Nat.le_add_right _ _), List.replicate_zero, List.append_nil]
  refine ⟨t, _, hexec, fillBuffer_next.2 ⟨nd', hn', by rw [hnd']; exact hdl, rfl⟩, ?_⟩
  have hwt : t.cfg.wiring = .direct := by rw [ht]; exact hw
  change t.out ++ [.dpkOut n (drain xs.length nd'.dpk (nd'.dpkIn t.cfg.wiring)).1] = _
  rw [hwt]
  change t.out ++ [.dpkOut n (drain xs.length nd'.dpk nd'.tx).1] = _
  rw [hdelivered, ht]
  exact List.append_assoc _ _ _

end Sys2Proof.Machine
end

section
/-! PROOF. Single operations of the packetizer, the noise injector and the combiner: what each answers, and what is refused
(00 R10; 10 R35; 40 R121 to R126; 42 R156 to R159; 43 R171 to R184). -/

namespace Sys2Proof.Machine

open Relation (ReflTransGen)

/-! ## The step and its instruction -/

theorem unitTurn_inbox {u : UnitId} {s : State} (h : isBusy u s = true) : (unitTurn u s).inbox = s.inbox := by
  cases u with
  | pkt n =>
    rcases pktTurn_op n s with ht | ⟨nd, -, hop⟩
    · exact congrArg State.inbox ht
    · obtain ⟨nd', hat, -⟩ := hop.kept
      exact hat.inbox
  | dpk n =>
    rcases dpkTurn_op n s with ht | ⟨nd, q', c', ds, -, hop⟩
    · exact congrArg State.inbox ht
    · exact hop.node.inbox
  | nse _ | dec _ | cmb => cases h

/-- Settles O5. -/
theorem stepRunsDecodedInstruction : Obligations.StepRunsDecodedInstruction := by
  intro s f bs rest i hinbox hi
  have hwaits : waitsFor (.invoke f bs) s = (usesUnit i).filter fun u => isBusy u s := by
    rw [waitsFor, busyUnit, hi]
  constructor
  · intro hfree
    have hnone : waitsFor (.invoke f bs) s = none := by
      rw [hwaits, Option.filter_eq_none_iff]
      intro u hu
      rw [hfree u hu]
      exact Bool.false_ne_true
    rw [step_runs hinbox hnone, runSlot, invoke, hi]
  · intro u hu hbusy
    refine ⟨step_waits hinbox ?_, unitTurn_inbox hbusy⟩
    rw [hwaits, hu, Option.filter_some, if_pos hbusy]

/-! ## What every operation of a unit checks -/

section
variable {s : State} {n : Nat} {why : Refusal}

/-- Where the packetizer's checks refuse, they refuse all three operations alike. -/
theorem exec_pkt_refused (h : ∀ k : Node → Result, withNode s n (fun nd => withLife nd.pkt.life (k nd)) = .refused why)
    (x : C32) (xs : List C32) (eos : Bool) : exec (.pktPush n x) s = .refused why ∧ exec (.pktEos n) s = .refused why ∧
      exec (.pktWork n xs eos) s = .refused why :=
  ⟨h _, h _, h _⟩

theorem exec_dpk_refused (h : ∀ k : Node → Result, withNode s n (fun nd => withLife nd.dpk.life (k nd)) = .refused why)
    (m : Nat) : exec (.dpkWork n m) s = .refused why ∧ exec (.dpkPull n) s = .refused why :=
  ⟨h _, h _⟩

theorem exec_nse_refused (h : ∀ k : Node → Result, withNode s n (fun nd => withLife nd.nse.life (k nd)) = .refused why)
    (x : C32) (xs : List C32) (cap : Nat) : exec (.nseStep n x) s = .refused why ∧ exec (.nseEos n) s = .refused why ∧
      exec (.nseWork n xs cap) s = .refused why :=
  ⟨h _, h _, h _⟩

theorem exec_dec_refused (h : ∀ k : Node → Result, withNode s n (fun nd => withLife nd.dec.life (k nd)) = .refused why)
    (r : DecodedFrame) : exec (.decDecode n r) s = .refused why :=
  h _

theorem exec_cmb_refused (h : ∀ k : Result, withLife s.cmb.life k = .refused why) (e : Epoch) :
    exec .cmbRecv s = .refused why ∧ exec .cmbCheck s = .refused why ∧ exec (.cmbCombine e) s = .refused why :=
  ⟨h _, h _, h _⟩

/-- A check of a unit's life refuses whatever comes after it. -/
theorem withNode_life_refused {nd : Node} (hn : s.nodes[n]? = some nd) {life : Node → Life}
    (h : ∀ k : Result, withLife (life nd) k = .refused why) (k : Node → Result) :
    withNode s n (fun a => withLife (life a) (k a)) = .refused why := by
  rw [withNode_of hn]
  exact h _

end

theorem withLife_of_terminated {l : Life} (h : l = ⟨.terminated, true⟩) (k : Result) : withLife l k = .refused .unitTerminated :=
  h ▸ withLife_terminated

/-- After its end of stream a packetizer refuses everything but an empty work cycle (R126). -/
theorem exec_pkt_afterDone {s : State} {n : Nat} {nd : Node} (hn : s.nodes[n]? = some nd) (hl : nd.pkt.life = Life.fresh true)
    (hdone : nd.pkt.done = true) (x : C32) (xs : List C32) (eos : Bool) :
    exec (.pktPush n x) s = .refused .pktAfterDone ∧ exec (.pktEos n) s = .refused .pktAfterDone ∧
      (xs ≠ [] ∨ eos = true → exec (.pktWork n xs eos) s = .refused .pktAfterDone) := by
  refine ⟨?push, ?eos, fun hsome => ?work⟩
  case push =>
    change pushSample n x s = _
    rw [pushSample, withNode_of hn, hl, withLife_fresh, if_pos hdone]
  case eos =>
    change endStream n s = _
    rw [endStream, withNode_of hn, hl, withLife_fresh, if_pos hdone]
  case work =>
    rw [execPktWork_of hn hl]
    refine pushAll_of_done hn hl hdone fun hempty => ?_
    rw [Bool.and_eq_true, List.isEmpty_iff, Bool.not_eq_true'] at hempty
    rcases hsome with h | h
    · exact h hempty.1
    · exact (nomatch h.symm.trans hempty.2)

/-- After its end of stream a noise injector refuses everything but a work cycle without a sample to process (R159). -/
theorem exec_nse_afterEos {s : State} {n : Nat} {nd : Node} (hn : s.nodes[n]? = some nd) (hl : nd.nse.life = Life.fresh true)
    (heos : nd.nse.eos = true) (x : C32) (xs : List C32) (cap : Nat) :
    exec (.nseStep n x) s = .refused .nseAfterEos ∧ exec (.nseEos n) s = .refused .nseAfterEos ∧
      (0 < min xs.length cap → exec (.nseWork n xs cap) s = .refused .nseAfterEos) := by
  have hstep : ∀ y, injectNoise n y s = .refused .nseAfterEos := fun y => by
    rw [injectNoise, withNode_of hn, hl, withLife_fresh, if_pos heos]
  refine ⟨hstep x, ?eos, fun hpos => ?work⟩
  case eos =>
    change endNoise n s = _
    rw [endNoise, withNode_of hn, hl, withLife_fresh, if_pos heos]
  case work =>
    change execNseWork n xs cap s = _
    rw [execNseWork, withNode_of hn, hl, withLife_fresh]
    obtain ⟨k, hk⟩ := Nat.exists_eq_succ_of_ne_zero hpos.ne'
    cases xs with
    | nil => exact absurd hpos (by simp)
    | cons y ys => rw [hk, List.take_succ_cons, injectAll, hstep y, reportConsumed]

/-- Settles O15. -/
theorem endedUnitsRefuse : Obligations.EndedUnitsRefuse := by
  intro s n nd hn
  refine ⟨fun hl => exec_pkt_refused ?_, fun hl => exec_dpk_refused ?_, fun hl => exec_nse_refused ?_,
    fun hl => exec_dec_refused ?_, fun hl => exec_cmb_refused (withLife_of_terminated hl), exec_pkt_afterDone hn,
    exec_nse_afterEos hn⟩ <;> exact withNode_life_refused hn (withLife_of_terminated hl)

/-- Settles O16. -/
theorem missingFormsRefuse : Obligations.MissingFormsRefuse := by
  intro s n
  refine ⟨fun hlt x xs eos m cap r => ?absent, fun nd hn => ?units, fun hl => ?cmb, fun hlt lo hi => ?whitening, rfl, rfl, rfl, rfl, rfl⟩
  case absent =>
    have hnode : ∀ k : Node → Result, withNode s n k = .refused .noSuchInstance := fun k =>
      withNode_none (List.getElem?_eq_none hlt)
    obtain ⟨hpush, heos, hwork⟩ := exec_pkt_refused (fun k => hnode _) x xs eos
    obtain ⟨hfill, hpull⟩ := exec_dpk_refused (fun k => hnode _) m
    obtain ⟨hstep, hend, hnse⟩ := exec_nse_refused (fun k => hnode _) x xs cap
    exact ⟨hpush, heos, hwork, hfill, hpull, hstep, hend, hnse, exec_dec_refused (fun k => hnode _) r⟩
  case units =>
    refine ⟨fun hl => exec_pkt_refused ?_, fun hl => exec_dpk_refused ?_, fun hl => exec_nse_refused ?_,
      fun hl => exec_dec_refused ?_⟩ <;> exact withNode_life_refused hn fun _ => withLife_absent hl
  case cmb => exact exec_cmb_refused fun _ => withLife_absent hl
  case whitening => exact if_pos hlt

/-! ## The packetizer -/

/-- Settles O17. -/
theorem pktPushStoresSample : Obligations.PktPushStoresSample := by
  intro s n nd x hn hl hdone hfill
  exact pushSample_next.2 ⟨nd, hn, hl, hdone, acceptSample_stores hfill n x s⟩

/-- Settles O18. -/
theorem pktPushEmitsFullWindow : Obligations.PktPushEmitsFullWindow := by
  intro s n nd x hn hl hdone hfill hepoch halive
  have hne : nd.pkt.epoch ≠ BitVec.allOnes 64 := fun h => hepoch (by rw [h]; rfl)
  refine pushSample_next.2 ⟨nd, hn, hl, hdone, acceptSample_of_done hfill ?_⟩
  have hlast : nd.pkt.fill = 1023 := by omega
  rw [emitWindow_alive (nd := nd.stored x) hne halive, Node.stored, hlast]

/-- Settles O19. -/
theorem pktEosFlushesWindow : Obligations.PktEosFlushesWindow := by
  intro s n nd hn hl hdone
  refine ⟨fun hfill => ?empty, fun hfill hepoch halive => ?padded⟩
  case empty =>
    refine endStream_next.2 ⟨nd, hn, hl, hdone, ?_⟩
    rw [flushWindow_empty (by omega), signalDone_of hn]
    rfl
  case padded =>
    have hne : nd.pkt.epoch ≠ BitVec.allOnes 64 := fun h => hepoch (by rw [h]; rfl)
    refine endStream_next.2 ⟨nd, hn, hl, hdone, ?_⟩
    rw [flushWindow_of_done hfill (emitWindow_alive (nd := nd.padded) hne halive), signalDone_setNode]
    rfl

/-! ## The noise injector -/

/-- Settles O27. -/
theorem nseStepAddsTwoDraws : Obligations.NseStepAddsTwoDraws := by
  intro s n nd x hn hl heos
  exact injectNoise_next.2 ⟨nd, hn, hl, heos, rfl⟩

/-- Settles O29. -/
theorem nseEosSignalsCompletion : Obligations.NseEosSignalsCompletion := by
  intro s n nd hn hl heos
  exact endNoise_next.2 ⟨nd, hn, hl, heos, rfl⟩

/-- The event of sample number `i` of a work cycle (R157, R158). -/
def noisyOut (s : State) (n : Nat) (nd : Node) (xs : List C32) (i : Nat) : Event :=
  .nseOut n (noisySample s.cfg.fp (s.nanCtr + i) { nd.nse with k := nd.nse.k + i } (xs.getD i C32.zero))

/-- The state after the samples `xs` of a work cycle. -/
def injectedAll (n : Nat) (nd : Node) (xs : List C32) (s : State) : State :=
  { s.setNode n { nd with nse := { nd.nse with k := nd.nse.k + xs.length } } with
    nanCtr := s.nanCtr + xs.length
    out := s.out ++ (List.range xs.length).map (noisyOut s n nd xs) }

theorem injectAll_eq (n : Nat) : ∀ (xs : List C32) {nd : Node} {s : State}, s.nodes[n]? = some nd →
    nd.nse.life = Life.fresh true → nd.nse.eos = false → injectAll n xs s = .next (injectedAll n nd xs s) := by
  intro xs
  induction xs with
  | nil =>
    intro nd s hn hl heos
    change Host.Outcome.next s = _
    congr 1
    have hsame := setNode_self s n nd hn
    exact State.eq_of rfl (congrArg State.nodes hsame).symm rfl rfl (List.append_nil _).symm rfl rfl
  | cons x xs ih =>
    intro nd s hn hl heos
    have hn' : (forwardSample n nd x s).nodes[n]? = some { nd with nse := { nd.nse with k := nd.nse.k + 1 } } :=
      getElem?_setNode_self s n nd _ hn
    rw [injectAll, injectNoise_next.2 ⟨nd, hn, hl, heos, rfl⟩]
    dsimp only
    rw [ih hn' hl heos]
    congr 1
    have hcount : nd.nse.k + 1 + xs.length = nd.nse.k + (x :: xs).length := by rw [List.length_cons]; omega
    have hctr : s.nanCtr + 1 + xs.length = s.nanCtr + (x :: xs).length := by rw [List.length_cons]; omega
    refine State.eq_of rfl ?nodes rfl rfl ?out rfl hctr
    case nodes =>
      change (s.nodes.set n _).set n { nd with nse := { nd.nse with k := nd.nse.k + 1 + xs.length } } = s.nodes.set n _
      rw [List.set_set, hcount]
    case out =>
      change (s.out ++ [.nseOut n (noisySample s.cfg.fp s.nanCtr nd.nse x)]) ++ _ = s.out ++ (List.range (xs.length + 1)).map _
      rw [List.append_assoc, List.range_succ_eq_map, List.map_cons, List.map_map, List.singleton_append]
      congr 2
      refine List.map_congr_left fun i _ => ?_
      have hk : nd.nse.k + 1 + i = nd.nse.k + (i + 1) := by omega
      have hc : s.nanCtr + 1 + i = s.nanCtr + (i + 1) := by omega
      change Event.nseOut n (noisySample s.cfg.fp (s.nanCtr + 1 + i) { nd.nse with k := nd.nse.k + 1 + i } _) = _
      rw [hk, hc]
      rfl

/-- Settles O30. -/
theorem nseWorkForwardsMinimum : Obligations.NseWorkForwardsMinimum := by
  intro s n nd xs cap hn hl heos j
  have hj : (xs.take j).length = j := List.length_take_of_le (Nat.min_le_left _ _)
  change execNseWork n xs cap s = _
  rw [execNseWork, withNode_of hn, hl, withLife_fresh]
  change reportConsumed n j (injectAll n (xs.take j) s) = _
  rw [injectAll_eq n _ hn hl heos, reportConsumed, injectedAll, hj]
  congr 1
  refine State.eq_of rfl rfl rfl rfl ?_ rfl rfl
  change (s.out ++ (List.range j).map _) ++ _ = (s.out ++ (List.range j).map _) ++ _
  congr 2
  refine List.map_congr_left fun i hi => ?_
  rw [noisyOut, List.getD_eq_getElem?_getD, List.getElem?_take_of_lt (List.mem_range.1 hi), ← List.getD_eq_getElem?_getD]

/-! ## The combiner -/

section
variable {s : State}

theorem execCmbRecv_of (hl : s.cmb.life = Life.fresh true) (hphase : s.cmb.phase = .recv) :
    exec .cmbRecv s = .next (recvTurn s) := by
  change execCmbRecv s = _
  rw [execCmbRecv, hl, withLife_fresh, hphase]

/-- CMB.RECV of a queued frame inserts it or takes the fault of a duplicate. -/
theorem recvTurn_of_frame {nd : Node} {f : IqFrame} {q : List IqFrame} (hn : s.nodes[s.cmb.rr]? = some nd)
    (hq : nd.tx.q = f :: q) :
    (Buf.insert f s.cmb.rr s.cmb.buf = none ∧ recvTurn s = raiseFault .cmb (.duplicateEntry f.epoch s.cmb.rr)
      (s.setNode s.cmb.rr { nd with tx := { nd.tx with q := q } })) ∨
    ∃ b, Buf.insert f s.cmb.rr s.cmb.buf = some b ∧
      recvTurn s = { s.setNode s.cmb.rr { nd with tx := { nd.tx with q := q } } with
        cmb := advanceRecv s.nNodes s.cmb b } := by
  rcases recvTurn_cases s with ⟨hnone, -⟩ | ⟨nd', hn', hcases⟩
  · exact (nomatch hnone.symm.trans hn)
  · obtain rfl : nd = nd' := Option.some.inj (hn.symm.trans hn')
    rcases hcases with ⟨hnil, -⟩ | ⟨hnil, -⟩ | ⟨f', q', hq', hins⟩
    · exact (nomatch hnil.symm.trans hq)
    · exact (nomatch hnil.symm.trans hq)
    · obtain ⟨rfl, rfl⟩ := List.cons.inj (hq'.symm.trans hq)
      exact hins

/-- CMB.RECV on an empty channel waits for a live sender, and takes a fault for a dead one (R69, R183). -/
theorem recvTurn_of_empty {nd : Node} (hn : s.nodes[s.cmb.rr]? = some nd) (hq : nd.tx.q = []) :
    recvTurn s = if nd.tx.txAlive then s else raiseFault .cmb .channelDisconnected s := by
  rcases recvTurn_cases s with ⟨hnone, -⟩ | ⟨nd', hn', hcases⟩
  · exact (nomatch hnone.symm.trans hn)
  · obtain rfl : nd = nd' := Option.some.inj (hn.symm.trans hn')
    rcases hcases with ⟨-, halive, h⟩ | ⟨-, hdead, h⟩ | ⟨f, q, hq', -⟩
    · rw [h, halive, if_pos rfl]
    · rw [h, hdead, if_neg Bool.false_ne_true]
    · exact (nomatch hq.symm.trans hq')

/-- A fault of the combiner in the combined wiring (R256, R257). -/
theorem raiseFault_cmb_eq (hw : s.cfg.wiring = .combined) (hl : s.cmb.life = Life.fresh true) (r : Fault) :
    raiseFault .cmb r s = { s with
      cmb := { s.cmb with life := ⟨.terminated, true⟩ }
      nodes := s.nodes.map (fun m => { m with tx := { m.tx with rxAlive := false }, rx := { m.rx with txAlive := false } })
      faults := s.faults ++ [(.cmb, r)] } := by
  refine State.eq_of (raiseFault_cfg ..) (raiseFault_cmb_nodes r s hw) ?_ (raiseFault_inbox ..) (raiseFault_out ..)
    (raiseFault_faults ..) (raiseFault_nanCtr ..)
  rw [raiseFault_cmb_cmb, hl]

end

/-- Settles O34. -/
theorem cmbRecvInsertsFrame : Obligations.CmbRecvInsertsFrame := by
  intro s nd f q b hl hphase hn hq hins
  rw [execCmbRecv_of hl hphase]
  rcases recvTurn_of_frame hn hq with ⟨hnone, -⟩ | ⟨b', hins', h⟩
  · exact (nomatch hnone.symm.trans hins)
  · obtain rfl : b = b' := Option.some.inj (hins.symm.trans hins')
    rw [h]
    rfl

/-- Settles O35. -/
theorem cmbWaitsOrKeepsCollecting : Obligations.CmbWaitsOrKeepsCollecting := by
  intro s hl
  refine ⟨fun nd hphase hn hq halive => ?waits, fun e es rest hphase hbuf hlen => ?collects, fun hphase => ?recv, fun hphase => ?check,
    fun e hidle => ?combine⟩
  case waits => rw [execCmbRecv_of hl hphase, recvTurn_of_empty hn hq, halive, if_pos rfl]
  case collects =>
    have hready : readyEpoch s = none := by
      cases h : readyEpoch s with
      | none => rfl
      | some p =>
        obtain ⟨hle, rest', hbuf'⟩ := readyEpoch_some.1 h
        obtain ⟨hkv, -⟩ := List.cons.inj (hbuf.symm.trans hbuf')
        have hes : es = p.2 := (Prod.mk.inj hkv).2
        rw [← hes] at hle
        exact absurd hle (Nat.not_le.2 hlen)
    change execCmbCheck s = _
    rw [execCmbCheck, hl, withLife_fresh, hphase]
    dsimp only
    rw [wholeCheck, hready]
    rfl
  case recv =>
    change execCmbRecv s = _
    rw [execCmbRecv, hl, withLife_fresh, hphase]
  case check =>
    change execCmbCheck s = _
    rw [execCmbCheck, hl, withLife_fresh, hphase]
  case combine =>
    change execCmbCombine e s = _
    rw [execCmbCombine, hl, withLife_fresh]
    split
    case h_1 e' es hphase hready =>
      rcases hidle with hrecv | hother
      · exact (nomatch hphase.symm.trans hrecv)
      · refine if_neg fun he : e' = e => hother es ?_
        rw [← he]
        exact hready
    case h_2 => rfl

/-- Settles O36. -/
theorem cmbRecvDisconnectedTerminates : Obligations.CmbRecvDisconnectedTerminates := by
  intro s nd hl hphase hw hn hq hdead
  rw [execCmbRecv_of hl hphase, recvTurn_of_empty hn hq, hdead, if_neg Bool.false_ne_true, raiseFault_cmb_eq hw hl]

/-- Settles O37. -/
theorem cmbRecvDuplicateTerminates : Obligations.CmbRecvDuplicateTerminates := by
  intro s nd f q x hl hphase hw hbuf hn hq hx hsender
  rw [execCmbRecv_of hl hphase]
  rcases recvTurn_of_frame hn hq with ⟨-, h⟩ | ⟨b, hins, -⟩
  · rw [h, raiseFault_cmb_eq (s := s.setNode s.cmb.rr _) hw hl]
    rfl
  · have hnone : Buf.insert f s.cmb.rr s.cmb.buf = none := (Buf.insert_eq_none_iff hbuf.keys).2 ⟨x, hx, hsender⟩
    exact (nomatch hnone.symm.trans hins)

end Sys2Proof.Machine
end

section
/-! PROOF. The decoder's CRC and the records it accepts, and the escape function (30 R102 to R106; 44 R201 to R214; 45 R231, R240). -/

namespace Sys2Proof.Machine

/-! ## DEC.CRC16 (R206) -/

theorem crcShifts_eq_iterate (k : Nat) (crc : BitVec 16) : crcShifts k crc = crcShift^[k] crc := by
  induction k generalizing crc with
  | zero => rfl
  | succ k ih => rw [crcShifts, ih, Function.iterate_succ_apply]

theorem crc16_append (data tail : List Byte) : crc16 (data ++ tail) = tail.foldl crcByte (crc16 data) :=
  List.foldl_append

/-- Where no set bit reaches bit 15, the polynomial is never added. -/
theorem crcShifts_of_lt (k : Nat) {crc : BitVec 16} (hk : k ≤ 16) (h : crc.toNat < 2 ^ (16 - k)) :
    crcShifts k crc = crc <<< k := by
  induction k generalizing crc with
  | zero => rw [BitVec.shiftLeft_zero]; rfl
  | succ k ih =>
    obtain ⟨j, hj⟩ : ∃ j, 16 - k = j + 1 := ⟨15 - k, by omega⟩
    have hj' : 16 - (k + 1) = j := by omega
    rw [hj'] at h
    have hj15 : 2 ^ j ≤ 2 ^ 15 := Nat.pow_le_pow_right (by decide) (by omega)
    have hclear : crc.getLsbD 15 = false := Nat.testBit_lt_two_pow (h.trans_le hj15)
    have htwice : (crc <<< 1).toNat = 2 * crc.toNat := by
      rw [BitVec.toNat_shiftLeft, Nat.shiftLeft_eq, pow_one, Nat.mod_eq_of_lt (by omega), Nat.mul_comm]
    have hshift : crcShift crc = crc <<< 1 := by
      rw [crcShift, hclear, if_neg Bool.false_ne_true]
    rw [crcShifts, hshift, ih (by omega) (by rw [htwice, hj, Nat.pow_succ']; omega), ← BitVec.shiftLeft_add, Nat.add_comm]

/-- The two bytes of a word, the first one shifted up, leave the second one. -/
theorem xor_highByte (c : BitVec 16) : c ^^^ (((c >>> 8).setWidth 8).setWidth 16 <<< 8) = (c.setWidth 8).setWidth 16 := by
  refine BitVec.eq_of_getLsbD_eq fun i hi => ?_
  by_cases h8 : i < 8
  · simp [h8, hi]
  · have hback : 8 + (i - 8) = i := by omega
    have hsmall : i - 8 < 8 := by omega
    simp [h8, hi, hback, hsmall]

/-- A CRC is shifted out by itself. -/
theorem crcByte_residue (c : BitVec 16) : crcByte (crcByte c ((c >>> 8).setWidth 8)) (c.setWidth 8) = 0 := by
  have hlow : ((c.setWidth 8).setWidth 16 : BitVec 16).toNat < 2 ^ (16 - 8) := by
    rw [BitVec.toNat_setWidth, BitVec.toNat_setWidth]
    omega
  rw [crcByte, crcByte, xor_highByte, crcShifts_of_lt 8 (by decide) hlow, BitVec.xor_self,
    crcShifts_of_lt 8 (by decide) (by decide), BitVec.zero_shiftLeft]
  rfl

theorem exec_decCrc16 (data : List Byte) (s : State) : exec (.decCrc16 data) s = .next (s.emit [.wordResult (crc16 data)]) := rfl

/-- Settles O55. -/
theorem crcRecurrenceAndResidue : Obligations.CrcRecurrenceAndResidue := by
  intro s data b
  refine ⟨rfl, fun c hc => ?_⟩
  rw [exec_decCrc16] at hc
  have hout := congrArg State.out (Host.Outcome.next.inj hc)
  obtain rfl : crc16 data = c := Event.wordResult.inj (List.cons.inj (List.append_cancel_left hout)).1
  constructor
  · rw [exec_decCrc16, crc16_append, List.foldl_cons, List.foldl_nil, crcByte, crcShifts_eq_iterate]
    rfl
  · rw [exec_decCrc16, crc16_append, List.foldl_cons, List.foldl_cons, List.foldl_nil, crcByte_residue]

/-- Settles O56. -/
theorem functionResultsDelivered : Obligations.FunctionResultsDelivered := fun _ _ _ => ⟨rfl, rfl, rfl, rfl⟩

/-! ## Records that no check refuses -/

/-- Settles O47. -/
theorem decDecodeCompletes : Obligations.DecDecodeCompletes := by
  intro s n nd r hn hl hnib hw
  exact exec_decDecode_next hn hl hnib (hw.imp_left (isShort_iff r).2)

theorem bodyOf_of_noCrc {r : DecodedFrame} (h : r.hasCrc = false) : bodyOf r = r.nibbles.drop (headerNibbles r) := by
  rw [bodyOf, trailerNibbles_of_noCrc h, Nat.sub_zero, List.take_length]

/-- Without a CRC the body is all there is; a record shorter than its header has none. -/
theorem decodeBytes_of_noCrc {r : DecodedFrame} (h : r.hasCrc = false) (c : Cfg) :
    decodeBytes c r = (dewhitenPairs c.w 0 (r.nibbles.drop (headerNibbles r)), true) := by
  cases hshort : isShort r with
  | true =>
    rw [isShort_iff, trailerNibbles_of_noCrc h] at hshort
    rw [decodeBytes_of_noCrc_of_lt h (by omega), List.drop_eq_nil_of_le (by omega)]
    rfl
  | false =>
    rw [decodeBytes_of_not_short hshort, recoveredBytes, h, bodyOf_of_noCrc h]
    simp

/-- Settles O49. -/
theorem decNoCrcEvents : Obligations.DecNoCrcEvents := by
  intro s n nd r hn hl hnib hcrc hneed
  have hw : whiteningNeed r ≤ s.cfg.w.length := by
    rw [whiteningNeed, bodyOf_of_noCrc hcrc, List.length_drop, hcrc]
    exact hneed
  rw [exec_decDecode_next hn hl hnib (.inr hw), decodeEvents_of_noCrc hcrc (decodeBytes_of_noCrc hcrc s.cfg)]

/-! ## A transmitted payload -/

theorem getLsbD_dewhitenWith (lo hi : BitVec 4) (w : Byte) (i : Nat) : (dewhitenWith lo hi w).getLsbD i =
    if i < 4 then (lo ^^^ w.extractLsb' 0 4).getLsbD i else (hi ^^^ w.extractLsb' 4 4).getLsbD (i - 4) :=
  BitVec.getLsbD_append

/-- A byte is read back from its two whitened nibbles (R103, R203). -/
theorem dewhitenWith_whitened (b v : Byte) :
    dewhitenWith (nibbleOf ((b ^^^ v) &&& 0x0F)) (nibbleOf ((b ^^^ v) >>> 4)) v = b := by
  refine BitVec.eq_of_getLsbD_eq fun i hi => ?_
  have hmask : ∀ j, j < 4 → (15#8).getLsbD j = true := by decide
  by_cases h4 : i < 4
  · simp [getLsbD_dewhitenWith, nibbleOf, h4, hmask i h4]
  · have hback : 4 + (i - 4) = i := by omega
    have hsmall : i - 4 < 4 := by omega
    simp [getLsbD_dewhitenWith, nibbleOf, h4, hback, hsmall]

theorem whitenedNibbles_lt (b v : Byte) : ∀ x ∈ whitenedNibbles b v, x.toNat < 16 := by
  intro x hx
  rcases List.mem_pair.1 hx with rfl | rfl
  · rw [BitVec.toNat_and]
    exact Nat.lt_of_le_of_lt Nat.and_le_right (by decide)
  · rw [BitVec.toNat_ushiftRight, Nat.shiftRight_eq_div_pow]
    have := (b ^^^ v).isLt
    omega

theorem transmittedNibbles_lt (w : List Byte) (p : List Byte) (i : Nat) : ∀ x ∈ transmittedNibbles w i p, x.toNat < 16 := by
  induction p generalizing i with
  | nil => intro x hx; exact (nomatch hx)
  | cons b p ih =>
    intro x hx
    rcases List.mem_append.1 hx with hx | hx
    · exact whitenedNibbles_lt b _ x hx
    · exact ih (i + 1) x hx

theorem transmittedNibbles_length (w : List Byte) (p : List Byte) (i : Nat) :
    (transmittedNibbles w i p).length = 2 * p.length := by
  induction p generalizing i with
  | nil => rfl
  | cons b p ih =>
    rw [transmittedNibbles, List.length_append, ih, List.length_cons]
    change 2 + _ = _
    omega

/-- The bytes are read back from their nibbles, with an unpaired nibble behind them or none (R104, R204). -/
theorem dewhitenPairs_transmitted (w : List Byte) {odd : List Byte} (hodd : odd.length ≤ 1) (p : List Byte) (i : Nat) :
    dewhitenPairs w i (transmittedNibbles w i p ++ odd) = p := by
  induction p generalizing i with
  | nil =>
    match odd, hodd with
    | [], _ => rfl
    | [_], _ => rfl
  | cons b p ih =>
    change dewhitenWith _ _ (w.getD i 0) :: dewhitenPairs w (i + 1) (transmittedNibbles w (i + 1) p ++ odd) = _
    rw [dewhitenWith_whitened, ih]

/-- A word and its two bytes. -/
theorem eq_word_iff (v : BitVec 16) (b0 b1 : Byte) :
    v = b0.setWidth 16 ||| (b1.setWidth 16 <<< 8) ↔ b0 = v.setWidth 8 ∧ b1 = (v >>> 8).setWidth 8 := by
  constructor
  · rintro rfl
    constructor <;> refine BitVec.eq_of_getLsbD_eq fun i hi => ?_
    · simp [hi]
    · simp [hi, show 8 + i < 16 by omega]
  · rintro ⟨rfl, rfl⟩
    refine BitVec.eq_of_getLsbD_eq fun i hi => ?_
    by_cases h8 : i < 8
    · simp [h8, hi]
    · simp [h8, hi, show 8 + (i - 8) = i by omega, show i - 8 < 8 by omega]

theorem byteAt_append_left {bs tail : List Byte} {i : Nat} (h : i < bs.length) : byteAt (bs ++ tail) i = bs.getD i 0 := by
  rw [byteAt, List.getD_eq_getElem?_getD, List.getElem?_append_left h, ← List.getD_eq_getElem?_getD]

/-- The check of a payload with two bytes behind it is whether they are its CRC (R105, R207). -/
theorem crcCheck_append (span : CrcSpan) {p : List Byte} (hp : 2 ≤ p.length) (b0 b1 : Byte) :
    crcCheck span (p ++ [b0, b1]) = decide (p ++ [b0, b1] = sealedPayload span p) := by
  have hlen : (p ++ [b0, b1]).length = p.length + 2 := List.length_append
  have hspan : crc16 (crcSpanOf span (p ++ [b0, b1])) ^^^ xorWord (p ++ [b0, b1]) = sealWord span p := by
    have hx : xorWord (p ++ [b0, b1]) =
        ((p.getD (p.length - 2) 0).setWidth 16 <<< 8) ||| (p.getD (p.length - 1) 0).setWidth 16 := by
      rw [xorWord, hlen, byteAt_append_left (by omega), byteAt_append_left (by omega)]
      rfl
    rw [hx]
    cases span with
    | allData =>
      rw [crcSpanOf, hlen, Nat.add_sub_cancel, List.take_left]
      rfl
    | allButLastTwo =>
      rw [crcSpanOf, hlen, List.take_append_of_le_length (by omega)]
      rfl
  have htx : transmittedCrc (p ++ [b0, b1]) = b0.setWidth 16 ||| (b1.setWidth 16 <<< 8) := by
    rw [transmittedCrc, hlen]
    simp [byteAt]
  rw [crcCheck, hspan, htx, hlen, decide_eq_true (by omega), Bool.true_and, sealedPayload]
  refine decide_eq_decide.2 ((eq_word_iff _ b0 b1).trans ?_)
  rw [List.append_cancel_left_eq, List.cons.injEq, List.cons.injEq]
  simp

/-- Settles O53. -/
theorem decSealedPayloadDecodes : Obligations.DecSealedPayloadDecodes := by
  intro s n nd r hdr odd p b0 b1 hn hl hp hw hcrc hhdr hodd hsmall hnib
  have hlen : r.nibbles.length = headerNibbles r + 2 * p.length + odd.length + 4 := by
    rw [hnib, List.length_append, List.length_append, List.length_append, transmittedNibbles_length, transmittedNibbles_length, hhdr]
    rfl
  have hfront : (hdr ++ transmittedNibbles s.cfg.w 0 p ++ odd).length = r.nibbles.length - 4 := by
    rw [List.length_append, List.length_append, transmittedNibbles_length, hhdr, hlen]
    omega
  have hbody : bodyOf r = transmittedNibbles s.cfg.w 0 p ++ odd := by
    rw [bodyOf, trailerNibbles_of_crc hcrc, ← hfront, hnib, List.take_left, List.append_assoc, ← hhdr, List.drop_left]
  have htrailer : trailerOf r = transmittedNibbles s.cfg.w p.length [b0, b1] := by
    rw [trailerOf, ← hfront, hnib, List.drop_left]
  have hpairs : (bodyOf r).length / 2 = p.length := by
    rw [hbody, List.length_append, transmittedNibbles_length]
    omega
  have hbytes : recoveredBytes s.cfg.w r = p ++ [b0, b1] := by
    have htail := dewhitenPairs_transmitted s.cfg.w (odd := []) (Nat.zero_le 1) [b0, b1] p.length
    rw [List.append_nil] at htail
    rw [recoveredBytes, hcrc, if_pos rfl, hpairs, hbody, htrailer, dewhitenPairs_transmitted s.cfg.w hodd, htail]
  have hshort : isShort r = false := by
    rw [isShort_eq_false_iff, trailerNibbles_of_crc hcrc]
    omega
  have hneed : whiteningNeed r ≤ s.cfg.w.length := by
    rw [whiteningNeed, hpairs, hcrc]
    exact hw
  have hnarrow : ∀ b ∈ r.nibbles, b.toNat < 16 := by
    intro b hb
    rw [hnib, List.append_assoc, List.append_assoc, List.mem_append, List.mem_append, List.mem_append] at hb
    rcases hb with hb | hb | hb | hb
    · exact hsmall b (List.mem_append_left _ hb)
    · exact transmittedNibbles_lt _ _ _ b hb
    · exact hsmall b (List.mem_append_right _ hb)
    · exact transmittedNibbles_lt _ _ _ b hb
  have hdecode : decodeBytes s.cfg r =
      (p ++ [b0, b1], decide (p ++ [b0, b1] = sealedPayload s.cfg.crcSpan p)) := by
    rw [decodeBytes_of_not_short hshort, hbytes, hcrc, if_pos rfl, crcCheck_append _ hp]
  rw [exec_decDecode_next hn hl hnarrow (.inr hneed)]
  by_cases hseal : p ++ [b0, b1] = sealedPayload s.cfg.crcSpan p
  · rw [decide_eq_true hseal] at hdecode
    rw [if_pos hseal, decodeEvents, hdecode, payloadOf, hcrc, if_pos rfl]
    simp [sentFrame, hostFrameBytes, readyStatus, escape, escapeByte]
  · rw [decide_eq_false hseal] at hdecode
    rw [if_neg hseal, decodeEvents_of_failed hcrc hdecode]

/-! ## Escaped bytes (R240) -/

theorem escapeByte_cases (b : Byte) :
    (b = delim ∧ escapeByte b = [esc, escDelim]) ∨ (b = esc ∧ escapeByte b = [esc, escEsc]) ∨
      (b ≠ delim ∧ b ≠ esc ∧ escapeByte b = [b]) := by
  by_cases hdelim : b = delim
  · exact .inl ⟨hdelim, by rw [hdelim, escapeByte_delim]⟩
  · by_cases hesc : b = esc
    · exact .inr (.inl ⟨hesc, by rw [hesc, escapeByte_esc]⟩)
    · exact .inr (.inr ⟨hdelim, hesc, escapeByte_of_ne hdelim hesc⟩)

theorem delim_not_mem_escape (x : List Byte) : delim ∉ escape x := by
  induction x with
  | nil => exact List.not_mem_nil
  | cons b x ih =>
    rw [escape_cons, List.mem_append, not_or]
    refine ⟨?_, ih⟩
    rcases escapeByte_cases b with ⟨-, h⟩ | ⟨-, h⟩ | ⟨hdelim, -, h⟩ <;> rw [h]
    · decide
    · decide
    · rw [List.mem_singleton]
      exact hdelim.symm

/-- Every escape byte begins a row of the encoder. -/
theorem esc_followed (x : List Byte) : ∀ i : Nat, (escape x)[i]? = some esc →
    (escape x)[i + 1]? = some escDelim ∨ (escape x)[i + 1]? = some escEsc := by
  induction x with
  | nil => intro i h; cases h
  | cons b x ih =>
    intro i h
    rw [escape_cons] at h ⊢
    rcases escapeByte_cases b with ⟨-, hb⟩ | ⟨-, hb⟩ | ⟨-, hesc, hb⟩ <;> rw [hb] at h ⊢
    · match i, h with
      | 0, _ => exact .inl rfl
      | 1, h => exact absurd (Option.some.inj h) (by decide)
      | i + 2, h => exact ih i h
    · match i, h with
      | 0, _ => exact .inr rfl
      | 1, h => exact absurd (Option.some.inj h) (by decide)
      | i + 2, h => exact ih i h
    · match i, h with
      | 0, h => exact absurd (Option.some.inj h) hesc
      | i + 1, h => exact ih i h

theorem escape_length (x : List Byte) : (escape x).length = x.length + x.countP (fun b => b = delim ∨ b = esc) := by
  induction x with
  | nil => rfl
  | cons b x ih =>
    rw [escape_cons, List.length_append, ih, List.length_cons, List.countP_cons]
    rcases escapeByte_cases b with ⟨hd, hb⟩ | ⟨he, hb⟩ | ⟨hd, he, hb⟩ <;> rw [hb]
    · rw [if_pos (decide_eq_true (.inl hd))]
      simp only [List.length_cons, List.length_nil]
      omega
    · rw [if_pos (decide_eq_true (.inr he))]
      simp only [List.length_cons, List.length_nil]
      omega
    · rw [if_neg fun h => (of_decide_eq_true h).elim hd he]
      simp only [List.length_cons, List.length_nil]
      omega

/-- Settles O58. -/
theorem escapedBytesAreDelimiterSafe : Obligations.EscapedBytesAreDelimiterSafe := by
  intro x
  have hlen := escape_length x
  have hcount : x.countP (fun b => b = delim ∨ b = esc) ≤ x.length := List.countP_le_length
  refine ⟨delim_not_mem_escape x, esc_followed x, hlen, by omega, by omega, fun code hcode => ?_⟩
  have hne : code ≠ delim := by
    rintro rfl
    cases hcode
  have hzero : (escape x).count delim = 0 := List.count_eq_zero.2 (delim_not_mem_escape x)
  rw [hostFrameBytes, List.count_append, List.count_append, hzero]
  have hcode : [delim, code].count delim = 1 := by
    rw [List.count_cons_self, List.count_cons_of_ne hne, List.count_nil]
  rw [hcode, List.count_singleton_self]

end Sys2Proof.Machine
end

section
/-! PROOF. Rounding to binary32 (49 R312): the magnitude pattern that `roundMag` gives is the nearest one, ties to even, and the
infinity pattern from half a unit above the largest finite value on. -/

namespace Sys2Proof

/-! ## Patterns and their values -/

/-- The value of a finite magnitude pattern in units of 2^-149 (93 G1). -/
def F32.magVal (m : Nat) : Nat :=
  (if m < 2 ^ 23 then m else 2 ^ 23 + m % 2 ^ 23) * 2 ^ (m / 2 ^ 23 - 1)

theorem F32.absVal_eq_magVal (x : F32) : F32.absVal x = F32.magVal (F32.mag x) := rfl

/-- A pattern is a binade and a significand, which may have carried into the next binade. -/
theorem F32.magVal_add {k q : Nat} (hq : q ≤ 2 ^ 24) (h : k = 0 ∨ 2 ^ 23 ≤ q) : F32.magVal (k * 2 ^ 23 + q) = q * 2 ^ k := by
  have hsplit : q < 2 ^ 23 ∨ (2 ^ 23 ≤ q ∧ q < 2 ^ 24) ∨ q = 2 ^ 24 := by omega
  rw [F32.magVal]
  rcases hsplit with hsub | ⟨hlow, hhigh⟩ | rfl
  · obtain rfl : k = 0 := by omega
    have hscale : (0 * 2 ^ 23 + q) / 2 ^ 23 - 1 = 0 := by omega
    rw [if_pos (by omega), hscale, Nat.zero_mul, Nat.zero_add]
  · have hscale : (k * 2 ^ 23 + q) / 2 ^ 23 - 1 = k := by omega
    have hsig : 2 ^ 23 + (k * 2 ^ 23 + q) % 2 ^ 23 = q := by omega
    rw [if_neg (by omega), hscale, hsig]
  · have hscale : (k * 2 ^ 23 + 2 ^ 24) / 2 ^ 23 - 1 = k + 1 := by omega
    have hsig : 2 ^ 23 + (k * 2 ^ 23 + 2 ^ 24) % 2 ^ 23 = 2 ^ 23 := by omega
    rw [if_neg (by omega), hscale, hsig, Nat.pow_succ' (m := 2) (n := k), ← Nat.mul_assoc]
    rfl

theorem F32.exists_split (m : Nat) : ∃ k q, m = k * 2 ^ 23 + q ∧ q < 2 ^ 24 ∧ (k = 0 ∨ 2 ^ 23 ≤ q) :=
  ⟨m / 2 ^ 23 - 1, m - (m / 2 ^ 23 - 1) * 2 ^ 23, by omega, by omega, by omega⟩

/-! ## Distances -/

/-- How far two whole numbers are apart. -/
abbrev apart (a b : Nat) : Nat := ((a : Int) - b).natAbs

/-- Of the multiples of `d` none is nearer than the rounded one, and one as near makes a tie. -/
theorem roundNearest_nearest {num d : Nat} (hd : 0 < d) (z : Nat) :
    apart (roundNearest num d * d) num ≤ apart (z * d) num ∧
      (apart (roundNearest num d * d) num = apart (z * d) num → z ≠ roundNearest num d → roundNearest num d % 2 = 0) := by
  obtain ⟨hle, hge⟩ := roundNearest_bounds (num := num) hd
  have htie := roundNearest_tie (num := num) (den := d)
  generalize roundNearest num d = q at hle hge htie
  rw [Nat.mul_comm d q] at hle hge
  dsimp only [apart]
  have heven : 2 * num = 2 * (q * d) + d ∨ 2 * num + d = 2 * (q * d) → q % 2 = 0 := by
    intro h
    apply htie
    rcases h with h | h
    · obtain ⟨e, rfl⟩ : ∃ e, d = 2 * e := ⟨d / 2, by omega⟩
      have hnum : num = e + 2 * e * q := by
        rw [Nat.mul_comm (2 * e) q]
        omega
      rw [hnum, Nat.add_mul_mod_self_left, Nat.mod_eq_of_lt (by omega)]
    · obtain ⟨e, rfl⟩ : ∃ e, d = 2 * e := ⟨d / 2, by omega⟩
      obtain ⟨p, rfl⟩ : ∃ p, q = p + 1 := Nat.exists_eq_succ_of_ne_zero (by rintro rfl; omega)
      have hnum : num = e + 2 * e * p := by
        rw [Nat.mul_comm (2 * e) p]
        rw [Nat.add_mul, Nat.one_mul] at h
        omega
      rw [hnum, Nat.add_mul_mod_self_left, Nat.mod_eq_of_lt (by omega)]
  rcases Nat.lt_trichotomy z q with hlt | rfl | hgt
  · have hstep : z * d + d ≤ q * d := by
      rw [← Nat.succ_mul]
      exact Nat.mul_le_mul_right d hlt
    refine ⟨by omega, fun heq _ => heven ?_⟩
    omega
  · exact ⟨Nat.le_refl _, fun _ hne => absurd rfl hne⟩
  · have hstep : q * d + d ≤ z * d := by
      rw [← Nat.succ_mul]
      exact Nat.mul_le_mul_right d hgt
    refine ⟨by omega, fun heq _ => heven ?_⟩
    omega

/-! ## The binade of a quotient -/

/-- How many bits the unit of the rounded quotient stands above the units of 2^-149. -/
abbrev roundScale (num den : Nat) : Nat := Nat.log2 (num / den) - 23

section
variable {num den : Nat}

/-- The quotient stays below the top of its binade. -/
theorem lt_of_roundScale (hden : 0 < den) : num < 2 ^ 24 * (den * 2 ^ roundScale num den) := by
  have hlog : num / den < 2 ^ (24 + roundScale num den) :=
    Nat.lt_log2_self.trans_le (Nat.pow_le_pow_right (by decide) (by rw [roundScale]; omega))
  have h := (Nat.div_lt_iff_lt_mul hden).1 hlog
  rwa [Nat.pow_add, Nat.mul_assoc, Nat.mul_comm (2 ^ roundScale num den)] at h

/-- Above the first binade it does not stay below the bottom of it either. -/
theorem le_of_roundScale (hden : 0 < den) (h : roundScale num den ≠ 0) : 2 ^ 23 * (den * 2 ^ roundScale num den) ≤ num := by
  have hlog : Nat.log2 (num / den) = 23 + roundScale num den := by rw [roundScale] at h ⊢; omega
  have hne : num / den ≠ 0 := by
    intro hzero
    rw [roundScale, hzero] at h
    exact h rfl
  have hle := Nat.log2_self_le hne
  rw [hlog, Nat.pow_add] at hle
  calc 2 ^ 23 * (den * 2 ^ roundScale num den)
    _ = 2 ^ 23 * 2 ^ roundScale num den * den := by rw [Nat.mul_comm den, Nat.mul_assoc]
    _ ≤ num := (Nat.le_div_iff_mul_le hden).1 hle

/-- The rounded significand. -/
abbrev roundSig (num den : Nat) : Nat := roundNearest num (den * 2 ^ roundScale num den)

theorem roundMag_eq (num den : Nat) : roundMag num den = min (roundScale num den * 2 ^ 23 + roundSig num den) F32.infMag := rfl

theorem unit_pos (hden : 0 < den) (k : Nat) : 0 < den * 2 ^ k := Nat.mul_pos hden (Nat.two_pow_pos k)

/-- The rounded significand has 24 bits, or is the carry into the next binade. -/
theorem roundSig_le (hden : 0 < den) : roundSig num den ≤ 2 ^ 24 := by
  obtain ⟨-, hge⟩ := roundNearest_bounds (num := num) (unit_pos hden (roundScale num den))
  have hlt := lt_of_roundScale (num := num) hden
  rw [roundSig]
  generalize roundNearest num (den * 2 ^ roundScale num den) = q at hge
  generalize den * 2 ^ roundScale num den = d at hge hlt
  by_contra hbig
  have hmul : d * (2 ^ 24 + 1) ≤ d * q := Nat.mul_le_mul_left d (by omega)
  omega

theorem le_roundSig (hden : 0 < den) (h : roundScale num den ≠ 0) : 2 ^ 23 ≤ roundSig num den := by
  obtain ⟨hle, -⟩ := roundNearest_bounds (num := num) (unit_pos hden (roundScale num den))
  have hlow := le_of_roundScale hden h
  have hpos := unit_pos hden (roundScale num den)
  rw [roundSig]
  generalize roundNearest num (den * 2 ^ roundScale num den) = q at hle
  generalize den * 2 ^ roundScale num den = d at hle hlow hpos
  by_contra hsmall
  have hmul : d * q ≤ d * (2 ^ 23 - 1) := Nat.mul_le_mul_left d (by omega)
  omega

/-- The value of the rounded pattern, before the infinity pattern bounds it. -/
theorem magVal_rounded (hden : 0 < den) :
    F32.magVal (roundScale num den * 2 ^ 23 + roundSig num den) = roundSig num den * 2 ^ roundScale num den :=
  F32.magVal_add (roundSig_le hden) (by
    by_cases h : roundScale num den = 0
    · exact .inl h
    · exact .inr (le_roundSig hden h))

/-- No pattern's value is nearer to the quotient than the rounded one's, and on a tie the rounded pattern is even. -/
theorem rounded_nearest (hden : 0 < den) (y : Nat) :
    apart (roundSig num den * 2 ^ roundScale num den * den) num ≤ apart (F32.magVal y * den) num ∧
      (apart (roundSig num den * 2 ^ roundScale num den * den) num = apart (F32.magVal y * den) num →
        F32.magVal y ≠ roundSig num den * 2 ^ roundScale num den →
        (roundScale num den * 2 ^ 23 + roundSig num den) % 2 = 0) := by
  obtain ⟨k', q', rfl, hq', hk'⟩ := F32.exists_split y
  rw [F32.magVal_add hq'.le hk']
  have hunit : ∀ z, z * 2 ^ roundScale num den * den = z * (den * 2 ^ roundScale num den) := fun z => by
    rw [Nat.mul_assoc, Nat.mul_comm (2 ^ _) den]
  have heven : roundSig num den % 2 = 0 → (roundScale num den * 2 ^ 23 + roundSig num den) % 2 = 0 := by omega
  rcases Nat.lt_or_ge k' (roundScale num den) with hlt | hge
  · have hbottom := le_of_roundScale hden (by omega : roundScale num den ≠ 0)
    obtain ⟨hle, -⟩ := roundNearest_nearest (num := num) (unit_pos hden (roundScale num den)) (2 ^ 23)
    have hbelow : q' * 2 ^ k' * den < 2 ^ 23 * (den * 2 ^ roundScale num den) := by
      have hpow : 2 ^ (k' + 1) ≤ 2 ^ roundScale num den := Nat.pow_le_pow_right (by decide) hlt
      calc q' * 2 ^ k' * den
        _ < 2 ^ 24 * 2 ^ k' * den :=
          Nat.mul_lt_mul_of_pos_right (Nat.mul_lt_mul_of_pos_right hq' (Nat.two_pow_pos k')) hden
        _ = 2 ^ 23 * (den * 2 ^ (k' + 1)) := by ring
        _ ≤ 2 ^ 23 * (den * 2 ^ roundScale num den) := Nat.mul_le_mul_left _ (Nat.mul_le_mul_left _ hpow)
    rw [hunit]
    dsimp only [apart, roundSig] at hle ⊢
    constructor
    · omega
    · intro heq
      omega
  · have hmul : q' * 2 ^ k' = q' * 2 ^ (k' - roundScale num den) * 2 ^ roundScale num den := by
      rw [Nat.mul_assoc, ← Nat.pow_add, Nat.sub_add_cancel hge]
    rw [hmul, hunit, hunit]
    obtain ⟨hle, htie⟩ := roundNearest_nearest (num := num) (unit_pos hden (roundScale num den))
      (q' * 2 ^ (k' - roundScale num den))
    exact ⟨hle, fun heq hne => heven (htie heq fun h => hne (by rw [h]))⟩

/-! ## The end of the finite values -/

theorem roundScale_le_of_lt (hden : 0 < den) (h : num < (2 ^ 25 - 1) * 2 ^ 252 * den) : roundScale num den ≤ 253 := by
  by_contra hbig
  have hlow := le_of_roundScale hden (by omega : roundScale num den ≠ 0)
  have hpow : 2 ^ 254 ≤ 2 ^ roundScale num den := Nat.pow_le_pow_right (by decide) (by omega)
  have hmul : 2 ^ 23 * (den * 2 ^ 254) ≤ 2 ^ 23 * (den * 2 ^ roundScale num den) :=
    Nat.mul_le_mul_left _ (Nat.mul_le_mul_left _ hpow)
  omega

/-- Below half a unit above the largest finite value the rounded pattern is finite. -/
theorem rounded_lt_infMag (hden : 0 < den) (h : num < (2 ^ 25 - 1) * 2 ^ 252 * den) :
    roundScale num den * 2 ^ 23 + roundSig num den < F32.infMag := by
  have hscale := roundScale_le_of_lt hden h
  have hsig := roundSig_le (num := num) hden
  have hinf : F32.infMag = 255 * 2 ^ 23 := rfl
  by_cases htop : roundScale num den = 253
  · obtain ⟨-, hge⟩ := roundNearest_bounds (num := num) (unit_pos hden (roundScale num den))
    rw [roundSig] at hsig ⊢
    rw [htop] at hge hsig ⊢
    have hne : roundNearest num (den * 2 ^ 253) ≠ 2 ^ 24 := by
      intro heq
      rw [heq] at hge
      omega
    omega
  · omega

/-- From there on it is the infinity pattern or beyond. -/
theorem infMag_le_rounded (hden : 0 < den) (h : (2 ^ 25 - 1) * 2 ^ 252 * den ≤ num) :
    F32.infMag ≤ roundScale num den * 2 ^ 23 + roundSig num den := by
  have hinf : F32.infMag = 255 * 2 ^ 23 := rfl
  have hscale : 253 ≤ roundScale num den := by
    by_contra hsmall
    have hlt := lt_of_roundScale (num := num) hden
    have hpow : 2 ^ roundScale num den ≤ 2 ^ 252 := Nat.pow_le_pow_right (by decide) (by omega)
    have hmul : 2 ^ 24 * (den * 2 ^ roundScale num den) ≤ 2 ^ 24 * (den * 2 ^ 252) :=
      Nat.mul_le_mul_left _ (Nat.mul_le_mul_left _ hpow)
    omega
  have hlow := le_roundSig (num := num) hden (by omega)
  by_cases htop : roundScale num den = 253
  · obtain ⟨hle, -⟩ := roundNearest_bounds (num := num) (unit_pos hden (roundScale num den))
    obtain ⟨-, htie⟩ := roundNearest_nearest (num := num) (unit_pos hden (roundScale num den)) (2 ^ 24)
    rw [roundSig] at hlow ⊢
    rw [htop] at hle htie hlow ⊢
    generalize roundNearest num (den * 2 ^ 253) = q at hle htie hlow
    have hbig : 2 ^ 24 ≤ q := by
      by_contra hlt
      have hmul : den * 2 ^ 253 * q ≤ den * 2 ^ 253 * (2 ^ 24 - 1) := Nat.mul_le_mul_left _ (by omega)
      obtain rfl : q = 2 ^ 24 - 1 := by
        by_contra hne
        have hmul' : den * 2 ^ 253 * q ≤ den * 2 ^ 253 * (2 ^ 24 - 2) := Nat.mul_le_mul_left _ (by omega)
        omega
      exact absurd (htie (by dsimp only [apart]; omega) (by decide)) (by decide)
    omega
  · omega

/-- A quotient that is a finite value is rounded to the pattern of that value. -/
theorem roundMag_magVal {m : Nat} (hm : m < F32.infMag) : roundMag (F32.magVal m) 1 = m := by
  obtain ⟨k, q, rfl, hq, hk⟩ := F32.exists_split m
  rw [F32.magVal_add hq.le hk]
  have hscale : roundScale (q * 2 ^ k) 1 = k := by
    rw [roundScale, Nat.div_one]
    rcases hk with rfl | hlow
    · have hlog : Nat.log2 q < 24 := by
        by_cases hzero : q = 0
        · rw [hzero]; decide
        · exact (Nat.log2_lt hzero).2 hq
      rw [pow_zero, Nat.mul_one]
      omega
    · have hlog : Nat.log2 (q * 2 ^ k) = 23 + k := by
        have hpos : q * 2 ^ k ≠ 0 := Nat.mul_ne_zero (by omega) (Nat.two_pow_pos k).ne'
        refine (Nat.log2_eq_iff hpos).2 ⟨?_, ?_⟩
        · rw [Nat.pow_add]
          exact Nat.mul_le_mul_right _ hlow
        · rw [Nat.add_right_comm, Nat.pow_add]
          exact Nat.mul_lt_mul_of_pos_right hq (Nat.two_pow_pos k)
      omega
  have hsig : roundNearest (q * 2 ^ k) (1 * 2 ^ k) = q := by
    rw [Nat.one_mul, roundNearest]
    have hdiv : q * 2 ^ k / 2 ^ k = q := Nat.mul_div_cancel _ (Nat.two_pow_pos k)
    have hmod : q * 2 ^ k % 2 ^ k = 0 := Nat.mul_mod_left _ _
    rw [hdiv, hmod]
    exact if_pos (Nat.two_pow_pos k)
  rw [roundMag_eq, roundSig, hscale, hsig]
  exact Nat.min_eq_left hm.le

/-! ## Rounding a signed quotient -/

/-- R312.1 and R312.3 for a magnitude: below the end of the finite values the nearest pattern, ties to even. -/
theorem roundMag_nearest (hden : 0 < den) (h : num < (2 ^ 25 - 1) * 2 ^ 252 * den) :
    roundMag num den < F32.infMag ∧ ∀ y,
      apart (F32.magVal (roundMag num den) * den) num ≤ apart (F32.magVal y * den) num ∧
      (apart (F32.magVal (roundMag num den) * den) num = apart (F32.magVal y * den) num →
        F32.magVal y ≠ F32.magVal (roundMag num den) → roundMag num den % 2 = 0) := by
  have hfinite := rounded_lt_infMag hden h
  have heq : roundMag num den = roundScale num den * 2 ^ 23 + roundSig num den := Nat.min_eq_left hfinite.le
  rw [heq]
  refine ⟨hfinite, fun y => ?_⟩
  rw [magVal_rounded hden]
  exact rounded_nearest hden y

theorem roundMag_overflow (hden : 0 < den) (h : (2 ^ 25 - 1) * 2 ^ 252 * den ≤ num) : roundMag num den = F32.infMag :=
  Nat.min_eq_right (infMag_le_rounded hden h)

end

end Sys2Proof
end

section
/-! PROOF. Binary32 sums and products round the exact result once (49 R311, R312), and standard deviation zero changes no value
(42 R161). -/

namespace Sys2Proof

/-! ## Patterns -/

theorem F32.mag_lt (x : F32) : F32.mag x < 2 ^ 31 := Nat.mod_lt _ (by decide)

theorem F32.infMag_lt : F32.infMag < 2 ^ 31 := by decide

theorem F32.isFinite_iff {x : F32} : F32.isFinite x = true ↔ F32.mag x < F32.infMag := decide_eq_true_iff

theorem F32.isInf_iff {x : F32} : F32.isInf x = true ↔ F32.mag x = F32.infMag := decide_eq_true_iff

theorem F32.isNaN_iff {x : F32} : F32.isNaN x = true ↔ F32.infMag < F32.mag x := decide_eq_true_iff

theorem F32.isZero_iff {x : F32} : F32.isZero x = true ↔ F32.mag x = 0 := decide_eq_true_iff

theorem F32.isNaN_eq_false_iff {x : F32} : F32.isNaN x = false ↔ F32.mag x ≤ F32.infMag :=
  decide_eq_false_iff_not.trans Nat.not_lt

theorem F32.isNaN_of_isFinite {x : F32} (h : F32.isFinite x = true) : F32.isNaN x = false :=
  F32.isNaN_eq_false_iff.2 (F32.isFinite_iff.1 h).le

theorem F32.isInf_of_isFinite {x : F32} (h : F32.isFinite x = true) : F32.isInf x = false :=
  decide_eq_false (F32.isFinite_iff.1 h).ne

theorem F32.isNaN_of_isInf {x : F32} (h : F32.isInf x = true) : F32.isNaN x = false :=
  F32.isNaN_eq_false_iff.2 (F32.isInf_iff.1 h).le

/-- A pattern with the infinity magnitude is the infinity of its sign. -/
theorem F32.eq_inf {x : F32} (h : F32.isInf x = true) : x = F32.inf (F32.sign x) := by
  conv_lhs => rw [← F32.pack_sign_mag x, F32.isInf_iff.1 h]
  rfl

theorem F32.isNaN_nanOf (free : Bool × Fin 8388607) : F32.isNaN (F32.nanOf free) = true := by
  have hlt := free.2.isLt
  have hinf : F32.infMag = 0x7F800000 := rfl
  rw [F32.isNaN_iff, F32.nanOf, F32.mag_pack _ (by omega)]
  omega

theorem F32.mag_neg (b : F32) : F32.mag (F32.neg b) = F32.mag b := F32.mag_pack _ b.mag_lt

theorem F32.sign_neg (b : F32) : F32.sign (F32.neg b) = !F32.sign b := F32.sign_pack _ b.mag_lt

/-- The signed magnitude. -/
theorem F32.val_eq (x : F32) : F32.val x = if F32.sign x then -(F32.magVal (F32.mag x) : Int) else F32.magVal (F32.mag x) := rfl

theorem F32.val_neg (b : F32) : F32.val (F32.neg b) = -F32.val b := by
  rw [F32.val_eq, F32.val_eq, F32.mag_neg, F32.sign_neg]
  cases F32.sign b
  · rfl
  · exact (neg_neg _).symm

theorem F32.val_pack (s : Bool) {m : Nat} (h : m < 2 ^ 31) :
    F32.val (F32.pack s m) = if s then -(F32.magVal m : Int) else F32.magVal m := by
  rw [F32.val_eq, F32.mag_pack s h, F32.sign_pack s h]

theorem F32.natAbs_val (x : F32) : (F32.val x).natAbs = F32.magVal (F32.mag x) := by
  rw [F32.val_eq]
  split
  · exact Int.natAbs_neg _
  · rfl

/-! ## The nearest value of a signed number -/

theorem roundMag_zero (den : Nat) : roundMag 0 den = 0 := by
  rw [roundMag_eq, roundSig, roundScale, Nat.zero_div]
  simp [roundNearest]

theorem roundMag_le_infMag (num den : Nat) : roundMag num den ≤ F32.infMag := Nat.min_le_right _ _

theorem roundMag_lt (num den : Nat) : roundMag num den < 2 ^ 31 := (roundMag_le_infMag num den).trans_lt F32.infMag_lt

/-- Of the finite values of both signs none is nearer to `w / den` than the rounded magnitude. -/
theorem roundMag_nearest_int {w den : Nat} (hden : 0 < den) (h : w < (2 ^ 25 - 1) * 2 ^ 252 * den) {c : Int} {y : Nat}
    (hc : c.natAbs = F32.magVal y) :
    ((den : Int) * F32.magVal (roundMag w den) - w).natAbs ≤ ((den : Int) * c - w).natAbs ∧
      (((den : Int) * F32.magVal (roundMag w den) - w).natAbs = ((den : Int) * c - w).natAbs →
        c ≠ F32.magVal (roundMag w den) → roundMag w den % 2 = 0) := by
  obtain ⟨-, hnear⟩ := roundMag_nearest hden h
  obtain ⟨hle, htie⟩ := hnear y
  have hzero : w = 0 → roundMag w den % 2 = 0 := by
    rintro rfl
    rw [roundMag_zero]
  dsimp only [apart] at hle htie
  generalize roundMag w den = m at hle htie hzero
  rw [← hc] at hle htie
  have hcast : ∀ n : Nat, ((n * den : Nat) : Int) = (den : Int) * n := fun n => by rw [Nat.mul_comm, Int.natCast_mul]
  rw [hcast, hcast] at hle htie
  rcases Int.natAbs_eq c with hpos | hneg
  · rw [← hpos] at hle htie
    exact ⟨hle, fun heq hne => htie heq fun hab => hne (by rw [hpos, hab])⟩
  · obtain ⟨p, hp⟩ : ∃ p : Nat, (den : Int) * (c.natAbs : Int) = p := ⟨den * c.natAbs, by rw [Int.natCast_mul]⟩
    have hpc : (den : Int) * c = -p := by rw [hneg, Int.mul_neg, hp]
    rw [hp] at hle htie
    rw [hpc]
    refine ⟨by omega, fun heq hne => ?_⟩
    by_cases hw : w = 0
    · exact hzero hw
    · obtain rfl : p = 0 := by omega
      refine htie (by omega) fun hab => hne ?_
      have hprod : (den : Int) * (c.natAbs : Int) = 0 := hp
      have hc0 : (c.natAbs : Int) = 0 := (Int.mul_eq_zero.1 hprod).resolve_left (by omega)
      rw [← hab]
      omega

open Machine in
/-- R312: a number `v` of units of 2^-149 over `den`, packed with its sign, is the nearest finite value, ties to even. -/
theorem nearestEven_pack {v : Int} {den : Nat} (hden : 0 < den) {s : Bool} (hs : v ≠ 0 → s = decide (v < 0))
    (h : v.natAbs < (2 ^ 25 - 1) * 2 ^ 252 * den) : NearestEven den v (F32.pack s (roundMag v.natAbs den)) := by
  have hfinite := (roundMag_nearest hden h).1
  have hmag := F32.mag_pack s (roundMag_lt v.natAbs den)
  have hval := F32.val_pack s (roundMag_lt v.natAbs den)
  refine ⟨F32.isFinite_iff.2 (by rw [hmag]; exact hfinite), fun y _ => ?_⟩
  rw [hmag, hval]
  have hy := y.natAbs_val
  by_cases hsign : v < 0 ∨ (v = 0 ∧ s = true)
  · have hstrue : s = true := by
      rcases hsign with hneg | ⟨-, hs'⟩
      · rw [hs hneg.ne, decide_eq_true hneg]
      · exact hs'
    obtain ⟨hle, htie⟩ := roundMag_nearest_int hden h (c := -F32.val y) (y := F32.mag y) (by rw [Int.natAbs_neg, hy])
    have hv : v = -(v.natAbs : Int) := by omega
    have hflip : ∀ c : Int, ((den : Int) * c - v).natAbs = ((den : Int) * -c - v.natAbs).natAbs := fun c => by
      rw [Int.mul_neg]
      omega
    rw [if_pos hstrue, hflip, hflip, neg_neg]
    exact ⟨hle, fun heq hne => htie heq fun hc => hne (by omega)⟩
  · have hsfalse : s = false := by
      by_cases hzero : v = 0
      · exact Bool.eq_false_iff.2 fun hs' => hsign (.inr ⟨hzero, hs'⟩)
      · rw [hs hzero]
        exact decide_eq_false fun hneg => hsign (.inl hneg)
    obtain ⟨hle, htie⟩ := roundMag_nearest_int hden h hy
    have hv : v = (v.natAbs : Int) := by omega
    rw [hsfalse, if_neg Bool.false_ne_true, hv, Int.natAbs_natCast]
    exact ⟨hle, htie⟩

/-! ## Sums -/

/-- The rounded sum in one piece: its sign, and the rounded magnitude. -/
theorem F32.ofSum_eq (bothNeg : Bool) (v : Int) :
    F32.ofSum bothNeg v = F32.pack (if v = 0 then bothNeg else decide (v < 0)) (roundMag v.natAbs 1) := by
  rw [F32.ofSum]
  split
  case isTrue hzero =>
    rw [hzero, Int.natAbs_zero, roundMag_zero]
    rfl
  case isFalse => rfl

theorem F32.add_of_finite {free : Bool × Fin 8388607} {a b : F32} (ha : F32.isFinite a = true) (hb : F32.isFinite b = true) :
    F32.add free a b = F32.ofSum (F32.sign a && F32.sign b) (F32.val a + F32.val b) := by
  rw [F32.add, isNaN_of_isFinite ha, isNaN_of_isFinite hb, isInf_of_isFinite ha, isInf_of_isFinite hb, Bool.or_false,
    if_neg Bool.false_ne_true, if_neg Bool.false_ne_true, if_neg Bool.false_ne_true]

open Machine in
theorem F32.add_rule (free : Bool × Fin 8388607) (a b : F32) :
    SumRule a b (F32.sign b) (F32.val b) (F32.add free a b) := by
  refine ⟨fun h => ?nan, fun ha hb hsign => ?infLeft, fun ha hb => ?infRight, fun ha hb => ⟨fun hzero => ?zero, fun hlt => ?nearest, fun hge => ?overflow⟩⟩
  case nan =>
    rcases h with ha | hb | ⟨ha, hb, hne⟩
    · rw [F32.add, ha, Bool.true_or, if_pos rfl, isNaN_nanOf]
    · rw [F32.add, hb, Bool.or_true, if_pos rfl, isNaN_nanOf]
    · have hdiff : (F32.sign a != F32.sign b) = true := bne_iff_ne.2 hne
      rw [F32.add, isNaN_of_isInf ha, isNaN_of_isInf hb, ha, hb, hdiff]
      exact isNaN_nanOf free
  case infLeft =>
    have hkeep : (F32.isInf b && (F32.sign a != F32.sign b)) = false := by
      cases hinf : F32.isInf b with
      | false => rfl
      | true => rw [hsign hinf, bne_self_eq_false, Bool.and_false]
    rw [F32.add, isNaN_of_isInf ha, hb, ha, hkeep]
    rfl
  case infRight =>
    rw [F32.add, isNaN_of_isFinite ha, isNaN_of_isInf hb, isInf_of_isFinite ha, hb]
    exact F32.eq_inf hb
  case zero =>
    rw [F32.add_of_finite ha hb, F32.ofSum, if_pos hzero]
    cases F32.sign a <;> cases F32.sign b <;> rfl
  case nearest =>
    rw [F32.add_of_finite ha hb, F32.ofSum_eq]
    refine nearestEven_pack Nat.one_pos (fun hne => if_neg hne) ?_
    rw [Nat.mul_one]
    exact hlt
  case overflow =>
    have hne : F32.val a + F32.val b ≠ 0 := by
      intro hzero
      rw [hzero, Int.natAbs_zero] at hge
      exact absurd hge (Nat.not_le.2 (Nat.mul_pos (by decide) (Nat.two_pow_pos 252)))
    rw [F32.add_of_finite ha hb, F32.ofSum, if_neg hne, roundMag_overflow Nat.one_pos (by rw [Nat.mul_one]; exact hge)]
    rfl

open Machine in
/-- The rule says of an operand only its kind, apart from the sign and the value that stand in it. -/
theorem SumRule.congr {a b b' : F32} {sb : Bool} {vb : Int} {r : F32} (hmag : F32.mag b' = F32.mag b)
    (h : SumRule a b' sb vb r) : SumRule a b sb vb r := by
  have hnan : F32.isNaN b' = F32.isNaN b := by rw [F32.isNaN, F32.isNaN, hmag]
  have hinf : F32.isInf b' = F32.isInf b := by rw [F32.isInf, F32.isInf, hmag]
  have hfin : F32.isFinite b' = F32.isFinite b := by rw [F32.isFinite, F32.isFinite, hmag]
  rw [SumRule, hnan, hinf, hfin] at h
  exact h

/-- Settles O31. -/
theorem addRoundsToNearest : Obligations.AddRoundsToNearest := by
  intro free a b
  refine ⟨F32.add_rule free a b, SumRule.congr (F32.mag_neg b) ?_⟩
  rw [← F32.sign_neg, ← F32.val_neg]
  exact F32.add_rule free a (F32.neg b)

/-! ## Products -/

theorem F32.mul_of_finite {free : Bool × Fin 8388607} {a b : F32} (ha : F32.isFinite a = true) (hb : F32.isFinite b = true) :
    F32.mul free a b =
      F32.pack (F32.sign a != F32.sign b) (roundMag (F32.val a * F32.val b).natAbs (2 ^ 149)) := by
  rw [F32.mul, isNaN_of_isFinite ha, isNaN_of_isFinite hb, isInf_of_isFinite ha, isInf_of_isFinite hb, Int.natAbs_mul,
    natAbs_val, natAbs_val]
  rfl

/-- The sign of a product that is not zero is the exclusive or of the signs. -/
theorem F32.sign_mul {a b : F32} (h : F32.val a * F32.val b ≠ 0) :
    (F32.sign a != F32.sign b) = decide (F32.val a * F32.val b < 0) := by
  have hsign : ∀ x : F32, F32.val x ≠ 0 → (F32.sign x = true ∧ F32.val x < 0) ∨ (F32.sign x = false ∧ 0 < F32.val x) := by
    intro x hx
    rw [F32.val_eq] at hx ⊢
    cases hs : F32.sign x with
    | true =>
      rw [hs, if_pos rfl] at hx
      exact .inl ⟨rfl, by rw [if_pos rfl]; omega⟩
    | false =>
      rw [hs, if_neg Bool.false_ne_true] at hx
      exact .inr ⟨rfl, by rw [if_neg Bool.false_ne_true]; omega⟩
  rcases hsign a (left_ne_zero_of_mul h) with ⟨hsa, ha⟩ | ⟨hsa, ha⟩ <;>
    rcases hsign b (right_ne_zero_of_mul h) with ⟨hsb, hb⟩ | ⟨hsb, hb⟩ <;> rw [hsa, hsb]
  · exact (decide_eq_false (mul_pos_of_neg_of_neg ha hb).not_gt).symm
  · exact (decide_eq_true (mul_neg_of_neg_of_pos ha hb)).symm
  · exact (decide_eq_true (mul_neg_of_pos_of_neg ha hb)).symm
  · exact (decide_eq_false (mul_pos ha hb).not_gt).symm

/-- Settles O32. -/
theorem mulRoundsToNearest : Obligations.MulRoundsToNearest := by
  intro free a b
  have hscale : (2 ^ 25 - 1) * 2 ^ 401 = (2 ^ 25 - 1) * 2 ^ 252 * 2 ^ 149 := by rw [Nat.mul_assoc, ← Nat.pow_add]
  refine ⟨fun h => ?nan, fun ha hb hinf hza hzb => ?inf, fun ha hb => ⟨?sign, fun hlt => ?nearest, fun hge => ?overflow⟩⟩
  case nan =>
    rcases h with ha | hb | ⟨ha, hb⟩ | ⟨ha, hb⟩
    · rw [F32.mul, ha, Bool.true_or, if_pos rfl, F32.isNaN_nanOf]
    · rw [F32.mul, hb, Bool.or_true, if_pos rfl, F32.isNaN_nanOf]
    · have hnan : F32.isNaN b = false := F32.isNaN_eq_false_iff.2 ((F32.isZero_iff.1 hb).trans_le (Nat.zero_le _))
      rw [F32.mul, F32.isNaN_of_isInf ha, hnan, ha, hb, Bool.or_true]
      exact F32.isNaN_nanOf free
    · have hnan : F32.isNaN a = false := F32.isNaN_eq_false_iff.2 ((F32.isZero_iff.1 ha).trans_le (Nat.zero_le _))
      rw [F32.mul, F32.isNaN_of_isInf hb, hnan, ha, hb, Bool.or_true]
      exact F32.isNaN_nanOf free
  case inf =>
    have hsome : (F32.isInf a || F32.isInf b) = true := Bool.or_eq_true_iff.2 hinf
    rw [F32.mul, ha, hb, hsome, hza, hzb]
    rfl
  case sign => rw [F32.mul_of_finite ha hb, F32.sign_pack _ (roundMag_lt _ _)]
  case nearest =>
    rw [hscale] at hlt
    rw [F32.mul_of_finite ha hb]
    exact nearestEven_pack (den := 2 ^ 149) (Nat.two_pow_pos 149) F32.sign_mul hlt
  case overflow =>
    rw [hscale] at hge
    rw [F32.mul_of_finite ha hb, roundMag_overflow (Nat.two_pow_pos 149) hge]
    rfl

/-! ## Standard deviation zero (R161) -/

/-- A finite value packed with its own sign is itself. -/
theorem F32.pack_roundMag_val {x : F32} (h : F32.isFinite x = true) (hne : F32.val x ≠ 0) :
    F32.pack (decide (F32.val x < 0)) (roundMag (F32.val x).natAbs 1) = x := by
  have hsign : decide (F32.val x < 0) = F32.sign x := by
    rw [F32.val_eq] at hne ⊢
    cases hs : F32.sign x with
    | true =>
      rw [hs, if_pos rfl] at hne
      exact decide_eq_true (by rw [if_pos rfl]; omega)
    | false => exact decide_eq_false (by rw [if_neg Bool.false_ne_true]; omega)
  rw [hsign, F32.natAbs_val, roundMag_magVal (F32.isFinite_iff.1 h), F32.pack_sign_mag]

theorem F32.magVal_pos {m : Nat} (h : 0 < m) : 0 < F32.magVal m := by
  obtain ⟨k, q, rfl, hq, hk⟩ := F32.exists_split m
  rw [F32.magVal_add hq.le hk]
  exact Nat.mul_pos (by omega) (Nat.two_pow_pos k)

/-- The pattern of a value of zero is a zero. -/
theorem F32.eq_zero_of_val {x : F32} (h : F32.val x = 0) : x = F32.zero (F32.sign x) := by
  have hmag : F32.mag x = 0 := by
    have hzero := F32.natAbs_val x
    rw [h, Int.natAbs_zero] at hzero
    by_contra hne
    exact absurd hzero (F32.magVal_pos (Nat.pos_of_ne_zero hne)).ne
  conv_lhs => rw [← F32.pack_sign_mag x, hmag]
  rfl

/-- A zero added to a component that is not a NaN gives it back, but for a negative zero and a positive one. -/
theorem F32.add_zero_eq (free : Bool × Fin 8388607) {x : F32} (hx : F32.isNaN x = false) (sz : Bool) :
    F32.add free x (F32.zero sz) = if x = 0x80000000 ∧ F32.zero sz = 0 then 0 else x := by
  have hz : F32.mag (F32.zero sz) = 0 := F32.mag_pack sz (by decide)
  have hsz : F32.sign (F32.zero sz) = sz := F32.sign_pack sz (by decide)
  have hzf : F32.isFinite (F32.zero sz) = true := F32.isFinite_iff.2 (by rw [hz]; decide)
  have hzv : F32.val (F32.zero sz) = 0 := by cases sz <;> decide
  rcases Nat.lt_or_eq_of_le (F32.isNaN_eq_false_iff.1 hx) with hfin | hinf
  · rw [F32.add_of_finite (F32.isFinite_iff.2 hfin) hzf, hzv, add_zero, hsz]
    by_cases hv : F32.val x = 0
    · rw [F32.ofSum, if_pos hv, F32.eq_zero_of_val hv]
      generalize F32.sign x = sx
      cases sx <;> cases sz <;> decide
    · have hne : x ≠ 0x80000000 := by
        rintro rfl
        exact hv (by decide)
      rw [F32.ofSum, if_neg hv, F32.pack_roundMag_val (F32.isFinite_iff.2 hfin) hv, if_neg fun h => hne h.1]
  · have hne : x ≠ 0x80000000 := by
      rintro rfl
      exact absurd hinf (by decide)
    have hxi : F32.isInf x = true := F32.isInf_iff.2 hinf
    rw [if_neg fun h => hne h.1, F32.add, hx, F32.isNaN_of_isFinite hzf, hxi, F32.isInf_of_isFinite hzf]
    rfl

open Machine in
/-- Settles O28. -/
theorem nseZeroSigmaIsNumericNoOp : Obligations.NseZeroSigmaIsNumericNoOp := by
  intro s n nd x hn hl heos hfp hsigma
  have hnoise : ∀ j, noise nd.nse.seed nd.nse.sigma j = F32.zero (Config.noiseZeroSign nd.nse.seed nd.nse.sigma j) := fun j =>
    if_pos hsigma
  have hadd : ∀ free c j, F32.isNaN c = false → fpAdd s.cfg.fp free c (noise nd.nse.seed nd.nse.sigma j) =
      if c = 0x80000000 ∧ noise nd.nse.seed nd.nse.sigma j = 0 then 0 else c := fun free c j hc => by
    rw [hfp, hnoise]
    exact F32.add_zero_eq free hc _
  exact ⟨_, _, nseStepAddsTwoDraws s n nd x hn hl heos, rfl, hadd _ _ _, hadd _ _ _⟩

end Sys2Proof
end

section
/-! PROOF. The default propagation coefficient is the finite value nearest to `(d + 1)^(−3) / sqrt 2` (43 R175). -/

namespace Sys2Proof

/-! ## The whole square root -/

/-- One bit at a time the root stays between the bits found and those still open. -/
theorem isqrtBits_bounds (n : Nat) : ∀ (k acc : Nat), acc * acc ≤ n → n < (acc + 2 ^ k) * (acc + 2 ^ k) →
    isqrtBits n k acc * isqrtBits n k acc ≤ n ∧ n < (isqrtBits n k acc + 1) * (isqrtBits n k acc + 1) := by
  intro k
  induction k with
  | zero => intro acc hle hlt; exact ⟨hle, hlt⟩
  | succ k ih =>
    intro acc hle hlt
    rw [isqrtBits]
    split
    case isTrue hset =>
      refine ih _ hset ?_
      rw [Nat.add_assoc, ← Nat.two_mul, ← Nat.pow_succ']
      exact hlt
    case isFalse hclear => exact ih _ hle (Nat.not_le.1 hclear)

theorem isqrt_bounds {bits n : Nat} (h : n < 2 ^ bits * 2 ^ bits) :
    isqrt bits n * isqrt bits n ≤ n ∧ n < (isqrt bits n + 1) * (isqrt bits n + 1) :=
  isqrtBits_bounds n bits 0 (Nat.zero_le _) (by rw [Nat.zero_add]; exact h)

/-! ## The root of the coefficient's square -/

theorem two_pow_eq_pow {a b c : Nat} (h : a = b * c) : 2 ^ a = (2 ^ b) ^ c := by
  rw [h, Nat.pow_mul]

/-- The root that `COEFF_G` rounds, with 256 bits below the unit, for `x = d + 1` in units of 2^-149. -/
def coeffRoot (x : Nat) : Nat := isqrt 412 (2 ^ 1703 / x ^ 6)

theorem coeffRoot_bounds {x : Nat} (hx : 2 ^ 149 ≤ x) :
    (coeffRoot x) ^ 2 * x ^ 6 ≤ 2 ^ 1703 ∧ 2 ^ 1703 < (coeffRoot x + 1) ^ 2 * x ^ 6 := by
  have hpow : 2 ^ 894 ≤ x ^ 6 := by
    calc 2 ^ 894
      _ = (2 ^ 149) ^ 6 := two_pow_eq_pow (by decide)
      _ ≤ x ^ 6 := Nat.pow_le_pow_left hx 6
  have hpos : 0 < x ^ 6 := Nat.pow_pos (Nat.lt_of_lt_of_le (Nat.two_pow_pos 149) hx)
  have hsmall : 2 ^ 1703 / x ^ 6 < 2 ^ 412 * 2 ^ 412 := by
    refine (Nat.div_lt_iff_lt_mul hpos).2 ?_
    calc 2 ^ 1703
      _ < 2 ^ 412 * 2 ^ 412 * 2 ^ 894 := by
        rewrite [← Nat.pow_add, ← Nat.pow_add]
        exact Nat.pow_lt_pow_right (by decide) (by decide)
      _ ≤ 2 ^ 412 * 2 ^ 412 * x ^ 6 := Nat.mul_le_mul_left _ hpow
  obtain ⟨hle, hlt⟩ := isqrt_bounds hsmall
  rw [← coeffRoot, ← Nat.pow_two] at hle hlt
  exact ⟨(Nat.le_div_iff_mul_le hpos).1 hle, (Nat.div_lt_iff_lt_mul hpos).1 hlt⟩

/-- The root is small enough for a finite coefficient. -/
theorem coeffRoot_lt {x : Nat} (hx : 2 ^ 149 ≤ x) : coeffRoot x < 2 ^ 405 := by
  by_contra hbig
  obtain ⟨hle, -⟩ := coeffRoot_bounds hx
  have hprod : (2 ^ 405) ^ 2 * (2 ^ 149) ^ 6 ≤ coeffRoot x ^ 2 * x ^ 6 :=
    Nat.mul_le_mul (Nat.pow_le_pow_left (Nat.not_lt.1 hbig) 2) (Nat.pow_le_pow_left hx 6)
  have hlarge : 2 ^ 1703 < (2 ^ 405) ^ 2 * (2 ^ 149) ^ 6 := by
    rewrite [← two_pow_eq_pow (a := 810) (by decide), ← two_pow_eq_pow (a := 894) (by decide), ← Nat.pow_add]
    exact Nat.pow_lt_pow_right (by decide) (by decide)
  exact Nat.not_lt.2 (hprod.trans hle) hlarge

/-! ## The exact coefficient -/

/-- `(d + 1)^(−3) / sqrt 2` in units of 2^-149, for `d` in the same units. -/
noncomputable def exactCoeff (d : Nat) : ℝ := 2 ^ 149 * (1 / ((d : ℝ) / 2 ^ 149 + 1) ^ 3 / Real.sqrt 2)

theorem exactCoeff_pos (d : Nat) : 0 < exactCoeff d := by
  rw [exactCoeff]
  positivity

/-- The square of `(d / p + 1)^(-3) p / sqrt 2`, cleared of its denominator, for any unit `p`. -/
theorem exactCoeff_sq_of_unit {p x : ℝ} (hp : p ≠ 0) (hx : x ≠ 0) (u : ℝ) :
    (u * (p * (1 / (x / p) ^ 3 / Real.sqrt 2))) ^ 2 * x ^ 6 * 2 = u ^ 2 * p ^ 8 := by
  have hsqrt : Real.sqrt 2 ^ 2 = 2 := Real.sq_sqrt (by norm_num)
  have hs : Real.sqrt 2 ≠ 0 := by positivity
  field_simp
  rw [hsqrt]

/-- The square of the exact coefficient is `2^1191 / x^6`. -/
theorem exactCoeff_sq (d : Nat) : (2 ^ 256 * exactCoeff d) ^ 2 * ((d + 2 ^ 149 : Nat) : ℝ) ^ 6 = 2 ^ 1703 := by
  have hp : (2 : ℝ) ^ 149 ≠ 0 := by positivity
  have hx : ((d + 2 ^ 149 : Nat) : ℝ) ≠ 0 := by positivity
  have hsum : (d : ℝ) / 2 ^ 149 + 1 = ((d + 2 ^ 149 : Nat) : ℝ) / 2 ^ 149 := by
    rw [Nat.cast_add, Nat.cast_pow, Nat.cast_ofNat, add_div, div_self hp]
  have hpow : ((2 : ℝ) ^ 256) ^ 2 * (2 ^ 149) ^ 8 = 2 ^ 1703 * 2 := by
    rewrite [← pow_mul, ← pow_mul, ← pow_add]
    exact pow_succ 2 1703
  have hsq := exactCoeff_sq_of_unit hp hx (2 ^ 256)
  rw [hpow, ← hsum] at hsq
  exact mul_right_cancel₀ two_ne_zero hsq

theorem coeffRoot_bounds_real {x : Nat} (hx : 2 ^ 149 ≤ x) : (coeffRoot x : ℝ) ^ 2 * (x : ℝ) ^ 6 ≤ 2 ^ 1703 ∧
    (2 : ℝ) ^ 1703 < ((coeffRoot x : ℝ) + 1) ^ 2 * (x : ℝ) ^ 6 := by
  obtain ⟨hle, hlt⟩ := coeffRoot_bounds hx
  have hle' := (Nat.cast_le (α := ℝ)).2 hle
  have hlt' := (Nat.cast_lt (α := ℝ)).2 hlt
  rewrite [Nat.cast_mul, Nat.cast_pow, Nat.cast_pow, Nat.cast_pow, Nat.cast_ofNat] at hle'
  rewrite [Nat.cast_mul, Nat.cast_pow, Nat.cast_pow, Nat.cast_pow, Nat.cast_ofNat, Nat.cast_add, Nat.cast_one] at hlt'
  exact ⟨hle', hlt'⟩

/-- The exact coefficient lies between the root and its successor, in units of 2^-256 below the unit. -/
theorem exactCoeff_bounds (d : Nat) : (coeffRoot (d + 2 ^ 149) : ℝ) ≤ 2 ^ 256 * exactCoeff d ∧
    2 ^ 256 * exactCoeff d ≤ coeffRoot (d + 2 ^ 149) + 1 := by
  obtain ⟨hle, hlt⟩ := coeffRoot_bounds_real (x := d + 2 ^ 149) (Nat.le_add_left _ _)
  have hsq := exactCoeff_sq d
  have hpos : 0 < 2 ^ 256 * exactCoeff d := mul_pos (by positivity) (exactCoeff_pos d)
  have hx : (0 : ℝ) < ((d + 2 ^ 149 : Nat) : ℝ) ^ 6 := by positivity
  exact ⟨le_of_sq_le_sq (le_of_mul_le_mul_right (hle.trans_eq hsq.symm) hx) hpos.le,
    le_of_sq_le_sq (lt_of_mul_lt_mul_right (hsq.trans_lt hlt) hx.le).le (by positivity)⟩

/-! ## The nearest value -/

/-- Halfway between two whole numbers there is never less than a half of the unit, so what is nearest to the middle of a
finer unit's interval is nearest to each of its points. -/
theorem abs_sub_le_of_middle {k a c t : Int} (hk : 0 < k)
    (h : (4 * (k * a) - (2 * t + 1)).natAbs ≤ (4 * (k * c) - (2 * t + 1)).natAbs) {g : ℝ} (hlow : (t : ℝ) ≤ 2 * (k * g))
    (hhigh : 2 * (k * g) ≤ t + 1) : |(a : ℝ) - g| ≤ |(c : ℝ) - g| := by
  have hk' : (0 : ℝ) < k := by exact_mod_cast hk
  rcases lt_trichotomy a c with hlt | rfl | hgt
  · have hprod : k * a < k * c := Int.mul_lt_mul_of_pos_left hlt hk
    have hsum : t + 1 ≤ k * a + k * c := by omega
    have hsum' : (t : ℝ) + 1 ≤ k * a + k * c := by exact_mod_cast hsum
    have hmid : 2 * g ≤ a + c := le_of_mul_le_mul_left (by linarith) hk'
    have hac : (a : ℝ) < c := by exact_mod_cast hlt
    exact (abs_le.2 ⟨by linarith, by linarith⟩ : |(a : ℝ) - g| ≤ c - g).trans (le_abs_self _)
  · exact le_refl _
  · have hprod : k * c < k * a := Int.mul_lt_mul_of_pos_left hgt hk
    have hsum : k * a + k * c ≤ t := by omega
    have hsum' : (k : ℝ) * a + k * c ≤ t := by exact_mod_cast hsum
    have hmid : (a : ℝ) + c ≤ 2 * g := le_of_mul_le_mul_left (by linarith) hk'
    have hca : (c : ℝ) < a := by exact_mod_cast hgt
    exact (abs_le.2 ⟨by linarith, by linarith⟩ : |(a : ℝ) - g| ≤ -(c - g)).trans (neg_le_abs _)

theorem F32.coeffG_eq (d : F32) :
    F32.coeffG d = F32.pack false (roundMag (2 * coeffRoot (F32.absVal d + 2 ^ 149) + 1) (2 ^ 257)) := rfl

/-- Settles O33. -/
theorem coefficientRoundsToNearest : Obligations.CoefficientRoundsToNearest := by
  intro d hd g
  have hg : g = exactCoeff (F32.absVal d) := rfl
  have hcoeff : fpCoeff .binary32 d = F32.coeffG d := if_pos hd
  have hroot : coeffRoot (F32.absVal d + 2 ^ 149) < 2 ^ 405 := coeffRoot_lt (Nat.le_add_left _ _)
  obtain ⟨hlow, hhigh⟩ := exactCoeff_bounds (F32.absVal d)
  rw [hg, hcoeff, F32.coeffG_eq]
  generalize coeffRoot (F32.absVal d + 2 ^ 149) = t at hroot hlow hhigh
  have hfits : 2 * t + 1 < (2 ^ 25 - 1) * 2 ^ 252 * 2 ^ 257 := by
    calc 2 * t + 1
      _ < 2 ^ 406 := by omega
      _ ≤ 2 ^ 252 * 2 ^ 257 := by
        rewrite [← Nat.pow_add]
        exact Nat.pow_le_pow_right (by decide) (by decide)
      _ ≤ (2 ^ 25 - 1) * 2 ^ 252 * 2 ^ 257 := Nat.mul_le_mul_right _ (Nat.le_mul_of_pos_left _ (by decide))
  have hmag := roundMag_lt (2 * t + 1) (2 ^ 257)
  refine ⟨?finite, fun y _ => ?nearest⟩
  case finite =>
    rw [F32.isFinite_iff, F32.mag_pack false hmag]
    exact (roundMag_nearest (Nat.two_pow_pos 257) hfits).1
  case nearest =>
    obtain ⟨hnear, -⟩ := roundMag_nearest_int (Nat.two_pow_pos 257) hfits (F32.natAbs_val y)
    rw [F32.val_pack false hmag, if_neg Bool.false_ne_true]
    have hunit : ∀ c : Int, ((2 ^ 257 : Nat) : Int) * c - (2 * t + 1 : Nat) = 4 * (2 ^ 255 * c) - (2 * (t : Int) + 1) := by
      intro c
      have hsplit : ((2 ^ 257 : Nat) : Int) = 4 * 2 ^ 255 := by rw [Nat.cast_pow]; exact pow_add 2 2 255
      rw [hsplit, Nat.cast_add, Nat.cast_mul, mul_assoc]
      rfl
    rw [hunit, hunit] at hnear
    have hhalf : (2 : ℝ) ^ 256 * exactCoeff (F32.absVal d) = 2 * (((2 ^ 255 : Int) : ℝ) * exactCoeff (F32.absVal d)) := by
      push_cast
      ring
    rw [hhalf] at hlow hhigh
    exact abs_sub_le_of_middle (t := t) (by positivity) hnear (by exact_mod_cast hlow) (by exact_mod_cast hhigh)

end Sys2Proof
end
